-- ==== Sys2Proof/Word.lean ====
section
/-! DEFINITION. The word types of the QSPI-FLM sequencer (00_scope.md R10): bit 0 is the least significant bit,
every value is unsigned. -/

namespace Sys2Proof

/-- A 32-bit word: a port register, a peripheral register, an operand. -/
abbrev Word := BitVec 32

/-- A byte of host memory, of the flash array, or of the data register. -/
abbrev Byte := BitVec 8

end Sys2Proof
end

