-- ==== Sys2Proof/Machine/Cells.lean ====
section
/-! DEFINITION. Byte memories as lists of cells in one canonical form: addresses strictly rising, no entry equal to what
an unlisted address reads as (`dflt`). Host memory, the staging buffer and the flash array are all held so. -/

namespace Sys2Proof.Machine

/-- What an unlisted byte of host memory reads as (log 11). -/
def hostDefault : Byte := 0x00

/-- What an unlisted byte of the staging buffer reads as (log 13). -/
def stgDefault : Byte := 0x00

/-- What an unlisted byte of the flash array reads as: the erased value (20_memory.md R73; log 12). -/
def arrayDefault : Byte := 0xFF

/-- The byte at an address. -/
def cellRead (dflt : Byte) : List Host.Cell → Nat → Byte
  | [], _ => dflt
  | (x, y) :: rest, a => if x = a then y else cellRead dflt rest a

/-- Write a byte, keeping the canonical form: writing `dflt` removes the entry. -/
def cellWrite (dflt : Byte) : List Host.Cell → Nat → Byte → List Host.Cell
  | [], a, b => if b = dflt then [] else [(a, b)]
  | (x, y) :: rest, a, b =>
    if a < x then (if b = dflt then (x, y) :: rest else (a, b) :: (x, y) :: rest)
    else if a = x then (if b = dflt then rest else (a, b) :: rest)
    else (x, y) :: cellWrite dflt rest a b

/-- Forget every entry whose address satisfies `p`: those addresses read `dflt` again. -/
def cellClear (p : Nat → Bool) (m : List Host.Cell) : List Host.Cell :=
  m.filter fun c => !p c.1

/-- Canonical, with every address at or above `lo`. -/
def cellsWfFrom (dflt : Byte) : Nat → List Host.Cell → Bool
  | _, [] => true
  | lo, (x, y) :: rest => decide (lo ≤ x) && decide (y ≠ dflt) && cellsWfFrom dflt (x + 1) rest

/-- The canonical form. -/
def cellsWf (dflt : Byte) (m : List Host.Cell) : Bool := cellsWfFrom dflt 0 m

end Sys2Proof.Machine
end

