-- ==== Sys2Proof/Syntax.lean ====
section
/-! DEFINITION. The descriptors of 30_encoding.md section 1 and the instructions of opcode_table.json: fifteen host
commands and twelve flash transactions, one constructor each. -/

namespace Sys2Proof

/-- LineMode (30_encoding.md R100, R105): the number of data lines a phase uses. -/
inductive LineMode where
  | none | one | two | four
deriving DecidableEq, Repr

/-- AddrSize (R100, R106): the size of an address or alternate-byte phase. -/
inductive AddrSize where
  | bits8 | bits16 | bits24 | bits32
deriving DecidableEq, Repr

/-- Frame mode (R107). The engine operation decides it, never the header (R109). -/
inductive FrameMode where
  | indirectWrite | indirectRead | autoPoll | memoryMapped
deriving DecidableEq, Repr

/-- TransactionHeader (R100). -/
structure Header where
  instr  : Byte
  imode  : LineMode
  addr   : Word
  admode : LineMode
  adsize : AddrSize
  alt    : Word
  abmode : LineMode
  absize : AddrSize
  dcyc   : BitVec 5
  dmode  : LineMode
  ddrm   : Bool
  dhhc   : Bool
  sioo   : Bool
deriving DecidableEq, Repr

/-- A buffer reference (00_scope.md R12): host memory at an address, the staging buffer, or the configuration byte. -/
inductive BufRef where
  | host (a : Word)
  | stg
  | cfgbuf
deriving DecidableEq, Repr

/-- Transaction (R101): one indirect read or write; `len` is 0 for "no data". -/
structure Transaction where
  hdr : Header
  len : Word
  buf : BufRef
deriving DecidableEq, Repr

/-- PollDescriptor (R101). `pmm`: false is AND, true is OR. -/
structure PollDescriptor where
  hdr      : Header
  matchVal : Word
  mask     : Word
  pmm      : Bool
  interval : BitVec 16
  apms     : Bool
  sample   : Nat
deriving DecidableEq, Repr

/-- MemoryMapDescriptor (R102). -/
structure MemoryMapDescriptor where
  hdr    : Header
  tcen   : Bool
  period : BitVec 16
deriving DecidableEq, Repr

/-- One constructor per row of opcode_table.json. A host command's operands are in ARG0 to ARG5 (30_encoding.md R112,
R113) and so are no fields here; a flash transaction carries the operands its rule in 41_flash_transactions.md names. -/
inductive Instr where
  -- host commands (30_encoding.md R111)
  | init
  | programPage
  | eraseSector
  | eraseChip
  | read
  | verify
  | blankCheck
  | mmap
  | write
  | eWrite
  | eRead
  | ePoll
  | eMmap
  | eAbort
  | eDeinit
  -- flash transactions (30_encoding.md R114)
  | tWren
  | tPollWel
  | tPollWip
  | tRsten
  | tRst
  | tRdcr
  | tWrvcr
  | tSe (addr : Word)
  | tCe
  | tQpp (dest n src : Word)
  | tQread (dest n : Word) (buf : BufRef)
  | tQreadMmap
deriving DecidableEq, Repr

end Sys2Proof
end

