-- ==== Sys2Proof/Config.lean ====
section
/-! DEFINITION. The parameters of 00_scope.md R6 to R8, the test configuration TC0 of 95_test_vectors.md, and the
values the environment is free to choose. -/

namespace Sys2Proof

/-- The ten opcodes of the flash chip (00_scope.md R7). -/
structure Opcodes where
  wren  : Byte
  rdsr  : Byte
  wrvcr : Byte
  se    : Byte
  ce    : Byte
  qpp   : Byte
  qread : Byte
  rdcr  : Byte
  rsten : Byte
  rst   : Byte
deriving DecidableEq, Repr

/-- `P_ORCH_RULE` (43_write_orchestrator.md R232). -/
inductive OrchRule where
  | boundarySafe | literal
deriving DecidableEq, Repr

/-- The parameters of 00_scope.md R6 to R8, fixed for a whole run (10_state.md R21). `P_HOST_ADDR_BITS` has one legal
value and is `Config.hostAddrBits`. -/
structure Params where
  size           : Nat
  page           : Nat
  sector         : Nat
  maxClock       : Nat
  opc            : Opcodes
  addrBits       : AddrSize
  welMask        : Byte
  wipMask        : Byte
  qeMask         : Byte
  readAlt        : Byte
  readDummy      : Nat
  pollInterval   : BitVec 16
  mmapTcen       : Bool
  mmapPeriod     : BitVec 16
  initWelPoll    : Bool
  initCfgBusyPoll : Bool
  waitBudget     : Option Nat
  orchRule       : OrchRule
  regBase        : Word
  memBase        : Word
deriving DecidableEq, Repr

namespace Config

/-- `P_HOST_ADDR_BITS` (00_scope.md R8). -/
def hostAddrBits : Nat := 32

/-- TC0's opcodes (30_encoding.md R115, 95_test_vectors.md section 1). -/
def tc0Opcodes : Opcodes where
  wren  := 0x06
  rdsr  := 0x05
  wrvcr := 0x31
  se    := 0xD8
  ce    := 0xC7
  qpp   := 0x32
  qread := 0xEB
  rdcr  := 0x35
  rsten := 0x66
  rst   := 0x99

/-- The test configuration TC0 (95_test_vectors.md section 1). DESIGN CHOICE (log 2): `maxClock` and `regBase` are not
part of TC0; no rule of the block reads either. -/
def tc0 : Params where
  size            := 0x800000
  page            := 0x100
  sector          := 0x10000
  maxClock        := 1
  opc             := tc0Opcodes
  addrBits        := .bits24
  welMask         := 0x02
  wipMask         := 0x01
  qeMask          := 0x02
  readAlt         := 0xFF
  readDummy       := 4
  pollInterval    := 0x10
  mmapTcen        := false
  mmapPeriod      := 0
  initWelPoll     := true
  initCfgBusyPoll := false
  waitBudget      := none
  orchRule        := .boundarySafe
  regBase         := 0x52005000
  memBase         := 0x90000000

/-- FREE VALUE (log 10): what the `n`-th answer of the environment to `RegRead(SR)` is under the envelope
(20_memory.md R80 item 1). -/
opaque freeSr : Nat → Word

/-- FREE VALUE (log 10): the answer to `RegRead8(DR)` under the envelope (R80 item 2). -/
opaque freeDr : Nat → Byte

/-- FREE VALUE (log 10): whether `CR.ABORT`, once set, reads 0 under the envelope (R80 item 3). -/
opaque freeAbortDone : Nat → Bool

/-- FREE VALUE (log 10): the answer to a window load under the envelope (R80 item 4). -/
opaque freeLoad : Nat → Word

/-- FREE VALUE (log 24): byte `j` of what the reference device answers, or stores, where 20_memory.md R83 to R92 state
no value. -/
opaque freeRefByte : Nat → Nat → Byte

end Config

end Sys2Proof
end

