-- ==== Sys2Proof/WellFormed.lean ====
section
/-! DEFINITION. Which instructions are well formed: the operand ranges 41_flash_transactions.md states for each
transaction. A host command has no operand of its own, so it always is. -/

namespace Sys2Proof

/-- Does the byte range `[a, a + n)` lie below `2^P_HOST_ADDR_BITS` (42_flash_operations.md R197)? -/
def hostRangeOk (a n : Word) : Bool :=
  decide (a.toNat + n.toNat ≤ 2 ^ Config.hostAddrBits)

/-- The operand ranges of a transaction (41_flash_transactions.md R168, R172, R173). -/
def Instr.wf (p : Params) : Instr → Bool
  | .tSe addr => decide (addr.toNat < p.size)
  | .tQpp dest n src =>
      decide (1 ≤ n.toNat) && decide (n.toNat ≤ p.page) && decide (dest.toNat + n.toNat ≤ p.size) &&
      decide (dest.toNat % p.page + n.toNat ≤ p.page) && hostRangeOk src n
  | .tQread dest n (.host a) =>
      decide (1 ≤ n.toNat) && decide (dest.toNat + n.toNat ≤ p.size) && hostRangeOk a n
  | .tQread dest n .stg =>
      decide (1 ≤ n.toNat) && decide (dest.toNat + n.toNat ≤ p.size) && decide (n.toNat ≤ p.page)
  | .tQread _ _ .cfgbuf => false
  | .init | .programPage | .eraseSector | .eraseChip | .read | .verify | .blankCheck | .mmap | .write => true
  | .eWrite | .eRead | .ePoll | .eMmap | .eAbort | .eDeinit => true
  | .tWren | .tPollWel | .tPollWip | .tRsten | .tRst | .tRdcr | .tWrvcr | .tCe | .tQreadMmap => true

end Sys2Proof
end

