-- ==== Sys2Proof/Decode.lean ====
section
/-! DEFINITION. Both encodings of 30_encoding.md: the packing of a header into CCR and back (R103 to R107), the
headers of the twelve flash transactions (R114), the operand words of the raw engine commands (R113), and the command
words (R110, R111); the decoder of an instruction's words, and after it the encoder. -/

namespace Sys2Proof

/-! ### Fields (R105, R106, R107) -/

/-- LineMode encoding (R105). -/
def LineMode.code : LineMode → BitVec 2
  | .none => 0b00
  | .one => 0b01
  | .two => 0b10
  | .four => 0b11

/-- The line mode a 2-bit code names (R105: every value is legal). -/
def LineMode.ofCode (c : BitVec 2) : LineMode :=
  if c = 0b00 then .none else if c = 0b01 then .one else if c = 0b10 then .two else .four

/-- AddrSize encoding (R106): the size in bytes, less one. -/
def AddrSize.code : AddrSize → BitVec 2
  | .bits8 => 0b00
  | .bits16 => 0b01
  | .bits24 => 0b10
  | .bits32 => 0b11

/-- The size a 2-bit code names (R106: every value is legal). -/
def AddrSize.ofCode (c : BitVec 2) : AddrSize :=
  if c = 0b00 then .bits8 else if c = 0b01 then .bits16 else if c = 0b10 then .bits24 else .bits32

/-- The number of address bits a size stands for (R106). -/
def AddrSize.bits (a : AddrSize) : Nat := 8 * (a.code.toNat + 1)

/-- Frame mode encoding (R107). -/
def FrameMode.code : FrameMode → BitVec 2
  | .indirectWrite => 0b00
  | .indirectRead => 0b01
  | .autoPoll => 0b10
  | .memoryMapped => 0b11

/-- A Bool as a one-bit field. -/
def bit (b : Bool) : Word := if b then 1 else 0

/-! ### The CCR packing (R103) -/

/-- `PackCCR(h, fm)` (R103): every field at its place, bits 23 and 29 zero. -/
def packCcr (h : Header) (fm : FrameMode) : Word :=
  h.instr.setWidth 32 ||| (h.imode.code.setWidth 32 <<< 8) ||| (h.admode.code.setWidth 32 <<< 10)
    ||| (h.adsize.code.setWidth 32 <<< 12) ||| (h.abmode.code.setWidth 32 <<< 14)
    ||| (h.absize.code.setWidth 32 <<< 16) ||| (h.dcyc.setWidth 32 <<< 18)
    ||| (h.dmode.code.setWidth 32 <<< 24) ||| (fm.code.setWidth 32 <<< 26) ||| (bit h.sioo <<< 28)
    ||| (bit h.dhhc <<< 30) ||| (bit h.ddrm <<< 31)

/-- The header an `HDR` operand packs, field by field the inverse of R103, with the address and alternate values that
travel in their own operands (R113). `none` when a reserved bit (23, 29) or the frame mode (27:26) is not 0 (R109
item 6). -/
def decodeHdr (w addr alt : Word) : Option Header :=
  if w.getLsbD 23 || w.getLsbD 29 || w.getLsbD 26 || w.getLsbD 27 then none
  else some {
    instr := w.extractLsb' 0 8
    imode := .ofCode (w.extractLsb' 8 2)
    addr := addr
    admode := .ofCode (w.extractLsb' 10 2)
    adsize := .ofCode (w.extractLsb' 12 2)
    alt := alt
    abmode := .ofCode (w.extractLsb' 14 2)
    absize := .ofCode (w.extractLsb' 16 2)
    dcyc := w.extractLsb' 18 5
    dmode := .ofCode (w.extractLsb' 24 2)
    ddrm := w.getLsbD 31
    dhhc := w.getLsbD 30
    sioo := w.getLsbD 28 }

/-- `PCFG` (R113): interval in 15:0, pmm bit 16, apms bit 17, sample - 1 in 19:18, bits 31:20 zero. -/
def decodePcfg (w : Word) (hdr : Header) (matchVal mask : Word) : Option PollDescriptor :=
  if w.extractLsb' 20 12 ≠ 0 then none
  else some {
    hdr := hdr
    matchVal := matchVal
    mask := mask
    pmm := w.getLsbD 16
    interval := w.extractLsb' 0 16
    apms := w.getLsbD 17
    sample := (w.extractLsb' 18 2).toNat + 1 }

/-- `MCFG` (R113): period in 15:0, tcen bit 16, bits 31:17 zero. -/
def decodeMcfg (w : Word) (hdr : Header) : Option MemoryMapDescriptor :=
  if w.extractLsb' 17 15 ≠ 0 then none
  else some { hdr := hdr, tcen := w.getLsbD 16, period := w.extractLsb' 0 16 }

/-! ### The headers of the flash transactions (R114) -/

/-- `H(instr)` of 41_flash_transactions.md: one instruction line, every other phase absent, every unused field 0. -/
def plainHeader (opcode : Byte) : Header where
  instr := opcode
  imode := .one
  addr := 0
  admode := .none
  adsize := .bits8
  alt := 0
  abmode := .none
  absize := .bits8
  dcyc := 0
  dmode := .none
  ddrm := false
  dhhc := false
  sioo := false

/-- `H(OPC_RDSR) with dmode = 1-line`, the header of both status polls (R161, R162). -/
def statusHeader (p : Params) : Header := { plainHeader p.opc.rdsr with dmode := .one }

/-- The header of `T_SE` (R168): one address line of `P_ADDR_BITS`. -/
def sectorEraseHeader (p : Params) (addr : Word) : Header :=
  { plainHeader p.opc.se with admode := .one, adsize := p.addrBits, addr := addr }

/-- The header of `T_QPP` (R172): address on one line, data on four. -/
def quadProgramHeader (p : Params) (dest : Word) : Header :=
  { plainHeader p.opc.qpp with admode := .one, adsize := p.addrBits, addr := dest, dmode := .four }

/-- The header of `T_QREAD` (R173) and, with address 0, of `T_QREAD_MMAP` (R174). -/
def quadReadHeader (p : Params) (dest : Word) : Header :=
  { plainHeader p.opc.qread with
    admode := .four, adsize := p.addrBits, addr := dest
    abmode := .four, absize := .bits8, alt := p.readAlt.setWidth 32
    dcyc := BitVec.ofNat 5 p.readDummy, dmode := .four }

/-! ### Command words (R110, R111) -/

/-- The host command a code names (R111). -/
def commandOfCode (c : Byte) : Option Instr :=
  if c = 0x01 then some .init
  else if c = 0x02 then some .programPage
  else if c = 0x03 then some .eraseSector
  else if c = 0x04 then some .eraseChip
  else if c = 0x05 then some .read
  else if c = 0x06 then some .verify
  else if c = 0x07 then some .blankCheck
  else if c = 0x08 then some .mmap
  else if c = 0x09 then some .write
  else if c = 0x10 then some .eWrite
  else if c = 0x11 then some .eRead
  else if c = 0x12 then some .ePoll
  else if c = 0x13 then some .eMmap
  else if c = 0x14 then some .eAbort
  else if c = 0x15 then some .eDeinit
  else none

/-- A word written to `CMDR` (R110): bits 31:8 must be 0; `none` is an illegal host encoding (R116). -/
def decodeCmdr (w : Word) : Option Instr :=
  if w.extractLsb' 8 24 ≠ 0 then none else commandOfCode (w.extractLsb' 0 8)

/-! ### Transaction words (log 6) -/

/-- Why a list of words is no instruction. -/
inductive DecodeError where
  | empty             -- no word at all
  | illegalCommand    -- a word of host-command form whose code is not in R111 (R116)
  | unknownCcr        -- a CCR word of none of the twelve transactions (R114)
  | missingOperands   -- a transaction's operand words are not all there
  | badPollMatch      -- a status poll whose PSMAR is neither the latch mask nor 0
  | badBuffer         -- a buffer word that names no buffer the transaction takes
deriving DecidableEq, Repr

/-- The operand words of a transaction, in this order: AR, DLR, PSMAR, the kind of buffer (0 host, 1 staging) and the
host address. -/
structure TxWords where
  ar      : Word
  dlr     : Word
  psmar   : Word
  bufKind : Word
  bufAddr : Word
deriving DecidableEq, Repr

/-- The transaction a CCR word and its operand words stand for: the row whose CCR value (R114 with the machine's
parameters) the word equals; the two status polls, which share it, are told apart by PSMAR. -/
def decodeTx (p : Params) (ccr : Word) (o : TxWords) : Except DecodeError Instr :=
  if ccr = packCcr (plainHeader p.opc.wren) .indirectWrite then .ok .tWren
  else if ccr = packCcr (statusHeader p) .autoPoll then
    if o.psmar = p.welMask.setWidth 32 then .ok .tPollWel
    else if o.psmar = 0 then .ok .tPollWip
    else .error .badPollMatch
  else if ccr = packCcr (plainHeader p.opc.rsten) .indirectWrite then .ok .tRsten
  else if ccr = packCcr (plainHeader p.opc.rst) .indirectWrite then .ok .tRst
  else if ccr = packCcr { plainHeader p.opc.rdcr with dmode := .one } .indirectRead then .ok .tRdcr
  else if ccr = packCcr { plainHeader p.opc.wrvcr with dmode := .one } .indirectWrite then .ok .tWrvcr
  else if ccr = packCcr (sectorEraseHeader p 0) .indirectWrite then .ok (.tSe o.ar)
  else if ccr = packCcr (plainHeader p.opc.ce) .indirectWrite then .ok .tCe
  else if ccr = packCcr (quadProgramHeader p 0) .indirectWrite then
    if o.bufKind = 0 then .ok (.tQpp o.ar (o.dlr + 1) o.bufAddr) else .error .badBuffer
  else if ccr = packCcr (quadReadHeader p 0) .indirectRead then
    if o.bufKind = 0 then .ok (.tQread o.ar (o.dlr + 1) (.host o.bufAddr))
    else if o.bufKind = 1 then .ok (.tQread o.ar (o.dlr + 1) .stg)
    else .error .badBuffer
  else if ccr = packCcr (quadReadHeader p 0) .memoryMapped then .ok .tQreadMmap
  else .error .unknownCcr

/-- The decoder, total on any list of words: a word with bits 31:8 zero is a host command (R110), any other word is the
CCR of a transaction, followed by its five operand words. It answers the instruction and the words after it. -/
def decode (p : Params) (ws : List Word) : Except DecodeError (Instr × List Word) :=
  match ws with
  | [] => .error .empty
  | w :: rest =>
    if w.extractLsb' 8 24 = 0 then
      match commandOfCode (w.extractLsb' 0 8) with
      | some i => .ok (i, rest)
      | none => .error .illegalCommand
    else
      match rest with
      | ar :: dlr :: psmar :: kind :: addr :: rest' =>
        match decodeTx p w ⟨ar, dlr, psmar, kind, addr⟩ with
        | .ok i => .ok (i, rest')
        | .error e => .error e
      | _ => .error .missingOperands

/-! ### The encoder -/

/-- The code of a host command (R111); 0 for a transaction, which has none. -/
def Instr.code : Instr → Byte
  | .init => 0x01
  | .programPage => 0x02
  | .eraseSector => 0x03
  | .eraseChip => 0x04
  | .read => 0x05
  | .verify => 0x06
  | .blankCheck => 0x07
  | .mmap => 0x08
  | .write => 0x09
  | .eWrite => 0x10
  | .eRead => 0x11
  | .ePoll => 0x12
  | .eMmap => 0x13
  | .eAbort => 0x14
  | .eDeinit => 0x15
  | .tWren | .tPollWel | .tPollWip | .tRsten | .tRst | .tRdcr | .tWrvcr | .tSe _ | .tCe => 0
  | .tQpp _ _ _ | .tQread _ _ _ | .tQreadMmap => 0

/-- A transaction's words: CCR, AR, DLR, PSMAR, buffer kind, buffer address. -/
def txWords (ccr ar dlr psmar kind addr : Word) : List Word := [ccr, ar, dlr, psmar, kind, addr]

/-- The words of an instruction: one command word (R110), or the word image of a transaction (log 6). -/
def encode (p : Params) : Instr → List Word
  | .tWren => txWords (packCcr (plainHeader p.opc.wren) .indirectWrite) 0 0 0 0 0
  | .tPollWel => txWords (packCcr (statusHeader p) .autoPoll) 0 0 (p.welMask.setWidth 32) 0 0
  | .tPollWip => txWords (packCcr (statusHeader p) .autoPoll) 0 0 0 0 0
  | .tRsten => txWords (packCcr (plainHeader p.opc.rsten) .indirectWrite) 0 0 0 0 0
  | .tRst => txWords (packCcr (plainHeader p.opc.rst) .indirectWrite) 0 0 0 0 0
  | .tRdcr => txWords (packCcr { plainHeader p.opc.rdcr with dmode := .one } .indirectRead) 0 0 0 0 0
  | .tWrvcr => txWords (packCcr { plainHeader p.opc.wrvcr with dmode := .one } .indirectWrite) 0 0 0 0 0
  | .tSe addr => txWords (packCcr (sectorEraseHeader p addr) .indirectWrite) addr 0 0 0 0
  | .tCe => txWords (packCcr (plainHeader p.opc.ce) .indirectWrite) 0 0 0 0 0
  | .tQpp dest n src => txWords (packCcr (quadProgramHeader p dest) .indirectWrite) dest (n - 1) 0 0 src
  | .tQread dest n (.host a) => txWords (packCcr (quadReadHeader p dest) .indirectRead) dest (n - 1) 0 0 a
  | .tQread dest n .stg => txWords (packCcr (quadReadHeader p dest) .indirectRead) dest (n - 1) 0 1 0
  | .tQread dest n .cfgbuf => txWords (packCcr (quadReadHeader p dest) .indirectRead) dest (n - 1) 0 2 0
  | .tQreadMmap => txWords (packCcr (quadReadHeader p 0) .memoryMapped) 0 0 0 0 0
  | .init => [(Instr.init).code.setWidth 32]
  | .programPage => [(Instr.programPage).code.setWidth 32]
  | .eraseSector => [(Instr.eraseSector).code.setWidth 32]
  | .eraseChip => [(Instr.eraseChip).code.setWidth 32]
  | .read => [(Instr.read).code.setWidth 32]
  | .verify => [(Instr.verify).code.setWidth 32]
  | .blankCheck => [(Instr.blankCheck).code.setWidth 32]
  | .mmap => [(Instr.mmap).code.setWidth 32]
  | .write => [(Instr.write).code.setWidth 32]
  | .eWrite => [(Instr.eWrite).code.setWidth 32]
  | .eRead => [(Instr.eRead).code.setWidth 32]
  | .ePoll => [(Instr.ePoll).code.setWidth 32]
  | .eMmap => [(Instr.eMmap).code.setWidth 32]
  | .eAbort => [(Instr.eAbort).code.setWidth 32]
  | .eDeinit => [(Instr.eDeinit).code.setWidth 32]

/-! ### The host's reading of a table word -/

/-- The seven words of a table word's instruction: bit 0 of `w` is bit 0 of the first word, a later word's bits count on
from it, and the bits above `nbits` are 0. -/
def tableWords (nbits w : Nat) : List Word :=
  let v := w % 2 ^ nbits
  [BitVec.ofNat 32 v, BitVec.ofNat 32 (v / 2 ^ 32), BitVec.ofNat 32 (v / 2 ^ 64), BitVec.ofNat 32 (v / 2 ^ 96),
    BitVec.ofNat 32 (v / 2 ^ 128), BitVec.ofNat 32 (v / 2 ^ 160), BitVec.ofNat 32 (v / 2 ^ 192)]

/-- The instruction the decoder reads from a word of opcode_table.json; the table's CCR words are TC0's values
(R115). -/
def decodeTableWord (nbits w : Nat) : Option Instr :=
  match decode Config.tc0 (tableWords nbits w) with
  | .ok (i, _) => some i
  | .error _ => none

end Sys2Proof
end

