-- ==== Sys2Proof/Machine/State.lean ====
section
/-! DEFINITION. The state of the QSPI-FLM sequencer (10_state.md), of its environment (20_memory.md section 7) and of
its host's pending actions, as plain data; the model faults of 60_exceptions.md R247; the state at launch
(70_reset_and_hazards.md R270, R271). -/

namespace Sys2Proof.Machine

/-! ### Names -/

/-- Status codes (60_exceptions.md R240). -/
inductive Status where
  | ok | hardwareError | timeoutError | verifyMismatch | exhausted
deriving DecidableEq, Repr

/-- Model-fault reasons (60_exceptions.md R247): what `FAULT` can hold. -/
inductive FaultReason where
  | illegalCommand | reentry | unwritten | engineDisabled | mmapActive | badDescriptor | range | size | pageCross
  | windowAccess
deriving DecidableEq, Repr

/-- FSM steps (10_state.md R24). -/
inductive FsmStep where
  | idle | writeEnablePending | writeEnableConfirmed | commandIssued | busyPolling | resetIssued | configReading
  | configWriting | reading | comparing | mapEntering | orchestrating | engineCommand | faulted
deriving DecidableEq, Repr

/-- Engine steps (10_state.md R25). -/
inductive EngStep where
  | idle | waitIdle | setup | data | waitTc | waitSm | abortWait
deriving DecidableEq, Repr

/-- What the descriptor latch `D` holds while an engine operation runs (10_state.md R31). -/
inductive Descriptor where
  | transfer (t : Transaction)
  | poll (d : PollDescriptor)
  | map (d : MemoryMapDescriptor)
deriving DecidableEq, Repr

/-- The engine operation of a trace entry (10_state.md R33). -/
inductive EngineOp where
  | eWrite | eRead | ePoll | eMmap
deriving DecidableEq, Repr

/-- One entry of `TRACE` (10_state.md R33): operation, CCR, AR, ABR, DLR or none, data bytes. -/
structure TraceEntry where
  op   : EngineOp
  ccr  : Word
  ar   : Option Word
  abr  : Word
  dlr  : Option Word
  data : List Byte
deriving DecidableEq, Repr

/-! ### The sequencer's remaining steps (log 20) -/

/-- The thirteen peripheral registers (10_state.md R41). -/
inductive PeriphReg where
  | cr | dcr | sr | fcr | dlr | ccr | ar | abr | dr | psmkr | psmar | pir | lptr
deriving DecidableEq, Repr

/-- The peripheral registers the sequencer writes whole (10_state.md R53). `CR` is written only by `Op.writeCr`, `DR`
only a byte at a time, `DCR` and `SR` never. -/
inductive WholeReg where
  | fcr | dlr | ccr | ar | abr | psmkr | psmar | pir | lptr
deriving DecidableEq, Repr

/-- The fields a read-modify-write of `CR` changes (10_state.md R42): PMM and APMS, TCEN, ABORT, or EN. -/
inductive CrEdit where
  | poll (pmm apms : Bool)
  | tcen (b : Bool)
  | abort
  | disable
deriving DecidableEq, Repr

/-- The working registers (10_state.md R28). -/
inductive WorkReg where
  | addr | buf | rem | done | n
deriving DecidableEq, Repr

/-- The conditions of the wait loops (10_state.md R54): BUSY = 0; FTF or TCF; TCF; SMF. -/
inductive WaitCond where
  | busyClear | fifo | transferComplete | statusMatch
deriving DecidableEq, Repr

/-- One sequencer step still to do. The list of them is the position inside the pseudocode of the rules that the step
pointer `(fsm, eng, i)` alone does not give (10_state.md R26: steps happen in the order the pseudocode lists them). Each is
one access or one update of a register of the block; a test or a call of the pseudocode goes with the step it leads to. -/
inductive Op where
  /-- Hand a flash transaction to the engine: its guards, then the descriptor latch (40_engine.md R130). -/
  | issue (i : Instr)
  /-- The `E_WRITE` of `T_WRVCR`, once `CFGBUF` has its bit (41_flash_transactions.md R167). -/
  | configWrite
  /-- `PROGRAM_PAGE(W_ADDR, W_N, W_BUF)` of the orchestrator: its checks, then `pc <- WriteEnablePending`
  (43_write_orchestrator.md R230). -/
  | callPage
  | setFsm (f : FsmStep)
  | setEng (e : EngStep)
  /-- One sample of `WaitUntil` (40_engine.md R133), `k` samples taken before. -/
  | wait (c : WaitCond) (k : Nat)
  /-- One sample of `AbortWait` (40_engine.md R141). -/
  | abortWait (k : Nat)
  | writeReg (r : WholeReg) (v : Word)
  | readCr
  | writeCr (e : CrEdit)
  | setMmap (b : Bool)
  | emit (e : TraceEntry)
  /-- The byte loops of `E_WRITE` (R134) and `E_READ` (R136): the assignment of `i` at the loop's head, `0` when `first`,
  `i + 1` after; and the accesses of one byte. -/
  | writeLoop (first : Bool)
  | bufRead
  | drWrite
  | readLoop (first : Bool)
  | drRead
  | bufWrite
  /-- The operation has ended: the descriptor is dropped (R143). -/
  | dropDesc
  /-- `INIT` after its configuration read: `Ok`, or `pc <- WriteEnablePending` (42_flash_operations.md R200). -/
  | qeCheck
  /-- `W_x <- v`, and the advance of `W_x` by `W_N`. -/
  | setWork (r : WorkReg) (v : Word)
  | advance (r : WorkReg)
  /-- The head of `VERIFY`'s chunk loop (R222): `W_N <- min(W_REM, P_PAGE)`, or the command's end. -/
  | verifyLoop
  /-- The head of `BLANK_CHECK`'s chunk loop (R224). -/
  | blankLoop (pattern : Byte)
  /-- The byte comparisons of a chunk (R221): the assignment of `i`; the read of `STG[i]` and of the host's byte for
  `VERIFY` (`none`); the read of `STG[i]` for `BLANK_CHECK` (`some`). -/
  | compareLoop (first : Bool) (pattern : Option Byte)
  | fetchStg
  | compareHost
  | compareStg (pattern : Byte)
  /-- The orchestrator's choices of `W_N`, or its end (43_write_orchestrator.md R230). -/
  | orchFirst
  | orchLoop
  /-- `raise E()` (60_exceptions.md R243). -/
  | raise (st : Status)
  /-- The command ends with a status and a count (42_flash_operations.md R191). -/
  | finish (st : Status) (count : Word)
deriving DecidableEq, Repr

/-! ### The host's pending actions (log 4) -/

/-- What the host can do (10_state.md R20, R26, R34; 20_memory.md R64): write or read a port register, load from or
store to the memory-mapped window at a 32-bit address, and, between commands, write a byte of its own memory (R26, R289). -/
inductive HostAction where
  | portWrite (off v : Word)
  | portRead (off : Word)
  | windowLoad (a : Word) (w : Nat)
  | windowStore (a : Word) (w : Nat) (v : Word)
  | memWrite (a : Word) (b : Byte)
deriving DecidableEq, Repr

/-- A pending host action. `after = none`: the host waits for `HSTAT.BUSY = 0` first (42_flash_operations.md R229).
`after = some k`: it acts after `k` more sequencer steps, whatever runs. -/
structure HostEvent where
  after : Option Nat
  act   : HostAction
deriving DecidableEq, Repr

/-! ### Registers and memory -/

/-- The QUADSPI register file (10_state.md R41). `sr` is the value last sampled less the flags cleared since; `fcr` is
the last value written, and bits 7:0 of `dr` the last byte moved (log 17). -/
structure Regs where
  cr    : Word
  dcr   : Word
  sr    : Word
  fcr   : Word
  dlr   : Word
  ccr   : Word
  ar    : Word
  abr   : Word
  dr    : Word
  psmkr : Word
  psmar : Word
  pir   : Word
  lptr  : Word
deriving DecidableEq, Repr

/-- The stored registers of the command port (10_state.md R34 to R38). `none` is the spec's "never written": reading it
faults with `Unwritten` (log 16). -/
structure Port where
  arg0   : Option Word
  arg1   : Option Word
  arg2   : Option Word
  arg3   : Option Word
  arg4   : Option Word
  arg5   : Option Word
  resst  : Option Status
  rescnt : Option Word
deriving DecidableEq, Repr

/-- A range of host addresses that the launch memory admits (42_flash_operations.md R192). -/
structure Region where
  base : Nat
  size : Nat
deriving DecidableEq, Repr

/-! ### The environment (20_memory.md) -/

/-- The peripheral's current operation in the reference device (20_memory.md R83, R84). -/
inductive Cur where
  | none
  /-- An indirect write of opcode `op` to address `addr`, `k` more bytes to come, `data` received. -/
  | write (op : Byte) (addr : Word) (k : Nat) (data : List Byte)
  /-- An indirect read with its FIFO queue `Q`. -/
  | read (q : List Byte)
  /-- An auto-poll with `APMS`, `PMM` and the sample size. -/
  | poll (apms pmm : Bool) (sample : Nat)
  | mapped
deriving DecidableEq, Repr

/-- One entry of `RE_INJECT` (R83): the flags set at sample number `ns`. -/
structure Inject where
  ns  : Nat
  tef : Bool
  tof : Bool
deriving DecidableEq, Repr

/-- The state of the reference device (20_memory.md R83): the flash chip (10_state.md R55), the busy countdown, the
peripheral's flags and operation, the sample counter, and the test parameters. `FTF` and `BUSY` are functions of `cur`
(R85). -/
structure RefDev where
  array      : List Host.Cell
  fsr        : Byte
  fcfg       : Byte
  rsten      : Bool
  bc         : Nat
  tef        : Bool
  tcf        : Bool
  smf        : Bool
  tof        : Bool
  cur        : Cur
  ns         : Nat
  busyPolls  : Nat
  inject     : List Inject
  fcfgReset  : Byte
deriving DecidableEq, Repr

/-- The environment: the envelope, whose every answer is a free value (R80), or the reference device (R83). -/
inductive Env where
  | envelope
  | reference (d : RefDev)
deriving DecidableEq, Repr

/-- The state of the machine. -/
structure State where
  /-- The parameters (00_scope.md R6 to R8), which no step writes (10_state.md R21, log 2). -/
  params     : Params
  /-- How many further sequencer steps one step of the model takes (log 1). -/
  burst      : Nat
  /-- The host's pending actions, the next first (log 4). -/
  hostIn     : List HostEvent
  /-- What the last host read or load returned, if it returned a value. -/
  hostData   : Option Word
  /-- How many free values the environment has given (log 10). -/
  draws      : Nat
  fsm        : FsmStep
  eng        : EngStep
  /-- The byte index `i` of the step pointer (10_state.md R23). -/
  idx        : Word
  /-- The sequencer's remaining steps (log 20). -/
  todo       : List Op
  /-- The command in progress (log 27). -/
  current    : Option Instr
  /-- The byte in flight between two accesses. -/
  tmpByte    : Byte
  /-- The value of `CR` between its read and its write. -/
  tmpCr      : Word
  mmapActive : Bool
  wAddr      : Word
  wBuf       : Word
  wRem       : Word
  wDone      : Word
  wN         : Word
  cfgbuf     : Byte
  /-- What `CFGBUF` goes back to when a running `T_RDCR` fails (41_flash_transactions.md R166, log 37). -/
  cfgSaved   : Option Byte
  /-- The staging buffer `STG` (10_state.md R30) as cells at indices 0 to `P_PAGE - 1`. -/
  stg        : List Host.Cell
  /-- The descriptor latch `D` (10_state.md R31). -/
  desc       : Option Descriptor
  /-- The fault mark `FAULT` (10_state.md R32). -/
  fault      : Option FaultReason
  /-- `TRACE` (10_state.md R33), the oldest entry first. -/
  trace      : List TraceEntry
  port       : Port
  regs       : Regs
  /-- Host buffer memory (20_memory.md R62) as cells at 32-bit addresses. -/
  hostMem    : List Host.Cell
  /-- The addresses the launch memory admits. -/
  admitted   : List Region
  env        : Env
deriving DecidableEq, Repr

/-- Why the machine stops: no agent has a step. -/
inductive Fault where
  /-- Raised by a step of a faulted block other than a host read of the port, and by any instruction on one: while
  `FAULT` is set "Every host write, and every host load from the window, has no step" (60_exceptions.md R248). Safe. -/
  | blockFaulted
  /-- Raised by a byte access to host memory at an address the launch memory does not admit: the sequencer is stuck
  (20_memory.md R62, 42_flash_operations.md R192); by the host's own write of such an address too (log 41). Safe. -/
  | hostAccess
  /-- Raised by an access to the staging buffer at an index that does not exist, at or past `P_PAGE` (10_state.md R30).
  No command of the block makes one. Safe. -/
  | stagingIndex
deriving DecidableEq, Repr

/-- Why a step is refused. -/
inductive Refusal where
  /-- Raised by an arm of `exec` whose instruction has no meaning yet. Safe. -/
  | notModelled (mnemonic : String)
  /-- Raised by `step` when the parameter set fails a check of 00_scope.md R9: it is refused at construction and no
  run exists. Safe. -/
  | illFormedParameters
deriving DecidableEq, Repr

/-- The three outcomes of a step, at this machine's types. -/
abbrev Out := Host.Outcome State Fault Refusal

/-! ### Launch state (70_reset_and_hazards.md R270, R271) -/

/-- The register file at launch (R271; log 15): the STM32H7's 0x00000000 (10_state.md R41), but `CR` and `DCR` as the
configuration layer leaves them. -/
def Regs.reset : Regs where
  cr := 0x01000001
  dcr := 0x00160000
  sr := 0
  fcr := 0
  dlr := 0
  ccr := 0
  ar := 0
  abr := 0
  dr := 0
  psmkr := 0
  psmar := 0
  pir := 0
  lptr := 0

/-- The command port at launch: nothing written (R270). -/
def Port.reset : Port where
  arg0 := none
  arg1 := none
  arg2 := none
  arg3 := none
  arg4 := none
  arg5 := none
  resst := none
  rescnt := none

/-- The reference device at launch (R274, 20_memory.md R83; log 12): erased, idle, nothing injected. -/
def RefDev.reset : RefDev where
  array := []
  fsr := 0
  fcfg := 0
  rsten := false
  bc := 0
  tef := false
  tcf := false
  smf := false
  tof := false
  cur := .none
  ns := 0
  busyPolls := 0
  inject := []
  fcfgReset := 0

/-- The launch state of the machine (70_reset_and_hazards.md R270, R271, R274). -/
def State.reset : State where
  params := Config.tc0
  burst := 0
  hostIn := []
  hostData := none
  draws := 0
  fsm := .idle
  eng := .idle
  idx := 0
  todo := []
  current := none
  tmpByte := 0
  tmpCr := 0
  mmapActive := false
  wAddr := 0
  wBuf := 0
  wRem := 0
  wDone := 0
  wN := 0
  cfgbuf := 0
  cfgSaved := none
  stg := []
  desc := none
  fault := none
  trace := []
  port := Port.reset
  regs := Regs.reset
  hostMem := []
  admitted := [⟨0, 2 ^ 32⟩]
  env := .reference RefDev.reset

end Sys2Proof.Machine
end

