-- ==== Sys2Proof/Machine/Flags.lean ====
section
/-! DEFINITION. The status flags (10_state.md R44, R45, R54): their places in SR and FCR, which error a sample shows,
what each wait loop waits for, and the FCR values the loops write. -/

namespace Sys2Proof.Machine

/-- SR bit positions (10_state.md R44). -/
def srTef (s : Word) : Bool := s.getLsbD 0
def srTcf (s : Word) : Bool := s.getLsbD 1
def srFtf (s : Word) : Bool := s.getLsbD 2
def srSmf (s : Word) : Bool := s.getLsbD 3
def srTof (s : Word) : Bool := s.getLsbD 4
def srBusy (s : Word) : Bool := s.getLsbD 5

/-- An SR word from its flags. -/
def srWord (tef tcf ftf smf tof busy : Bool) : Word :=
  bit tef ||| (bit tcf <<< 1) ||| (bit ftf <<< 2) ||| (bit smf <<< 3) ||| (bit tof <<< 4) ||| (bit busy <<< 5)

/-- The error a sample shows: TEF before TOF (60_exceptions.md R246). -/
def sampleError (s : Word) : Option Status :=
  if srTef s then some .hardwareError else if srTof s then some .timeoutError else none

/-- The FCR value that clears exactly the error flags seen (40_engine.md R133): CTEF and/or CTOF. -/
def errorClear (s : Word) : Word := bit (srTef s) ||| (bit (srTof s) <<< 4)

/-- The FCR value the abort wait acknowledges with (40_engine.md R141): CTCF and/or CSMF for the flags seen. -/
def abortClear (s : Word) : Word := (bit (srTcf s) <<< 1) ||| (bit (srSmf s) <<< 3)

/-- `1 << 1` (40_engine.md R135). -/
def fcrCtcf : Word := 0x2

/-- `1 << 3` (40_engine.md R137). -/
def fcrCsmf : Word := 0x8

/-- The condition of a wait loop on a sample (10_state.md R54; 40_engine.md R132, R134, R135, R137). -/
def WaitCond.holds (c : WaitCond) (s : Word) : Bool :=
  match c with
  | .busyClear => !srBusy s
  | .fifo => srFtf s || srTcf s
  | .transferComplete => srTcf s
  | .statusMatch => srSmf s

/-- The wait budget is used up after `k` samples (40_engine.md R133: `k >= B`). -/
def budgetSpent (p : Params) (k : Nat) : Bool :=
  match p.waitBudget with
  | none => false
  | some b => decide (b ≤ k)

/-- What writing `v` to FCR leaves of a flag word (10_state.md R45: writing 1 clears, writing 0 has no effect; only
bits 0, 1, 3 and 4 are flags). -/
def fcrClear (sr v : Word) : Word := sr &&& ~~~(v &&& 0x1B)

/-- Status codes (60_exceptions.md R240). -/
def Status.code : Status → Word
  | .ok => 0
  | .hardwareError => 1
  | .timeoutError => 2
  | .verifyMismatch => 3
  | .exhausted => 4

/-- CR bit positions (10_state.md R42). -/
def crEn (cr : Word) : Bool := cr.getLsbD 0
def crAbort (cr : Word) : Bool := cr.getLsbD 1
def crApms (cr : Word) : Bool := cr.getLsbD 22
def crPmm (cr : Word) : Bool := cr.getLsbD 23

/-- `w` with bit `k` set to `b`. -/
def setBit (w : Word) (k : Nat) (b : Bool) : Word := (w &&& ~~~((1 : Word) <<< k)) ||| (bit b <<< k)

/-- The value a read-modify-write puts back: the named fields changed, every other bit as read (10_state.md R42). -/
def CrEdit.apply (e : CrEdit) (cr : Word) : Word :=
  match e with
  | .poll pmm apms => setBit (setBit cr 23 pmm) 22 apms
  | .tcen b => setBit cr 3 b
  | .abort => setBit cr 1 true
  | .disable => setBit cr 0 false

end Sys2Proof.Machine
end

