-- ==== Sys2Proof/Machine/Parameters.lean ====
section
/-! DEFINITION. The well-formedness of a parameter set (00_scope.md R9). -/

namespace Sys2Proof

/-- Exactly one bit of the byte is set. -/
def oneBit (m : Byte) : Bool := m != 0 && (m &&& (m - 1)) == 0

/-- The ten opcodes as a list. -/
def Opcodes.toList (o : Opcodes) : List Byte :=
  [o.wren, o.rdsr, o.wrvcr, o.se, o.ce, o.qpp, o.qread, o.rdcr, o.rsten, o.rst]

/-- No byte of the list occurs twice. -/
def distinctBytes : List Byte → Bool
  | [] => true
  | b :: rest => !rest.contains b && distinctBytes rest

/-- The checks of 00_scope.md R9, and the 32-bit width of the geometry (R6). -/
def Params.wf (p : Params) : Bool :=
  -- items 1 and 2: geometry
  decide (0 < p.size) && (decide (0 < p.page) && (decide (0 < p.sector) &&
  (decide (p.size % p.sector = 0) && (decide (p.sector % p.page = 0) && (decide (p.size < 2 ^ 32) &&
  -- item 3: every offset fits the address phase
  (decide (p.size ≤ 2 ^ p.addrBits.bits) &&
  -- item 4
  (decide (p.readDummy ≤ 31) &&
  -- item 5
  (oneBit p.welMask && (oneBit p.wipMask && (oneBit p.qeMask && (p.welMask != p.wipMask &&
  -- item 6
  ((match p.waitBudget with | none => true | some b => decide (1 ≤ b)) &&
  -- item 7
  (decide (0 < p.maxClock) &&
  -- item 8
  distinctBytes p.opc.toList)))))))))))))

end Sys2Proof
end

