-- ==== Sys2Proof/Machine/Device.lean ====
section
/-! DEFINITION. The reference device (20_memory.md R83 to R92): the deterministic environment. `free` gives the bytes
the rules leave unstated (log 24). -/

namespace Sys2Proof.Machine

/-- The status byte: `FSR` with the busy bit set exactly while `BC > 0` (20_memory.md R88, R90). -/
def RefDev.status (p : Params) (d : RefDev) : Byte :=
  if 0 < d.bc then d.fsr ||| p.wipMask else d.fsr &&& ~~~p.wipMask

/-- The array after byte `i` of a program at `a` (R91): AND into `p + ((a - p + i) mod P_PAGE)`; an offset outside the
array has no cell (log 25). -/
def programByte (p : Params) (a i : Nat) (b : Byte) (arr : List Host.Cell) : List Host.Cell :=
  let q := a - a % p.page
  let o := q + (a - q + i) % p.page
  if o < p.size then cellWrite arrayDefault arr o (cellRead arrayDefault arr o &&& b) else arr

/-- The array after the bytes of a program, from byte `i` on. -/
def programBytes (p : Params) (a : Nat) : Nat → List Byte → List Host.Cell → List Host.Cell
  | _, [], arr => arr
  | i, b :: rest, arr => programBytes p a (i + 1) rest (programByte p a i b arr)

/-- An array command that had the latch (R91): the latch clears and the busy countdown starts. -/
def RefDev.arrayDone (p : Params) (d : RefDev) (arr : List Host.Cell) : RefDev :=
  { d with array := arr, fsr := d.fsr &&& ~~~p.welMask, bc := d.busyPolls }

/-- Is the write-enable latch set (10_state.md R55)? -/
def RefDev.latched (p : Params) (d : RefDev) : Bool := (d.fsr &&& p.welMask) != 0

/-- A command the chip accepts: none is while `BC > 0` but a status read, and an opcode of none of the ten has no
effect (R87). -/
def RefDev.accepts (p : Params) (d : RefDev) (op : Byte) : Bool :=
  p.opc.toList.contains op && (d.bc == 0 || op == p.opc.rdsr)

/-- The effect of a command on the chip (R87 to R91). Which command without effect clears RSTEN the rules leave open, and it
is the model's choice (log 23): one that R87 turns away clears nothing, a WRVCR, SE, CE or QPP without the latch clears
RSTEN. So is it that a QREAD clears RSTEN, as R87 says of every command, where R77 says that reading changes nothing in the
device (log 23). -/
def RefDev.command (p : Params) (free : Nat → Byte) (op : Byte) (addr : Word) (data : List Byte) (d : RefDev) :
    RefDev :=
  if !d.accepts p op then d
  else if op = p.opc.rsten then { d with rsten := true }
  else if op = p.opc.rst then
    if d.rsten then
      { d with fsr := d.fsr &&& ~~~(p.welMask ||| p.wipMask), bc := 0, fcfg := d.fcfgReset, rsten := false }
    else d
  else
    let e := { d with rsten := false }
    if op = p.opc.wren then { e with fsr := d.fsr ||| p.welMask }
    else if op = p.opc.wrvcr then
      if d.latched p then
        { e with fcfg := (match data with | [b] => b | _ => free 0), fsr := d.fsr &&& ~~~p.welMask }
      else e
    else if op = p.opc.se then
      if d.latched p then
        e.arrayDone p (cellClear (fun o => decide (o / p.sector = addr.toNat / p.sector)) d.array)
      else e
    else if op = p.opc.ce then
      if d.latched p then e.arrayDone p (cellClear (fun o => decide (o < p.size)) d.array) else e
    else if op = p.opc.qpp then
      if d.latched p then e.arrayDone p (programBytes p addr.toNat 0 data d.array) else e
    else e

/-- Response byte `j` of a read command (R87 to R89, R92). -/
def RefDev.responseByte (p : Params) (free : Nat → Byte) (op : Byte) (addr : Word) (d : RefDev) (j : Nat) : Byte :=
  if !p.opc.toList.contains op then 0xFF
  else if !d.accepts p op then free j
  else if op = p.opc.rdsr then d.status p
  else if op = p.opc.rdcr then d.fcfg
  else if op = p.opc.qread then cellRead arrayDefault d.array ((addr.toNat + j) % p.size)
  else free j

/-- The response bytes of an indirect read of `n` bytes. -/
def RefDev.response (p : Params) (free : Nat → Byte) (op : Byte) (addr : Word) (n : Nat) (d : RefDev) : List Byte :=
  (List.range n).map (d.responseByte p free op addr)

/-- The number of data bytes of an operation (R84): `DLR + 1` when the data mode is not None, else 0. -/
def dataCount (r : Regs) : Nat := if r.ccr.extractLsb' 24 2 = 0 then 0 else r.dlr.toNat + 1

/-- A write of AR starts an indirect or auto-poll operation (R84). -/
def RefDev.onAr (p : Params) (free : Nat → Byte) (r : Regs) (d : RefDev) : RefDev :=
  let op := r.ccr.extractLsb' 0 8
  let fm := r.ccr.extractLsb' 26 2
  let n := dataCount r
  if fm = FrameMode.indirectWrite.code then
    if n = 0 then { d.command p free op r.ar [] with tcf := true, cur := .none }
    else { d with cur := .write op r.ar n [] }
  else if fm = FrameMode.indirectRead.code then
    { d.command p free op r.ar [] with tcf := true, cur := .read (d.response p free op r.ar n) }
  else if fm = FrameMode.autoPoll.code then
    { d with cur := .poll (crApms r.cr) (crPmm r.cr) n }
  else d

/-- A write of CCR with frame mode memory-mapped starts memory-mapped mode (R84). -/
def RefDev.onCcr (r : Regs) (d : RefDev) : RefDev :=
  if r.ccr.extractLsb' 26 2 = FrameMode.memoryMapped.code then { d with cur := .mapped } else d

/-- A write of FCR clears the flags whose bit is 1 (10_state.md R45). -/
def RefDev.onFcr (v : Word) (d : RefDev) : RefDev :=
  { d with
    tef := d.tef && !v.getLsbD 0
    tcf := d.tcf && !v.getLsbD 1
    smf := d.smf && !v.getLsbD 3
    tof := d.tof && !v.getLsbD 4 }

/-- A write of CR (R92): setting ABORT drops the operation and sets TCF; clearing EN drops the operation. -/
def RefDev.onCr (v : Word) (d : RefDev) : RefDev :=
  let d1 := if crAbort v then { d with cur := .none, tcf := true } else d
  if crEn v then d1 else { d1 with cur := .none }

/-- An 8-bit write of DR (R84, R86): a write still expecting bytes takes it, and at the last one the command runs. -/
def RefDev.pushDr (p : Params) (free : Nat → Byte) (b : Byte) (d : RefDev) : RefDev :=
  match d.cur with
  | .write op addr k data =>
    if k ≤ 1 then { d.command p free op addr (data ++ [b]) with tcf := true, cur := .none }
    else { d with cur := .write op addr (k - 1) (data ++ [b]) }
  | _ => d

/-- An 8-bit read of DR (R86): the head of the queue, or 0xFF from an empty one. -/
def RefDev.popDr (d : RefDev) : Byte × RefDev :=
  match d.cur with
  | .read (b :: q) => (b, { d with cur := .read q })
  | _ => (0xFF, d)

/-- The low `8 * sample` bits of a word. -/
def sampleMask (sample : Nat) : Word := if 4 ≤ sample then BitVec.allOnes 32 else ((1 : Word) <<< (8 * sample)) - 1

/-- A status byte in each of four bytes. -/
def replicateByte (s : Byte) : Word :=
  let w : Word := s.setWidth 32
  w ||| (w <<< 8) ||| (w <<< 16) ||| (w <<< 24)

/-- Does a status byte match (R90)? AND: every masked bit equals; OR: some masked bit equals. -/
def pollMatches (r : Regs) (pmm : Bool) (sample : Nat) (s : Byte) : Bool :=
  let m := r.psmkr &&& sampleMask sample
  let diff := replicateByte s ^^^ r.psmar
  if pmm then (~~~diff &&& m) != 0 else (diff &&& m) == 0

/-- One auto-poll evaluation (R90). -/
def RefDev.evaluate (p : Params) (r : Regs) (apms pmm : Bool) (sample : Nat) (d : RefDev) : RefDev :=
  let e := { d with bc := d.bc - 1 }
  if pollMatches r pmm sample (d.status p) then
    { e with smf := true, cur := if apms then .none else d.cur }
  else e

/-- `RE_INJECT(NS)` (R83, R85): the injected flags stay set. -/
def RefDev.injected (d : RefDev) : RefDev :=
  { d with
    tef := d.tef || d.inject.any (fun e => e.ns == d.ns && e.tef)
    tof := d.tof || d.inject.any (fun e => e.ns == d.ns && e.tof) }

/-- `FTF` and `BUSY` (R85). -/
def RefDev.ftf (d : RefDev) : Bool :=
  match d.cur with
  | .write _ _ _ _ => true
  | .read q => !q.isEmpty
  | _ => false

def RefDev.busy (d : RefDev) : Bool :=
  match d.cur with
  | .poll _ _ _ => true
  | _ => false

/-- The SR word the device shows (R85). -/
def RefDev.sr (d : RefDev) : Word := srWord d.tef d.tcf d.ftf d.smf d.tof d.busy

/-- A read of SR (R85): the sample is counted, a running auto-poll is evaluated once, and the injected flags are
or'd in. -/
def RefDev.sample (p : Params) (r : Regs) (d : RefDev) : Word × RefDev :=
  let d1 := { d with ns := d.ns + 1 }
  let d2 := match d1.cur with
    | .poll apms pmm n => d1.evaluate p r apms pmm n
    | _ => d1
  let d3 := d2.injected
  (d3.sr, d3)

/-- The `w` bytes of the array from offset `o`, little-endian (R67). -/
def leLoad (arr : List Host.Cell) (o : Nat) : Nat → Word
  | 0 => 0
  | w + 1 => leLoad arr o w ||| ((cellRead arrayDefault arr (o + w)).setWidth 32 <<< (8 * w))

end Sys2Proof.Machine
end

