-- ==== Sys2Proof/Machine/Ops.lean ====
section
/-! DEFINITION. The named operations of the machine: the port's views, raising a model fault and ending a command (the
two ways an operation ends), the accesses of 00_scope.md R12 to the peripheral registers, to host memory and to the
staging buffer, and the trace. -/

namespace Sys2Proof.Machine

/-! ### Outcomes -/

/-- Continue after a next state; a fault or a refusal stops. -/
def andThen (o : Out) (f : State → Out) : Out :=
  match o with
  | .next s => f s
  | .fault r => .fault r
  | .refused r => .refused r

/-! ### The port's views (10_state.md R36 to R39) -/

/-- `HSTAT.BUSY` (R39): `fsm` is neither Idle nor Faulted. -/
def State.busy (s : State) : Bool := s.fsm != .idle && s.fsm != .faulted

/-- `FAULT` is set (R32). -/
def State.faulted (s : State) : Bool := s.fault.isSome

/-- `HSTAT` (R39): BUSY, MMAP, FAULTED; bits 31:3 read 0. -/
def State.hstat (s : State) : Word := bit s.busy ||| (bit s.mmapActive <<< 1) ||| (bit s.faulted <<< 2)

/-- `RESST` as the host reads it (R37): the status code in bits 7:0. -/
def Port.resstWord (p : Port) : Option Word := p.resst.map Status.code

/-- An argument register by number. -/
def Port.arg (p : Port) : Fin 6 → Option Word
  | 0 => p.arg0
  | 1 => p.arg1
  | 2 => p.arg2
  | 3 => p.arg3
  | 4 => p.arg4
  | 5 => p.arg5

/-- Write an argument register. -/
def Port.setArg (p : Port) (k : Fin 6) (v : Word) : Port :=
  match k with
  | 0 => { p with arg0 := some v }
  | 1 => { p with arg1 := some v }
  | 2 => { p with arg2 := some v }
  | 3 => { p with arg3 := some v }
  | 4 => { p with arg4 := some v }
  | 5 => { p with arg5 := some v }

/-! ### How an operation ends -/

/-- `fault F` (60_exceptions.md R247, R248): the fault mark is set, the FSM is Faulted, and no sequencer step is left. -/
def State.raiseFault (s : State) (f : FaultReason) : State :=
  { s with fault := some f, fsm := .faulted, todo := [] }

/-- A command ends (42_flash_operations.md R191, 60_exceptions.md R243): RESST and RESCNT are written, `fsm` is Idle,
the engine idle and its descriptor dropped. -/
def State.endCommand (s : State) (st : Status) (count : Word) : State :=
  { s with
    port := { s.port with resst := some st, rescnt := some count }
    fsm := .idle
    eng := .idle
    desc := none
    todo := []
    current := none }

/-- The count of a command that ends by a raised status: the bytes verified so far for `VERIFY` (R222), 0 for every
other command (R191). -/
def State.raisedCount (s : State) : Word :=
  match s.current with
  | some .verify => s.wDone
  | _ => 0

/-- A `T_RDCR` that fails leaves `CFGBUF` as it was (41_flash_transactions.md R166; log 37). -/
def State.restoreCfg (s : State) : State := { s with cfgbuf := s.cfgSaved.getD s.cfgbuf, cfgSaved := none }

/-- `raise E()` (60_exceptions.md R243): every caller ends at once. -/
def State.raiseStatus (s : State) (st : Status) : State := s.restoreCfg.endCommand st s.raisedCount

/-- The first failing check of a list, in its order. -/
def firstFault : List (Bool × FaultReason) → Option FaultReason
  | [] => none
  | (bad, f) :: rest => if bad then some f else firstFault rest

/-! ### Peripheral registers (20_memory.md R61, R68) -/

/-- The bytes the reference device takes where the rules state none (log 24). -/
def State.refBytes (s : State) : Nat → Byte := Config.freeRefByte s.draws

/-- `RegRead(SR)` (R80, R85): a free value under the envelope, the device's flags under the reference device. -/
def State.readSr (s : State) : Word × State :=
  match s.env with
  | .envelope =>
    let v := Config.freeSr s.draws
    (v, { s with regs := { s.regs with sr := v }, draws := s.draws + 1 })
  | .reference d =>
    let (v, d') := d.sample s.params s.regs
    (v, { s with regs := { s.regs with sr := v }, env := .reference d' })

/-- The value of `RegRead(CR)` into the value in flight (R80 item 3): the last value written, but ABORT may read 0 under
the envelope. -/
def State.readCr (s : State) : State :=
  match s.env with
  | .envelope =>
    { s with
      tmpCr := if Config.freeAbortDone s.draws then setBit s.regs.cr 1 false else s.regs.cr
      draws := s.draws + 1 }
  | .reference _ => { s with tmpCr := s.regs.cr }

/-- The register file after a whole-register write (10_state.md R41). A write of FCR clears flags of SR (R45). -/
def Regs.write (r : Regs) (w : WholeReg) (v : Word) : Regs :=
  match w with
  | .fcr => { r with fcr := v, sr := fcrClear r.sr v }
  | .dlr => { r with dlr := v }
  | .ccr => { r with ccr := v }
  | .ar => { r with ar := v }
  | .abr => { r with abr := v }
  | .psmkr => { r with psmkr := v }
  | .psmar => { r with psmar := v }
  | .pir => { r with pir := v }
  | .lptr => { r with lptr := v }

/-- What the reference device does on a whole-register write (R84, R92, 10_state.md R45). -/
def RefDev.onWrite (p : Params) (free : Nat → Byte) (r : Regs) (w : WholeReg) (v : Word) (d : RefDev) : RefDev :=
  match w with
  | .fcr => d.onFcr v
  | .ccr => d.onCcr r
  | .ar => d.onAr p free r
  | .dlr | .abr | .psmkr | .psmar | .pir | .lptr => d

/-- `RegWrite(r, v)`. -/
def State.writeReg (s : State) (w : WholeReg) (v : Word) : State :=
  let r := s.regs.write w v
  match s.env with
  | .envelope => { s with regs := r }
  | .reference d =>
    { s with regs := r, env := .reference (d.onWrite s.params s.refBytes r w v), draws := s.draws + 1 }

/-- `RegWrite(CR, v)`. Under the reference device ABORT reads 0 from then on (R92). -/
def State.putCr (s : State) (v : Word) : State :=
  match s.env with
  | .envelope => { s with regs := { s.regs with cr := v } }
  | .reference d => { s with regs := { s.regs with cr := setBit v 1 false }, env := .reference (d.onCr v) }

/-- `RegWrite(CR, cr)` of the value in flight with its fields changed (10_state.md R42). -/
def State.writeCr (s : State) (e : CrEdit) : State := s.putCr (e.apply s.tmpCr)

/-- The trace with a byte added to its last entry's data (40_engine.md R131: "filled as bytes move"). -/
def appendData (b : Byte) : List TraceEntry → List TraceEntry
  | [] => []
  | [e] => [{ e with data := e.data ++ [b] }]
  | e :: rest => e :: appendData b rest

/-- `DR` after an 8-bit access: bits 7:0 hold the byte moved (log 17). -/
def dataByte (dr : Word) (b : Byte) : Word := (dr &&& 0xFFFFFF00) ||| b.setWidth 32

/-- `RegWrite8(DR, b)` of the byte in flight: the byte goes to the FIFO and into the trace. -/
def State.pushDr (s : State) : State :=
  let t := { s with
    regs := { s.regs with dr := dataByte s.regs.dr s.tmpByte }
    trace := appendData s.tmpByte s.trace }
  match s.env with
  | .envelope => t
  | .reference d =>
    { t with env := .reference (d.pushDr s.params s.refBytes s.tmpByte), draws := s.draws + 1 }

/-- `RegRead8(DR)` into the byte in flight (R80 item 2, R86). -/
def State.popDr (s : State) : State :=
  match s.env with
  | .envelope =>
    let b := Config.freeDr s.draws
    { s with
      tmpByte := b, regs := { s.regs with dr := dataByte s.regs.dr b }, trace := appendData b s.trace, draws := s.draws + 1 }
  | .reference d =>
    let (b, d') := d.popDr
    { s with tmpByte := b, regs := { s.regs with dr := dataByte s.regs.dr b }, trace := appendData b s.trace, env := .reference d' }

/-! ### The peripheral register space (20_memory.md R61, 10_state.md R41) -/

/-- The offset of a register from `P_QSPI_REG_BASE` (R41). -/
def PeriphReg.offset : PeriphReg → Nat
  | .cr => 0x00
  | .dcr => 0x04
  | .sr => 0x08
  | .fcr => 0x0C
  | .dlr => 0x10
  | .ccr => 0x14
  | .ar => 0x18
  | .abr => 0x1C
  | .dr => 0x20
  | .psmkr => 0x24
  | .psmar => 0x28
  | .pir => 0x2C
  | .lptr => 0x30

/-- The register at an offset. -/
def periphReg (off : Nat) : Option PeriphReg :=
  [.cr, .dcr, .sr, .fcr, .dlr, .ccr, .ar, .abr, .dr, .psmkr, .psmar, .pir, .lptr].find? fun r => r.offset == off

/-- The address of a register. -/
def regAddr (p : Params) (r : PeriphReg) : Nat := p.regBase.toNat + r.offset

/-- The register at an address of the peripheral register space. -/
def regAt (p : Params) (a : Nat) : Option PeriphReg :=
  if p.regBase.toNat ≤ a then periphReg (a - p.regBase.toNat) else none

/-- Which register a whole-register write names. -/
def WholeReg.reg : WholeReg → PeriphReg
  | .fcr => .fcr
  | .dlr => .dlr
  | .ccr => .ccr
  | .ar => .ar
  | .abr => .abr
  | .psmkr => .psmkr
  | .psmar => .psmar
  | .pir => .pir
  | .lptr => .lptr

/-- A 32-bit write at an address (R61). The sequencer's are to `CR` and to the registers it writes whole (R41); one anywhere
else would change nothing, and no step makes one. -/
def State.busWrite (s : State) (a : Nat) (v : Word) : State :=
  match regAt s.params a with
  | some .cr => s.putCr v
  | some .fcr => s.writeReg .fcr v
  | some .dlr => s.writeReg .dlr v
  | some .ccr => s.writeReg .ccr v
  | some .ar => s.writeReg .ar v
  | some .abr => s.writeReg .abr v
  | some .psmkr => s.writeReg .psmkr v
  | some .psmar => s.writeReg .psmar v
  | some .pir => s.writeReg .pir v
  | some .lptr => s.writeReg .lptr v
  | some .dcr | some .sr | some .dr | none => s

/-- A 32-bit read at an address: of `SR`, answered with its sample, or of `CR`, into the value in flight. No step reads
another register. -/
def State.busRead (s : State) (a : Nat) : Word × State :=
  match regAt s.params a with
  | some .sr => s.readSr
  | some .cr => (s.readCr.tmpCr, s.readCr)
  | _ => (0, s)

/-- An 8-bit write at an address (R68): of `DR`, from the byte in flight. No step makes another. -/
def State.busWrite8 (s : State) (a : Nat) : State :=
  match regAt s.params a with
  | some .dr => s.pushDr
  | _ => s

/-- An 8-bit read at an address: of `DR`, into the byte in flight. No step makes another. -/
def State.busRead8 (s : State) (a : Nat) : State :=
  match regAt s.params a with
  | some .dr => s.popDr
  | _ => s

/-! ### Host memory and the staging buffer (00_scope.md R12) -/

/-- Does the launch memory admit a byte access at `a` (42_flash_operations.md R192)? -/
def State.admits (s : State) (a : Nat) : Bool :=
  s.admitted.any fun r => decide (r.base ≤ a) && decide (a < r.base + r.size) && decide (a < 2 ^ Config.hostAddrBits)

/-- The byte of host memory at `a`. -/
def State.memByte (s : State) (a : Nat) : Byte := cellRead hostDefault s.hostMem a

/-- `MemRead(a, 1)` into the byte in flight; stuck where the launch memory does not admit it (20_memory.md R62). -/
def State.memRead (s : State) (a : Nat) : Out :=
  if s.admits a then .next { s with tmpByte := s.memByte a } else .fault .hostAccess

/-- `MemWrite(a, 1, b)`; stuck where the launch memory does not admit it. -/
def State.memWrite (s : State) (a : Nat) (b : Byte) : Out :=
  if s.admits a then .next { s with hostMem := cellWrite hostDefault s.hostMem a b } else .fault .hostAccess

/-- The byte of the staging buffer at index `k`. -/
def State.stgByte (s : State) (k : Nat) : Byte := cellRead stgDefault s.stg k

/-- A read of `STG[k]` into the byte in flight. -/
def State.stgRead (s : State) (k : Nat) : Out :=
  if k < s.params.page then .next { s with tmpByte := s.stgByte k } else .fault .stagingIndex

/-- A write of `STG[k]`. -/
def State.stgWrite (s : State) (k : Nat) (b : Byte) : Out :=
  if k < s.params.page then .next { s with stg := cellWrite stgDefault s.stg k b } else .fault .stagingIndex

end Sys2Proof.Machine
end

