-- ==== Sys2Proof/Machine/Operands.lean ====
section
/-! DEFINITION. Every operand form: the argument registers a command reads (30_encoding.md R112, R113), the buffer
references (00_scope.md R12), the well-formedness of a descriptor (R109), and the checks a command makes of its operands
(42_flash_operations.md R193 to R197). -/

namespace Sys2Proof.Machine

/-! ### Argument registers -/

/-- The argument registers a command reads (30_encoding.md R112, R113). -/
def argsOf : Instr → List (Fin 6)
  | .programPage | .read | .verify | .blankCheck | .write => [0, 1, 2]
  | .eraseSector => [0]
  | .eWrite | .eRead => [0, 1, 2, 3, 4]
  | .ePoll => [0, 1, 2, 3, 4, 5]
  | .eMmap => [0, 2, 3]
  | .init | .eraseChip | .mmap | .eAbort | .eDeinit => []
  | .tWren | .tPollWel | .tPollWip | .tRsten | .tRst | .tRdcr | .tWrvcr | .tSe _ | .tCe => []
  | .tQpp _ _ _ | .tQread _ _ _ | .tQreadMmap => []

/-- Some argument register the command reads has never been written (42_flash_operations.md R190 item 3). -/
def State.argsMissing (s : State) (i : Instr) : Bool := (argsOf i).any fun k => (s.port.arg k).isNone

/-- The pattern operand of a `BLANK_CHECK` with bits 31:8 set (30_encoding.md R116). -/
def badPattern (v : Word) : Bool := v.extractLsb' 8 24 != 0

/-- An operand copied from its argument register (10_state.md R36); used after `argsMissing` is ruled out. -/
def State.arg (s : State) (k : Fin 6) : Word := (s.port.arg k).getD 0

/-! ### Buffers (00_scope.md R12) -/

/-- `BufRead(ref, i)` into the byte in flight. A host address does not wrap (42_flash_operations.md R197). -/
def State.bufRead (s : State) (b : BufRef) (i : Nat) : Out :=
  match b with
  | .host a => s.memRead (a.toNat + i)
  | .stg => s.stgRead i
  | .cfgbuf => .next { s with tmpByte := s.cfgbuf }

/-- `BufWrite(ref, i, b)` of the byte in flight. -/
def State.bufWrite (s : State) (b : BufRef) (i : Nat) : Out :=
  match b with
  | .host a => s.memWrite (a.toNat + i) s.tmpByte
  | .stg => s.stgWrite i s.tmpByte
  | .cfgbuf => .next { s with cfgbuf := s.tmpByte }

/-- The transfer the descriptor latch holds: its length and its buffer. -/
def State.latchedLen (s : State) : Nat :=
  match s.desc with
  | some (.transfer t) => t.len.toNat
  | _ => 0

def State.latchedBuf (s : State) : BufRef :=
  match s.desc with
  | some (.transfer t) => t.buf
  | _ => .cfgbuf

/-! ### Descriptors (30_encoding.md R109) -/

/-- Items 1 and 2: the dummy count, and the address and alternate values within their sizes. -/
def headerOk (h : Header) : Bool :=
  decide (h.dcyc.toNat ≤ 31) &&
  (h.admode == .none || decide (h.addr.toNat < 2 ^ h.adsize.bits)) &&
  (h.abmode == .none || decide (h.alt.toNat < 2 ^ h.absize.bits))

/-- Items 3 to 5: a length exactly with a data phase; a sample of 1 to 4 bytes with a data phase; a data phase. -/
def descriptorOk : Descriptor → Bool
  | .transfer t => headerOk t.hdr && (decide (t.len ≠ 0) == decide (t.hdr.dmode ≠ .none))
  | .poll d => headerOk d.hdr && decide (d.hdr.dmode ≠ .none) && decide (1 ≤ d.sample) && decide (d.sample ≤ 4)
  | .map d => headerOk d.hdr && decide (d.hdr.dmode ≠ .none)

/-! ### Raw engine operands (30_encoding.md R113) -/

/-- The transfer of `E_WRITE` and `E_READ`: HDR, addr, alt, len, buf in ARG0 to ARG4; `none` when a reserved bit is set
(R109 item 6). -/
def State.rawTransfer (s : State) : Option Transaction :=
  (decodeHdr (s.arg 0) (s.arg 1) (s.arg 2)).map fun h => { hdr := h, len := s.arg 3, buf := .host (s.arg 4) }

/-- The poll of `E_POLL`: HDR, addr, alt, PCFG, match, mask in ARG0 to ARG5. -/
def State.rawPoll (s : State) : Option PollDescriptor :=
  (decodeHdr (s.arg 0) (s.arg 1) (s.arg 2)).bind fun h => decodePcfg (s.arg 3) h (s.arg 4) (s.arg 5)

/-- The mapping of `E_MMAP`: HDR, alt, MCFG in ARG0, ARG2, ARG3; it has no address operand. DESIGN CHOICE (log 36): its
header's address value is 0, so that item 2 of R109 always passes for it. -/
def State.rawMap (s : State) : Option MemoryMapDescriptor :=
  (decodeHdr (s.arg 0) 0 (s.arg 2)).bind fun h => decodeMcfg (s.arg 3) h

/-! ### The checks of a flash-layer command (42_flash_operations.md R193) -/

/-- Items 1 and 2, for every flash-layer command: `EngineDisabled`, then `MmapActive`. -/
def State.engineChecks (s : State) : List (Bool × FaultReason) :=
  [(!crEn s.regs.cr, .engineDisabled), (s.mmapActive, .mmapActive)]

/-- The flash range check of a command with `dest` and `size` (R194). -/
def rangeBad (p : Params) (dest n : Word) : Bool :=
  !(decide (dest.toNat < p.size) && decide (dest.toNat + n.toNat ≤ p.size))

/-- The host range check (R197). -/
def hostRangeBad (b n : Word) : Bool := !hostRangeOk b n

/-- The size check of `PROGRAM_PAGE` (R195). -/
def pageSizeBad (p : Params) (n : Word) : Bool := !(decide (1 ≤ n.toNat) && decide (n.toNat ≤ p.page))

/-- The page-boundary check (R196). -/
def pageCrossBad (p : Params) (dest n : Word) : Bool := !decide (dest.toNat % p.page + n.toNat ≤ p.page)

/-- The checks of `PROGRAM_PAGE` in their order (R193, 60_exceptions.md R249). -/
def State.programChecks (s : State) (dest n src : Word) : List (Bool × FaultReason) :=
  s.engineChecks ++
    [(pageSizeBad s.params n, .size), (rangeBad s.params dest n, .range), (hostRangeBad src n, .range),
      (pageCrossBad s.params dest n, .pageCross)]

/-- The checks of `READ`. -/
def State.readChecks (s : State) (dest n buf : Word) : List (Bool × FaultReason) :=
  s.engineChecks ++ [(decide (n = 0), .size), (rangeBad s.params dest n, .range), (hostRangeBad buf n, .range)]

/-- The checks of `VERIFY` and of `WRITE` for its whole range. -/
def State.bufferChecks (s : State) (dest n src : Word) : List (Bool × FaultReason) :=
  s.engineChecks ++ [(rangeBad s.params dest n, .range), (hostRangeBad src n, .range)]

/-- The checks of `BLANK_CHECK`. -/
def State.blankChecks (s : State) (dest n : Word) : List (Bool × FaultReason) :=
  s.engineChecks ++ [(rangeBad s.params dest n, .range)]

/-- The checks of `ERASE_SECTOR` (R194). -/
def State.eraseChecks (s : State) (addr : Word) : List (Bool × FaultReason) :=
  s.engineChecks ++ [(!decide (addr.toNat < s.params.size), .range)]

end Sys2Proof.Machine
end

