-- ==== Sys2Proof/Machine/Engine.lean ====
section
/-! DEFINITION. The engine operations (40_engine.md): their guards, the steps of each in the order its pseudocode lists
them, and how each starts. -/

namespace Sys2Proof.Machine

/-! ### Guards (40_engine.md R130) -/

/-- The guards of an operation with a descriptor, in order: the descriptor (`bad`), the enable, the mapped mode. -/
def State.guardChecks (s : State) (bad : Bool) : List (Bool × FaultReason) :=
  [(bad, .badDescriptor), (!crEn s.regs.cr, .engineDisabled), (s.mmapActive, .mmapActive)]

/-! ### Steps (R131 to R138) -/

/-- `Setup(h, fm, n)` (R131): DLR when there is a payload, CCR, ABR, AR, and the trace entry. -/
def setupOps (op : EngineOp) (h : Header) (fm : FrameMode) (n : Word) : List Op :=
  (if n = 0 then [] else [.writeReg .dlr (n - 1)]) ++
  [.writeReg .ccr (packCcr h fm), .writeReg .abr h.alt, .writeReg .ar h.addr,
    .emit { op := op, ccr := packCcr h fm, ar := some h.addr, abr := h.alt,
            dlr := if n = 0 then none else some (n - 1), data := [] }]

/-- The idle wait (R132), up to `pc <- ESetup`. -/
def startOps : List Op := [.setEng .waitIdle, .wait .busyClear 0, .setEng .setup]

/-- `EndOfTransfer()` (R135) and the operation's end (R143). -/
def endOfTransferOps : List Op :=
  [.setEng .waitTc, .wait .transferComplete 0, .writeReg .fcr fcrCtcf, .setEng .idle, .dropDesc]

/-- The steps of `E_WRITE` after its guards (R134). -/
def writeOps (t : Transaction) : List Op :=
  startOps ++ setupOps .eWrite t.hdr .indirectWrite t.len ++ [.writeLoop true] ++ endOfTransferOps

/-- The steps of `E_READ` after its guards (R136). -/
def readOps (t : Transaction) : List Op :=
  startOps ++ setupOps .eRead t.hdr .indirectRead t.len ++ [.readLoop true] ++ endOfTransferOps

/-- The steps of `E_POLL` after its guards (R137). -/
def pollOps (d : PollDescriptor) : List Op :=
  startOps ++ [.writeReg .psmar d.matchVal, .writeReg .psmkr d.mask,
    .writeReg .pir (d.interval.setWidth 32), .readCr, .writeCr (.poll d.pmm d.apms)] ++
  setupOps .ePoll d.hdr .autoPoll (BitVec.ofNat 32 d.sample) ++
  [.setEng .waitSm, .wait .statusMatch 0, .writeReg .fcr fcrCsmf, .setEng .idle, .dropDesc]

/-- The steps of `E_MMAP` after its guards (R138): ABR before CCR, no DLR, no AR, no wait after. -/
def mapOps (d : MemoryMapDescriptor) : List Op :=
  startOps ++ [.writeReg .lptr (d.period.setWidth 32), .readCr, .writeCr (.tcen d.tcen),
    .writeReg .abr d.hdr.alt, .writeReg .ccr (packCcr d.hdr .memoryMapped),
    .emit { op := .eMmap, ccr := packCcr d.hdr .memoryMapped, ar := none, abr := d.hdr.alt, dlr := none, data := [] },
    .setMmap true, .setEng .idle, .dropDesc]

/-- The steps of `E_ABORT` after its guard (R140). -/
def abortOps : List Op :=
  [.readCr, .writeCr .abort, .setMmap false, .setEng .abortWait, .abortWait 0, .setEng .idle]

/-- The steps of `E_DEINIT` (R142). -/
def deinitOps : List Op := [.readCr, .writeCr .disable, .setMmap false]

/-- An operation passes its guards: the descriptor is latched in `D` (10_state.md R31), and its steps come before whatever
the caller has still to do. -/
def State.latch (s : State) (d : Descriptor) (ops : List Op) : State := { s with desc := some d, todo := ops ++ s.todo }

/-- Start an engine operation on a descriptor (R130): a failed guard faults and accesses no register. -/
def State.startEngine (s : State) (d : Descriptor) (ops : List Op) : Out :=
  match firstFault (s.guardChecks (!descriptorOk d)) with
  | some f => .next (s.raiseFault f)
  | none => .next (s.latch d ops)

/-- `E_WRITE(t)` (R134). -/
def State.startWrite (s : State) (t : Transaction) : Out := s.startEngine (.transfer t) (writeOps t)

/-- `E_READ(t)` (R136). -/
def State.startRead (s : State) (t : Transaction) : Out := s.startEngine (.transfer t) (readOps t)

/-- `E_POLL(d)` (R137). -/
def State.startPoll (s : State) (d : PollDescriptor) : Out := s.startEngine (.poll d) (pollOps d)

/-- `E_MMAP(d)` (R138). -/
def State.startMap (s : State) (d : MemoryMapDescriptor) : Out := s.startEngine (.map d) (mapOps d)

/-! ### Starting a host command (42_flash_operations.md R190) -/

/-- A host command that starts: `fsm` leaves Idle with the write of `CMDR`, the steps of its rule are ahead, and `i` is the
command in progress. -/
def State.begin (s : State) (i : Instr) (f : FsmStep) (ops : List Op) : State :=
  { s with current := some i, fsm := f, cfgSaved := none, todo := ops }

/-- The checks of every command start (R190 items 1 and 3), then the command's own rule. On a faulted block a host
write has no step (60_exceptions.md R248). -/
def State.startCommand (s : State) (i : Instr) (body : State → Out) : Out :=
  if s.faulted then .fault .blockFaulted
  else if s.busy then .next (s.raiseFault .reentry)
  else if s.argsMissing i then .next (s.raiseFault .unwritten)
  else body s

/-- A raw engine command (R190): its guards (R130), then its engine operation with `fsm = EngineCommand`, and at the
end `Ok`. -/
def State.startRaw (s : State) (i : Instr) (d : Descriptor) (ops : List Op) : Out :=
  match firstFault (s.guardChecks (!descriptorOk d)) with
  | some f => .next (s.raiseFault f)
  | none => .next ((s.begin i .engineCommand [.finish .ok 0]).latch d ops)

/-- `E_WRITE` from the host port; a set reserved bit of HDR faults (R109 item 6). -/
def startEWrite (s : State) : Out :=
  s.startCommand .eWrite fun s =>
    match s.rawTransfer with
    | none => .next (s.raiseFault .badDescriptor)
    | some t => s.startRaw .eWrite (.transfer t) (writeOps t)

/-- `E_READ` from the host port. -/
def startERead (s : State) : Out :=
  s.startCommand .eRead fun s =>
    match s.rawTransfer with
    | none => .next (s.raiseFault .badDescriptor)
    | some t => s.startRaw .eRead (.transfer t) (readOps t)

/-- `E_POLL` from the host port. -/
def startEPoll (s : State) : Out :=
  s.startCommand .ePoll fun s =>
    match s.rawPoll with
    | none => .next (s.raiseFault .badDescriptor)
    | some d => s.startRaw .ePoll (.poll d) (pollOps d)

/-- `E_MMAP` from the host port. -/
def startEMmap (s : State) : Out :=
  s.startCommand .eMmap fun s =>
    match s.rawMap with
    | none => .next (s.raiseFault .badDescriptor)
    | some d => s.startRaw .eMmap (.map d) (mapOps d)

/-- `E_ABORT` (R140): its one guard is the enable. -/
def startEAbort (s : State) : Out :=
  s.startCommand .eAbort fun s =>
    match firstFault [(!crEn s.regs.cr, .engineDisabled)] with
    | some f => .next (s.raiseFault f)
    | none => .next (s.begin .eAbort .engineCommand (abortOps ++ [.finish .ok 0]))

/-- `E_DEINIT` (R142): no guard. -/
def startEDeinit (s : State) : Out :=
  s.startCommand .eDeinit fun s => .next (s.begin .eDeinit .engineCommand (deinitOps ++ [.finish .ok 0]))

end Sys2Proof.Machine
end

