-- ==== Sys2Proof/Machine/Transactions.lean ====
section
/-! DEFINITION. The twelve flash transactions (41_flash_transactions.md): the descriptor of each and how it starts, and
the protocols made of them (R170, R171). -/

namespace Sys2Proof.Machine

/-! ### Descriptors (30_encoding.md R114) -/

/-- A transaction with no data phase (`T_WREN`, `T_RSTEN`, `T_RST`, `T_SE`, `T_CE`). R101 gives a transaction one of three
buffer references, and 41_flash_transactions.md R160 gives this one none. DESIGN CHOICE (log 40): its field holds `CFGBUF`,
which no step accesses, because `len = 0`. -/
def commandOnly (h : Header) : Transaction := { hdr := h, len := 0, buf := .cfgbuf }

/-- The poll of `T_POLL_WEL` (R161) and `T_POLL_WIP` (R162): AND mode, auto-stop, one status byte. -/
def statusPoll (p : Params) (matchVal mask : Byte) : PollDescriptor where
  hdr := statusHeader p
  matchVal := matchVal.setWidth 32
  mask := mask.setWidth 32
  pmm := false
  interval := p.pollInterval
  apms := true
  sample := 1

/-- The transaction of `T_RDCR` (R166). -/
def configRead (p : Params) : Transaction := { hdr := { plainHeader p.opc.rdcr with dmode := .one }, len := 1, buf := .cfgbuf }

/-- The transaction of `T_WRVCR` (R167). -/
def configWrite (p : Params) : Transaction :=
  { hdr := { plainHeader p.opc.wrvcr with dmode := .one }, len := 1, buf := .cfgbuf }

/-- The transaction of `T_QPP` (R172). -/
def quadProgram (p : Params) (dest n src : Word) : Transaction :=
  { hdr := quadProgramHeader p dest, len := n, buf := .host src }

/-- The transaction of `T_QREAD` (R173). -/
def quadRead (p : Params) (dest n : Word) (buf : BufRef) : Transaction :=
  { hdr := quadReadHeader p dest, len := n, buf := buf }

/-- The descriptor of `T_QREAD_MMAP` (R174). -/
def quadReadMap (p : Params) : MemoryMapDescriptor :=
  { hdr := quadReadHeader p 0, tcen := p.mmapTcen, period := p.mmapPeriod }

/-! ### Starts -/

/-- A transaction is issued by the FSM while a command runs. Standing alone on an idle block it runs as a raw engine
command does (30_encoding.md R119): `fsm = EngineCommand`, and `Ok` at the end (log 6). A faulted block takes no step. -/
def State.startTx (s : State) (i : Instr) (body : State → Out) : Out :=
  if s.faulted then .fault .blockFaulted
  else if s.fsm = .idle then body (s.begin i .engineCommand [.finish .ok 0])
  else body s

/-- `T_WREN` (R160). -/
def startTWren (s : State) : Out :=
  s.startTx .tWren fun s => s.startWrite (commandOnly (plainHeader s.params.opc.wren))

/-- `T_POLL_WEL` (R161): match and mask are the latch bit. -/
def startTPollWel (s : State) : Out :=
  s.startTx .tPollWel fun s => s.startPoll (statusPoll s.params s.params.welMask s.params.welMask)

/-- `T_POLL_WIP` (R162): match 0, mask the busy bit. -/
def startTPollWip (s : State) : Out :=
  s.startTx .tPollWip fun s => s.startPoll (statusPoll s.params 0 s.params.wipMask)

/-- `T_RSTEN` (R163). -/
def startTRsten (s : State) : Out :=
  s.startTx .tRsten fun s => s.startWrite (commandOnly (plainHeader s.params.opc.rsten))

/-- `T_RST` (R164). -/
def startTRst (s : State) : Out :=
  s.startTx .tRst fun s => s.startWrite (commandOnly (plainHeader s.params.opc.rst))

/-- `T_RDCR` (R166): one byte into `CFGBUF`, which goes back to what it is now if the read fails (log 37). -/
def startTRdcr (s : State) : Out :=
  s.startTx .tRdcr fun s => { s with cfgSaved := some s.cfgbuf }.startRead (configRead s.params)

/-- `T_WRVCR` (R167): `CFGBUF <- CFGBUF | P_QE_MASK`, and the write of one byte from it ahead. -/
def startTWrvcr (s : State) : Out :=
  s.startTx .tWrvcr fun s => .next { s with cfgbuf := s.cfgbuf ||| s.params.qeMask, todo := .configWrite :: s.todo }

/-- The `E_WRITE` of `T_WRVCR`. -/
def State.startConfigWrite (s : State) : Out := s.startWrite (configWrite s.params)

/-- `T_SE` (R168): the address unchanged. -/
def startTSe (addr : Word) (s : State) : Out :=
  s.startTx (.tSe addr) fun s => s.startWrite (commandOnly (sectorEraseHeader s.params addr))

/-- `T_CE` (R169). -/
def startTCe (s : State) : Out :=
  s.startTx .tCe fun s => s.startWrite (commandOnly (plainHeader s.params.opc.ce))

/-- `T_QPP` (R172). -/
def startTQpp (dest n src : Word) (s : State) : Out :=
  s.startTx (.tQpp dest n src) fun s => s.startWrite (quadProgram s.params dest n src)

/-- `T_QREAD` (R173). -/
def startTQread (dest n : Word) (buf : BufRef) (s : State) : Out :=
  s.startTx (.tQread dest n buf) fun s => s.startRead (quadRead s.params dest n buf)

/-- `T_QREAD_MMAP` (R174). -/
def startTQreadMmap (s : State) : Out :=
  s.startTx .tQreadMmap fun s => s.startMap (quadReadMap s.params)

/-! ### Protocols -/

/-- The write-enable protocol `WEN` after its first `pc <- WriteEnablePending` (R170). -/
def wenOps : List Op := [.issue .tWren, .issue .tPollWel, .setFsm .writeEnableConfirmed]

/-- The busy-poll protocol `BUSYWAIT` (R171). -/
def busyWaitOps : List Op := [.setFsm .busyPolling, .issue .tPollWip]

end Sys2Proof.Machine
end

