-- ==== Sys2Proof/Machine/FlashLayer.lean ====
section
/-! DEFINITION. The flash-layer commands (42_flash_operations.md) and the orchestrator's `WRITE`
(43_write_orchestrator.md): the steps of each and how each starts. -/

namespace Sys2Proof.Machine

/-- A flash-layer command: its checks in order (R193); passed, the command begins. -/
def State.startFlash (s : State) (checks : List (Bool × FaultReason)) (t : State) : Out :=
  match firstFault checks with
  | some f => .next (s.raiseFault f)
  | none => .next t

/-- The steps of a mutating command after `WriteEnablePending` (R198): WEN, the mutating transaction `x`, BUSYWAIT. -/
def mutateOps (x : Instr) : List Op := wenOps ++ [.setFsm .commandIssued, .issue x] ++ busyWaitOps

/-- The steps of `INIT` up to its configuration read (R200). -/
def initOps : List Op :=
  [.issue .tRsten, .issue .tRst, .setFsm .busyPolling, .issue .tPollWip, .setFsm .configReading, .issue .tRdcr, .qeCheck]

/-- The steps of `INIT` when the quad-enable bit is clear, after `pc <- WriteEnablePending` (R200, R202). -/
def quadEnableOps (p : Params) : List Op :=
  (if p.initWelPoll then wenOps else [.issue .tWren]) ++
  [.setFsm .configWriting, .issue .tWrvcr] ++
  (if p.initCfgBusyPoll then busyWaitOps else [])

/-- `INIT` (R200). -/
def startInit (s : State) : Out :=
  s.startCommand .init fun s => s.startFlash s.engineChecks (s.begin .init .resetIssued initOps)

/-- `PROGRAM_PAGE dest, size, src` (R206). -/
def startProgramPage (s : State) : Out :=
  s.startCommand .programPage fun s =>
    s.startFlash (s.programChecks (s.arg 0) (s.arg 1) (s.arg 2))
      (s.begin .programPage .writeEnablePending (mutateOps (.tQpp (s.arg 0) (s.arg 1) (s.arg 2)) ++ [.finish .ok 0]))

/-- `ERASE_SECTOR addr` (R210). -/
def startEraseSector (s : State) : Out :=
  s.startCommand .eraseSector fun s =>
    s.startFlash (s.eraseChecks (s.arg 0))
      (s.begin .eraseSector .writeEnablePending (mutateOps (.tSe (s.arg 0)) ++ [.finish .ok 0]))

/-- `ERASE_CHIP` (R213). -/
def startEraseChip (s : State) : Out :=
  s.startCommand .eraseChip fun s =>
    s.startFlash s.engineChecks (s.begin .eraseChip .writeEnablePending (mutateOps .tCe ++ [.finish .ok 0]))

/-- `READ dest, size, buf` (R216). -/
def startReadCommand (s : State) : Out :=
  s.startCommand .read fun s =>
    s.startFlash (s.readChecks (s.arg 0) (s.arg 1) (s.arg 2))
      (s.begin .read .reading [.issue (.tQread (s.arg 0) (s.arg 1) (.host (s.arg 2))), .finish .ok 0])

/-- `VERIFY dest, size, src` (R222). -/
def startVerify (s : State) : Out :=
  s.startCommand .verify fun s =>
    s.startFlash (s.bufferChecks (s.arg 0) (s.arg 1) (s.arg 2))
      (s.begin .verify .comparing
        [.setWork .addr (s.arg 0), .setWork .buf (s.arg 2), .setWork .rem (s.arg 1), .setWork .done 0, .verifyLoop])

/-- `BLANK_CHECK dest, size, pattern` (R224); a pattern operand with bits 31:8 set faults after `Unwritten`
(R190 items 3 and 4, log 32) and before the other checks. -/
def startBlankCheck (s : State) : Out :=
  s.startCommand .blankCheck fun s =>
    s.startFlash ((badPattern (s.arg 2), .illegalCommand) :: s.blankChecks (s.arg 0) (s.arg 1))
      (s.begin .blankCheck .comparing
        [.setWork .addr (s.arg 0), .setWork .rem (s.arg 1), .blankLoop ((s.arg 2).extractLsb' 0 8)])

/-- `MMAP` (R227). -/
def startMmap (s : State) : Out :=
  s.startCommand .mmap fun s =>
    s.startFlash s.engineChecks (s.begin .mmap .mapEntering [.issue .tQreadMmap, .finish .ok 0])

/-! ### Working registers (10_state.md R28) -/

/-- `W_x <- v`. -/
def State.setWork (s : State) (r : WorkReg) (v : Word) : State :=
  match r with
  | .addr => { s with wAddr := v }
  | .buf => { s with wBuf := v }
  | .rem => { s with wRem := v }
  | .done => { s with wDone := v }
  | .n => { s with wN := v }

/-- The advance of a working register by `W_N` (R222, R224, 43_write_orchestrator.md R230). DESIGN CHOICE (log 35): after
the last bytes of a host range that ends at 2^32 the 32 bits of `W_BUF` hold 0, which no rule reads. -/
def State.advance (s : State) (r : WorkReg) : State :=
  match r with
  | .addr => { s with wAddr := s.wAddr + s.wN }
  | .buf => { s with wBuf := s.wBuf + s.wN }
  | .rem => { s with wRem := s.wRem - s.wN }
  | .done => { s with wDone := s.wDone + s.wN }
  | .n => s

/-! ### Chunks of `VERIFY` and `BLANK_CHECK` (R220) -/

/-- The size of the next chunk: `min(W_REM, P_PAGE)`. -/
def State.chunk (s : State) : Word := if s.wRem.toNat ≤ s.params.page then s.wRem else BitVec.ofNat 32 s.params.page

/-- The steps of one chunk once `W_N` holds its size: the read into `STG`, the comparisons (R221), the advance. -/
def State.chunkOps (s : State) (pattern : Option Byte) (tail : List Op) : List Op :=
  .issue (.tQread s.wAddr s.chunk .stg) :: .compareLoop true pattern :: tail

/-- The advance after a chunk of `VERIFY`, and its loop again. -/
def verifyTail : List Op := [.advance .done, .advance .addr, .advance .buf, .advance .rem, .verifyLoop]

/-- The advance after a chunk of `BLANK_CHECK`, and its loop again. -/
def blankTail (pattern : Byte) : List Op := [.advance .addr, .advance .rem, .blankLoop pattern]

/-- The head of `VERIFY`'s loop: another chunk, or the end with `RESCNT = W_DONE` (R222). -/
def State.verifyLoop (s : State) : State :=
  if s.wRem = 0 then s.endCommand .ok s.wDone else { s with wN := s.chunk, todo := s.chunkOps none verifyTail }

/-- The head of `BLANK_CHECK`'s loop (R224). -/
def State.blankLoop (s : State) (pattern : Byte) : State :=
  if s.wRem = 0 then s.endCommand .ok 0
  else { s with wN := s.chunk, todo := s.chunkOps (some pattern) (blankTail pattern) }

/-- The assignment of the index `i` at the head of a `for` loop over `0 .. n - 1` (10_state.md R23), a step of its own.
DESIGN CHOICE (log 39): the head that ends the loop assigns too, so that `i` is `n` after the last iteration, and 0 after a
loop over nothing; the rules give `i` no value there and none reads it. -/
def State.nextIdx (s : State) (first : Bool) : State := { s with idx := if first then 0 else s.idx + 1 }

/-- The accesses of one comparison (R221). -/
def compareOps : Option Byte → List Op
  | none => [.fetchStg, .compareHost]
  | some b => [.compareStg b]

/-- The head of the comparison loop (R221): the next byte of the chunk, or on to the advance. -/
def State.compareLoop (s : State) (first : Bool) (pattern : Option Byte) : State :=
  let t := s.nextIdx first
  if t.idx.toNat < t.wN.toNat then { t with todo := compareOps pattern ++ .compareLoop false pattern :: t.todo } else t

/-- A mismatch ends the command (R222, R224). -/
def State.mismatch (s : State) (count : Word) : State := { s with todo := [.finish .verifyMismatch count] }

/-- `MemRead(W_BUF + i, 1)` against the byte of `STG` in flight (R222): `RESCNT` of a mismatch is the index of the byte in
the whole range. A host byte the launch memory does not admit leaves the sequencer stuck (20_memory.md R62). -/
def State.compareHost (s : State) : Out :=
  let a := s.wBuf.toNat + s.idx.toNat
  if s.admits a then .next (if s.tmpByte = s.memByte a then s else s.mismatch (s.wDone + s.idx)) else .fault .hostAccess

/-- `STG[i]` against the pattern (R224). -/
def State.compareStg (s : State) (pattern : Byte) : Out :=
  andThen (s.stgRead s.idx.toNat) fun t => .next (if t.tmpByte = pattern then t else t.mismatch 0)

/-- `INIT` after its configuration read: `Ok` when the quad-enable bit is set, else `pc <- WriteEnablePending` (R200,
R203). -/
def State.qeCheck (s : State) : State :=
  if s.cfgbuf &&& s.params.qeMask ≠ 0 then s.endCommand .ok 0
  else { s with fsm := .writeEnablePending, todo := quadEnableOps s.params ++ [.finish .ok 0] }

/-! ### The orchestrator (43_write_orchestrator.md) -/

/-- `WRITE dest, size, src` (R230): its checks are for the whole range. -/
def startWriteCommand (s : State) : Out :=
  s.startCommand .write fun s =>
    s.startFlash (s.bufferChecks (s.arg 0) (s.arg 1) (s.arg 2))
      (s.begin .write .orchestrating
        [.setWork .addr (s.arg 0), .setWork .buf (s.arg 2), .setWork .rem (s.arg 1), .orchFirst])

/-- `FirstCond(r, off)` (R232). -/
def firstCond (p : Params) (r off : Nat) : Bool :=
  match p.orchRule with
  | .boundarySafe => decide (r > p.page - off)
  | .literal => decide (r > p.page)

/-- The advance after a page call, `pc <- Orchestrating`, and the loop again (R230). -/
def orchTail : List Op := [.advance .addr, .advance .buf, .advance .rem, .setFsm .orchestrating, .orchLoop]

/-- `W_N <- P_PAGE` and a page call while a whole page remains; `W_N <- W_REM` and the last call for the partial rest; else
the end (R230). -/
def State.orchLoop (s : State) : State :=
  if s.params.page ≤ s.wRem.toNat then { s with wN := BitVec.ofNat 32 s.params.page, todo := .callPage :: orchTail }
  else if s.wRem = 0 then s.endCommand .ok 0
  else { s with wN := s.wRem, todo := [.callPage, .finish .ok 0] }

/-- The first partial page, when the range crosses the end of the current one (R230); else the loop. -/
def State.orchFirst (s : State) : State :=
  let off := s.wAddr.toNat % s.params.page
  if off ≠ 0 && firstCond s.params s.wRem.toNat off then
    { s with wN := BitVec.ofNat 32 (s.params.page - off), todo := .callPage :: orchTail }
  else s.orchLoop

/-- `PROGRAM_PAGE(W_ADDR, W_N, W_BUF)` as a whole call: all its checks again, then its steps (R230, R206). -/
def State.callPage (s : State) : State :=
  match firstFault (s.programChecks s.wAddr s.wN s.wBuf) with
  | some f => s.raiseFault f
  | none => { s with fsm := .writeEnablePending, todo := mutateOps (.tQpp s.wAddr s.wN s.wBuf) ++ s.todo }

end Sys2Proof.Machine
end

