-- ==== Sys2Proof/Machine/Sequencer.lean ====
section
/-! DEFINITION. The sequencer: what one step does (10_state.md R26), the wait loops (40_engine.md R133, R141), when it
is the sequencer's turn, and a bounded number of its steps in a row. -/

namespace Sys2Proof.Machine

/-- The start of every instruction: what a command or transaction does at its first step. -/
def startInstr (i : Instr) (s : State) : Out :=
  match i with
  | .init => startInit s
  | .programPage => startProgramPage s
  | .eraseSector => startEraseSector s
  | .eraseChip => startEraseChip s
  | .read => startReadCommand s
  | .verify => startVerify s
  | .blankCheck => startBlankCheck s
  | .mmap => startMmap s
  | .write => startWriteCommand s
  | .eWrite => startEWrite s
  | .eRead => startERead s
  | .ePoll => startEPoll s
  | .eMmap => startEMmap s
  | .eAbort => startEAbort s
  | .eDeinit => startEDeinit s
  | .tWren => startTWren s
  | .tPollWel => startTPollWel s
  | .tPollWip => startTPollWip s
  | .tRsten => startTRsten s
  | .tRst => startTRst s
  | .tRdcr => startTRdcr s
  | .tWrvcr => startTWrvcr s
  | .tSe addr => startTSe addr s
  | .tCe => startTCe s
  | .tQpp dest n src => startTQpp dest n src s
  | .tQread dest n buf => startTQread dest n buf s
  | .tQreadMmap => startTQreadMmap s

/-! ### Wait loops -/

/-- A sample showed an error: its flags are cleared by one write of FCR, and the status is raised; no step of the
caller is left (40_engine.md R133, R144). -/
def State.sampleFailed (s : State) (v : Word) (st : Status) : State :=
  { s with todo := [.writeReg .fcr (errorClear v), .raise st] }

/-- The loop goes on with step `o`, unless its budget is spent after `k` samples (R133, R251). -/
def State.sampleAgain (s : State) (o : Op) (k : Nat) : State :=
  if budgetSpent s.params k then { s with todo := [.raise .exhausted] } else { s with todo := o :: s.todo }

/-- What `WaitUntil(c)` does with a sample `v` (R133): errors, then the condition, then the budget (60_exceptions.md
R246). -/
def State.onWait (s : State) (v : Word) (c : WaitCond) (k : Nat) : State :=
  match sampleError v with
  | some st => s.sampleFailed v st
  | none => if c.holds v then s else s.sampleAgain (.wait c (k + 1)) (k + 1)

/-- One sample of `WaitUntil(c)`. -/
def State.waitSample (s : State) (c : WaitCond) (k : Nat) : State :=
  let r := s.busRead (regAddr s.params .sr)
  r.2.onWait r.1 c k

/-- What `AbortWait` does with a sample `v` (R141): TCF and SMF are acknowledged; the loop ends on BUSY = TCF = SMF = 0. -/
def State.onAbortWait (s : State) (v : Word) (k : Nat) : State :=
  match sampleError v with
  | some st => s.sampleFailed v st
  | none =>
    if abortClear v ≠ 0 then
      let u := s.sampleAgain (.abortWait (k + 1)) (k + 1)
      { u with todo := .writeReg .fcr (abortClear v) :: u.todo }
    else if srBusy v then s.sampleAgain (.abortWait (k + 1)) (k + 1)
    else s

/-- One sample of `AbortWait`. -/
def State.abortSample (s : State) (k : Nat) : State :=
  let r := s.busRead (regAddr s.params .sr)
  r.2.onAbortWait r.1 k

/-! ### The byte loops (40_engine.md R134, R136) -/

/-- The head of `E_WRITE`'s loop: the next byte, or on to the end of transfer. -/
def State.writeLoop (s : State) (first : Bool) : State :=
  let t := s.nextIdx first
  if t.idx.toNat < t.latchedLen then
    { t with todo := .setEng .data :: .wait .fifo 0 :: .bufRead :: .drWrite :: .writeLoop false :: t.todo }
  else t

/-- The head of `E_READ`'s loop: the next byte, or on to the end of transfer. -/
def State.readLoop (s : State) (first : Bool) : State :=
  let t := s.nextIdx first
  if t.idx.toNat < t.latchedLen then
    { t with todo := .setEng .data :: .wait .fifo 0 :: .drRead :: .bufWrite :: .readLoop false :: t.todo }
  else t

/-! ### One step -/

/-- One sequencer step: `s` is the state with the step already taken off its list. -/
def seqOp (o : Op) (s : State) : Out :=
  match o with
  | .issue i => startInstr i s
  | .configWrite => s.startConfigWrite
  | .callPage => .next s.callPage
  | .setFsm f => .next { s with fsm := f }
  | .setEng e => .next { s with eng := e }
  | .wait c k => .next (s.waitSample c k)
  | .abortWait k => .next (s.abortSample k)
  | .writeReg r v => .next (s.busWrite (regAddr s.params r.reg) v)
  | .readCr => .next (s.busRead (regAddr s.params .cr)).2
  | .writeCr e => .next (s.busWrite (regAddr s.params .cr) (e.apply s.tmpCr))
  | .setMmap b => .next { s with mmapActive := b }
  | .emit e => .next { s with trace := s.trace ++ [e] }
  | .writeLoop first => .next (s.writeLoop first)
  | .bufRead => s.bufRead s.latchedBuf s.idx.toNat
  | .drWrite => .next (s.busWrite8 (regAddr s.params .dr))
  | .readLoop first => .next (s.readLoop first)
  | .drRead => .next (s.busRead8 (regAddr s.params .dr))
  | .bufWrite => s.bufWrite s.latchedBuf s.idx.toNat
  | .dropDesc => .next { s with desc := none, cfgSaved := none }
  | .qeCheck => .next s.qeCheck
  | .setWork r v => .next (s.setWork r v)
  | .advance r => .next (s.advance r)
  | .verifyLoop => .next s.verifyLoop
  | .blankLoop pattern => .next (s.blankLoop pattern)
  | .compareLoop first pattern => .next (s.compareLoop first pattern)
  | .fetchStg => s.stgRead s.idx.toNat
  | .compareHost => s.compareHost
  | .compareStg pattern => s.compareStg pattern
  | .orchFirst => .next s.orchFirst
  | .orchLoop => .next s.orchLoop
  | .raise st => .next (s.raiseStatus st)
  | .finish st n => .next (s.endCommand st n)

/-! ### Turns (log 4) -/

/-- Is the next host action due? It is once its sequencer steps have passed, or when the sequencer has nothing to do; the
host's own memory writes wait for the latter (10_state.md R26). -/
def hostDue (s : State) : Bool :=
  match s.hostIn with
  | [] => false
  | e :: _ =>
    s.todo.isEmpty || s.faulted ||
    (match e.act with
     | .memWrite _ _ => false
     | _ => e.after == some 0)

/-- The pending actions after one more sequencer step. -/
def tick : List HostEvent → List HostEvent
  | { after := some (k + 1), act := a } :: rest => { after := some k, act := a } :: rest
  | l => l

/-- The state as a sequencer step sees it: the step off its list, the host's next action one step nearer. -/
def State.takeOp (s : State) (rest : List Op) : State := { s with todo := rest, hostIn := tick s.hostIn }

/-- It is the sequencer's turn: it has a step, `FAULT` is not set (60_exceptions.md R248), and the host is not due. -/
def seqTurn (s : State) : Bool := !s.todo.isEmpty && !s.faulted && !hostDue s

/-- One sequencer step, if it is the sequencer's turn and the step is not stuck. -/
def seqStep (s : State) : Option State :=
  if seqTurn s then
    match s.todo with
    | [] => none
    | o :: rest =>
      match seqOp o (s.takeOp rest) with
      | .next t => some t
      | _ => none
  else none

/-- Up to `n` sequencer steps in a row: it stops when the command ends, when the host is due, when the block faults and
before a step that is stuck. -/
def runSeq : Nat → State → State
  | 0, s => s
  | n + 1, s =>
    match seqStep s with
    | some t => runSeq n t
    | none => s

/-- A step's outcome followed by the state's `burst` of sequencer steps (log 1). -/
def thenRun (o : Out) : Out := andThen o fun s => .next (runSeq s.burst s)

end Sys2Proof.Machine
end

