-- ==== Sys2Proof/Machine/FlashTransactions.lean ====
section
/-! DEFINITION. The meanings of the twelve flash transactions (41_flash_transactions.md): each is handed to the engine as
its rule says, and the state's burst of sequencer steps follows. -/

namespace Sys2Proof.Machine

/-- `T_WREN` (R160). -/
def execTWren (s : State) : Out := thenRun (startTWren s)

/-- `T_POLL_WEL` (R161). -/
def execTPollWel (s : State) : Out := thenRun (startTPollWel s)

/-- `T_POLL_WIP` (R162). -/
def execTPollWip (s : State) : Out := thenRun (startTPollWip s)

/-- `T_RSTEN` (R163). -/
def execTRsten (s : State) : Out := thenRun (startTRsten s)

/-- `T_RST` (R164). -/
def execTRst (s : State) : Out := thenRun (startTRst s)

/-- `T_RDCR` (R166). -/
def execTRdcr (s : State) : Out := thenRun (startTRdcr s)

/-- `T_WRVCR` (R167). -/
def execTWrvcr (s : State) : Out := thenRun (startTWrvcr s)

/-- `T_SE` (R168). -/
def execTSe (addr : Word) (s : State) : Out := thenRun (startTSe addr s)

/-- `T_CE` (R169). -/
def execTCe (s : State) : Out := thenRun (startTCe s)

/-- `T_QPP` (R172). -/
def execTQpp (dest n src : Word) (s : State) : Out := thenRun (startTQpp dest n src s)

/-- `T_QREAD` (R173). -/
def execTQread (dest n : Word) (buf : BufRef) (s : State) : Out := thenRun (startTQread dest n buf s)

/-- `T_QREAD_MMAP` (R174). -/
def execTQreadMmap (s : State) : Out := thenRun (startTQreadMmap s)

end Sys2Proof.Machine
end

