-- ==== Sys2Proof/Machine/HostCommands.lean ====
section
/-! DEFINITION. The meanings of the fifteen host commands (30_encoding.md R111): each starts as its rule says and then
takes the state's burst of sequencer steps. -/

namespace Sys2Proof.Machine

/-- `INIT` (42_flash_operations.md R200). -/
def execInit (s : State) : Out := thenRun (startInit s)

/-- `PROGRAM_PAGE` (R206). -/
def execProgramPage (s : State) : Out := thenRun (startProgramPage s)

/-- `ERASE_SECTOR` (R210). -/
def execEraseSector (s : State) : Out := thenRun (startEraseSector s)

/-- `ERASE_CHIP` (R213). -/
def execEraseChip (s : State) : Out := thenRun (startEraseChip s)

/-- `READ` (R216). -/
def execRead (s : State) : Out := thenRun (startReadCommand s)

/-- `VERIFY` (R222). -/
def execVerify (s : State) : Out := thenRun (startVerify s)

/-- `BLANK_CHECK` (R224). -/
def execBlankCheck (s : State) : Out := thenRun (startBlankCheck s)

/-- `MMAP` (R227). -/
def execMmap (s : State) : Out := thenRun (startMmap s)

/-- `WRITE` (43_write_orchestrator.md R230). -/
def execWrite (s : State) : Out := thenRun (startWriteCommand s)

/-- `E_WRITE` (40_engine.md R134). -/
def execEWrite (s : State) : Out := thenRun (startEWrite s)

/-- `E_READ` (R136). -/
def execERead (s : State) : Out := thenRun (startERead s)

/-- `E_POLL` (R137). -/
def execEPoll (s : State) : Out := thenRun (startEPoll s)

/-- `E_MMAP` (R138). -/
def execEMmap (s : State) : Out := thenRun (startEMmap s)

/-- `E_ABORT` (R140). -/
def execEAbort (s : State) : Out := thenRun (startEAbort s)

/-- `E_DEINIT` (R142). -/
def execEDeinit (s : State) : Out := thenRun (startEDeinit s)

end Sys2Proof.Machine
end

