-- ==== Sys2Proof/Machine/Dispatch.lean ====
section
/-! DEFINITION. Every instruction's meaning, one arm per constructor. -/

namespace Sys2Proof.Machine

def exec (i : Instr) (s : State) : Host.Outcome State Fault Refusal :=
  match i with
  | .init => Sys2Proof.Machine.execInit s
  | .programPage => Sys2Proof.Machine.execProgramPage s
  | .eraseSector => Sys2Proof.Machine.execEraseSector s
  | .eraseChip => Sys2Proof.Machine.execEraseChip s
  | .read => Sys2Proof.Machine.execRead s
  | .verify => Sys2Proof.Machine.execVerify s
  | .blankCheck => Sys2Proof.Machine.execBlankCheck s
  | .mmap => Sys2Proof.Machine.execMmap s
  | .write => Sys2Proof.Machine.execWrite s
  | .eWrite => Sys2Proof.Machine.execEWrite s
  | .eRead => Sys2Proof.Machine.execERead s
  | .ePoll => Sys2Proof.Machine.execEPoll s
  | .eMmap => Sys2Proof.Machine.execEMmap s
  | .eAbort => Sys2Proof.Machine.execEAbort s
  | .eDeinit => Sys2Proof.Machine.execEDeinit s
  | .tWren => Sys2Proof.Machine.execTWren s
  | .tPollWel => Sys2Proof.Machine.execTPollWel s
  | .tPollWip => Sys2Proof.Machine.execTPollWip s
  | .tRsten => Sys2Proof.Machine.execTRsten s
  | .tRst => Sys2Proof.Machine.execTRst s
  | .tRdcr => Sys2Proof.Machine.execTRdcr s
  | .tWrvcr => Sys2Proof.Machine.execTWrvcr s
  | .tSe addr => Sys2Proof.Machine.execTSe addr s
  | .tCe => Sys2Proof.Machine.execTCe s
  | .tQpp dest n src => Sys2Proof.Machine.execTQpp dest n src s
  | .tQread dest n buf => Sys2Proof.Machine.execTQread dest n buf s
  | .tQreadMmap => Sys2Proof.Machine.execTQreadMmap s

end Sys2Proof.Machine
end

