-- ==== Sys2Proof/Machine/HostPort.lean ====
section
/-! DEFINITION. The host's actions (10_state.md section 4, 20_memory.md R64), whose turn it is, and how an instruction is
placed so that the next step runs it. -/

namespace Sys2Proof.Machine

/-! ### Port registers (10_state.md R34) -/

/-- The registers of the command port. -/
inductive PortReg where
  | cmdr
  | arg (k : Fin 6)
  | resst
  | rescnt
  | hstat
deriving DecidableEq, Repr

/-- The register at a port offset; `none` is any other offset. -/
def portReg (off : Word) : Option PortReg :=
  if off = 0x00 then some .cmdr
  else if off = 0x04 then some (.arg 0)
  else if off = 0x08 then some (.arg 1)
  else if off = 0x0C then some (.arg 2)
  else if off = 0x10 then some (.arg 3)
  else if off = 0x14 then some (.arg 4)
  else if off = 0x18 then some (.arg 5)
  else if off = 0x1C then some .resst
  else if off = 0x20 then some .rescnt
  else if off = 0x24 then some .hstat
  else none

/-- A write of `CMDR` (42_flash_operations.md R190): `Reentry`, then `IllegalCommand`, then the command itself. -/
def cmdrWrite (v : Word) (s : State) : Out :=
  if s.busy then .next (s.raiseFault .reentry)
  else
    match decodeCmdr v with
    | none => .next (s.raiseFault .illegalCommand)
    | some i => exec i s

/-- A host write to the port (R34, R36, R40). On a faulted block it has no step (60_exceptions.md R248). -/
def portWrite (off v : Word) (s : State) : Out :=
  if s.faulted then .fault .blockFaulted
  else
    match portReg off with
    | some .cmdr => cmdrWrite v s
    | some (.arg k) =>
      if s.busy then .next (s.raiseFault .reentry) else .next { s with port := s.port.setArg k v }
    | some .resst | some .rescnt | some .hstat | none => .next (s.raiseFault .illegalCommand)

/-- What a host read returns, or `Unwritten` (R36, R37, R38). -/
def State.readValue (s : State) (v : Option Word) : State :=
  match v with
  | some w => { s with hostData := some w }
  | none => s.raiseFault .unwritten

/-- A host read of the port: it changes no block state (10_state.md R26), and a faulted block answers it too
(60_exceptions.md R248). `CMDR` reads as nothing (R35, log 21). -/
def portRead (off : Word) (s : State) : Out :=
  match portReg off with
  | some .cmdr => .next { s with hostData := none }
  | some (.arg k) => .next (s.readValue (s.port.arg k))
  | some .resst => .next (s.readValue s.port.resstWord)
  | some .rescnt => .next (s.readValue s.port.rescnt)
  | some .hstat => .next (s.readValue (some s.hstat))
  | none => .next (s.raiseFault .illegalCommand)

/-! ### The memory-mapped window (20_memory.md R64, R67) -/

/-- The offset `o` of the address `P_QSPI_MEM_BASE + o` (R64, 00_scope.md R8). -/
def State.windowOffset (s : State) (a : Word) : Nat := a.toNat - s.params.memBase.toNat

/-- Do the `w` bytes from the address `a` stand in the window, `P_QSPI_MEM_BASE` to `P_QSPI_MEM_BASE + P_SIZE - 1` (R60)? -/
def State.inWindow (s : State) (a : Word) (w : Nat) : Bool :=
  decide (s.params.memBase.toNat ≤ a.toNat) && decide (s.windowOffset a + w ≤ s.params.size)

/-- A load the window answers: mapped, idle, 1, 2 or 4 bytes of the window (R64; an address below the window is out of range
as one past it is, log 22). -/
def State.windowOk (s : State) (a : Word) (w : Nat) : Bool :=
  s.mmapActive && s.fsm == .idle && (w == 1 || w == 2 || w == 4) && s.inWindow a w

/-- The value of a window load: any value of its width under the envelope (R80 item 4), the array's bytes,
little-endian, while the reference device is mapped (R67, R92); a free value while it is not (log 31). -/
def State.windowValue (s : State) (a : Word) (w : Nat) : Word :=
  let free := Config.freeLoad s.draws &&& sampleMask w
  match s.env with
  | .envelope => free
  | .reference d => if d.cur = .mapped then leLoad d.array (s.windowOffset a) w else free

/-- A host load of `w` bytes at address `a`. -/
def windowLoad (a : Word) (w : Nat) (s : State) : Out :=
  if s.faulted then .fault .blockFaulted
  else if s.windowOk a w then .next { s with hostData := some (s.windowValue a w), draws := s.draws + 1 }
  else .next (s.raiseFault .windowAccess)

/-- Any store to the window faults (R64). -/
def windowStore (s : State) : Out :=
  if s.faulted then .fault .blockFaulted else .next (s.raiseFault .windowAccess)

/-- A host write of its own memory, between commands (10_state.md R26). DESIGN CHOICE (log 41): at an address the launch
memory does not admit it stops the machine as an access of the sequencer does; the rules speak of the sequencer's alone. -/
def hostMemWrite (a : Word) (b : Byte) (s : State) : Out :=
  if s.faulted then .fault .blockFaulted else s.memWrite a.toNat b

/-- One host action. -/
def hostAction (a : HostAction) (s : State) : Out :=
  match a with
  | .portWrite off v => portWrite off v s
  | .portRead off => portRead off s
  | .windowLoad a w => windowLoad a w s
  | .windowStore _ _ _ => windowStore s
  | .memWrite a b => hostMemWrite a b s

/-! ### Turns -/

/-- One step of whichever agent's turn it is: the host's when it is due, else the sequencer's next step; a transaction
at the head of its list is run by `exec`. An idle block with nothing pending waits (70_reset_and_hazards.md R272); a
faulted one has no step (60_exceptions.md R248). -/
def agentStep (s : State) : Out :=
  if hostDue s then
    match s.hostIn with
    | [] => .next s
    | e :: rest => hostAction e.act { s with hostIn := rest }
  else if s.faulted then .fault .blockFaulted
  else
    match s.todo with
    | [] => .next s
    | .issue i :: rest => exec i (s.takeOp rest)
    | o :: rest => thenRun (seqOp o (s.takeOp rest))

/-! ### Placing an instruction (log 5) -/

/-- A host command placed as the host's next action: its operands in the argument registers, then the write of CMDR. -/
def State.placeCommand (s : State) (cmdr a0 a1 a2 a3 a4 a5 : Word) : State :=
  { s with
    port := { s.port with
      arg0 := some a0, arg1 := some a1, arg2 := some a2, arg3 := some a3, arg4 := some a4, arg5 := some a5 }
    hostIn := { after := some 0, act := .portWrite 0 cmdr } :: s.hostIn }

/-- A transaction placed as the sequencer's next step; no host action comes before it. -/
def State.placeTx (s : State) (i : Instr) : State := { s with todo := .issue i :: s.todo, hostIn := [] }

/-- The instruction of a table word, placed where the next step takes it: a word that decodes to a transaction goes to
the sequencer, every other word to CMDR. -/
def State.placeWord (s : State) (nbits w : Nat) : State :=
  let ws := tableWords nbits w
  match decodeTableWord nbits w with
  | none => s.placeCommand (ws.getD 0 0) (ws.getD 1 0) (ws.getD 2 0) (ws.getD 3 0) (ws.getD 4 0) (ws.getD 5 0) (ws.getD 6 0)
  | some i =>
    if Instr.code i = 0 then s.placeTx i
    else s.placeCommand (ws.getD 0 0) (ws.getD 1 0) (ws.getD 2 0) (ws.getD 3 0) (ws.getD 4 0) (ws.getD 5 0) (ws.getD 6 0)

end Sys2Proof.Machine
end

