-- ==== Sys2Proof/Machine/Step.lean ====
section
/-! DEFINITION. The step of the machine, and the placement of an instruction for its next step. -/

namespace Sys2Proof.Machine

/-- One step. A parameter set that fails a check of 00_scope.md R9 is refused at construction, and no run exists. -/
def step (s : State) : Host.Outcome State Fault Refusal :=
  if s.params.wf then agentStep s else .refused .illFormedParameters

/-- `s` with the instruction of a table word placed where `step` takes its next one (log 5). -/
def State.withFetchWord (s : State) (nbits w : Nat) : State := s.placeWord nbits w

end Sys2Proof.Machine
end

