-- ==== Sys2Proof/Safety.lean ====
section
/-! DEFINITION. The terms in which statements speak of the machine: when it can run a command to its end, what every
step keeps, which fault a command start owes, and which traces keep the write-enable rule. -/

namespace Sys2Proof.Machine

/-! ### Premises of a completed command -/

/-- No host action comes between two sequencer steps: the next one, if any, waits for `HSTAT.BUSY = 0`
(42_flash_operations.md R229). -/
def State.hostWaits (s : State) : Bool :=
  match s.hostIn with
  | [] => true
  | e :: _ => e.after == none

/-- The block takes a command (10_state.md R35): Idle with nothing left to do, not faulted. -/
def State.idle (s : State) : Bool := s.fsm == .idle && s.todo.isEmpty && !s.faulted

/-- A flash-layer command or a transaction may run: `EN = 1`, not mapped (R193 items 1 and 2, R130), and no abort pending
in `CR` (10_state.md R42). -/
def State.engineOn (s : State) : Bool := crEn s.regs.cr && !s.mmapActive && !crAbort s.regs.cr

/-- A command can run to its end undisturbed: well-formed parameters, an idle block, an engine that is on, a host that
waits. -/
def State.usable (s : State) : Bool := s.params.wf && s.idle && s.engineOn && s.hostWaits

/-- No sample from now on shows an injected flag (20_memory.md R83, R85). -/
def RefDev.quiet (d : RefDev) : Bool := d.inject.all fun e => decide (e.ns ≤ d.ns)

/-- The reference device shows no flag, and no auto-poll runs: nothing stale is left for the next wait
(70_reset_and_hazards.md R280, R281). -/
def RefDev.ready (d : RefDev) : Bool := d.quiet && !d.tef && !d.tof && !d.tcf && !d.smf && !d.busy

/-- The flash chip alone (10_state.md R55), with the busy countdown and the test parameters it acts by: the peripheral's
flags, operation and sample counter left out. -/
def RefDev.chip (d : RefDev) : RefDev :=
  { d with tef := false, tcf := false, smf := false, tof := false, cur := .none, ns := 0, inject := [] }

/-- The wait budget allows a loop `n` samples that do not end it (40_engine.md R133, 60_exceptions.md R251). -/
def budgetAllows (p : Params) (n : Nat) : Bool := !budgetSpent p n

/-- The launch memory admits every byte of `[a, a + n)` (42_flash_operations.md R192). -/
def State.admitsAll (s : State) (a n : Nat) : Bool := (List.range n).all fun i => s.admits (a + i)

/-- The `n` bytes of host memory from `a`. -/
def State.memBytes (s : State) (a n : Nat) : List Byte := (List.range n).map fun i => s.memByte (a + i)

/-- The byte of the flash array at an offset (10_state.md R55). -/
def RefDev.arrayByte (d : RefDev) (o : Nat) : Byte := cellRead arrayDefault d.array o

/-- The `n` bytes of the flash array from `o`. -/
def RefDev.arrayBytes (d : RefDev) (o n : Nat) : List Byte := (List.range n).map fun i => d.arrayByte (o + i)

/-- The canonical form of the three memories, each within its address space: host memory below 2^32 (20_memory.md R60),
the staging buffer below `P_PAGE` (10_state.md R30), the flash array below `P_SIZE` (R55). -/
def State.memoryWf (s : State) : Bool :=
  cellsWf hostDefault s.hostMem && s.hostMem.all (fun c => decide (c.1 < 2 ^ Config.hostAddrBits)) &&
  cellsWf stgDefault s.stg && s.stg.all (fun c => decide (c.1 < s.params.page)) &&
  (match s.env with
   | .envelope => true
   | .reference d => cellsWf arrayDefault d.array && d.array.all (fun c => decide (c.1 < s.params.size)))

/-- The premises under which a command or transaction runs to its end on the reference device `d` within its first step
and `n` sequencer steps after it (log 1): the block is usable, its memories are canonical (an invariant), nothing stale is left on the device. -/
structure State.CanRun (s : State) (d : RefDev) (n : Nat) : Prop where
  usable : s.usable = true
  memory : s.memoryWf = true
  env : s.env = .reference d
  ready : d.ready = true
  steps : n ≤ s.burst

/-- A command that began in `s` has ended in `t` with a status and a count (42_flash_operations.md R191): what its end
writes, and the parts of the state that no command changes. -/
structure State.Ended (s t : State) (st : Status) (count : Word) : Prop where
  fsm : t.fsm = .idle
  eng : t.eng = .idle
  desc : t.desc = none
  todo : t.todo = []
  fault : t.fault = none
  port : t.port = { s.port with resst := some st, rescnt := some count }
  params : t.params = s.params
  burst : t.burst = s.burst
  hostIn : t.hostIn = s.hostIn
  hostData : t.hostData = s.hostData
  admitted : t.admitted = s.admitted
  dcr : t.regs.dcr = s.regs.dcr

/-- The buffers (10_state.md R29, R30, 20_memory.md R62) and `mmap_active` are as before. -/
structure State.SameBuffers (s t : State) : Prop where
  hostMem : t.hostMem = s.hostMem
  stg : t.stg = s.stg
  cfgbuf : t.cfgbuf = s.cfgbuf
  mmapActive : t.mmapActive = s.mmapActive

/-- The working registers (10_state.md R28) are as before. -/
structure State.SameWork (s t : State) : Prop where
  wAddr : t.wAddr = s.wAddr
  wBuf : t.wBuf = s.wBuf
  wRem : t.wRem = s.wRem
  wDone : t.wDone = s.wDone
  wN : t.wN = s.wN

/-- A transaction that began in `s` has completed in `t`: `Ok`, the device `e` ready, one entry more in the trace. -/
structure State.Transacted (s t : State) (e : RefDev) (entry : TraceEntry) : Prop where
  ended : s.Ended t .ok 0
  work : s.SameWork t
  env : t.env = .reference e
  ready : e.ready = true
  trace : t.trace = s.trace ++ [entry]

/-! ### Trace entries (10_state.md R33) -/

/-- The entry of an operation with a framing, on `n` bytes. -/
def entryOf (op : EngineOp) (h : Header) (fm : FrameMode) (n : Word) (data : List Byte) : TraceEntry where
  op := op
  ccr := packCcr h fm
  ar := some h.addr
  abr := h.alt
  dlr := if n = 0 then none else some (n - 1)
  data := data

/-- The trace entry of `E_MMAP` (R138). -/
def mapEntry (m : MemoryMapDescriptor) : TraceEntry where
  op := .eMmap
  ccr := packCcr m.hdr .memoryMapped
  ar := none
  abr := m.hdr.alt
  dlr := none
  data := []

/-- The trace entries of the write-enable protocol. -/
def wenEntries (p : Params) : List TraceEntry :=
  [entryOf .eWrite (plainHeader p.opc.wren) .indirectWrite 0 [], entryOf .ePoll (statusHeader p) .autoPoll 1 []]

/-- The trace entry of the busy poll. -/
def wipEntry (p : Params) : TraceEntry := entryOf .ePoll (statusHeader p) .autoPoll 1 []

/-- The entries of the first `c` chunk reads of `VERIFY` and `BLANK_CHECK` over `[dest, dest + n)` (42_flash_operations.md
R220): chunk `j` reads from `dest + j * P_PAGE`, a page or what is left. -/
def chunkEntries (p : Params) (d : RefDev) (dest n c : Nat) : List TraceEntry :=
  (List.range c).map fun j =>
    entryOf .eRead (quadReadHeader p (BitVec.ofNat 32 (dest + j * p.page))) .indirectRead
      (BitVec.ofNat 32 (min p.page (n - j * p.page)))
      (d.arrayBytes (dest + j * p.page) (min p.page (n - j * p.page)))

/-- How many chunks a range of `n` bytes has. -/
def chunkCount (p : Params) (n : Nat) : Nat := (n + p.page - 1) / p.page

/-- The entries of one `PROGRAM_PAGE` call on `n` bytes at `dest` from the host's bytes at `src` (R206). -/
def State.pageEntries (s : State) (dest n src : Nat) : List TraceEntry :=
  wenEntries s.params ++
    [entryOf .eWrite (quadProgramHeader s.params (BitVec.ofNat 32 dest)) .indirectWrite (BitVec.ofNat 32 n) (s.memBytes src n),
      wipEntry s.params]

/-- The entries of `WRITE dest, n, src` (43_write_orchestrator.md R233): one page call for every page that the range meets,
in rising order, on the bytes of the range in that page. -/
def State.writeEntries (s : State) (dest n src : Nat) : List TraceEntry :=
  let base := dest / s.params.page * s.params.page
  (List.range (if n = 0 then 0 else (dest + n - 1) / s.params.page - dest / s.params.page + 1)).flatMap fun j =>
    let a := max dest (base + j * s.params.page)
    let b := min (dest + n) (base + (j + 1) * s.params.page)
    s.pageEntries a (b - a) (src + (a - dest))

/-! ### What every step keeps -/

/-- The bits of `CR` that are 0 at launch and that no rule sets: DMAEN, DFM and the interrupt enables
(10_state.md R42, 60_exceptions.md R254). -/
def crMustBeZero : Word := 0x001F0044

/-- The reserved bits of the registers the sequencer writes whole (10_state.md R45, R51 to R53, 30_encoding.md R103). -/
def WholeReg.reserved : WholeReg → Word
  | .fcr => 0xFFFFFFE4
  | .ccr => 0x20800000
  | .pir | .lptr => 0xFFFF0000
  | .dlr | .ar | .abr | .psmkr | .psmar => 0

/-- A register file whose reserved bits read 0. -/
def Regs.reservedClear (r : Regs) : Bool :=
  (r.fcr &&& WholeReg.fcr.reserved) == 0 && (r.ccr &&& WholeReg.ccr.reserved) == 0 &&
  (r.pir &&& WholeReg.pir.reserved) == 0 && (r.lptr &&& WholeReg.lptr.reserved) == 0

/-- A step that may stand in the list of remaining steps: it writes no reserved bit, and it is no move of `fsm` to Idle
or Faulted, which only a command's end and a fault make. -/
def Op.lawful : Op → Bool
  | .setFsm f => f != .idle && f != .faulted
  | .writeReg r v => (v &&& r.reserved) == 0
  | _ => true

/-- A step that ends the command or lays out the steps that do. -/
def Op.closing : Op → Bool
  | .raise _ | .finish _ _ | .qeCheck | .verifyLoop | .blankLoop _ | .orchFirst | .orchLoop => true
  | _ => false

/-- A list of remaining steps that leads to a command's end. -/
def closes : List Op → Bool
  | [] => false
  | [o] => o.closing
  | _ :: rest => closes rest

/-- The invariant of the machine. -/
structure State.Inv (s : State) : Prop where
  /-- 00_scope.md R9. -/
  params : s.params.wf = true
  /-- 20_memory.md R60 to R63. -/
  memory : s.memoryWf = true
  /-- 10_state.md R32. -/
  faulted : s.faulted = (s.fsm == .faulted)
  /-- 10_state.md R26, R39: BUSY is 1 exactly while a step is left to do. -/
  busy : s.busy = !s.todo.isEmpty
  /-- 40_engine.md R143, 42_flash_operations.md R191: between commands the engine is idle and no descriptor is held. -/
  between : s.fsm = .idle → s.eng = .idle ∧ s.desc = none
  /-- 10_state.md R37, R38: RESST and RESCNT are written together. -/
  results : s.port.resst.isSome = s.port.rescnt.isSome
  /-- 10_state.md R42, 60_exceptions.md R254. -/
  cr : s.regs.cr &&& crMustBeZero = 0 ∧ s.tmpCr &&& crMustBeZero = 0
  /-- 10_state.md R53. -/
  reserved : s.regs.reservedClear = true
  /-- The steps still to do. -/
  lawful : s.todo.all Op.lawful = true
  closing : s.todo = [] ∨ closes s.todo = true

/-! ### The fault a command start owes (42_flash_operations.md R193 to R197, 60_exceptions.md R249) -/

/-- The flash range check (R194). -/
abbrev inFlash (p : Params) (dest n : Word) : Prop := dest.toNat < p.size ∧ dest.toNat + n.toNat ≤ p.size

/-- The host range check (R197). -/
abbrev inHost (b n : Word) : Prop := b.toNat + n.toNat ≤ 2 ^ 32

/-- What a flash-layer command owes before its own checks (R193 items 1 and 2): `own` comes after them. -/
def State.owedFlash (s : State) (own : Option FaultReason) : Option FaultReason :=
  if crEn s.regs.cr = false then some .engineDisabled else if s.mmapActive = true then some .mmapActive else own

/-- `PROGRAM_PAGE`'s own checks: `Size`, `Range` for the flash range, `Range` for the host range, `PageCross`. -/
def owedProgram (p : Params) (dest n src : Word) : Option FaultReason :=
  if n.toNat = 0 ∨ p.page < n.toNat then some .size
  else if ¬inFlash p dest n then some .range
  else if ¬inHost src n then some .range
  else if p.page < dest.toNat % p.page + n.toNat then some .pageCross
  else none

/-- `READ`'s own checks. -/
def owedRead (p : Params) (dest n buf : Word) : Option FaultReason :=
  if n.toNat = 0 then some .size
  else if ¬inFlash p dest n then some .range
  else if ¬inHost buf n then some .range
  else none

/-- The own checks of `VERIFY` and `WRITE`. -/
def owedBuffer (p : Params) (dest n src : Word) : Option FaultReason :=
  if ¬inFlash p dest n then some .range else if ¬inHost src n then some .range else none

/-- `BLANK_CHECK`'s own check. -/
def owedBlank (p : Params) (dest n : Word) : Option FaultReason := if ¬inFlash p dest n then some .range else none

/-- `ERASE_SECTOR`'s own check. -/
def owedErase (p : Params) (addr : Word) : Option FaultReason := if p.size ≤ addr.toNat then some .range else none

/-- What a raw engine command with a descriptor owes (40_engine.md R130); `ok`: its descriptor is well formed. -/
def State.owedEngine (s : State) (ok : Bool) : Option FaultReason :=
  if ok = false then some .badDescriptor
  else if crEn s.regs.cr = false then some .engineDisabled
  else if s.mmapActive = true then some .mmapActive
  else none

/-- The command `i` faults with `f` where it starts, with nothing done, or, where it owes no fault, starts with the FSM step
`st` and the latch `D`, and accesses no register (R190, R193, 10_state.md R31). -/
def State.startsOr (s : State) (i : Instr) (owed : Option FaultReason) (st : FsmStep) (D : Option Descriptor) : Prop :=
  (∀ f, owed = some f → exec i s = .next (s.raiseFault f)) ∧
  (owed = none → s.burst = 0 → ∃ t, exec i s = .next t ∧ t.fsm = st ∧ t.desc = D ∧ t.fault = none ∧ t.current = some i ∧
    t.trace = s.trace ∧ t.regs = s.regs ∧ t.env = s.env ∧ t.hostMem = s.hostMem ∧ t.port = s.port)

/-- The value fits its size where its phase is present (30_encoding.md R109 item 2). -/
def headerFits (h : Header) : Prop :=
  (h.admode ≠ .none → h.addr.toNat < 2 ^ (8 * (h.adsize.code.toNat + 1))) ∧
  (h.abmode ≠ .none → h.alt.toNat < 2 ^ (8 * (h.absize.code.toNat + 1)))

/-! ### What an instruction may change -/

/-- The instructions that run an auto-poll. -/
def polls : Instr → Bool
  | .init | .programPage | .eraseSector | .eraseChip | .write | .ePoll | .tPollWel | .tPollWip => true
  | .read | .verify | .blankCheck | .mmap | .eWrite | .eRead | .eMmap | .eAbort | .eDeinit => false
  | .tWren | .tRsten | .tRst | .tRdcr | .tWrvcr | .tSe _ | .tCe | .tQpp _ _ _ | .tQread _ _ _ | .tQreadMmap => false

/-- The instructions that enter memory-mapped mode. -/
def maps : Instr → Bool
  | .mmap | .eMmap | .tQreadMmap => true
  | .init | .programPage | .eraseSector | .eraseChip | .read | .verify | .blankCheck | .write => false
  | .eWrite | .eRead | .ePoll | .eAbort | .eDeinit => false
  | .tWren | .tPollWel | .tPollWip | .tRsten | .tRst | .tRdcr | .tWrvcr | .tSe _ | .tCe | .tQpp _ _ _ => false
  | .tQread _ _ _ => false

/-- The instructions that write `CFGBUF` (10_state.md R29). -/
def configures : Instr → Bool
  | .init | .tRdcr | .tWrvcr => true
  | .programPage | .eraseSector | .eraseChip | .read | .verify | .blankCheck | .mmap | .write => false
  | .eWrite | .eRead | .ePoll | .eMmap | .eAbort | .eDeinit => false
  | .tWren | .tPollWel | .tPollWip | .tRsten | .tRst | .tSe _ | .tCe | .tQpp _ _ _ | .tQreadMmap => false
  | .tQread _ _ b => b == .cfgbuf

/-- The instructions that write the staging buffer (10_state.md R30). -/
def stages : Instr → Bool
  | .verify | .blankCheck => true
  | .init | .programPage | .eraseSector | .eraseChip | .read | .mmap | .write => false
  | .eWrite | .eRead | .ePoll | .eMmap | .eAbort | .eDeinit => false
  | .tWren | .tPollWel | .tPollWip | .tRsten | .tRst | .tRdcr | .tWrvcr | .tSe _ | .tCe | .tQpp _ _ _ => false
  | .tQread _ _ b => b == .stg
  | .tQreadMmap => false

/-- The instructions that write the working registers (10_state.md R28). -/
def works : Instr → Bool
  | .verify | .blankCheck | .write => true
  | .init | .programPage | .eraseSector | .eraseChip | .read | .mmap => false
  | .eWrite | .eRead | .ePoll | .eMmap | .eAbort | .eDeinit => false
  | .tWren | .tPollWel | .tPollWip | .tRsten | .tRst | .tRdcr | .tWrvcr | .tSe _ | .tCe | .tQpp _ _ _ => false
  | .tQread _ _ _ | .tQreadMmap => false

/-- The bytes of host memory an instruction may write: from where, and how many. `READ` and `E_READ` take both from their
argument registers (30_encoding.md R112, R113). -/
def State.hostTarget (s : State) : Instr → Option (Nat × Nat)
  | .read => some ((s.arg 2).toNat, (s.arg 1).toNat)
  | .eRead => some ((s.arg 4).toNat, (s.arg 3).toNat)
  | .tQread _ n (.host a) => some (a.toNat, n.toNat)
  | .tQread _ _ .stg | .tQread _ _ .cfgbuf => none
  | .init | .programPage | .eraseSector | .eraseChip | .verify | .blankCheck | .mmap | .write => none
  | .eWrite | .ePoll | .eMmap | .eAbort | .eDeinit => none
  | .tWren | .tPollWel | .tPollWip | .tRsten | .tRst | .tRdcr | .tWrvcr | .tSe _ | .tCe | .tQpp _ _ _ => none
  | .tQreadMmap => none

/-- The flash-layer commands and the orchestrator (30_encoding.md R112): the FSM's own commands. -/
def fsmCommand : Instr → Bool
  | .init | .programPage | .eraseSector | .eraseChip | .read | .verify | .blankCheck | .mmap | .write => true
  | .eWrite | .eRead | .ePoll | .eMmap | .eAbort | .eDeinit => false
  | .tWren | .tPollWel | .tPollWip | .tRsten | .tRst | .tRdcr | .tWrvcr | .tSe _ | .tCe | .tQpp _ _ _ => false
  | .tQread _ _ _ | .tQreadMmap => false

/-! ### Traces that keep the write-enable rule (41_flash_transactions.md R175) -/

/-- A program or erase entry: an indirect write whose opcode is `OPC_SE`, `OPC_CE` or `OPC_QPP`. -/
def TraceEntry.mutating (p : Params) (e : TraceEntry) : Bool :=
  e.op == .eWrite &&
  (let op := e.ccr.extractLsb' 0 8
   op == p.opc.se || op == p.opc.ce || op == p.opc.qpp)

/-- A `T_WREN` entry. -/
def TraceEntry.isWren (p : Params) (e : TraceEntry) : Bool :=
  e.op == .eWrite && e.ccr == packCcr (plainHeader p.opc.wren) .indirectWrite

/-- An entry of a status poll. -/
def TraceEntry.isStatusPoll (p : Params) (e : TraceEntry) : Bool :=
  e.op == .ePoll && e.ccr == packCcr (statusHeader p) .autoPoll

/-- Every mutating entry of the trace comes right after a `T_WREN` entry and a status poll, in this order. `b` and `a` are
the entries before, the nearer first. -/
def guardedFrom (p : Params) (b a : Option TraceEntry) : List TraceEntry → Bool
  | [] => true
  | e :: rest =>
    (!e.mutating p || (b.any (TraceEntry.isStatusPoll p) && a.any (TraceEntry.isWren p))) &&
    guardedFrom p (some e) b rest

/-- The write-enable rule of one command's trace. -/
def guardedTrace (p : Params) (l : List TraceEntry) : Bool := guardedFrom p none none l

/-! ### The write-enable rule step by step (41_flash_transactions.md R175) -/

/-- How far the write-enable protocol of the command in progress has come (R170): nothing yet, `T_WREN` emitted, the latch
poll emitted right after it, that poll returned `Ok`. It is read off the machine's steps and is no part of the state. -/
inductive WritePhase where
  | off | enabled | polled | confirmed
deriving DecidableEq, Repr

/-- The phase after an entry, with `PSMAR` and `PSMKR` as they stand: a status poll is the latch poll when both hold
`P_WEL_MASK` (R161); any other entry starts over. -/
def WritePhase.emit (p : Params) (psmar psmkr : Word) (e : TraceEntry) (ph : WritePhase) : WritePhase :=
  if e.isWren p then .enabled
  else if ph = .enabled ∧ e.isStatusPoll p = true ∧ psmar = p.welMask.setWidth 32 ∧ psmkr = p.welMask.setWidth 32 then .polled
  else .off

/-- The phase after one step of the machine: an entry moves it, and the latch poll's wait confirms it with a sample that
shows SMF and no error (40_engine.md R133, R137); a host action and every other step leave it. -/
def WritePhase.after (s : State) (ph : WritePhase) : WritePhase :=
  if hostDue s then ph
  else match s.todo with
    | .emit e :: _ => ph.emit s.params s.regs.psmar s.regs.psmkr e
    | .wait .statusMatch _ :: _ =>
      if ph = .polled ∧ sampleError s.readSr.1 = none ∧ srSmf s.readSr.1 = true then .confirmed else ph
    | _ => ph

/-- The phase once a transaction that starts in phase `ph` has come to its end. -/
def WritePhase.transacted (ph : WritePhase) : Instr → WritePhase
  | .tWren => .enabled
  | .tPollWel => if ph = .enabled then .confirmed else .off
  | _ => .off

/-- The erase and program transactions. -/
def mutates : Instr → Bool
  | .tSe _ | .tCe | .tQpp _ _ _ => true
  | _ => false

/-- The remaining steps, from a phase and from `PSMAR` and `PSMKR`, reach an erase or a program in phase `confirmed` alone.
The steps that lay out others (the loop heads, the configuration test) come with a plan of their own. -/
def guardPlan (p : Params) (ph : WritePhase) (psmar psmkr : Word) : List Op → Bool
  | [] => true
  | o :: rest =>
    match o with
    | .emit e => (!e.mutating p || ph == .confirmed) && guardPlan p (ph.emit p psmar psmkr e) psmar psmkr rest
    | .writeReg .psmar v => guardPlan p ph v psmkr rest
    | .writeReg .psmkr v => guardPlan p ph psmar v rest
    | .wait .statusMatch _ => guardPlan p (if ph = .polled then .confirmed else ph) psmar psmkr rest
    | .issue .tPollWel =>
      guardPlan p (ph.transacted .tPollWel) (p.welMask.setWidth 32) (p.welMask.setWidth 32) rest
    | .issue .tPollWip => guardPlan p .off 0 (p.wipMask.setWidth 32) rest
    | .issue x => (!mutates x || ph == .confirmed) && guardPlan p (ph.transacted x) psmar psmkr rest
    | .configWrite => guardPlan p .off psmar psmkr rest
    | .callPage => guardPlan p .off 0 (p.wipMask.setWidth 32) rest
    | .qeCheck | .verifyLoop | .blankLoop _ | .orchFirst | .orchLoop => true
    | _ => guardPlan p ph psmar psmkr rest

/-- What a phase says of the trace's last entries. -/
def WritePhase.shows (p : Params) (tr : List TraceEntry) : WritePhase → Prop
  | .off => True
  | .enabled => ∃ l w, tr = l ++ [w] ∧ w.isWren p = true
  | .polled | .confirmed => ∃ l w q, tr = l ++ [w, q] ∧ w.isWren p = true ∧ q.isStatusPoll p = true

/-- The write-enable invariant: the trace ends as the phase says, and the remaining steps keep the rule. -/
structure State.Guarded (s : State) (ph : WritePhase) : Prop where
  shows : ph.shows s.params s.trace
  plan : guardPlan s.params ph s.regs.psmar s.regs.psmkr s.todo = true

end Sys2Proof.Machine
end

