-- ==== Sys2Proof/Certificates/Slice0/Obligations.lean ====
section
/-! DEFINITION. The statements for the provers: what the spec's numbered rules say the machine does. -/

open Sys2Proof Sys2Proof.Machine

/-! ### Completion: the flash-layer commands and the orchestrator on the reference device -/

/-- `INIT` on a chip whose reset configuration byte has the quad-enable bit clear (42_flash_operations.md R200, R201, R202,
41_flash_transactions.md R165 to R167): the chip is reset, and the byte is written back with the bit set. -/
def Obligations.InitSetsQuadEnable : Prop :=
  ∀ (s : State) (d : RefDev), s.CanRun d 180 → d.bc = 0 → d.fcfgReset &&& s.params.qeMask = 0 →
    ∃ t e, exec .init s = .next t ∧ s.Ended t .ok 0 ∧ s.SameWork t ∧ t.env = .reference e ∧ e.ready = true ∧
      e.fcfg = d.fcfgReset ||| s.params.qeMask ∧ e.fsr = d.fsr &&& ~~~(s.params.welMask ||| s.params.wipMask) ∧
      e.bc = 0 ∧ e.rsten = false ∧ e.array = d.array ∧ t.cfgbuf = d.fcfgReset ||| s.params.qeMask ∧
      t.hostMem = s.hostMem ∧ t.stg = s.stg ∧ t.mmapActive = false ∧
      t.trace = s.trace ++
        [entryOf .eWrite (plainHeader s.params.opc.rsten) .indirectWrite 0 [],
          entryOf .eWrite (plainHeader s.params.opc.rst) .indirectWrite 0 [],
          wipEntry s.params,
          entryOf .eRead { plainHeader s.params.opc.rdcr with dmode := .one } .indirectRead 1 [d.fcfgReset]] ++
        (if s.params.initWelPoll then wenEntries s.params
          else [entryOf .eWrite (plainHeader s.params.opc.wren) .indirectWrite 0 []]) ++
        [entryOf .eWrite { plainHeader s.params.opc.wrvcr with dmode := .one } .indirectWrite 1
          [d.fcfgReset ||| s.params.qeMask]] ++
        (if s.params.initCfgBusyPoll then [wipEntry s.params] else [])

/-- `INIT` on a chip whose reset configuration byte has the quad-enable bit set (R200, R203): the reset pair, the busy poll
and the configuration read are issued, and nothing after them. -/
def Obligations.InitSkipsQuadEnable : Prop :=
  ∀ (s : State) (d : RefDev), s.CanRun d 180 → d.bc = 0 → d.fcfgReset &&& s.params.qeMask ≠ 0 →
    ∃ t e, exec .init s = .next t ∧ s.Ended t .ok 0 ∧ s.SameWork t ∧ t.env = .reference e ∧ e.ready = true ∧
      e.fcfg = d.fcfgReset ∧ e.fsr = d.fsr &&& ~~~(s.params.welMask ||| s.params.wipMask) ∧ e.bc = 0 ∧
      e.rsten = false ∧ e.array = d.array ∧ t.cfgbuf = d.fcfgReset ∧
      t.hostMem = s.hostMem ∧ t.stg = s.stg ∧ t.mmapActive = false ∧
      t.trace = s.trace ++
        [entryOf .eWrite (plainHeader s.params.opc.rsten) .indirectWrite 0 [],
          entryOf .eWrite (plainHeader s.params.opc.rst) .indirectWrite 0 [],
          wipEntry s.params,
          entryOf .eRead { plainHeader s.params.opc.rdcr with dmode := .one } .indirectRead 1 [d.fcfgReset]]

/-- `PROGRAM_PAGE` (R206, R207, R198): the bytes of the host buffer are ANDed into the page, the latch and the busy bit are
clear, and the four transactions are issued in their order. -/
def Obligations.ProgramPageCompletes : Prop :=
  ∀ (s : State) (d : RefDev) (dest n src : Word), s.CanRun d (80 + d.busyPolls + 5 * n.toNat) → d.bc = 0 →
    budgetAllows s.params d.busyPolls = true → s.port.arg0 = some dest → s.port.arg1 = some n →
    s.port.arg2 = some src → 1 ≤ n.toNat → n.toNat ≤ s.params.page → dest.toNat + n.toNat ≤ s.params.size →
    dest.toNat % s.params.page + n.toNat ≤ s.params.page → src.toNat + n.toNat ≤ 2 ^ 32 →
    s.admitsAll src.toNat n.toNat = true →
    ∃ t e, exec .programPage s = .next t ∧ s.Ended t .ok 0 ∧ s.SameBuffers t ∧ s.SameWork t ∧
      t.env = .reference e ∧ e.ready = true ∧ e.bc = 0 ∧ e.latched s.params = false ∧
      e.status s.params &&& s.params.wipMask = 0 ∧ e.fcfg = d.fcfg ∧ e.busyPolls = d.busyPolls ∧ t.usable = true ∧
      (∀ o, e.arrayByte o =
        if dest.toNat ≤ o ∧ o < dest.toNat + n.toNat then d.arrayByte o &&& s.memByte (src.toNat + (o - dest.toNat))
        else d.arrayByte o) ∧
      t.trace = s.trace ++ wenEntries s.params ++
        [entryOf .eWrite (quadProgramHeader s.params dest) .indirectWrite n (s.memBytes src.toNat n.toNat),
          wipEntry s.params]

/-- `ERASE_SECTOR` (R210, R211): every byte of the sector that contains the address reads 0xFF, every other byte is
unchanged, and the block can take another command. -/
def Obligations.EraseSectorCompletes : Prop :=
  ∀ (s : State) (d : RefDev) (addr : Word), s.CanRun d (80 + d.busyPolls) → d.bc = 0 →
    budgetAllows s.params d.busyPolls = true → s.port.arg0 = some addr → addr.toNat < s.params.size →
    ∃ t e, exec .eraseSector s = .next t ∧ s.Ended t .ok 0 ∧ s.SameBuffers t ∧ s.SameWork t ∧
      t.env = .reference e ∧ e.ready = true ∧ e.bc = 0 ∧ e.latched s.params = false ∧ e.fcfg = d.fcfg ∧
      e.busyPolls = d.busyPolls ∧ t.usable = true ∧
      (∀ o, e.arrayByte o =
        if o / s.params.sector = addr.toNat / s.params.sector then 0xFF else d.arrayByte o) ∧
      t.trace = s.trace ++ wenEntries s.params ++
        [entryOf .eWrite (sectorEraseHeader s.params addr) .indirectWrite 0 [], wipEntry s.params]

/-- `ERASE_CHIP` (R213, R214): every byte of the array reads 0xFF. -/
def Obligations.EraseChipCompletes : Prop :=
  ∀ (s : State) (d : RefDev), s.CanRun d (80 + d.busyPolls) → d.bc = 0 → budgetAllows s.params d.busyPolls = true →
    ∃ t e, exec .eraseChip s = .next t ∧ s.Ended t .ok 0 ∧ s.SameBuffers t ∧ s.SameWork t ∧
      t.env = .reference e ∧ e.ready = true ∧ e.bc = 0 ∧ e.latched s.params = false ∧ e.fcfg = d.fcfg ∧
      (∀ o, e.arrayByte o = if o < s.params.size then 0xFF else d.arrayByte o) ∧
      t.trace = s.trace ++ wenEntries s.params ++
        [entryOf .eWrite (plainHeader s.params.opc.ce) .indirectWrite 0 [], wipEntry s.params]

/-- `READ` (R216, R217): the host buffer holds the array's bytes, every other byte of host memory is as before, and the
chip is unchanged but for its reset-enable latch: that a read clears it is the model's reading of 20_memory.md R87 against the
words of R77 and R217 that reading changes nothing in the device (DEDUCED, log 23). -/
def Obligations.ReadCompletes : Prop :=
  ∀ (s : State) (d : RefDev) (dest n buf : Word), s.CanRun d (20 + 5 * n.toNat) → d.bc = 0 → s.port.arg0 = some dest →
    s.port.arg1 = some n → s.port.arg2 = some buf → 1 ≤ n.toNat → dest.toNat + n.toNat ≤ s.params.size →
    buf.toNat + n.toNat ≤ 2 ^ 32 → s.admitsAll buf.toNat n.toNat = true →
    ∃ t e, exec .read s = .next t ∧ s.Ended t .ok 0 ∧ s.SameWork t ∧ t.env = .reference e ∧ e.ready = true ∧
      e.chip = { d.chip with rsten := false } ∧
      (∀ a, t.memByte a =
        if buf.toNat ≤ a ∧ a < buf.toNat + n.toNat then d.arrayByte (dest.toNat + (a - buf.toNat)) else s.memByte a) ∧
      t.stg = s.stg ∧ t.cfgbuf = s.cfgbuf ∧ t.mmapActive = false ∧
      t.trace = s.trace ++ [entryOf .eRead (quadReadHeader s.params dest) .indirectRead n
        (d.arrayBytes dest.toNat n.toNat)]

/-- `VERIFY` (R222, R223, R220): `Ok` and the size when every byte matches; else `VerifyMismatch` and the index of the first
byte that differs. The trace has the chunk reads, of a page or of what is left, up to the chunk of that byte. That
the reads clear RSTEN is log 23 (DEDUCED). -/
def Obligations.VerifyCompletes : Prop :=
  ∀ (s : State) (d : RefDev) (dest n src : Word), s.CanRun d (6 + 30 * n.toNat) → d.bc = 0 → s.port.arg0 = some dest →
    s.port.arg1 = some n → s.port.arg2 = some src → dest.toNat < s.params.size →
    dest.toNat + n.toNat ≤ s.params.size → src.toNat + n.toNat ≤ 2 ^ 32 →
    s.admitsAll src.toNat n.toNat = true →
    ∃ t e, exec .verify s = .next t ∧ t.env = .reference e ∧ e.ready = true ∧
      e.chip = (if n = 0 then d.chip else { d.chip with rsten := false }) ∧ t.hostMem = s.hostMem ∧
      t.cfgbuf = s.cfgbuf ∧ t.mmapActive = false ∧
      ((∀ i, i < n.toNat → d.arrayByte (dest.toNat + i) = s.memByte (src.toNat + i)) → s.Ended t .ok n ∧
        t.trace = s.trace ++ chunkEntries s.params d dest.toNat n.toNat (chunkCount s.params n.toNat)) ∧
      ∀ k, k < n.toNat → (∀ i, i < k → d.arrayByte (dest.toNat + i) = s.memByte (src.toNat + i)) →
        d.arrayByte (dest.toNat + k) ≠ s.memByte (src.toNat + k) →
        s.Ended t .verifyMismatch (BitVec.ofNat 32 k) ∧
          t.trace = s.trace ++ chunkEntries s.params d dest.toNat n.toNat (k / s.params.page + 1)

/-- `BLANK_CHECK` (R224, R225, R220): `Ok` exactly when every byte of the range is the pattern, else `VerifyMismatch`; the
count is 0. The trace has the chunk reads up to the chunk of the first byte that differs. That the reads clear RSTEN is log 23
(DEDUCED). -/
def Obligations.BlankCheckCompletes : Prop :=
  ∀ (s : State) (d : RefDev) (dest n pattern : Word), s.CanRun d (6 + 30 * n.toNat) → d.bc = 0 → s.port.arg0 = some dest →
    s.port.arg1 = some n → s.port.arg2 = some pattern → pattern.toNat < 256 → dest.toNat < s.params.size →
    dest.toNat + n.toNat ≤ s.params.size →
    ∃ t e, exec .blankCheck s = .next t ∧ t.env = .reference e ∧ e.ready = true ∧
      e.chip = (if n = 0 then d.chip else { d.chip with rsten := false }) ∧ t.hostMem = s.hostMem ∧
      t.cfgbuf = s.cfgbuf ∧ t.mmapActive = false ∧
      s.Ended t
        (if ∀ i, i < n.toNat → d.arrayByte (dest.toNat + i) = pattern.setWidth 8 then .ok else .verifyMismatch) 0 ∧
      ((∀ i, i < n.toNat → d.arrayByte (dest.toNat + i) = pattern.setWidth 8) →
        t.trace = s.trace ++ chunkEntries s.params d dest.toNat n.toNat (chunkCount s.params n.toNat)) ∧
      ∀ k, k < n.toNat → (∀ i, i < k → d.arrayByte (dest.toNat + i) = pattern.setWidth 8) →
        d.arrayByte (dest.toNat + k) ≠ pattern.setWidth 8 →
        t.trace = s.trace ++ chunkEntries s.params d dest.toNat n.toNat (k / s.params.page + 1)

/-- `MMAP` (R227, 41_flash_transactions.md R174): the quad read's framing is programmed, the device is memory-mapped, and
`HSTAT.MMAP` reads 1. -/
def Obligations.MmapCompletes : Prop :=
  ∀ (s : State) (d : RefDev), s.CanRun d 20 →
    ∃ t e, exec .mmap s = .next t ∧ s.Ended t .ok 0 ∧ s.SameWork t ∧ t.hostMem = s.hostMem ∧ t.stg = s.stg ∧
      t.cfgbuf = s.cfgbuf ∧ t.mmapActive = true ∧ t.hstat = 2 ∧ t.env = .reference e ∧ e.cur = .mapped ∧
      e.chip = d.chip ∧ t.regs.lptr = s.params.mmapPeriod.setWidth 32 ∧
      t.regs.cr.getLsbD 3 = s.params.mmapTcen ∧ t.regs.abr = s.params.readAlt.setWidth 32 ∧
      t.regs.ccr = packCcr (quadReadHeader s.params 0) .memoryMapped ∧
      t.trace = s.trace ++ [mapEntry (quadReadMap s.params)]

/-- `WRITE` (43_write_orchestrator.md R230 to R233): a range of any size, page-crossing or not, is programmed whole, with `Ok`
and the count 0, by one page call for every page that it meets, in rising order. Under the rule `literal` it completes so
when it lies inside one page or is longer than a page. -/
def Obligations.WriteCompletes : Prop :=
  ∀ (s : State) (d : RefDev) (dest n src : Word), s.CanRun d (4 + n.toNat * (82 + d.busyPolls)) → d.bc = 0 →
    budgetAllows s.params d.busyPolls = true →
    (s.params.orchRule = .boundarySafe ∨ dest.toNat % s.params.page + n.toNat ≤ s.params.page ∨ s.params.page < n.toNat) →
    s.port.arg0 = some dest → s.port.arg1 = some n → s.port.arg2 = some src → dest.toNat < s.params.size →
    dest.toNat + n.toNat ≤ s.params.size → src.toNat + n.toNat ≤ 2 ^ 32 →
    s.admitsAll src.toNat n.toNat = true →
    ∃ t e, exec .write s = .next t ∧ s.Ended t .ok 0 ∧ s.SameBuffers t ∧ t.env = .reference e ∧ e.ready = true ∧
      e.bc = 0 ∧ e.fcfg = d.fcfg ∧ (n ≠ 0 → e.latched s.params = false) ∧
      t.trace = s.trace ++ s.writeEntries dest.toNat n.toNat src.toNat ∧
      (∀ o, e.arrayByte o =
        if dest.toNat ≤ o ∧ o < dest.toNat + n.toNat then d.arrayByte o &&& s.memByte (src.toNat + (o - dest.toNat))
        else d.arrayByte o)

/-! ### Completion: the raw engine commands -/

/-- `E_WRITE` from the host port (40_engine.md R134, R135, R65): the host buffer's bytes, in rising order, with the header's
opcode and address, are one command of the chip. The bytes the rules leave unstated are free. -/
def Obligations.RawWriteCompletes : Prop :=
  ∀ (s : State) (d : RefDev) (hdr addr alt n buf : Word) (h : Header), s.CanRun d (20 + 5 * n.toNat) →
    s.port.arg0 = some hdr → s.port.arg1 = some addr → s.port.arg2 = some alt → s.port.arg3 = some n →
    s.port.arg4 = some buf → decodeHdr hdr addr alt = some h →
    descriptorOk (.transfer { hdr := h, len := n, buf := .host buf }) = true →
    s.admitsAll buf.toNat n.toNat = true →
    ∃ t e free, exec .eWrite s = .next t ∧ s.SameBuffers t ∧
      s.Transacted t e (entryOf .eWrite h .indirectWrite n (s.memBytes buf.toNat n.toNat)) ∧
      e.chip = d.chip.command s.params free h.instr addr (s.memBytes buf.toNat n.toNat)

/-- `E_READ` from the host port (R136, R65): the response's bytes stand in the host buffer, in rising order, and every other
byte of host memory is as before. -/
def Obligations.RawReadCompletes : Prop :=
  ∀ (s : State) (d : RefDev) (hdr addr alt n buf : Word) (h : Header), s.CanRun d (20 + 5 * n.toNat) →
    s.port.arg0 = some hdr → s.port.arg1 = some addr → s.port.arg2 = some alt → s.port.arg3 = some n →
    s.port.arg4 = some buf → decodeHdr hdr addr alt = some h →
    descriptorOk (.transfer { hdr := h, len := n, buf := .host buf }) = true →
    s.admitsAll buf.toNat n.toNat = true →
    ∃ t e free, exec .eRead s = .next t ∧
      s.Transacted t e
        (entryOf .eRead h .indirectRead n (d.response s.params free h.instr addr n.toNat)) ∧
      (∀ a, t.memByte a =
        if buf.toNat ≤ a ∧ a < buf.toNat + n.toNat then d.responseByte s.params free h.instr addr (a - buf.toNat)
        else s.memByte a) ∧
      t.stg = s.stg ∧ t.cfgbuf = s.cfgbuf ∧ t.mmapActive = false ∧
      e.chip = d.chip.command s.params free h.instr addr []

/-- `E_POLL` from the host port whose evaluation `j` is the first to match (R137, 20_memory.md R90): it ends `Ok`, the
countdown has fallen by the evaluations made, `PMM` and `APMS` are in `CR` and no other bit of it is changed, and the
peripheral polls on exactly without auto-stop (70_reset_and_hazards.md R281). That the poll leaves RSTEN as it was is the
model's reading of 20_memory.md R87 (DEDUCED, log 23). -/
def Obligations.RawPollCompletes : Prop :=
  ∀ (s : State) (d : RefDev) (hdr addr alt pcfg m k : Word) (h : Header) (pd : PollDescriptor) (j : Nat),
    s.CanRun d (24 + j) → s.port.arg0 = some hdr → s.port.arg1 = some addr → s.port.arg2 = some alt →
    s.port.arg3 = some pcfg → s.port.arg4 = some m → s.port.arg5 = some k → decodeHdr hdr addr alt = some h →
    decodePcfg pcfg h m k = some pd → descriptorOk (.poll pd) = true →
    (∀ i, i < j → pollMatches { s.regs with psmar := m, psmkr := k } pd.pmm pd.sample
      (RefDev.status s.params { d with bc := d.bc - i }) = false) →
    pollMatches { s.regs with psmar := m, psmkr := k } pd.pmm pd.sample
      (RefDev.status s.params { d with bc := d.bc - j }) = true →
    budgetAllows s.params j = true →
    ∃ t e, exec .ePoll s = .next t ∧ s.Ended t .ok 0 ∧ s.SameBuffers t ∧ s.SameWork t ∧ t.env = .reference e ∧
      e.chip = { d.chip with bc := d.bc - (j + 1) } ∧ e.smf = false ∧ e.busy = !pd.apms ∧
      t.regs.cr.getLsbD 23 = pd.pmm ∧ t.regs.cr.getLsbD 22 = pd.apms ∧
      (∀ b, b ≠ 22 → b ≠ 23 → t.regs.cr.getLsbD b = s.regs.cr.getLsbD b) ∧
      t.trace = s.trace ++ [entryOf .ePoll h .autoPoll (BitVec.ofNat 32 pd.sample) []]

/-- `E_MMAP` from the host port (R138): the timeout period, the mode, the alternate value and the framing are programmed,
no length and no address; `mmap_active` is 1. The header is decoded with address 0 (DESIGN CHOICE, log 36). -/
def Obligations.RawMmapCompletes : Prop :=
  ∀ (s : State) (d : RefDev) (hdr alt mcfg : Word) (h : Header) (m : MemoryMapDescriptor), s.CanRun d 20 →
    s.port.arg0 = some hdr → s.port.arg2 = some alt → s.port.arg3 = some mcfg → decodeHdr hdr 0 alt = some h →
    decodeMcfg mcfg h = some m → descriptorOk (.map m) = true →
    ∃ t e, exec .eMmap s = .next t ∧ s.Transacted t e (mapEntry m) ∧ t.hostMem = s.hostMem ∧ t.stg = s.stg ∧
      t.cfgbuf = s.cfgbuf ∧ t.mmapActive = true ∧ e.cur = .mapped ∧ e.chip = d.chip ∧
      t.regs.lptr = m.period.setWidth 32 ∧ t.regs.abr = alt ∧ t.regs.ccr = packCcr h .memoryMapped ∧
      t.regs.dlr = s.regs.dlr ∧ t.regs.ar = s.regs.ar ∧ t.regs.cr.getLsbD 3 = m.tcen ∧
      ∀ b, b ≠ 3 → t.regs.cr.getLsbD b = s.regs.cr.getLsbD b

/-- `E_ABORT` (R140, R141, 20_memory.md R92): whatever runs in the peripheral, and in memory-mapped mode too, it stops; the
status flags are clear, `mmap_active` is 0, and `CR` is as before with `ABORT` reading 0. -/
def Obligations.AbortCompletes : Prop :=
  ∀ (s : State) (d : RefDev), s.params.wf = true → s.idle = true → crEn s.regs.cr = true → s.hostWaits = true →
    s.env = .reference d → d.quiet = true → d.tef = false → d.tof = false → budgetAllows s.params 1 = true →
    9 ≤ s.burst →
    ∃ t e, exec .eAbort s = .next t ∧ s.Ended t .ok 0 ∧ s.SameWork t ∧ t.env = .reference e ∧ e.ready = true ∧
      e.cur = .none ∧ e.chip = d.chip ∧ t.hostMem = s.hostMem ∧ t.stg = s.stg ∧ t.cfgbuf = s.cfgbuf ∧
      t.mmapActive = false ∧ t.trace = s.trace ∧ crAbort t.regs.cr = false ∧
      ∀ b, b ≠ 1 → t.regs.cr.getLsbD b = s.regs.cr.getLsbD b

/-- `E_DEINIT` (R142) under any environment: `CR.EN` is 0, every other bit of `CR` but `ABORT` and every other register as before, `mmap_active` is
0, and the result is `Ok`. -/
def Obligations.DeinitCompletes : Prop :=
  ∀ s : State, s.params.wf = true → s.idle = true → s.hostWaits = true → 4 ≤ s.burst →
    ∃ t, exec .eDeinit s = .next t ∧ s.Ended t .ok 0 ∧ s.SameWork t ∧ t.hostMem = s.hostMem ∧ t.stg = s.stg ∧
      t.cfgbuf = s.cfgbuf ∧ t.mmapActive = false ∧ t.trace = s.trace ∧ t.regs = { s.regs with cr := t.regs.cr } ∧
      crEn t.regs.cr = false ∧ ∀ b, b ≠ 0 → b ≠ 1 → t.regs.cr.getLsbD b = s.regs.cr.getLsbD b

/-! ### Completion: the flash transactions, standing alone -/

/-- `T_WREN`, `T_RSTEN` and `T_RST` (41_flash_transactions.md R160, R163, R164, 20_memory.md R88). -/
def Obligations.LatchTransactionsComplete : Prop :=
  ∀ (s : State) (d : RefDev), s.CanRun d 20 → d.bc = 0 →
    (∃ t e, exec .tWren s = .next t ∧ s.SameBuffers t ∧
      s.Transacted t e (entryOf .eWrite (plainHeader s.params.opc.wren) .indirectWrite 0 []) ∧
      e.chip = { d.chip with rsten := false, fsr := d.fsr ||| s.params.welMask }) ∧
    (∃ t e, exec .tRsten s = .next t ∧ s.SameBuffers t ∧
      s.Transacted t e (entryOf .eWrite (plainHeader s.params.opc.rsten) .indirectWrite 0 []) ∧
      e.chip = { d.chip with rsten := true }) ∧
    ∃ t e, exec .tRst s = .next t ∧ s.SameBuffers t ∧
      s.Transacted t e (entryOf .eWrite (plainHeader s.params.opc.rst) .indirectWrite 0 []) ∧
      e.chip = if d.rsten then
          { d.chip with
            fsr := d.fsr &&& ~~~(s.params.welMask ||| s.params.wipMask), fcfg := d.fcfgReset, rsten := false }
        else d.chip

/-- `T_POLL_WEL` on a latched chip (R161) and `T_POLL_WIP` (R162): the first takes one evaluation, the second one more than
the countdown. That a poll leaves RSTEN as it was is the model's reading of 20_memory.md R87 (DEDUCED, log 23). -/
def Obligations.PollTransactionsComplete : Prop :=
  ∀ (s : State) (d : RefDev), s.CanRun d (20 + d.bc) → budgetAllows s.params d.bc = true →
    (d.latched s.params = true → ∃ t e, exec .tPollWel s = .next t ∧ s.SameBuffers t ∧
      s.Transacted t e (entryOf .ePoll (statusHeader s.params) .autoPoll 1 []) ∧
      e.chip = { d.chip with bc := d.bc - 1 }) ∧
    ∃ t e, exec .tPollWip s = .next t ∧ s.SameBuffers t ∧
      s.Transacted t e (entryOf .ePoll (statusHeader s.params) .autoPoll 1 []) ∧
      e.chip = { d.chip with bc := 0 }

/-- `T_RDCR` (R166, 20_memory.md R89): the configuration byte is in `CFGBUF`. One that has ended with anything but `Ok`,
whichever of its waits failed and under every environment, has left `CFGBUF` as it was: the order of 40_engine.md R136 is
kept and the value put back at the raise (DEDUCED, log 37). -/
def Obligations.ConfigReadCompletes : Prop :=
  (∀ (s : State) (d : RefDev), s.CanRun d 24 → d.bc = 0 →
    ∃ t e, exec .tRdcr s = .next t ∧
      s.Transacted t e
        (entryOf .eRead { plainHeader s.params.opc.rdcr with dmode := .one } .indirectRead 1 [d.fcfg]) ∧
      t.cfgbuf = d.fcfg ∧ t.hostMem = s.hostMem ∧ t.stg = s.stg ∧ t.mmapActive = false ∧
      e.chip = { d.chip with rsten := false }) ∧
  ∀ s t : State, s.idle = true → exec .tRdcr s = .next t → t.todo = [] → t.fault ≠ none ∨ t.port.resst ≠ some .ok →
    t.cfgbuf = s.cfgbuf

/-- `T_WRVCR` (R167, R89): `CFGBUF` with the quad-enable bit set is written, and takes effect only on a latched chip. That it
clears RSTEN on an unlatched chip too is the model's reading of 20_memory.md R87, which has every command but `OPC_RSTEN`
clear it, against R89's "no effect" (DEDUCED, log 23). -/
def Obligations.ConfigWriteCompletes : Prop :=
  ∀ (s : State) (d : RefDev), s.CanRun d 24 → d.bc = 0 →
    ∃ t e, exec .tWrvcr s = .next t ∧
      s.Transacted t e (entryOf .eWrite { plainHeader s.params.opc.wrvcr with dmode := .one } .indirectWrite 1
        [s.cfgbuf ||| s.params.qeMask]) ∧
      t.cfgbuf = s.cfgbuf ||| s.params.qeMask ∧ t.hostMem = s.hostMem ∧ t.stg = s.stg ∧ t.mmapActive = false ∧
      e.chip = if d.latched s.params then
          { d.chip with
            rsten := false, fcfg := s.cfgbuf ||| s.params.qeMask, fsr := d.fsr &&& ~~~s.params.welMask }
        else { d.chip with rsten := false }

/-- `T_SE` and `T_CE` (R168, R169, 20_memory.md R91): the sector of the address, or the whole array, reads 0xFF, the latch
clears and the countdown starts; without the latch nothing is erased. -/
def Obligations.EraseTransactionsComplete : Prop :=
  ∀ (s : State) (d : RefDev) (addr : Word), s.CanRun d 20 → d.bc = 0 → (Instr.tSe addr).wf s.params = true →
    (∃ t e, exec (.tSe addr) s = .next t ∧ s.SameBuffers t ∧
      s.Transacted t e (entryOf .eWrite (sectorEraseHeader s.params addr) .indirectWrite 0 []) ∧
      e.fcfg = d.fcfg ∧
      (d.latched s.params = true → e.latched s.params = false ∧ e.bc = d.busyPolls ∧
        ∀ o, e.arrayByte o =
          if o / s.params.sector = addr.toNat / s.params.sector then 0xFF else d.arrayByte o) ∧
      (d.latched s.params = false → e.fsr = d.fsr ∧ e.bc = 0 ∧ e.array = d.array)) ∧
    ∃ t e, exec .tCe s = .next t ∧ s.SameBuffers t ∧
      s.Transacted t e (entryOf .eWrite (plainHeader s.params.opc.ce) .indirectWrite 0 []) ∧ e.fcfg = d.fcfg ∧
      (d.latched s.params = true → e.latched s.params = false ∧ e.bc = d.busyPolls ∧
        ∀ o, e.arrayByte o = if o < s.params.size then 0xFF else d.arrayByte o) ∧
      (d.latched s.params = false → e.fsr = d.fsr ∧ e.bc = 0 ∧ e.array = d.array)

/-- `T_QPP` (R172, 20_memory.md R75, R91): a latched chip ANDs the bytes of the host buffer into its page; without the
latch nothing is programmed. -/
def Obligations.PageProgramTransactionCompletes : Prop :=
  ∀ (s : State) (d : RefDev) (dest n src : Word), s.CanRun d (20 + 5 * n.toNat) → d.bc = 0 →
    (Instr.tQpp dest n src).wf s.params = true → s.admitsAll src.toNat n.toNat = true →
    ∃ t e, exec (.tQpp dest n src) s = .next t ∧ s.SameBuffers t ∧
      s.Transacted t e
        (entryOf .eWrite (quadProgramHeader s.params dest) .indirectWrite n (s.memBytes src.toNat n.toNat)) ∧
      e.fcfg = d.fcfg ∧
      (d.latched s.params = true → e.latched s.params = false ∧ e.bc = d.busyPolls ∧
        ∀ o, e.arrayByte o =
          if dest.toNat ≤ o ∧ o < dest.toNat + n.toNat then d.arrayByte o &&& s.memByte (src.toNat + (o - dest.toNat))
          else d.arrayByte o) ∧
      (d.latched s.params = false → e.fsr = d.fsr ∧ e.bc = 0 ∧ e.array = d.array)

/-- `T_QREAD` (R173, R77) into host memory and into the staging buffer: the array's bytes stand in the buffer, in order,
every other byte of it as before. That the read clears RSTEN is log 23 (DEDUCED). -/
def Obligations.QuadReadTransactionCompletes : Prop :=
  ∀ (s : State) (d : RefDev) (dest n : Word), s.CanRun d (20 + 5 * n.toNat) → d.bc = 0 →
    (∀ buf : Word, (Instr.tQread dest n (.host buf)).wf s.params = true →
      s.admitsAll buf.toNat n.toNat = true →
      ∃ t e, exec (.tQread dest n (.host buf)) s = .next t ∧
        s.Transacted t e (entryOf .eRead (quadReadHeader s.params dest) .indirectRead n
          (d.arrayBytes dest.toNat n.toNat)) ∧
        e.chip = { d.chip with rsten := false } ∧
        (∀ a, t.memByte a =
          if buf.toNat ≤ a ∧ a < buf.toNat + n.toNat then d.arrayByte (dest.toNat + (a - buf.toNat))
          else s.memByte a) ∧
        t.stg = s.stg ∧ t.cfgbuf = s.cfgbuf ∧ t.mmapActive = false) ∧
    ((Instr.tQread dest n .stg).wf s.params = true →
      ∃ t e, exec (.tQread dest n .stg) s = .next t ∧
        s.Transacted t e (entryOf .eRead (quadReadHeader s.params dest) .indirectRead n
          (d.arrayBytes dest.toNat n.toNat)) ∧
        e.chip = { d.chip with rsten := false } ∧
        (∀ k, t.stgByte k = if k < n.toNat then d.arrayByte (dest.toNat + k) else s.stgByte k) ∧
        t.hostMem = s.hostMem ∧ t.cfgbuf = s.cfgbuf ∧ t.mmapActive = false)

/-- `T_QREAD_MMAP` (R174). -/
def Obligations.MapTransactionCompletes : Prop :=
  ∀ (s : State) (d : RefDev), s.CanRun d 20 →
    ∃ t e, exec .tQreadMmap s = .next t ∧ s.Transacted t e (mapEntry (quadReadMap s.params)) ∧
      t.hostMem = s.hostMem ∧ t.stg = s.stg ∧ t.cfgbuf = s.cfgbuf ∧ t.mmapActive = true ∧ e.cur = .mapped ∧
      e.chip = d.chip ∧ t.regs.lptr = s.params.mmapPeriod.setWidth 32 ∧
      t.regs.cr.getLsbD 3 = s.params.mmapTcen ∧ t.regs.abr = s.params.readAlt.setWidth 32 ∧
      t.regs.ccr = packCcr (quadReadHeader s.params 0) .memoryMapped

/-! ### Encoding -/

/-- Decoding an encoded well-formed instruction gives it back, with every operand, and leaves the words after it
(30_encoding.md R110 to R114). The image of a transaction's operands is the model's (log 6). -/
def Obligations.EncodeDecode : Prop :=
  ∀ (p : Params) (i : Instr) (rest : List Word), p.wf = true → i.wf p = true →
    decode p (encode p i ++ rest) = .ok (i, rest)

/-- Words written out from the spec's encodings decode to the instruction they stand for: the CCR values of R115, and the
operand words of log 6. -/
def Obligations.TransactionWords : Prop :=
  decode Config.tc0 [0x00000106, 0, 0, 0, 0, 0] = .ok (.tWren, []) ∧
  decode Config.tc0 [0x09000105, 0, 0, 2, 0, 0] = .ok (.tPollWel, []) ∧
  decode Config.tc0 [0x09000105, 0, 0, 0, 0, 0] = .ok (.tPollWip, []) ∧
  decode Config.tc0 [0x00000166, 0, 0, 0, 0, 0] = .ok (.tRsten, []) ∧
  decode Config.tc0 [0x00000199, 0, 0, 0, 0, 0] = .ok (.tRst, []) ∧
  decode Config.tc0 [0x05000135, 0, 0, 0, 0, 0] = .ok (.tRdcr, []) ∧
  decode Config.tc0 [0x01000131, 0, 0, 0, 0, 0] = .ok (.tWrvcr, []) ∧
  decode Config.tc0 [0x000025D8, 0x10000, 0, 0, 0, 0] = .ok (.tSe 0x10000, []) ∧
  decode Config.tc0 [0x000001C7, 0, 0, 0, 0, 0] = .ok (.tCe, []) ∧
  decode Config.tc0 [0x03002532, 0x1F0, 0x0F, 0, 0, 0x20000000] = .ok (.tQpp 0x1F0 0x10 0x20000000, []) ∧
  decode Config.tc0 [0x0710EDEB, 0x1F0, 0x0F, 0, 0, 0x20000000] = .ok (.tQread 0x1F0 0x10 (.host 0x20000000), []) ∧
  decode Config.tc0 [0x0710EDEB, 0x1F0, 0x0F, 0, 1, 0] = .ok (.tQread 0x1F0 0x10 .stg, []) ∧
  decode Config.tc0 [0x0F10EDEB, 0, 0, 0, 0, 0] = .ok (.tQreadMmap, []) ∧
  decode Config.tc0 [0x00000002] = .ok (.programPage, []) ∧
  decode Config.tc0 [0x00000015] = .ok (.eDeinit, [])

/-- R103: every field of `PackCCR(h, fm)` at its place, bits 23 and 29 zero. -/
def Obligations.PackCcrFields : Prop :=
  ∀ (h : Header) (fm : FrameMode),
    (packCcr h fm).extractLsb' 0 8 = h.instr ∧ (packCcr h fm).extractLsb' 8 2 = h.imode.code ∧
    (packCcr h fm).extractLsb' 10 2 = h.admode.code ∧ (packCcr h fm).extractLsb' 12 2 = h.adsize.code ∧
    (packCcr h fm).extractLsb' 14 2 = h.abmode.code ∧ (packCcr h fm).extractLsb' 16 2 = h.absize.code ∧
    (packCcr h fm).extractLsb' 18 5 = h.dcyc ∧ (packCcr h fm).getLsbD 23 = false ∧
    (packCcr h fm).extractLsb' 24 2 = h.dmode.code ∧ (packCcr h fm).extractLsb' 26 2 = fm.code ∧
    (packCcr h fm).getLsbD 28 = h.sioo ∧ (packCcr h fm).getLsbD 29 = false ∧
    (packCcr h fm).getLsbD 30 = h.dhhc ∧ (packCcr h fm).getLsbD 31 = h.ddrm

/-- R113: decoding `HDR`, `PCFG` and `MCFG` is the inverse of packing them, and a set reserved bit is no descriptor. -/
def Obligations.RawOperandWords : Prop :=
  (∀ h : Header, decodeHdr (packCcr h .indirectWrite) h.addr h.alt = some h) ∧
  (∀ (w a b : Word) (h : Header), decodeHdr w a b = some h → packCcr h .indirectWrite = w ∧ h.addr = a ∧ h.alt = b) ∧
  (∀ w a b : Word, decodeHdr w a b = none ↔
    (w.getLsbD 23 = true ∨ w.getLsbD 26 = true ∨ w.getLsbD 27 = true ∨ w.getLsbD 29 = true)) ∧
  (∀ d : PollDescriptor, 1 ≤ d.sample → d.sample ≤ 4 →
    decodePcfg (d.interval.setWidth 32 ||| (bit d.pmm <<< 16) ||| (bit d.apms <<< 17) |||
      (BitVec.ofNat 32 (d.sample - 1) <<< 18)) d.hdr d.matchVal d.mask = some d) ∧
  (∀ (w : Word) (h : Header) (m k : Word), decodePcfg w h m k = none ↔ 2 ^ 20 ≤ w.toNat) ∧
  (∀ d : MemoryMapDescriptor,
    decodeMcfg (d.period.setWidth 32 ||| (bit d.tcen <<< 16)) d.hdr = some d) ∧
  ∀ (w : Word) (h : Header), decodeMcfg w h = none ↔ 2 ^ 17 ≤ w.toNat

/-- R111: the fifteen command codes. -/
def Obligations.CommandCodes : Prop :=
  decodeCmdr 0x01 = some .init ∧ decodeCmdr 0x02 = some .programPage ∧ decodeCmdr 0x03 = some .eraseSector ∧
  decodeCmdr 0x04 = some .eraseChip ∧ decodeCmdr 0x05 = some .read ∧ decodeCmdr 0x06 = some .verify ∧
  decodeCmdr 0x07 = some .blankCheck ∧ decodeCmdr 0x08 = some .mmap ∧ decodeCmdr 0x09 = some .write ∧
  decodeCmdr 0x10 = some .eWrite ∧ decodeCmdr 0x11 = some .eRead ∧ decodeCmdr 0x12 = some .ePoll ∧
  decodeCmdr 0x13 = some .eMmap ∧ decodeCmdr 0x14 = some .eAbort ∧ decodeCmdr 0x15 = some .eDeinit

/-- R116, R190 items 2 and 4: a `CMDR` word whose code is not in the table, or whose bits 31:8 are not 0, faults with
`IllegalCommand`, and so does a `BLANK_CHECK` pattern with bits 31:8 set; nothing else changes. -/
def Obligations.IllegalCommandWords : Prop :=
  (∀ w : Word, decodeCmdr w = none ↔ ¬((1 ≤ w.toNat ∧ w.toNat ≤ 9) ∨ (0x10 ≤ w.toNat ∧ w.toNat ≤ 0x15))) ∧
  (∀ (s : State) (w : Word), s.idle = true → decodeCmdr w = none →
    hostAction (.portWrite 0 w) s = .next (s.raiseFault .illegalCommand)) ∧
  ∀ (s : State) (dest n pattern : Word), s.idle = true → s.port.arg0 = some dest → s.port.arg1 = some n →
    s.port.arg2 = some pattern → 256 ≤ pattern.toNat →
    exec .blankCheck s = .next (s.raiseFault .illegalCommand)

/-- R109: which descriptors are well formed, and that every descriptor the FSM builds is (R114). -/
def Obligations.DescriptorChecks : Prop :=
  (∀ t : Transaction, descriptorOk (.transfer t) = true ↔ headerFits t.hdr ∧ (t.len ≠ 0 ↔ t.hdr.dmode ≠ .none)) ∧
  (∀ d : PollDescriptor, descriptorOk (.poll d) = true ↔
    headerFits d.hdr ∧ d.hdr.dmode ≠ .none ∧ 1 ≤ d.sample ∧ d.sample ≤ 4) ∧
  (∀ d : MemoryMapDescriptor, descriptorOk (.map d) = true ↔ headerFits d.hdr ∧ d.hdr.dmode ≠ .none) ∧
  ∀ (p : Params) (addr dest n src : Word) (b : BufRef) (op m k : Byte), p.wf = true →
    descriptorOk (.transfer (commandOnly (plainHeader op))) = true ∧
    descriptorOk (.poll (statusPoll p m k)) = true ∧
    descriptorOk (.transfer (configRead p)) = true ∧ descriptorOk (.transfer (configWrite p)) = true ∧
    (addr.toNat < p.size → descriptorOk (.transfer (commandOnly (sectorEraseHeader p addr))) = true) ∧
    (inFlash p dest n → n ≠ 0 → descriptorOk (.transfer (quadProgram p dest n src)) = true ∧
      descriptorOk (.transfer (quadRead p dest n b)) = true) ∧
    descriptorOk (.map (quadReadMap p)) = true

/-! ### The step -/

/-- A word written to `CMDR` that decodes to a command is run: the step is `exec` of it, the action off the host's list
(R35, R190). Placed by `withFetchWord` it is the very next step. -/
def Obligations.StepRunsCommand : Prop :=
  (∀ (s : State) (w : Word) (a : Option Nat) (l : List HostEvent) (i : Instr), s.params.wf = true → s.idle = true →
    s.hostIn = { after := a, act := .portWrite 0 w } :: l → decode s.params [w] = .ok (i, []) →
    step s = exec i { s with hostIn := l }) ∧
  ∀ (s : State) (nbits w : Nat) (i : Instr), s.params.wf = true → s.idle = true → decodeTableWord nbits w = some i →
    Instr.code i ≠ 0 →
    ∃ p : Port, (∀ k, (p.arg k).isSome) ∧ p.resst = s.port.resst ∧ p.rescnt = s.port.rescnt ∧
      step (s.withFetchWord nbits w) = exec i { s with port := p }

/-- The next step of a running sequencer (10_state.md R26): a transaction at the head of the remaining steps is run by
`exec`, any other step by `seqOp`, and the burst follows (log 1). A placed transaction is the very next step. -/
def Obligations.StepRunsTransaction : Prop :=
  (∀ (s : State) (i : Instr) (l : List Op), s.params.wf = true → s.fault = none → hostDue s = false →
    s.todo = .issue i :: l → step s = exec i (s.takeOp l)) ∧
  (∀ (s : State) (o : Op) (l : List Op), s.params.wf = true → s.fault = none → hostDue s = false → s.todo = o :: l →
    (∀ i, o ≠ .issue i) → step s = thenRun (seqOp o (s.takeOp l))) ∧
  ∀ (s : State) (nbits w : Nat) (i : Instr), s.params.wf = true → s.fault = none → decodeTableWord nbits w = some i →
    Instr.code i = 0 → step (s.withFetchWord nbits w) = exec i { s with hostIn := [] }

/-- A burst is nothing but single steps in a row (log 1). From every state a sequencer step is what `step` does at the same
state with no burst, up to the field `burst`, and where the step is stuck `step` has none either; a run of `n` is up to `n`
such steps; and an instruction runs as it does with no burst, with its state's burst of steps after it. -/
def Obligations.BurstIsSteps : Prop :=
  (∀ s t : State, s.params.wf = true → seqStep s = some t → step { s with burst := 0 } = .next { t with burst := 0 }) ∧
  (∀ s : State, s.params.wf = true → seqTurn s = true → seqStep s = none → ∃ f, step { s with burst := 0 } = .fault f) ∧
  (∀ (n : Nat) (s : State), runSeq n s = (fun x => (seqStep x).getD x)^[n] s) ∧
  ∀ (i : Instr) (s : State),
    (∀ t, exec i { s with burst := 0 } = .next t → exec i s = .next (runSeq s.burst { t with burst := s.burst })) ∧
    ∀ f, exec i { s with burst := 0 } = .fault f → exec i s = .fault f

/-- R9: the parameter checks, and the refusal of a set that fails one. The spec refuses it at construction; that `step`
refuses every state that holds one is the model's (DESIGN CHOICE, log 3), and so is the 32-bit width of the geometry as a
check (R6, log 2). -/
def Obligations.IllFormedRefused : Prop :=
  (∀ s : State, s.params.wf = false → step s = .refused .illFormedParameters) ∧
  ∀ p : Params, p.wf = true ↔
    (0 < p.size ∧ 0 < p.page ∧ 0 < p.sector ∧ p.size < 2 ^ 32) ∧ (p.size % p.sector = 0 ∧ p.sector % p.page = 0) ∧
    p.size ≤ 2 ^ p.addrBits.bits ∧ p.readDummy ≤ 31 ∧
    ((∃ k, k < 8 ∧ p.welMask = 1 <<< k) ∧ (∃ k, k < 8 ∧ p.wipMask = 1 <<< k) ∧
      (∃ k, k < 8 ∧ p.qeMask = 1 <<< k) ∧ p.welMask ≠ p.wipMask) ∧
    (∀ b, p.waitBudget = some b → 1 ≤ b) ∧ 0 < p.maxClock ∧ p.opc.toList.Nodup

/-- R270, R271, R272: the launch state, as far as the spec gives it: idle, unmapped, nothing latched, no fault, an empty
trace, an unwritten port, an enabled and quiet peripheral; it waits. -/
def Obligations.ResetLaunch : Prop :=
  State.reset.fsm = .idle ∧ State.reset.eng = .idle ∧ State.reset.mmapActive = false ∧ State.reset.desc = none ∧
  State.reset.fault = none ∧ State.reset.trace = [] ∧ (∀ k, State.reset.port.arg k = none) ∧
  State.reset.port.resst = none ∧ State.reset.port.rescnt = none ∧ State.reset.hstat = 0 ∧
  crEn State.reset.regs.cr = true ∧ crAbort State.reset.regs.cr = false ∧
  State.reset.regs.cr &&& crMustBeZero = 0 ∧ State.reset.regs.sr &&& 0x3B = 0 ∧
  (∀ off : Word, off ∈ [0x04, 0x08, 0x0C, 0x10, 0x14, 0x18, 0x1C, 0x20] →
    hostAction (.portRead off) State.reset = .next (State.reset.raiseFault .unwritten)) ∧
  step State.reset = .next State.reset

/-- The invariant holds at launch. -/
def Obligations.ResetInvariant : Prop := State.reset.Inv

/-- Every step keeps the invariant: well-formed parameters, canonical memories within their address spaces, `FAULT` set
exactly when the FSM is Faulted, BUSY exactly while a step is left, an idle engine between commands, RESST and RESCNT written
together, the must-be-zero bits of `CR` and the reserved bits of the other registers 0. And no step, from any state, changes
a parameter or `DCR` (R21). -/
def Obligations.StepKeepsInvariant : Prop :=
  ∀ s t : State, step s = .next t →
    (s.Inv → t.Inv) ∧ t.params = s.params ∧ t.regs.dcr = s.regs.dcr ∧ t.admitted = s.admitted ∧ t.burst = s.burst

/-- R248, R32: a faulted block. No instruction, no host write and no window load has a step; a read of HSTAT answers with
FAULTED = 1 and BUSY = 0; whatever a step does, FAULT stays set, and nothing but the host's data and list changes. -/
def Obligations.FaultedBlock : Prop :=
  (∀ (s : State) (i : Instr), s.fault ≠ none → exec i s = .fault .blockFaulted) ∧
  (∀ (s : State) (off v o : Word) (w : Nat) (a : Word) (b : Byte), s.fault ≠ none →
    hostAction (.portWrite off v) s = .fault .blockFaulted ∧ hostAction (.windowLoad o w) s = .fault .blockFaulted ∧
    hostAction (.windowStore o w v) s = .fault .blockFaulted ∧ hostAction (.memWrite a b) s = .fault .blockFaulted) ∧
  (∀ s : State, s.fault ≠ none → s.fsm = .faulted → ∃ v, hostAction (.portRead 0x24) s = .next { s with hostData := some v } ∧
    v.getLsbD 0 = false ∧ v.getLsbD 2 = true) ∧
  ∀ s t : State, s.Inv → s.fault ≠ none → step s = .next t →
    t.fault ≠ none ∧ t = { s with hostIn := t.hostIn, hostData := t.hostData, fault := t.fault }

/-! ### The host port -/

/-- R39: a read of `HSTAT` answers in every state, with BUSY, MMAP and FAULTED and no other bit. R40: while BUSY is 1 every
host write to `CMDR` and to the operand registers faults with `Reentry`. -/
def Obligations.HstatAndReentry : Prop :=
  (∀ s : State, ∃ v : Word, hostAction (.portRead 0x24) s = .next { s with hostData := some v } ∧
    (v.getLsbD 0 = true ↔ s.fsm ≠ .idle ∧ s.fsm ≠ .faulted) ∧ v.getLsbD 1 = s.mmapActive ∧
    (v.getLsbD 2 = true ↔ s.fault ≠ none) ∧ ∀ b, 3 ≤ b → v.getLsbD b = false) ∧
  ∀ (s : State) (off v : Word), s.fault = none → s.fsm ≠ .idle → s.fsm ≠ .faulted →
    off ∈ [(0x00 : Word), 0x04, 0x08, 0x0C, 0x10, 0x14, 0x18] →
    hostAction (.portWrite off v) s = .next (s.raiseFault .reentry)

/-- R34, R36 to R38: an operand register reads back the last value written, each on its own; the result registers read the
status code and the count; a read of a register never written faults with `Unwritten`; a read past the port's registers, and a
write to any offset but `CMDR` and the operand registers, faults with `IllegalCommand`. The faults are of a block that is not
faulted already. -/
def Obligations.PortRegisters : Prop :=
  (∀ (s : State) (k : Fin 6) (v : Word), s.idle = true →
    ∃ t, hostAction (.portWrite (BitVec.ofNat 32 (4 * k.val + 4)) v) s = .next t ∧ t.port.arg k = some v ∧
      (∀ j, j ≠ k → t.port.arg j = s.port.arg j) ∧ t.port.resst = s.port.resst ∧ t.port.rescnt = s.port.rescnt ∧
      t = { s with port := t.port }) ∧
  (∀ (s : State) (k : Fin 6),
    (∀ v, s.port.arg k = some v →
      hostAction (.portRead (BitVec.ofNat 32 (4 * k.val + 4))) s = .next { s with hostData := some v }) ∧
    (s.fault = none → s.port.arg k = none →
      hostAction (.portRead (BitVec.ofNat 32 (4 * k.val + 4))) s = .next (s.raiseFault .unwritten))) ∧
  (∀ s : State,
    (∀ st, s.port.resst = some st → ∃ v : Word, hostAction (.portRead 0x1C) s = .next { s with hostData := some v } ∧
      v.toNat = match st with
        | .ok => 0 | .hardwareError => 1 | .timeoutError => 2 | .verifyMismatch => 3 | .exhausted => 4) ∧
    (s.fault = none → s.port.resst = none → hostAction (.portRead 0x1C) s = .next (s.raiseFault .unwritten)) ∧
    (∀ v, s.port.rescnt = some v → hostAction (.portRead 0x20) s = .next { s with hostData := some v }) ∧
    (s.fault = none → s.port.rescnt = none → hostAction (.portRead 0x20) s = .next (s.raiseFault .unwritten))) ∧
  (∀ (s : State) (off v : Word), s.fault = none →
    off ∉ [(0x00 : Word), 0x04, 0x08, 0x0C, 0x10, 0x14, 0x18] →
    hostAction (.portWrite off v) s = .next (s.raiseFault .illegalCommand)) ∧
  ∀ (s : State) (off : Word), s.fault = none →
    off ∉ [(0x00 : Word), 0x04, 0x08, 0x0C, 0x10, 0x14, 0x18, 0x1C, 0x20, 0x24] →
    hostAction (.portRead off) s = .next (s.raiseFault .illegalCommand)

/-- R64, R67, R92: a load of the mapped window, whose first byte stands at `P_QSPI_MEM_BASE`, returns the array's bytes,
little-endian, and changes nothing of the block; under the envelope it returns some value of its width (R80 item 4); a load
while unmapped, out of range or of another width, and any store, faults with `WindowAccess`. That a load while the FSM is not
Idle faults so, and one below the window, is the model's reading of R64 (DEDUCED, log 22). -/
def Obligations.WindowAccesses : Prop :=
  (∀ (s : State) (d : RefDev) (a : Word) (o w : Nat), s.idle = true → s.mmapActive = true → s.env = .reference d →
    d.cur = .mapped → w ∈ [1, 2, 4] → a.toNat = s.params.memBase.toNat + o → o + w ≤ s.params.size →
    ∃ v : Word, hostAction (.windowLoad a w) s = .next { s with hostData := some v, draws := s.draws + 1 } ∧
      v.toNat = ((List.range w).map fun j => (d.arrayByte (o + j)).toNat * 2 ^ (8 * j)).sum) ∧
  (∀ (s : State) (a : Word) (o w : Nat), s.idle = true → s.mmapActive = true → s.env = .envelope → w ∈ [1, 2, 4] →
    a.toNat = s.params.memBase.toNat + o → o + w ≤ s.params.size →
    ∃ v : Word, hostAction (.windowLoad a w) s = .next { s with hostData := some v, draws := s.draws + 1 } ∧
      v.toNat < 2 ^ (8 * w)) ∧
  ∀ (s : State) (a v : Word) (w : Nat), s.fault = none →
    (s.mmapActive = false ∨ s.fsm ≠ .idle ∨ a.toNat < s.params.memBase.toNat ∨
        s.params.memBase.toNat + s.params.size < a.toNat + w ∨ w ∉ [1, 2, 4] →
      hostAction (.windowLoad a w) s = .next (s.raiseFault .windowAccess)) ∧
    hostAction (.windowStore a w v) s = .next (s.raiseFault .windowAccess)

/-! ### Where a command faults -/

/-- R190 item 3: a command that needs an operand register never written faults with `Unwritten`, and nothing else changes. That
this holds of a `BLANK_CHECK` whose pattern has bits 31:8 set as well is R190's order of items 3 and 4, against the order in
which 60_exceptions.md R249 names the two reasons (DEDUCED, log 32). -/
def Obligations.UnwrittenOperands : Prop :=
  ∀ s : State, s.idle = true →
    (s.port.arg0 = none ∨ s.port.arg1 = none ∨ s.port.arg2 = none →
      ∀ i ∈ [Instr.programPage, .read, .verify, .blankCheck, .write, .eWrite, .eRead, .ePoll],
        exec i s = .next (s.raiseFault .unwritten)) ∧
    (s.port.arg0 = none → exec .eraseSector s = .next (s.raiseFault .unwritten)) ∧
    (s.port.arg3 = none ∨ s.port.arg4 = none →
      ∀ i ∈ [Instr.eWrite, .eRead, .ePoll], exec i s = .next (s.raiseFault .unwritten)) ∧
    (s.port.arg5 = none → exec .ePoll s = .next (s.raiseFault .unwritten)) ∧
    (s.port.arg0 = none ∨ s.port.arg2 = none ∨ s.port.arg3 = none →
      exec .eMmap s = .next (s.raiseFault .unwritten))

/-- R193 to R197 and R249: which fault each flash-layer command reports, in the order of the checks, whatever the registers
it does not read hold; where it owes none it starts, and reads BUSY. -/
def Obligations.FlashCommandChecks : Prop :=
  ∀ s : State, s.idle = true →
    s.startsOr .init (s.owedFlash none) .resetIssued s.desc ∧
    s.startsOr .eraseChip (s.owedFlash none) .writeEnablePending s.desc ∧
    s.startsOr .mmap (s.owedFlash none) .mapEntering s.desc ∧
    ∀ x : Word, s.port.arg0 = some x →
      s.startsOr .eraseSector (s.owedFlash (owedErase s.params x)) .writeEnablePending s.desc ∧
      ∀ n b : Word, s.port.arg1 = some n → s.port.arg2 = some b →
        s.startsOr .programPage (s.owedFlash (owedProgram s.params x n b)) .writeEnablePending s.desc ∧
        s.startsOr .read (s.owedFlash (owedRead s.params x n b)) .reading s.desc ∧
        s.startsOr .verify (s.owedFlash (owedBuffer s.params x n b)) .comparing s.desc ∧
        s.startsOr .write (s.owedFlash (owedBuffer s.params x n b)) .orchestrating s.desc ∧
        (b.toNat < 256 → s.startsOr .blankCheck (s.owedFlash (owedBlank s.params x n)) .comparing s.desc)

/-- R130, R109, R31: which fault each raw engine command reports, in the order of its guards, whatever the registers it does
not read hold; a set reserved bit of an operand is no descriptor. Where none is owed, the operation starts and its
descriptor, and no other, is in the latch; the header of `E_MMAP` has address 0 (DESIGN CHOICE, log 36), and `E_ABORT` and
`E_DEINIT` latch none (log 27). -/
def Obligations.EngineCommandGuards : Prop :=
  ∀ s : State, s.idle = true →
    s.startsOr .eAbort (if crEn s.regs.cr = false then some .engineDisabled else none) .engineCommand s.desc ∧
    s.startsOr .eDeinit none .engineCommand s.desc ∧
    ∀ x0 x2 x3 : Word, s.port.arg0 = some x0 → s.port.arg2 = some x2 → s.port.arg3 = some x3 →
      (∀ d, d = ((decodeHdr x0 0 x2).bind fun h => (decodeMcfg x3 h).map Descriptor.map) →
        s.startsOr .eMmap (s.owedEngine (d.any descriptorOk)) .engineCommand d) ∧
      ∀ x1 x4 : Word, s.port.arg1 = some x1 → s.port.arg4 = some x4 →
        (∀ d, d = ((decodeHdr x0 x1 x2).map fun h => Descriptor.transfer { hdr := h, len := x3, buf := .host x4 }) →
          s.startsOr .eWrite (s.owedEngine (d.any descriptorOk)) .engineCommand d ∧
          s.startsOr .eRead (s.owedEngine (d.any descriptorOk)) .engineCommand d) ∧
        ∀ x5 : Word, s.port.arg5 = some x5 →
          ∀ d, d = ((decodeHdr x0 x1 x2).bind fun h => (decodePcfg x3 h x4 x5).map Descriptor.poll) →
            s.startsOr .ePoll (s.owedEngine (d.any descriptorOk)) .engineCommand d

/-- R130, R139, R286: while memory-mapped mode is on, every command and every transaction but `E_ABORT` and `E_DEINIT`
faults, and while the engine is disabled, every one but `E_DEINIT`; no register is accessed, nothing is emitted. A `T_WRVCR`
has changed `CFGBUF` before its write comes to the guards (R167, log 33). -/
def Obligations.MappedOrDisabledExcludes : Prop :=
  ∀ (s : State) (i : Instr), s.params.wf = true → s.idle = true → s.mmapActive = true ∨ crEn s.regs.cr = false →
    (∀ k, k ∈ argsOf i → (s.port.arg k).isSome) → i.wf s.params = true → i ≠ .eDeinit →
    (i = .eAbort → crEn s.regs.cr = false) → (i = .tWrvcr → 1 ≤ s.burst ∧ s.hostWaits = true) →
    ∃ t f, exec i s = .next t ∧ t.fault = some f ∧ t.fsm = .faulted ∧ t.todo = [] ∧ t.regs = s.regs ∧ t.env = s.env ∧
      t.trace = s.trace ∧ t.hostMem = s.hostMem ∧ t.stg = s.stg ∧ t.port = s.port ∧ t.mmapActive = s.mmapActive ∧
      t.cfgbuf = if i = .tWrvcr then s.cfgbuf ||| s.params.qeMask else s.cfgbuf

/-- R232, R233: under the rule `literal`, a `WRITE` of at most one page that crosses a page boundary is passed whole to
`PROGRAM_PAGE` and faults with `PageCross`; nothing is emitted and nothing is written. -/
def Obligations.LiteralWriteFaults : Prop :=
  ∀ (s : State) (dest n src : Word), s.params.wf = true → s.idle = true → s.engineOn = true → s.hostWaits = true →
    5 ≤ s.burst → s.params.orchRule = .literal → s.port.arg0 = some dest → s.port.arg1 = some n →
    s.port.arg2 = some src → inFlash s.params dest n → inHost src n →
    s.params.page - dest.toNat % s.params.page < n.toNat → n.toNat ≤ s.params.page →
    ∃ t, exec .write s = .next t ∧ t.fault = some .pageCross ∧ t.fsm = .faulted ∧ t.trace = s.trace ∧ t.regs = s.regs ∧
      t.env = s.env ∧ t.port = s.port ∧ t.hostMem = s.hostMem

/-! ### Waits -/

/-- R133, R144, R243, R246: a sample that shows TEF, or TOF without TEF, ends the command: both flags seen are cleared by one
write of FCR, the status and the count are reported, and nothing else is accessed; an error flag wins over a condition met
in the same sample. It holds of every wait loop and of the abort wait, under every environment. A `T_RDCR` that ends so puts
`CFGBUF` back (41_flash_transactions.md R166, log 37). -/
def Obligations.WaitReportsErrors : Prop :=
  ∀ (s : State) (o : Op) (l : List Op), s.params.wf = true → s.fault = none → s.hostWaits = true → 2 ≤ s.burst →
    s.todo = o :: l → ((∃ c k, o = .wait c k) ∨ ∃ k, o = .abortWait k) →
    srTef s.readSr.1 = true ∨ srTof s.readSr.1 = true →
    ∃ t, step s = .next t ∧
      s.Ended t (if srTef s.readSr.1 then .hardwareError else .timeoutError)
        (if s.current = some .verify then s.wDone else 0) ∧
      t.hostMem = s.hostMem ∧ t.stg = s.stg ∧ t.cfgbuf = s.cfgSaved.getD s.cfgbuf ∧ t.mmapActive = s.mmapActive ∧
      s.SameWork t ∧ t.trace = s.trace ∧
      t.regs = { s.regs with
        sr := t.regs.sr, fcr := bit (srTef s.readSr.1) ||| (bit (srTof s.readSr.1) <<< 4) }

/-- R133, R141, R251: with the budget `B`, the sample that is number `B` of its loop, shows no error and does not end the
loop, ends the command with `Exhausted`. A wait loop writes no register; the abort wait first acknowledges the TCF and SMF it
saw with one write of FCR, in R141's order (DEDUCED, log 38). A `T_RDCR` that ends so puts `CFGBUF` back (41_flash_transactions.md R166, log 37). -/
def Obligations.WaitExhausts : Prop :=
  ∀ (s : State) (k b : Nat) (l : List Op), s.params.wf = true → s.fault = none → s.hostWaits = true →
    srTef s.readSr.1 = false → srTof s.readSr.1 = false → s.params.waitBudget = some b → b ≤ k + 1 →
    (∀ c : WaitCond, 1 ≤ s.burst → s.todo = .wait c k :: l → c.holds s.readSr.1 = false →
      ∃ t, step s = .next t ∧ s.Ended t .exhausted (if s.current = some .verify then s.wDone else 0) ∧
        t.hostMem = s.hostMem ∧ t.stg = s.stg ∧ t.cfgbuf = s.cfgSaved.getD s.cfgbuf ∧ t.mmapActive = s.mmapActive ∧
        s.SameWork t ∧ t.trace = s.trace ∧ t.regs = { s.regs with sr := s.readSr.1 }) ∧
    (2 ≤ s.burst → s.todo = .abortWait k :: l →
      srBusy s.readSr.1 = true ∨ srTcf s.readSr.1 = true ∨ srSmf s.readSr.1 = true →
      ∃ t, step s = .next t ∧ s.Ended t .exhausted (if s.current = some .verify then s.wDone else 0) ∧
        t.hostMem = s.hostMem ∧ t.stg = s.stg ∧ t.cfgbuf = s.cfgSaved.getD s.cfgbuf ∧ t.mmapActive = s.mmapActive ∧
        s.SameWork t ∧ t.trace = s.trace ∧
        t.regs = { s.regs with
          sr := t.regs.sr
          fcr := if srTcf s.readSr.1 = true ∨ srSmf s.readSr.1 = true then
              (bit (srTcf s.readSr.1) <<< 1) ||| (bit (srSmf s.readSr.1) <<< 3)
            else s.regs.fcr })

/-- R250, R281: an auto-poll without auto-stop left running keeps BUSY at 1, so without a budget the next operation's idle
wait never ends: after any number of sequencer steps it is still sampling, and the block reads BUSY. -/
def Obligations.IdleWaitHangs : Prop :=
  ∀ (s : State) (d : RefDev) (pmm : Bool) (sample k n : Nat) (l : List Op), s.fault = none → s.hostWaits = true →
    s.busy = true → s.params.waitBudget = none → s.env = .reference d → d.quiet = true → d.tef = false → d.tof = false →
    d.cur = .poll false pmm sample → s.todo = .wait .busyClear k :: l →
    (runSeq n s).todo = .wait .busyClear (k + n) :: l ∧ (runSeq n s).busy = true ∧ (runSeq n s).trace = s.trace

/-- 10_state.md R41, R42, R45: where the thirteen registers stand from `P_QSPI_REG_BASE`, and that nothing else stands in
their space; each of the sequencer's 32-bit register writes is one write at its register's address, and what it does. A
register written whole holds the value written, all 32 bits of it, and no other changes, but that a write of `FCR` clears the
flags of `SR` it names (that the last values of both are kept is log 17). `CR` gets the value read before it with the fields
of the edit changed, every other bit of it as it was read, and no other register changes; under the reference device ABORT
reads 0 from that write on (R92; that it does so at once is DEDUCED, log 18). -/
def Obligations.RegisterMap : Prop :=
  (∀ (p : Params) (a : Nat), regAt p a =
    if a = p.regBase.toNat then some .cr
    else if a = p.regBase.toNat + 0x04 then some .dcr
    else if a = p.regBase.toNat + 0x08 then some .sr
    else if a = p.regBase.toNat + 0x0C then some .fcr
    else if a = p.regBase.toNat + 0x10 then some .dlr
    else if a = p.regBase.toNat + 0x14 then some .ccr
    else if a = p.regBase.toNat + 0x18 then some .ar
    else if a = p.regBase.toNat + 0x1C then some .abr
    else if a = p.regBase.toNat + 0x20 then some .dr
    else if a = p.regBase.toNat + 0x24 then some .psmkr
    else if a = p.regBase.toNat + 0x28 then some .psmar
    else if a = p.regBase.toNat + 0x2C then some .pir
    else if a = p.regBase.toNat + 0x30 then some .lptr
    else none) ∧
  (∀ (s : State) (w : WholeReg) (v : Word),
    ∃ a t, regAt s.params a = some w.reg ∧ t = s.busWrite a v ∧ seqOp (.writeReg w v) s = .next t ∧
      t.regs =
        match w with
        | .fcr => { s.regs with fcr := v, sr := s.regs.sr &&& ~~~(v &&& 0x1B) }
        | .dlr => { s.regs with dlr := v }
        | .ccr => { s.regs with ccr := v }
        | .ar => { s.regs with ar := v }
        | .abr => { s.regs with abr := v }
        | .psmkr => { s.regs with psmkr := v }
        | .psmar => { s.regs with psmar := v }
        | .pir => { s.regs with pir := v }
        | .lptr => { s.regs with lptr := v }) ∧
  ∀ (s : State) (e : CrEdit),
    ∃ a v t, regAt s.params a = some .cr ∧ t = s.busWrite a v ∧ seqOp (.writeCr e) s = .next t ∧
      v =
        (match e with
        | .poll pmm apms => setBit (setBit s.tmpCr 23 pmm) 22 apms
        | .tcen b => setBit s.tmpCr 3 b
        | .abort => setBit s.tmpCr 1 true
        | .disable => setBit s.tmpCr 0 false) ∧
      t.regs = { s.regs with cr := if s.env = .envelope then v else setBit v 1 false }

/-- R90: when a status byte matches. In AND mode every bit the mask selects, among the low `8 * sample`, equals; in OR mode
some does. -/
def Obligations.PollMatching : Prop :=
  ∀ (r : Regs) (sample : Nat) (v : Byte), 1 ≤ sample → sample ≤ 4 →
    (pollMatches r false sample v = true ↔
      ∀ b, b < 8 * sample → r.psmkr.getLsbD b = true → r.psmar.getLsbD b = v.getLsbD (b % 8)) ∧
    (pollMatches r true sample v = true ↔
      ∃ b, b < 8 * sample ∧ r.psmkr.getLsbD b = true ∧ r.psmar.getLsbD b = v.getLsbD (b % 8))

/-! ### Frames: what an instruction leaves unchanged, under every environment and for every burst -/

/-- Every byte of host memory is as before but those the instruction may store to: only `READ`, `E_READ` and a `T_QREAD`
into host memory store, and only into the range their operands name (20_memory.md R62, 42_flash_operations.md R192). -/
def Obligations.HostMemoryFrame : Prop :=
  ∀ (i : Instr) (s t : State), s.idle = true → exec i s = .next t →
    ∀ a, (∀ b n, s.hostTarget i = some (b, n) → ¬(b ≤ a ∧ a < b + n)) → t.memByte a = s.memByte a

/-- The block's own state: the operand registers never change, the result registers only when the command ends (R36 to R38,
R191); the trace only grows (R33); `CFGBUF`, `STG`, the working registers and `mmap_active` are changed by the instructions
that R27 to R30 name alone. -/
def Obligations.BlockFrame : Prop :=
  ∀ (i : Instr) (s t : State), s.idle = true → exec i s = .next t →
    (∀ k, t.port.arg k = s.port.arg k) ∧
    (t.fsm ≠ .idle → t.port.resst = s.port.resst ∧ t.port.rescnt = s.port.rescnt) ∧
    (∃ new, t.trace = s.trace ++ new) ∧ t.hostData = s.hostData ∧
    (configures i = false → t.cfgbuf = s.cfgbuf) ∧ (stages i = false → t.stg = s.stg) ∧
    (works i = false → s.SameWork t) ∧
    (maps i = false → i ≠ .eAbort → i ≠ .eDeinit → t.mmapActive = s.mmapActive)

/-- The peripheral registers (R42, R53, 30_encoding.md R108): `DCR` never changes; `PSMAR`, `PSMKR`, `PIR`, `PMM` and `APMS`
are written by polls alone, `LPTR` and `TCEN` by mapping alone, `EN` by `E_DEINIT` alone; every other bit of `CR` but `ABORT`
is kept; mapping writes no `DLR` and no `AR` and moves no byte through `DR`, and `E_ABORT` and `E_DEINIT` write no framing register. -/
def Obligations.RegisterFrame : Prop :=
  ∀ (i : Instr) (s t : State), s.idle = true → exec i s = .next t →
    t.regs.dcr = s.regs.dcr ∧
    (polls i = false → t.regs.psmar = s.regs.psmar ∧ t.regs.psmkr = s.regs.psmkr ∧ t.regs.pir = s.regs.pir ∧
      t.regs.cr.getLsbD 22 = s.regs.cr.getLsbD 22 ∧ t.regs.cr.getLsbD 23 = s.regs.cr.getLsbD 23) ∧
    (maps i = false → t.regs.lptr = s.regs.lptr ∧ t.regs.cr.getLsbD 3 = s.regs.cr.getLsbD 3) ∧
    (i ≠ .eDeinit → t.regs.cr.getLsbD 0 = s.regs.cr.getLsbD 0) ∧
    (∀ b, b ≠ 0 → b ≠ 1 → b ≠ 3 → b ≠ 22 → b ≠ 23 → t.regs.cr.getLsbD b = s.regs.cr.getLsbD b) ∧
    (polls i = false → maps i = false → i ≠ .eAbort → i ≠ .eDeinit → t.regs.cr = s.regs.cr) ∧
    (maps i = true ∨ i = .eAbort ∨ i = .eDeinit →
      t.regs.dlr = s.regs.dlr ∧ t.regs.ar = s.regs.ar ∧ t.regs.dr = s.regs.dr) ∧
    (i = .eAbort ∨ i = .eDeinit → t.regs.ccr = s.regs.ccr ∧ t.regs.abr = s.regs.abr ∧ t.trace = s.trace)

/-! ### Whole-machine properties -/

/-- R175: in the trace of every FSM command, under every environment and wherever it stands, each erase or program entry
comes right after a `T_WREN` entry and then a status poll entry of the same command. -/
def Obligations.WriteEnableGuard : Prop :=
  ∀ (i : Instr) (s t : State), s.params.wf = true → s.idle = true → fsmCommand i = true → exec i s = .next t →
    ∃ new, t.trace = s.trace ++ new ∧ guardedTrace s.params new = true

/-- R175 over every run of an FSM command, step by step and under every environment. The phase is read off the steps: a
`T_WREN` entry, then right after it a status poll with `P_WEL_MASK` as match and mask, then that poll's sample with SMF and no
error. An FSM command starts with the invariant in phase `off`; every step of the machine while steps are left keeps it in
the phase that the step leads to, whatever the host does meanwhile; and under it an entry that erases or programs comes in
phase `confirmed` alone, right after its `T_WREN` entry and its status poll entry. -/
def Obligations.WriteEnableConfirmed : Prop :=
  (∀ (i : Instr) (s t : State), s.params.wf = true → s.idle = true → s.burst = 0 → fsmCommand i = true →
    exec i s = .next t → t.Guarded .off) ∧
  (∀ (s t : State) (ph : WritePhase), s.Inv → s.burst = 0 → s.todo ≠ [] → s.Guarded ph → step s = .next t →
    t.Guarded (ph.after s)) ∧
  ∀ (s : State) (ph : WritePhase) (e : TraceEntry) (l : List Op), s.Guarded ph → s.todo = .emit e :: l →
    e.mutating s.params = true → ph = .confirmed ∧
      ∃ tr w q, s.trace = tr ++ [w, q] ∧ w.isWren s.params = true ∧ q.isStatusPoll s.params = true

/-- R75: programming only clears bits, and programming the same data twice is programming it once (R70). -/
def Obligations.ProgramClearsBits : Prop :=
  ∀ (p : Params) (a : Nat) (data : List Byte) (array once : List Host.Cell) (o : Nat), p.wf = true →
    cellsWf arrayDefault array = true → once = programBytes p a 0 data array →
    cellRead arrayDefault once o &&& ~~~cellRead arrayDefault array o = 0 ∧
      cellRead arrayDefault (programBytes p a 0 data once) o = cellRead arrayDefault once o

/-- R78: an erase of the sector of an offset, then a page program of a buffer at it, then a read of it into another buffer,
each started by the host through the port, give the buffer back. -/
def Obligations.RoundTrip : Prop :=
  ∀ (s : State) (d : RefDev) (dest n src dst : Word), s.CanRun d (80 + d.busyPolls + 5 * n.toNat) → d.bc = 0 →
    budgetAllows s.params d.busyPolls = true → 1 ≤ n.toNat → n.toNat ≤ s.params.page →
    dest.toNat + n.toNat ≤ s.params.size → dest.toNat % s.params.page + n.toNat ≤ s.params.page →
    inHost src n → inHost dst n → s.admitsAll src.toNat n.toNat = true → s.admitsAll dst.toNat n.toNat = true →
    ∃ t1 t2 t3,
      exec .eraseSector { s with port := { s.port with arg0 := some dest } } = .next t1 ∧ t1.port.resst = some .ok ∧
      exec .programPage { t1 with port := { t1.port with arg0 := some dest, arg1 := some n, arg2 := some src } } = .next t2 ∧
      t2.port.resst = some .ok ∧
      exec .read { t2 with port := { t2.port with arg0 := some dest, arg1 := some n, arg2 := some dst } } = .next t3 ∧
      t3.port.resst = some .ok ∧
      ∀ i, i < n.toNat → t3.memByte (dst.toNat + i) = s.memByte (src.toNat + i)

/-- R225: a blank check for 0xFF of any range of a sector, right after the erase of that sector, passes. -/
def Obligations.BlankAfterErase : Prop :=
  ∀ (s : State) (d : RefDev) (addr dest n : Word), s.CanRun d (80 + d.busyPolls + 30 * n.toNat) → d.bc = 0 →
    budgetAllows s.params d.busyPolls = true → addr.toNat < s.params.size → dest.toNat < s.params.size →
    addr.toNat / s.params.sector * s.params.sector ≤ dest.toNat →
    dest.toNat + n.toNat ≤ addr.toNat / s.params.sector * s.params.sector + s.params.sector →
    ∃ t1 t2,
      exec .eraseSector { s with port := { s.port with arg0 := some addr } } = .next t1 ∧ t1.port.resst = some .ok ∧
      exec .blankCheck { t1 with port := { t1.port with arg0 := some dest, arg1 := some n, arg2 := some 0xFF } } = .next t2 ∧
      t2.port.resst = some .ok
end

