-- ==== Sys2Proof/Laws/Encoding.lean ====
section
/-! SUPPORT. The fields of a CCR word that the peripheral acts by (30_encoding.md R103), and the bits of a word with one
bit changed. -/

namespace Sys2Proof.Laws

@[simp] theorem getLsbD_bit (b : Bool) (i : Nat) : (bit b).getLsbD i = (decide (i = 0) && b) := by
  cases b <;> simp [bit]

theorem getElem_bit (b : Bool) (i : Nat) (h : i < 32) : (bit b)[i] = (decide (i = 0) && b) := by
  rw [← BitVec.getLsbD_eq_getElem, getLsbD_bit]

theorem packCcr_instr (h : Header) (fm : FrameMode) : (packCcr h fm).extractLsb' 0 8 = h.instr := by
  apply BitVec.eq_of_getLsbD_eq
  intro i hi
  simp only [packCcr, BitVec.getLsbD_extractLsb', BitVec.getLsbD_or, BitVec.getLsbD_shiftLeft, BitVec.getLsbD_setWidth,
    getLsbD_bit]
  simp [hi, show i < 32 by omega, show i < 10 by omega, show i < 12 by omega, show i < 14 by omega, show i < 16 by omega,
    show i < 18 by omega, show i < 24 by omega, show i < 26 by omega, show i < 28 by omega, show i < 30 by omega,
    show i < 31 by omega]

theorem packCcr_dmode (h : Header) (fm : FrameMode) : (packCcr h fm).extractLsb' 24 2 = h.dmode.code := by
  apply BitVec.eq_of_getLsbD_eq
  intro i hi
  have : i = 0 ∨ i = 1 := by omega
  rcases this with rfl | rfl <;> simp [packCcr, BitVec.getLsbD_of_ge]

theorem packCcr_fmode (h : Header) (fm : FrameMode) : (packCcr h fm).extractLsb' 26 2 = fm.code := by
  apply BitVec.eq_of_getLsbD_eq
  intro i hi
  have : i = 0 ∨ i = 1 := by omega
  rcases this with rfl | rfl <;> simp [packCcr, BitVec.getLsbD_of_ge]

theorem code_eq_zero (m : LineMode) : m.code = 0 ↔ m = .none := by cases m <;> decide

/-- A bit of a word with one bit changed. -/
theorem getLsbD_setBit (w : Word) (k i : Nat) (b : Bool) (hk : k < 32) :
    (Machine.setBit w k b).getLsbD i = if i = k then b else w.getLsbD i := by
  unfold Machine.setBit
  by_cases hi : i < 32
  · by_cases hik : i = k
    · subst hik; cases b <;> simp [bit, hi]
    · by_cases hlt : i < k
      · simp [hi, hik, hlt]
      · have : i - k ≠ 0 := by omega
        cases b <;> simp [bit, hi, hik, hlt, this]
  · have h1 : w.getLsbD i = false := BitVec.getLsbD_of_ge _ _ (by omega)
    have h2 : i ≠ k := by omega
    rw [BitVec.getLsbD_of_ge _ _ (by omega), if_neg h2, h1]

theorem getElem_setBit (w : Word) (k i : Nat) (b : Bool) (hk : k < 32) (hi : i < 32) :
    (Machine.setBit w k b)[i] = if i = k then b else w[i] := by
  rw [← BitVec.getLsbD_eq_getElem, getLsbD_setBit w k i b hk, BitVec.getLsbD_eq_getElem]

/-- Different opcodes pack to different words. -/
theorem ccr_ne {h h' : Header} {fm fm' : FrameMode} (hi : h.instr ≠ h'.instr) : packCcr h fm ≠ packCcr h' fm' := by
  intro he
  exact hi (by rw [← packCcr_instr h fm, he, packCcr_instr])

/-- Different frame modes pack to different words. -/
theorem ccr_ne_fm {h h' : Header} {fm fm' : FrameMode} (hi : fm.code ≠ fm'.code) : packCcr h fm ≠ packCcr h' fm' := by
  intro he
  exact hi (by rw [← packCcr_fmode h fm, he, packCcr_fmode])

/-- A word with an instruction phase on one line is no command word (log 6). -/
theorem ccr_high {h : Header} {fm : FrameMode} (hi : h.imode = .one) : (packCcr h fm).extractLsb' 8 24 ≠ 0 := by
  intro he
  have := congrArg (fun w => w.getLsbD 0) he
  simp [packCcr, hi, LineMode.code] at this

/-- A transaction word is decoded by `decodeTx`, and the words after it are left. -/
theorem decode_tx {p : Params} {h : Header} {fm : FrameMode} (hi : h.imode = .one) (a b c d e : Word) (rest : List Word) :
    decode p (txWords (packCcr h fm) a b c d e ++ rest) =
      match decodeTx p (packCcr h fm) ⟨a, b, c, d, e⟩ with
      | .ok i => .ok (i, rest)
      | .error x => .error x := by
  cases hd : decodeTx p (packCcr h fm) ⟨a, b, c, d, e⟩ <;>
    simp only [txWords, List.cons_append, List.nil_append, decode, ccr_high hi, if_false, hd]

end Sys2Proof.Laws
end

