-- ==== Sys2Proof/Laws/Cells.lean ====
section
/-! SUPPORT. The laws of byte memories: a read after a write, the canonical form kept, equal canonical memories. -/

namespace Sys2Proof.Laws

open Sys2Proof.Machine

theorem cellRead_nil (dflt : Byte) (a : Nat) : cellRead dflt [] a = dflt := rfl

theorem cellsWfFrom_mono {dflt : Byte} {m : List Host.Cell} {lo lo' : Nat} (h : cellsWfFrom dflt lo m = true)
    (hle : lo' ≤ lo) : cellsWfFrom dflt lo' m = true := by
  cases m with
  | nil => rfl
  | cons c rest =>
    obtain ⟨x, y⟩ := c
    simp only [cellsWfFrom, Bool.and_eq_true, decide_eq_true_eq] at h ⊢
    exact ⟨⟨by omega, h.1.2⟩, h.2⟩

/-- Below a canonical memory's first address every byte reads the default. -/
theorem cellRead_below {dflt : Byte} {m : List Host.Cell} {lo a : Nat} (h : cellsWfFrom dflt lo m = true)
    (ha : a < lo) : cellRead dflt m a = dflt := by
  induction m generalizing lo with
  | nil => rfl
  | cons c rest ih =>
    obtain ⟨x, y⟩ := c
    simp only [cellsWfFrom, Bool.and_eq_true, decide_eq_true_eq] at h
    have hne : x ≠ a := by omega
    simp only [cellRead, if_neg hne]
    exact ih h.2 (by omega)

/-- A write keeps the canonical form. -/
theorem cellWrite_wfFrom {dflt : Byte} {m : List Host.Cell} {lo a : Nat} {b : Byte}
    (h : cellsWfFrom dflt lo m = true) (ha : lo ≤ a) : cellsWfFrom dflt lo (cellWrite dflt m a b) = true := by
  induction m generalizing lo with
  | nil =>
    by_cases hb : b = dflt <;> simp [cellWrite, hb, cellsWfFrom, ha]
  | cons c rest ih =>
    obtain ⟨x, y⟩ := c
    simp only [cellsWfFrom, Bool.and_eq_true, decide_eq_true_eq] at h
    obtain ⟨⟨hlo, hy⟩, hrest⟩ := h
    simp only [cellWrite]
    split
    · split
      · simp [cellsWfFrom, hlo, hy, hrest]
      · rename_i hlt hb
        simp only [cellsWfFrom, Bool.and_eq_true, decide_eq_true_eq]
        exact ⟨⟨ha, hb⟩, ⟨⟨by omega, hy⟩, hrest⟩⟩
    · split
      · split
        · exact cellsWfFrom_mono hrest (by omega)
        · rename_i heq hb
          subst heq
          simp [cellsWfFrom, hlo, hb, hrest]
      · rename_i hlt hne
        simp only [cellsWfFrom, Bool.and_eq_true, decide_eq_true_eq]
        exact ⟨⟨hlo, hy⟩, ih hrest (by omega)⟩

theorem cellWrite_wf {dflt : Byte} {m : List Host.Cell} {a : Nat} {b : Byte} (h : cellsWf dflt m = true) :
    cellsWf dflt (cellWrite dflt m a b) = true :=
  cellWrite_wfFrom h (Nat.zero_le a)

/-- The byte written reads back; every other byte reads as before. -/
theorem cellRead_cellWrite {dflt : Byte} {m : List Host.Cell} {lo a c : Nat} {b : Byte}
    (h : cellsWfFrom dflt lo m = true) :
    cellRead dflt (cellWrite dflt m a b) c = if a = c then b else cellRead dflt m c := by
  induction m generalizing lo with
  | nil =>
    by_cases hb : b = dflt
    · simp [cellWrite, cellRead, hb]
    · simp [cellWrite, hb, cellRead]
  | cons e rest ih =>
    obtain ⟨x, y⟩ := e
    simp only [cellsWfFrom, Bool.and_eq_true, decide_eq_true_eq] at h
    obtain ⟨⟨hlo, hy⟩, hrest⟩ := h
    simp only [cellWrite]
    split
    · rename_i hlt
      split
      · rename_i hb
        by_cases hac : a = c
        · subst hac
          have : x ≠ a := by omega
          simp [cellRead, this, hb, cellRead_below hrest (by omega : a < x + 1)]
        · simp [hac]
      · simp [cellRead]
    · rename_i hlt
      split
      · rename_i heq
        subst heq
        split
        · rename_i hb
          by_cases hac : a = c
          · subst hac
            simp [hb, cellRead_below hrest (by omega : a < a + 1)]
          · simp [cellRead, hac]
        · by_cases hac : a = c <;> simp [cellRead, hac]
      · rename_i hne
        simp only [cellRead]
        by_cases hxc : x = c
        · have : a ≠ c := by omega
          simp [hxc, this]
        · simp [hxc, ih hrest]

/-- A write leaves every other address as it was, canonical form or not. -/
theorem cellRead_write_ne {dflt : Byte} (m : List Host.Cell) {a c : Nat} (b : Byte) (h : c ≠ a) :
    cellRead dflt (cellWrite dflt m a b) c = cellRead dflt m c := by
  induction m with
  | nil => unfold cellWrite; split <;> simp [cellRead, Ne.symm h]
  | cons e rest ih =>
    obtain ⟨x, y⟩ := e
    unfold cellWrite
    split
    · split <;> simp [cellRead, Ne.symm h]
    · split
      · rename_i hx
        subst hx
        split <;> simp [cellRead, Ne.symm h]
      · simp only [cellRead, ih]


theorem cellRead_write_same {dflt : Byte} {m : List Host.Cell} {a : Nat} {b : Byte} (h : cellsWf dflt m = true) :
    cellRead dflt (cellWrite dflt m a b) a = b := by
  rw [cellRead_cellWrite h]; simp

theorem cellRead_write_other {dflt : Byte} {m : List Host.Cell} {a c : Nat} {b : Byte} (h : cellsWf dflt m = true)
    (hac : a ≠ c) : cellRead dflt (cellWrite dflt m a b) c = cellRead dflt m c := by
  rw [cellRead_cellWrite h]; simp [hac]

/-- Clearing keeps the canonical form. -/
theorem cellClear_wfFrom {dflt : Byte} {p : Nat → Bool} {m : List Host.Cell} {lo : Nat}
    (h : cellsWfFrom dflt lo m = true) : cellsWfFrom dflt lo (cellClear p m) = true := by
  induction m generalizing lo with
  | nil => rfl
  | cons e rest ih =>
    obtain ⟨x, y⟩ := e
    simp only [cellsWfFrom, Bool.and_eq_true, decide_eq_true_eq] at h
    obtain ⟨⟨hlo, hy⟩, hrest⟩ := h
    by_cases hp : p x
    · simp only [cellClear, List.filter_cons, hp]
      exact cellsWfFrom_mono (ih hrest) (by omega)
    · simp only [cellClear, List.filter_cons, hp]
      simp only [Bool.not_false, if_true, cellsWfFrom, Bool.and_eq_true, decide_eq_true_eq]
      exact ⟨⟨hlo, hy⟩, ih hrest⟩

theorem cellClear_wf {dflt : Byte} {p : Nat → Bool} {m : List Host.Cell} (h : cellsWf dflt m = true) :
    cellsWf dflt (cellClear p m) = true :=
  cellClear_wfFrom h

/-- A cleared byte reads the default; every other byte reads as before. -/
theorem cellRead_cellClear {dflt : Byte} {p : Nat → Bool} {m : List Host.Cell} {a : Nat} :
    cellRead dflt (cellClear p m) a = if p a then dflt else cellRead dflt m a := by
  induction m with
  | nil => simp [cellClear, cellRead]
  | cons e rest ih =>
    obtain ⟨x, y⟩ := e
    by_cases hp : p x
    · have : cellClear p ((x, y) :: rest) = cellClear p rest := by simp [cellClear, hp]
      rw [this, ih]
      by_cases hxa : x = a
      · subst hxa; simp [hp]
      · simp [cellRead, hxa]
    · have : cellClear p ((x, y) :: rest) = (x, y) :: cellClear p rest := by simp [cellClear, hp]
      rw [this]
      by_cases hxa : x = a
      · subst hxa; simp [cellRead, hp]
      · simp [cellRead, hxa, ih]

/-- Every listed address satisfies `p`. -/
theorem cellWrite_all {dflt : Byte} {p : Nat → Bool} {m : List Host.Cell} {a : Nat} {b : Byte}
    (h : m.all (fun c => p c.1) = true) (ha : p a = true) : (cellWrite dflt m a b).all (fun c => p c.1) = true := by
  induction m with
  | nil => by_cases hb : b = dflt <;> simp [cellWrite, hb, ha]
  | cons e rest ih =>
    obtain ⟨x, y⟩ := e
    simp only [List.all_cons, Bool.and_eq_true] at h
    simp only [cellWrite]
    split
    · split <;> simp [h, ha]
    · split
      · split <;> simp [h, ha]
      · simp [h.1, ih h.2]

theorem cellClear_all {p q : Nat → Bool} {m : List Host.Cell} (h : m.all (fun c => p c.1) = true) :
    (cellClear q m).all (fun c => p c.1) = true := by
  simp only [List.all_eq_true, cellClear, List.mem_filter] at h ⊢
  exact fun c hc => h c hc.1

/-- Bytes written one after another from an address. -/
def writeCells (dflt : Byte) : List Host.Cell → Nat → List Byte → List Host.Cell
  | m, _, [] => m
  | m, a, b :: rest => writeCells dflt (cellWrite dflt m a b) (a + 1) rest

theorem writeCells_wf {dflt : Byte} {m : List Host.Cell} {a : Nat} {l : List Byte} (h : cellsWf dflt m = true) :
    cellsWf dflt (writeCells dflt m a l) = true := by
  induction l generalizing m a with
  | nil => exact h
  | cons b rest ih => exact ih (cellWrite_wf h)

/-- The bytes written read back in order; every other byte reads as before. -/
theorem cellRead_writeCells {dflt : Byte} {m : List Host.Cell} {a o : Nat} {l : List Byte} (h : cellsWf dflt m = true) :
    cellRead dflt (writeCells dflt m a l) o =
      if a ≤ o ∧ o < a + l.length then l.getD (o - a) 0 else cellRead dflt m o := by
  induction l generalizing m a with
  | nil => simp only [writeCells, List.length_nil]; rw [if_neg (by omega)]
  | cons b rest ih =>
    rw [writeCells, ih (cellWrite_wf h), cellRead_cellWrite h, List.length_cons]
    by_cases hao : a = o
    · subst hao
      rw [if_neg (by omega), if_pos rfl, if_pos (by omega), Nat.sub_self, List.getD_cons_zero]
    · rw [if_neg hao]
      by_cases hin : a + 1 ≤ o ∧ o < a + 1 + rest.length
      · rw [if_pos hin, if_pos (by omega), show o - a = (o - (a + 1)) + 1 by omega, List.getD_cons_succ]
      · rw [if_neg hin, if_neg (by omega)]

/-- Two canonical memories that read alike are equal data. -/
theorem cells_ext {dflt : Byte} {m n : List Host.Cell} {lo : Nat} (hm : cellsWfFrom dflt lo m = true)
    (hn : cellsWfFrom dflt lo n = true) (h : ∀ a, cellRead dflt m a = cellRead dflt n a) : m = n := by
  induction m generalizing lo n with
  | nil =>
    cases n with
    | nil => rfl
    | cons e rest =>
      obtain ⟨x, y⟩ := e
      simp only [cellsWfFrom, Bool.and_eq_true, decide_eq_true_eq] at hn
      have := h x
      simp only [cellRead, if_true] at this
      exact absurd this.symm hn.1.2
  | cons e rest ih =>
    obtain ⟨x, y⟩ := e
    have hm' := hm
    simp only [cellsWfFrom, Bool.and_eq_true, decide_eq_true_eq] at hm
    cases n with
    | nil =>
      have := h x
      simp only [cellRead, if_true] at this
      exact absurd this hm.1.2
    | cons e' rest' =>
      obtain ⟨x', y'⟩ := e'
      have hn' := hn
      simp only [cellsWfFrom, Bool.and_eq_true, decide_eq_true_eq] at hn
      have hx : x = x' := by
        rcases Nat.lt_trichotomy x x' with hlt | heq | hgt
        · have hx := h x
          have h2 : cellRead dflt ((x', y') :: rest') x = dflt := by
            have hne : x' ≠ x := by omega
            simp only [cellRead, if_neg hne]
            exact cellRead_below hn.2 (by omega)
          rw [h2] at hx
          simp only [cellRead, if_true] at hx
          exact absurd hx hm.1.2
        · exact heq
        · have hx := h x'
          have h2 : cellRead dflt ((x, y) :: rest) x' = dflt := by
            have hne : x ≠ x' := by omega
            simp only [cellRead, if_neg hne]
            exact cellRead_below hm.2 (by omega)
          rw [h2] at hx
          simp only [cellRead, if_true] at hx
          exact absurd hx.symm hn.1.2
      subst hx
      have hy : y = y' := by simpa [cellRead] using h x
      subst hy
      have hrest : rest = rest' := by
        apply ih hm.2 hn.2
        intro a
        by_cases hxa : x = a
        · subst hxa
          rw [cellRead_below hm.2 (by omega), cellRead_below hn.2 (by omega)]
        · simpa [cellRead, hxa] using h a
      rw [hrest]

end Sys2Proof.Laws
end

