-- ==== Sys2Proof/Laws/Device.lean ====
section
/-! SUPPORT. The reference device (20_memory.md R83 to R92): its samples, and what its commands do to the chip. -/

namespace Sys2Proof.Laws

open Sys2Proof.Machine

/-! ### The flags of an SR word (10_state.md R44) -/

@[simp] theorem srTef_srWord (a b c d e f : Bool) : srTef (srWord a b c d e f) = a := by revert a b c d e f; decide

@[simp] theorem srTcf_srWord (a b c d e f : Bool) : srTcf (srWord a b c d e f) = b := by revert a b c d e f; decide

@[simp] theorem srFtf_srWord (a b c d e f : Bool) : srFtf (srWord a b c d e f) = c := by revert a b c d e f; decide

@[simp] theorem srSmf_srWord (a b c d e f : Bool) : srSmf (srWord a b c d e f) = d := by revert a b c d e f; decide

@[simp] theorem srTof_srWord (a b c d e f : Bool) : srTof (srWord a b c d e f) = e := by revert a b c d e f; decide

@[simp] theorem srBusy_srWord (a b c d e f : Bool) : srBusy (srWord a b c d e f) = f := by revert a b c d e f; decide

/-! ### Samples (R85) -/

/-- One more sample counted. -/
def counted (d : RefDev) : RefDev := { d with ns := d.ns + 1 }

/-- A device with nothing left to inject shows no injected flag at its next sample. -/
theorem injected_counted {d : RefDev} (hq : d.quiet = true) : (counted d).injected = counted d := by
  simp only [RefDev.quiet, List.all_eq_true, decide_eq_true_eq] at hq
  have hno : ∀ e ∈ d.inject, (e.ns == d.ns + 1) = false := fun e he => by
    have := hq e he
    simp only [beq_eq_false_iff_ne]
    omega
  have h1 : (d.inject.any fun e => e.ns == d.ns + 1 && e.tef) = false := by
    simp only [List.any_eq_false]
    exact fun e he => by simp [hno e he]
  have h2 : (d.inject.any fun e => e.ns == d.ns + 1 && e.tof) = false := by
    simp only [List.any_eq_false]
    exact fun e he => by simp [hno e he]
  simp [RefDev.injected, counted, h1, h2]

theorem quiet_counted {d : RefDev} (hq : d.quiet = true) : (counted d).quiet = true := by
  simp only [RefDev.quiet, counted, List.all_eq_true] at hq ⊢
  exact fun e he => decide_eq_true (Nat.le_succ_of_le (of_decide_eq_true (hq e he)))

/-- A sample of a quiet device with no auto-poll running only counts. -/
theorem sample_still {p : Params} {r : Regs} {d : RefDev} (hq : d.quiet = true) (hb : d.busy = false) :
    d.sample p r = ((counted d).sr, counted d) := by
  have : d.sample p r = ((counted d).injected.sr, (counted d).injected) := by
    unfold RefDev.sample
    cases hc : d.cur <;> simp_all [RefDev.busy, counted]
  rw [this, injected_counted hq]

/-- A sample of a quiet device with an auto-poll running evaluates it once (R90). -/
theorem sample_poll {p : Params} {r : Regs} {d : RefDev} {apms pmm : Bool} {n : Nat} (hq : d.quiet = true)
    (hc : d.cur = .poll apms pmm n) :
    d.sample p r = (((counted d).evaluate p r apms pmm n).sr, (counted d).evaluate p r apms pmm n) := by
  have hinj : ((counted d).evaluate p r apms pmm n).injected = (counted d).evaluate p r apms pmm n := by
    have hi := injected_counted hq
    simp only [RefDev.injected, counted, RefDev.mk.injEq, true_and, and_true] at hi
    simp only [RefDev.evaluate]
    split <;> simp [RefDev.injected, counted, hi.1, hi.2]
  unfold RefDev.sample
  simp only [hc]
  rw [show ({ d with ns := d.ns + 1, cur := Cur.poll apms pmm n } : RefDev) = counted d by rw [← hc]; rfl, hinj]

/-! ### Commands (R87 to R91) -/

/-- A command keeps the test parameters, the samples counted, the flags and the operation. -/
theorem command_keeps (p : Params) (free : Nat → Byte) (op : Byte) (a : Word) (data : List Byte) (d : RefDev) :
    let e := d.command p free op a data
    e.tef = d.tef ∧ e.tof = d.tof ∧ e.tcf = d.tcf ∧ e.smf = d.smf ∧ e.cur = d.cur ∧ e.ns = d.ns ∧
      e.busyPolls = d.busyPolls ∧ e.inject = d.inject ∧ e.fcfgReset = d.fcfgReset := by
  simp only [RefDev.command, RefDev.arrayDone]
  repeat' split
  all_goals exact ⟨rfl, rfl, rfl, rfl, rfl, rfl, rfl, rfl, rfl⟩

/-- Another operation in progress. -/
def setCur (c : Cur) (d : RefDev) : RefDev := { d with cur := c }

/-- A command does not look at the operation in progress. -/
theorem command_setCur (p : Params) (free : Nat → Byte) (op : Byte) (a : Word) (data : List Byte) (d : RefDev) (c : Cur) :
    (setCur c d).command p free op a data = setCur c (d.command p free op a data) := by
  have ha : (setCur c d).accepts p op = d.accepts p op := rfl
  have hl : (setCur c d).latched p = d.latched p := rfl
  unfold RefDev.command
  rw [ha, hl]
  simp only [apply_ite (setCur c)]
  rfl

theorem command_chip (p : Params) (free : Nat → Byte) (op : Byte) (a : Word) (data : List Byte) (d : RefDev) :
    d.chip.command p free op a data = (d.command p free op a data).chip := by
  have ha : d.chip.accepts p op = d.accepts p op := rfl
  have hl : d.chip.latched p = d.latched p := rfl
  unfold RefDev.command
  rw [ha, hl]
  simp only [apply_ite RefDev.chip]
  rfl

/-- The response depends on the chip alone. -/
theorem response_chip (p : Params) (free : Nat → Byte) (op : Byte) (a : Word) (n : Nat) (d : RefDev) :
    d.chip.response p free op a n = d.response p free op a n := rfl

/-! ### Programming (R91, R75) -/

theorem programByte_wf {p : Params} {a i : Nat} {b : Byte} {arr : List Host.Cell}
    (h : cellsWf arrayDefault arr = true) : cellsWf arrayDefault (programByte p a i b arr) = true := by
  simp only [programByte]
  split
  · exact cellWrite_wf h
  · exact h

theorem programBytes_wf {p : Params} {a i : Nat} {l : List Byte} {arr : List Host.Cell}
    (h : cellsWf arrayDefault arr = true) : cellsWf arrayDefault (programBytes p a i l arr) = true := by
  induction l generalizing i arr with
  | nil => exact h
  | cons b rest ih => exact ih (programByte_wf h)

theorem programByte_all {p : Params} {a i : Nat} {b : Byte} {arr : List Host.Cell}
    (h : arr.all (fun c => decide (c.1 < p.size)) = true) :
    (programByte p a i b arr).all (fun c => decide (c.1 < p.size)) = true := by
  simp only [programByte]
  split
  · rename_i hlt; exact cellWrite_all (p := fun o => decide (o < p.size)) h (by simpa using hlt)
  · exact h

theorem programBytes_all {p : Params} {a i : Nat} {l : List Byte} {arr : List Host.Cell}
    (h : arr.all (fun c => decide (c.1 < p.size)) = true) :
    (programBytes p a i l arr).all (fun c => decide (c.1 < p.size)) = true := by
  induction l generalizing i arr with
  | nil => exact h
  | cons b rest ih => exact ih (programByte_all h)

/-- Within one page a program ANDs byte `j` into offset `a + i + j`, and into no other (R75). -/
theorem programBytes_read {p : Params} {a i : Nat} {l : List Byte} {arr : List Host.Cell} {o : Nat}
    (hwf : cellsWf arrayDefault arr = true) (hpage : a % p.page + i + l.length ≤ p.page)
    (hsize : a + i + l.length ≤ p.size) :
    cellRead arrayDefault (programBytes p a i l arr) o =
      if a + i ≤ o ∧ o < a + i + l.length then cellRead arrayDefault arr o &&& l.getD (o - (a + i)) 0
      else cellRead arrayDefault arr o := by
  induction l generalizing i arr with
  | nil => simp only [List.length_nil, programBytes]; rw [if_neg (by omega)]
  | cons b rest ih =>
    simp only [List.length_cons] at hpage hsize ⊢
    have hle : a % p.page ≤ a := Nat.mod_le _ _
    have ho : a - a % p.page + (a - (a - a % p.page) + i) % p.page = a + i := by
      generalize a % p.page = m at hpage hle ⊢
      rw [show a - (a - m) = m by omega, Nat.mod_eq_of_lt (by omega)]
      omega
    have hb : programByte p a i b arr = cellWrite arrayDefault arr (a + i) (cellRead arrayDefault arr (a + i) &&& b) := by
      simp only [programByte, ho]
      rw [if_pos (by omega)]
    rw [programBytes, ih (by rw [hb]; exact cellWrite_wf hwf) (by omega) (by omega), hb]
    simp only [cellRead_cellWrite hwf]
    by_cases hoi : a + i = o
    · subst hoi
      rw [if_neg (by omega), if_pos rfl, if_pos (by omega), Nat.sub_self, List.getD_cons_zero]
    · simp only [if_neg hoi]
      by_cases hin : a + (i + 1) ≤ o ∧ o < a + (i + 1) + rest.length
      · rw [if_pos hin, if_pos (by omega), show o - (a + i) = (o - (a + (i + 1))) + 1 by omega, List.getD_cons_succ]
      · rw [if_neg hin, if_neg (by omega)]

/-- Every command keeps the canonical form of the array and its bounds (10_state.md R55). -/
theorem command_array {p : Params} {free : Nat → Byte} {op : Byte} {a : Word} {data : List Byte} {d : RefDev}
    (hwf : cellsWf arrayDefault d.array = true) (hall : d.array.all (fun c => decide (c.1 < p.size)) = true) :
    cellsWf arrayDefault (d.command p free op a data).array = true ∧
      (d.command p free op a data).array.all (fun c => decide (c.1 < p.size)) = true := by
  have hclear : ∀ q, cellsWf arrayDefault (cellClear q d.array) = true ∧
      (cellClear q d.array).all (fun c => decide (c.1 < p.size)) = true :=
    fun q => ⟨cellClear_wf hwf, cellClear_all (p := fun o => decide (o < p.size)) hall⟩
  have hprog : cellsWf arrayDefault (programBytes p a.toNat 0 data d.array) = true ∧
      (programBytes p a.toNat 0 data d.array).all (fun c => decide (c.1 < p.size)) = true :=
    ⟨programBytes_wf hwf, programBytes_all hall⟩
  simp only [RefDev.command, RefDev.arrayDone]
  repeat' split
  all_goals
    first
    | exact ⟨hwf, hall⟩
    | exact hclear fun o => decide (o / p.sector = a.toNat / p.sector)
    | exact hclear fun o => decide (o < p.size)
    | exact hprog

/-- Only the three array commands change the array (R77, R91). -/
theorem command_array_same {p : Params} {free : Nat → Byte} {op : Byte} {a : Word} {data : List Byte} {d : RefDev}
    (hse : op ≠ p.opc.se) (hce : op ≠ p.opc.ce) (hqpp : op ≠ p.opc.qpp) :
    (d.command p free op a data).array = d.array := by
  simp only [RefDev.command, RefDev.arrayDone]
  repeat' split
  all_goals rfl

end Sys2Proof.Laws
end

