-- ==== Sys2Proof/Laws/State.lean ====
section
/-! SUPPORT. The state record: what each named update leaves of every field. -/

namespace Sys2Proof.Laws

open Sys2Proof.Machine

/-! ### `raiseFault` -/
@[simp] theorem raiseFault_params (s : State) (f : FaultReason) : (s.raiseFault f).params = s.params := rfl
@[simp] theorem raiseFault_burst (s : State) (f : FaultReason) : (s.raiseFault f).burst = s.burst := rfl
@[simp] theorem raiseFault_hostIn (s : State) (f : FaultReason) : (s.raiseFault f).hostIn = s.hostIn := rfl
@[simp] theorem raiseFault_hostData (s : State) (f : FaultReason) : (s.raiseFault f).hostData = s.hostData := rfl
@[simp] theorem raiseFault_draws (s : State) (f : FaultReason) : (s.raiseFault f).draws = s.draws := rfl
@[simp] theorem raiseFault_fsm (s : State) (f : FaultReason) : (s.raiseFault f).fsm = .faulted := rfl
@[simp] theorem raiseFault_eng (s : State) (f : FaultReason) : (s.raiseFault f).eng = s.eng := rfl
@[simp] theorem raiseFault_idx (s : State) (f : FaultReason) : (s.raiseFault f).idx = s.idx := rfl
@[simp] theorem raiseFault_todo (s : State) (f : FaultReason) : (s.raiseFault f).todo = [] := rfl
@[simp] theorem raiseFault_current (s : State) (f : FaultReason) : (s.raiseFault f).current = s.current := rfl
@[simp] theorem raiseFault_tmpByte (s : State) (f : FaultReason) : (s.raiseFault f).tmpByte = s.tmpByte := rfl
@[simp] theorem raiseFault_tmpCr (s : State) (f : FaultReason) : (s.raiseFault f).tmpCr = s.tmpCr := rfl
@[simp] theorem raiseFault_mmapActive (s : State) (f : FaultReason) : (s.raiseFault f).mmapActive = s.mmapActive := rfl
@[simp] theorem raiseFault_wAddr (s : State) (f : FaultReason) : (s.raiseFault f).wAddr = s.wAddr := rfl
@[simp] theorem raiseFault_wBuf (s : State) (f : FaultReason) : (s.raiseFault f).wBuf = s.wBuf := rfl
@[simp] theorem raiseFault_wRem (s : State) (f : FaultReason) : (s.raiseFault f).wRem = s.wRem := rfl
@[simp] theorem raiseFault_wDone (s : State) (f : FaultReason) : (s.raiseFault f).wDone = s.wDone := rfl
@[simp] theorem raiseFault_wN (s : State) (f : FaultReason) : (s.raiseFault f).wN = s.wN := rfl
@[simp] theorem raiseFault_cfgbuf (s : State) (f : FaultReason) : (s.raiseFault f).cfgbuf = s.cfgbuf := rfl
@[simp] theorem raiseFault_cfgSaved (s : State) (f : FaultReason) : (s.raiseFault f).cfgSaved = s.cfgSaved := rfl
@[simp] theorem raiseFault_stg (s : State) (f : FaultReason) : (s.raiseFault f).stg = s.stg := rfl
@[simp] theorem raiseFault_desc (s : State) (f : FaultReason) : (s.raiseFault f).desc = s.desc := rfl
@[simp] theorem raiseFault_fault (s : State) (f : FaultReason) : (s.raiseFault f).fault = some f := rfl
@[simp] theorem raiseFault_trace (s : State) (f : FaultReason) : (s.raiseFault f).trace = s.trace := rfl
@[simp] theorem raiseFault_port (s : State) (f : FaultReason) : (s.raiseFault f).port = s.port := rfl
@[simp] theorem raiseFault_regs (s : State) (f : FaultReason) : (s.raiseFault f).regs = s.regs := rfl
@[simp] theorem raiseFault_hostMem (s : State) (f : FaultReason) : (s.raiseFault f).hostMem = s.hostMem := rfl
@[simp] theorem raiseFault_admitted (s : State) (f : FaultReason) : (s.raiseFault f).admitted = s.admitted := rfl
@[simp] theorem raiseFault_env (s : State) (f : FaultReason) : (s.raiseFault f).env = s.env := rfl

/-! ### `endCommand` -/
@[simp] theorem endCommand_params (s : State) (st : Status) (n : Word) : (s.endCommand st n).params = s.params := rfl
@[simp] theorem endCommand_burst (s : State) (st : Status) (n : Word) : (s.endCommand st n).burst = s.burst := rfl
@[simp] theorem endCommand_hostIn (s : State) (st : Status) (n : Word) : (s.endCommand st n).hostIn = s.hostIn := rfl
@[simp] theorem endCommand_hostData (s : State) (st : Status) (n : Word) : (s.endCommand st n).hostData = s.hostData := rfl
@[simp] theorem endCommand_draws (s : State) (st : Status) (n : Word) : (s.endCommand st n).draws = s.draws := rfl
@[simp] theorem endCommand_fsm (s : State) (st : Status) (n : Word) : (s.endCommand st n).fsm = .idle := rfl
@[simp] theorem endCommand_eng (s : State) (st : Status) (n : Word) : (s.endCommand st n).eng = .idle := rfl
@[simp] theorem endCommand_idx (s : State) (st : Status) (n : Word) : (s.endCommand st n).idx = s.idx := rfl
@[simp] theorem endCommand_todo (s : State) (st : Status) (n : Word) : (s.endCommand st n).todo = [] := rfl
@[simp] theorem endCommand_current (s : State) (st : Status) (n : Word) : (s.endCommand st n).current = none := rfl
@[simp] theorem endCommand_tmpByte (s : State) (st : Status) (n : Word) : (s.endCommand st n).tmpByte = s.tmpByte := rfl
@[simp] theorem endCommand_tmpCr (s : State) (st : Status) (n : Word) : (s.endCommand st n).tmpCr = s.tmpCr := rfl
@[simp] theorem endCommand_mmapActive (s : State) (st : Status) (n : Word) : (s.endCommand st n).mmapActive = s.mmapActive := rfl
@[simp] theorem endCommand_wAddr (s : State) (st : Status) (n : Word) : (s.endCommand st n).wAddr = s.wAddr := rfl
@[simp] theorem endCommand_wBuf (s : State) (st : Status) (n : Word) : (s.endCommand st n).wBuf = s.wBuf := rfl
@[simp] theorem endCommand_wRem (s : State) (st : Status) (n : Word) : (s.endCommand st n).wRem = s.wRem := rfl
@[simp] theorem endCommand_wDone (s : State) (st : Status) (n : Word) : (s.endCommand st n).wDone = s.wDone := rfl
@[simp] theorem endCommand_wN (s : State) (st : Status) (n : Word) : (s.endCommand st n).wN = s.wN := rfl
@[simp] theorem endCommand_cfgbuf (s : State) (st : Status) (n : Word) : (s.endCommand st n).cfgbuf = s.cfgbuf := rfl
@[simp] theorem endCommand_cfgSaved (s : State) (st : Status) (n : Word) : (s.endCommand st n).cfgSaved = s.cfgSaved := rfl
@[simp] theorem endCommand_stg (s : State) (st : Status) (n : Word) : (s.endCommand st n).stg = s.stg := rfl
@[simp] theorem endCommand_desc (s : State) (st : Status) (n : Word) : (s.endCommand st n).desc = none := rfl
@[simp] theorem endCommand_fault (s : State) (st : Status) (n : Word) : (s.endCommand st n).fault = s.fault := rfl
@[simp] theorem endCommand_trace (s : State) (st : Status) (n : Word) : (s.endCommand st n).trace = s.trace := rfl
@[simp] theorem endCommand_port (s : State) (st : Status) (n : Word) : (s.endCommand st n).port = { s.port with resst := some st, rescnt := some n } := rfl
@[simp] theorem endCommand_regs (s : State) (st : Status) (n : Word) : (s.endCommand st n).regs = s.regs := rfl
@[simp] theorem endCommand_hostMem (s : State) (st : Status) (n : Word) : (s.endCommand st n).hostMem = s.hostMem := rfl
@[simp] theorem endCommand_admitted (s : State) (st : Status) (n : Word) : (s.endCommand st n).admitted = s.admitted := rfl
@[simp] theorem endCommand_env (s : State) (st : Status) (n : Word) : (s.endCommand st n).env = s.env := rfl

/-! ### `restoreCfg` -/
@[simp] theorem restoreCfg_params (s : State) : (s.restoreCfg).params = s.params := rfl
@[simp] theorem restoreCfg_burst (s : State) : (s.restoreCfg).burst = s.burst := rfl
@[simp] theorem restoreCfg_hostIn (s : State) : (s.restoreCfg).hostIn = s.hostIn := rfl
@[simp] theorem restoreCfg_hostData (s : State) : (s.restoreCfg).hostData = s.hostData := rfl
@[simp] theorem restoreCfg_draws (s : State) : (s.restoreCfg).draws = s.draws := rfl
@[simp] theorem restoreCfg_fsm (s : State) : (s.restoreCfg).fsm = s.fsm := rfl
@[simp] theorem restoreCfg_eng (s : State) : (s.restoreCfg).eng = s.eng := rfl
@[simp] theorem restoreCfg_idx (s : State) : (s.restoreCfg).idx = s.idx := rfl
@[simp] theorem restoreCfg_todo (s : State) : (s.restoreCfg).todo = s.todo := rfl
@[simp] theorem restoreCfg_current (s : State) : (s.restoreCfg).current = s.current := rfl
@[simp] theorem restoreCfg_tmpByte (s : State) : (s.restoreCfg).tmpByte = s.tmpByte := rfl
@[simp] theorem restoreCfg_tmpCr (s : State) : (s.restoreCfg).tmpCr = s.tmpCr := rfl
@[simp] theorem restoreCfg_mmapActive (s : State) : (s.restoreCfg).mmapActive = s.mmapActive := rfl
@[simp] theorem restoreCfg_wAddr (s : State) : (s.restoreCfg).wAddr = s.wAddr := rfl
@[simp] theorem restoreCfg_wBuf (s : State) : (s.restoreCfg).wBuf = s.wBuf := rfl
@[simp] theorem restoreCfg_wRem (s : State) : (s.restoreCfg).wRem = s.wRem := rfl
@[simp] theorem restoreCfg_wDone (s : State) : (s.restoreCfg).wDone = s.wDone := rfl
@[simp] theorem restoreCfg_wN (s : State) : (s.restoreCfg).wN = s.wN := rfl
@[simp] theorem restoreCfg_cfgbuf (s : State) : (s.restoreCfg).cfgbuf = s.cfgSaved.getD s.cfgbuf := rfl
@[simp] theorem restoreCfg_cfgSaved (s : State) : (s.restoreCfg).cfgSaved = none := rfl
@[simp] theorem restoreCfg_stg (s : State) : (s.restoreCfg).stg = s.stg := rfl
@[simp] theorem restoreCfg_desc (s : State) : (s.restoreCfg).desc = s.desc := rfl
@[simp] theorem restoreCfg_fault (s : State) : (s.restoreCfg).fault = s.fault := rfl
@[simp] theorem restoreCfg_trace (s : State) : (s.restoreCfg).trace = s.trace := rfl
@[simp] theorem restoreCfg_port (s : State) : (s.restoreCfg).port = s.port := rfl
@[simp] theorem restoreCfg_regs (s : State) : (s.restoreCfg).regs = s.regs := rfl
@[simp] theorem restoreCfg_hostMem (s : State) : (s.restoreCfg).hostMem = s.hostMem := rfl
@[simp] theorem restoreCfg_admitted (s : State) : (s.restoreCfg).admitted = s.admitted := rfl
@[simp] theorem restoreCfg_env (s : State) : (s.restoreCfg).env = s.env := rfl

/-! ### `begin` -/
@[simp] theorem begin_params (s : State) (i : Instr) (f : FsmStep) (l : List Op) : (s.begin i f l).params = s.params := rfl
@[simp] theorem begin_burst (s : State) (i : Instr) (f : FsmStep) (l : List Op) : (s.begin i f l).burst = s.burst := rfl
@[simp] theorem begin_hostIn (s : State) (i : Instr) (f : FsmStep) (l : List Op) : (s.begin i f l).hostIn = s.hostIn := rfl
@[simp] theorem begin_hostData (s : State) (i : Instr) (f : FsmStep) (l : List Op) : (s.begin i f l).hostData = s.hostData := rfl
@[simp] theorem begin_draws (s : State) (i : Instr) (f : FsmStep) (l : List Op) : (s.begin i f l).draws = s.draws := rfl
@[simp] theorem begin_fsm (s : State) (i : Instr) (f : FsmStep) (l : List Op) : (s.begin i f l).fsm = f := rfl
@[simp] theorem begin_eng (s : State) (i : Instr) (f : FsmStep) (l : List Op) : (s.begin i f l).eng = s.eng := rfl
@[simp] theorem begin_idx (s : State) (i : Instr) (f : FsmStep) (l : List Op) : (s.begin i f l).idx = s.idx := rfl
@[simp] theorem begin_todo (s : State) (i : Instr) (f : FsmStep) (l : List Op) : (s.begin i f l).todo = l := rfl
@[simp] theorem begin_current (s : State) (i : Instr) (f : FsmStep) (l : List Op) : (s.begin i f l).current = some i := rfl
@[simp] theorem begin_tmpByte (s : State) (i : Instr) (f : FsmStep) (l : List Op) : (s.begin i f l).tmpByte = s.tmpByte := rfl
@[simp] theorem begin_tmpCr (s : State) (i : Instr) (f : FsmStep) (l : List Op) : (s.begin i f l).tmpCr = s.tmpCr := rfl
@[simp] theorem begin_mmapActive (s : State) (i : Instr) (f : FsmStep) (l : List Op) : (s.begin i f l).mmapActive = s.mmapActive := rfl
@[simp] theorem begin_wAddr (s : State) (i : Instr) (f : FsmStep) (l : List Op) : (s.begin i f l).wAddr = s.wAddr := rfl
@[simp] theorem begin_wBuf (s : State) (i : Instr) (f : FsmStep) (l : List Op) : (s.begin i f l).wBuf = s.wBuf := rfl
@[simp] theorem begin_wRem (s : State) (i : Instr) (f : FsmStep) (l : List Op) : (s.begin i f l).wRem = s.wRem := rfl
@[simp] theorem begin_wDone (s : State) (i : Instr) (f : FsmStep) (l : List Op) : (s.begin i f l).wDone = s.wDone := rfl
@[simp] theorem begin_wN (s : State) (i : Instr) (f : FsmStep) (l : List Op) : (s.begin i f l).wN = s.wN := rfl
@[simp] theorem begin_cfgbuf (s : State) (i : Instr) (f : FsmStep) (l : List Op) : (s.begin i f l).cfgbuf = s.cfgbuf := rfl
@[simp] theorem begin_cfgSaved (s : State) (i : Instr) (f : FsmStep) (l : List Op) : (s.begin i f l).cfgSaved = none := rfl
@[simp] theorem begin_stg (s : State) (i : Instr) (f : FsmStep) (l : List Op) : (s.begin i f l).stg = s.stg := rfl
@[simp] theorem begin_desc (s : State) (i : Instr) (f : FsmStep) (l : List Op) : (s.begin i f l).desc = s.desc := rfl
@[simp] theorem begin_fault (s : State) (i : Instr) (f : FsmStep) (l : List Op) : (s.begin i f l).fault = s.fault := rfl
@[simp] theorem begin_trace (s : State) (i : Instr) (f : FsmStep) (l : List Op) : (s.begin i f l).trace = s.trace := rfl
@[simp] theorem begin_port (s : State) (i : Instr) (f : FsmStep) (l : List Op) : (s.begin i f l).port = s.port := rfl
@[simp] theorem begin_regs (s : State) (i : Instr) (f : FsmStep) (l : List Op) : (s.begin i f l).regs = s.regs := rfl
@[simp] theorem begin_hostMem (s : State) (i : Instr) (f : FsmStep) (l : List Op) : (s.begin i f l).hostMem = s.hostMem := rfl
@[simp] theorem begin_admitted (s : State) (i : Instr) (f : FsmStep) (l : List Op) : (s.begin i f l).admitted = s.admitted := rfl
@[simp] theorem begin_env (s : State) (i : Instr) (f : FsmStep) (l : List Op) : (s.begin i f l).env = s.env := rfl

/-! ### `latch` -/
@[simp] theorem latch_params (s : State) (d : Descriptor) (l : List Op) : (s.latch d l).params = s.params := rfl
@[simp] theorem latch_burst (s : State) (d : Descriptor) (l : List Op) : (s.latch d l).burst = s.burst := rfl
@[simp] theorem latch_hostIn (s : State) (d : Descriptor) (l : List Op) : (s.latch d l).hostIn = s.hostIn := rfl
@[simp] theorem latch_hostData (s : State) (d : Descriptor) (l : List Op) : (s.latch d l).hostData = s.hostData := rfl
@[simp] theorem latch_draws (s : State) (d : Descriptor) (l : List Op) : (s.latch d l).draws = s.draws := rfl
@[simp] theorem latch_fsm (s : State) (d : Descriptor) (l : List Op) : (s.latch d l).fsm = s.fsm := rfl
@[simp] theorem latch_eng (s : State) (d : Descriptor) (l : List Op) : (s.latch d l).eng = s.eng := rfl
@[simp] theorem latch_idx (s : State) (d : Descriptor) (l : List Op) : (s.latch d l).idx = s.idx := rfl
@[simp] theorem latch_todo (s : State) (d : Descriptor) (l : List Op) : (s.latch d l).todo = l ++ s.todo := rfl
@[simp] theorem latch_current (s : State) (d : Descriptor) (l : List Op) : (s.latch d l).current = s.current := rfl
@[simp] theorem latch_tmpByte (s : State) (d : Descriptor) (l : List Op) : (s.latch d l).tmpByte = s.tmpByte := rfl
@[simp] theorem latch_tmpCr (s : State) (d : Descriptor) (l : List Op) : (s.latch d l).tmpCr = s.tmpCr := rfl
@[simp] theorem latch_mmapActive (s : State) (d : Descriptor) (l : List Op) : (s.latch d l).mmapActive = s.mmapActive := rfl
@[simp] theorem latch_wAddr (s : State) (d : Descriptor) (l : List Op) : (s.latch d l).wAddr = s.wAddr := rfl
@[simp] theorem latch_wBuf (s : State) (d : Descriptor) (l : List Op) : (s.latch d l).wBuf = s.wBuf := rfl
@[simp] theorem latch_wRem (s : State) (d : Descriptor) (l : List Op) : (s.latch d l).wRem = s.wRem := rfl
@[simp] theorem latch_wDone (s : State) (d : Descriptor) (l : List Op) : (s.latch d l).wDone = s.wDone := rfl
@[simp] theorem latch_wN (s : State) (d : Descriptor) (l : List Op) : (s.latch d l).wN = s.wN := rfl
@[simp] theorem latch_cfgbuf (s : State) (d : Descriptor) (l : List Op) : (s.latch d l).cfgbuf = s.cfgbuf := rfl
@[simp] theorem latch_cfgSaved (s : State) (d : Descriptor) (l : List Op) : (s.latch d l).cfgSaved = s.cfgSaved := rfl
@[simp] theorem latch_stg (s : State) (d : Descriptor) (l : List Op) : (s.latch d l).stg = s.stg := rfl
@[simp] theorem latch_desc (s : State) (d : Descriptor) (l : List Op) : (s.latch d l).desc = some d := rfl
@[simp] theorem latch_fault (s : State) (d : Descriptor) (l : List Op) : (s.latch d l).fault = s.fault := rfl
@[simp] theorem latch_trace (s : State) (d : Descriptor) (l : List Op) : (s.latch d l).trace = s.trace := rfl
@[simp] theorem latch_port (s : State) (d : Descriptor) (l : List Op) : (s.latch d l).port = s.port := rfl
@[simp] theorem latch_regs (s : State) (d : Descriptor) (l : List Op) : (s.latch d l).regs = s.regs := rfl
@[simp] theorem latch_hostMem (s : State) (d : Descriptor) (l : List Op) : (s.latch d l).hostMem = s.hostMem := rfl
@[simp] theorem latch_admitted (s : State) (d : Descriptor) (l : List Op) : (s.latch d l).admitted = s.admitted := rfl
@[simp] theorem latch_env (s : State) (d : Descriptor) (l : List Op) : (s.latch d l).env = s.env := rfl

/-! ### `nextIdx` -/
@[simp] theorem nextIdx_params (s : State) (b : Bool) : (s.nextIdx b).params = s.params := rfl
@[simp] theorem nextIdx_burst (s : State) (b : Bool) : (s.nextIdx b).burst = s.burst := rfl
@[simp] theorem nextIdx_hostIn (s : State) (b : Bool) : (s.nextIdx b).hostIn = s.hostIn := rfl
@[simp] theorem nextIdx_hostData (s : State) (b : Bool) : (s.nextIdx b).hostData = s.hostData := rfl
@[simp] theorem nextIdx_draws (s : State) (b : Bool) : (s.nextIdx b).draws = s.draws := rfl
@[simp] theorem nextIdx_fsm (s : State) (b : Bool) : (s.nextIdx b).fsm = s.fsm := rfl
@[simp] theorem nextIdx_eng (s : State) (b : Bool) : (s.nextIdx b).eng = s.eng := rfl
@[simp] theorem nextIdx_idx (s : State) (b : Bool) : (s.nextIdx b).idx = if b then 0 else s.idx + 1 := rfl
@[simp] theorem nextIdx_todo (s : State) (b : Bool) : (s.nextIdx b).todo = s.todo := rfl
@[simp] theorem nextIdx_current (s : State) (b : Bool) : (s.nextIdx b).current = s.current := rfl
@[simp] theorem nextIdx_tmpByte (s : State) (b : Bool) : (s.nextIdx b).tmpByte = s.tmpByte := rfl
@[simp] theorem nextIdx_tmpCr (s : State) (b : Bool) : (s.nextIdx b).tmpCr = s.tmpCr := rfl
@[simp] theorem nextIdx_mmapActive (s : State) (b : Bool) : (s.nextIdx b).mmapActive = s.mmapActive := rfl
@[simp] theorem nextIdx_wAddr (s : State) (b : Bool) : (s.nextIdx b).wAddr = s.wAddr := rfl
@[simp] theorem nextIdx_wBuf (s : State) (b : Bool) : (s.nextIdx b).wBuf = s.wBuf := rfl
@[simp] theorem nextIdx_wRem (s : State) (b : Bool) : (s.nextIdx b).wRem = s.wRem := rfl
@[simp] theorem nextIdx_wDone (s : State) (b : Bool) : (s.nextIdx b).wDone = s.wDone := rfl
@[simp] theorem nextIdx_wN (s : State) (b : Bool) : (s.nextIdx b).wN = s.wN := rfl
@[simp] theorem nextIdx_cfgbuf (s : State) (b : Bool) : (s.nextIdx b).cfgbuf = s.cfgbuf := rfl
@[simp] theorem nextIdx_cfgSaved (s : State) (b : Bool) : (s.nextIdx b).cfgSaved = s.cfgSaved := rfl
@[simp] theorem nextIdx_stg (s : State) (b : Bool) : (s.nextIdx b).stg = s.stg := rfl
@[simp] theorem nextIdx_desc (s : State) (b : Bool) : (s.nextIdx b).desc = s.desc := rfl
@[simp] theorem nextIdx_fault (s : State) (b : Bool) : (s.nextIdx b).fault = s.fault := rfl
@[simp] theorem nextIdx_trace (s : State) (b : Bool) : (s.nextIdx b).trace = s.trace := rfl
@[simp] theorem nextIdx_port (s : State) (b : Bool) : (s.nextIdx b).port = s.port := rfl
@[simp] theorem nextIdx_regs (s : State) (b : Bool) : (s.nextIdx b).regs = s.regs := rfl
@[simp] theorem nextIdx_hostMem (s : State) (b : Bool) : (s.nextIdx b).hostMem = s.hostMem := rfl
@[simp] theorem nextIdx_admitted (s : State) (b : Bool) : (s.nextIdx b).admitted = s.admitted := rfl
@[simp] theorem nextIdx_env (s : State) (b : Bool) : (s.nextIdx b).env = s.env := rfl

/-! ### `setWork` -/
@[simp] theorem setWork_params (s : State) (r : WorkReg) (v : Word) : (s.setWork r v).params = s.params := by cases r <;> rfl
@[simp] theorem setWork_burst (s : State) (r : WorkReg) (v : Word) : (s.setWork r v).burst = s.burst := by cases r <;> rfl
@[simp] theorem setWork_hostIn (s : State) (r : WorkReg) (v : Word) : (s.setWork r v).hostIn = s.hostIn := by cases r <;> rfl
@[simp] theorem setWork_hostData (s : State) (r : WorkReg) (v : Word) : (s.setWork r v).hostData = s.hostData := by cases r <;> rfl
@[simp] theorem setWork_draws (s : State) (r : WorkReg) (v : Word) : (s.setWork r v).draws = s.draws := by cases r <;> rfl
@[simp] theorem setWork_fsm (s : State) (r : WorkReg) (v : Word) : (s.setWork r v).fsm = s.fsm := by cases r <;> rfl
@[simp] theorem setWork_eng (s : State) (r : WorkReg) (v : Word) : (s.setWork r v).eng = s.eng := by cases r <;> rfl
@[simp] theorem setWork_idx (s : State) (r : WorkReg) (v : Word) : (s.setWork r v).idx = s.idx := by cases r <;> rfl
@[simp] theorem setWork_todo (s : State) (r : WorkReg) (v : Word) : (s.setWork r v).todo = s.todo := by cases r <;> rfl
@[simp] theorem setWork_current (s : State) (r : WorkReg) (v : Word) : (s.setWork r v).current = s.current := by cases r <;> rfl
@[simp] theorem setWork_tmpByte (s : State) (r : WorkReg) (v : Word) : (s.setWork r v).tmpByte = s.tmpByte := by cases r <;> rfl
@[simp] theorem setWork_tmpCr (s : State) (r : WorkReg) (v : Word) : (s.setWork r v).tmpCr = s.tmpCr := by cases r <;> rfl
@[simp] theorem setWork_mmapActive (s : State) (r : WorkReg) (v : Word) : (s.setWork r v).mmapActive = s.mmapActive := by cases r <;> rfl
@[simp] theorem setWork_wAddr (s : State) (r : WorkReg) (v : Word) : (s.setWork r v).wAddr = if r = .addr then v else s.wAddr := by cases r <;> rfl
@[simp] theorem setWork_wBuf (s : State) (r : WorkReg) (v : Word) : (s.setWork r v).wBuf = if r = .buf then v else s.wBuf := by cases r <;> rfl
@[simp] theorem setWork_wRem (s : State) (r : WorkReg) (v : Word) : (s.setWork r v).wRem = if r = .rem then v else s.wRem := by cases r <;> rfl
@[simp] theorem setWork_wDone (s : State) (r : WorkReg) (v : Word) : (s.setWork r v).wDone = if r = .done then v else s.wDone := by cases r <;> rfl
@[simp] theorem setWork_wN (s : State) (r : WorkReg) (v : Word) : (s.setWork r v).wN = if r = .n then v else s.wN := by cases r <;> rfl
@[simp] theorem setWork_cfgbuf (s : State) (r : WorkReg) (v : Word) : (s.setWork r v).cfgbuf = s.cfgbuf := by cases r <;> rfl
@[simp] theorem setWork_cfgSaved (s : State) (r : WorkReg) (v : Word) : (s.setWork r v).cfgSaved = s.cfgSaved := by cases r <;> rfl
@[simp] theorem setWork_stg (s : State) (r : WorkReg) (v : Word) : (s.setWork r v).stg = s.stg := by cases r <;> rfl
@[simp] theorem setWork_desc (s : State) (r : WorkReg) (v : Word) : (s.setWork r v).desc = s.desc := by cases r <;> rfl
@[simp] theorem setWork_fault (s : State) (r : WorkReg) (v : Word) : (s.setWork r v).fault = s.fault := by cases r <;> rfl
@[simp] theorem setWork_trace (s : State) (r : WorkReg) (v : Word) : (s.setWork r v).trace = s.trace := by cases r <;> rfl
@[simp] theorem setWork_port (s : State) (r : WorkReg) (v : Word) : (s.setWork r v).port = s.port := by cases r <;> rfl
@[simp] theorem setWork_regs (s : State) (r : WorkReg) (v : Word) : (s.setWork r v).regs = s.regs := by cases r <;> rfl
@[simp] theorem setWork_hostMem (s : State) (r : WorkReg) (v : Word) : (s.setWork r v).hostMem = s.hostMem := by cases r <;> rfl
@[simp] theorem setWork_admitted (s : State) (r : WorkReg) (v : Word) : (s.setWork r v).admitted = s.admitted := by cases r <;> rfl
@[simp] theorem setWork_env (s : State) (r : WorkReg) (v : Word) : (s.setWork r v).env = s.env := by cases r <;> rfl

/-! ### `advance` -/
@[simp] theorem advance_params (s : State) (r : WorkReg) : (s.advance r).params = s.params := by cases r <;> rfl
@[simp] theorem advance_burst (s : State) (r : WorkReg) : (s.advance r).burst = s.burst := by cases r <;> rfl
@[simp] theorem advance_hostIn (s : State) (r : WorkReg) : (s.advance r).hostIn = s.hostIn := by cases r <;> rfl
@[simp] theorem advance_hostData (s : State) (r : WorkReg) : (s.advance r).hostData = s.hostData := by cases r <;> rfl
@[simp] theorem advance_draws (s : State) (r : WorkReg) : (s.advance r).draws = s.draws := by cases r <;> rfl
@[simp] theorem advance_fsm (s : State) (r : WorkReg) : (s.advance r).fsm = s.fsm := by cases r <;> rfl
@[simp] theorem advance_eng (s : State) (r : WorkReg) : (s.advance r).eng = s.eng := by cases r <;> rfl
@[simp] theorem advance_idx (s : State) (r : WorkReg) : (s.advance r).idx = s.idx := by cases r <;> rfl
@[simp] theorem advance_todo (s : State) (r : WorkReg) : (s.advance r).todo = s.todo := by cases r <;> rfl
@[simp] theorem advance_current (s : State) (r : WorkReg) : (s.advance r).current = s.current := by cases r <;> rfl
@[simp] theorem advance_tmpByte (s : State) (r : WorkReg) : (s.advance r).tmpByte = s.tmpByte := by cases r <;> rfl
@[simp] theorem advance_tmpCr (s : State) (r : WorkReg) : (s.advance r).tmpCr = s.tmpCr := by cases r <;> rfl
@[simp] theorem advance_mmapActive (s : State) (r : WorkReg) : (s.advance r).mmapActive = s.mmapActive := by cases r <;> rfl
@[simp] theorem advance_wAddr (s : State) (r : WorkReg) : (s.advance r).wAddr = if r = .addr then s.wAddr + s.wN else s.wAddr := by cases r <;> rfl
@[simp] theorem advance_wBuf (s : State) (r : WorkReg) : (s.advance r).wBuf = if r = .buf then s.wBuf + s.wN else s.wBuf := by cases r <;> rfl
@[simp] theorem advance_wRem (s : State) (r : WorkReg) : (s.advance r).wRem = if r = .rem then s.wRem - s.wN else s.wRem := by cases r <;> rfl
@[simp] theorem advance_wDone (s : State) (r : WorkReg) : (s.advance r).wDone = if r = .done then s.wDone + s.wN else s.wDone := by cases r <;> rfl
@[simp] theorem advance_wN (s : State) (r : WorkReg) : (s.advance r).wN = s.wN := by cases r <;> rfl
@[simp] theorem advance_cfgbuf (s : State) (r : WorkReg) : (s.advance r).cfgbuf = s.cfgbuf := by cases r <;> rfl
@[simp] theorem advance_cfgSaved (s : State) (r : WorkReg) : (s.advance r).cfgSaved = s.cfgSaved := by cases r <;> rfl
@[simp] theorem advance_stg (s : State) (r : WorkReg) : (s.advance r).stg = s.stg := by cases r <;> rfl
@[simp] theorem advance_desc (s : State) (r : WorkReg) : (s.advance r).desc = s.desc := by cases r <;> rfl
@[simp] theorem advance_fault (s : State) (r : WorkReg) : (s.advance r).fault = s.fault := by cases r <;> rfl
@[simp] theorem advance_trace (s : State) (r : WorkReg) : (s.advance r).trace = s.trace := by cases r <;> rfl
@[simp] theorem advance_port (s : State) (r : WorkReg) : (s.advance r).port = s.port := by cases r <;> rfl
@[simp] theorem advance_regs (s : State) (r : WorkReg) : (s.advance r).regs = s.regs := by cases r <;> rfl
@[simp] theorem advance_hostMem (s : State) (r : WorkReg) : (s.advance r).hostMem = s.hostMem := by cases r <;> rfl
@[simp] theorem advance_admitted (s : State) (r : WorkReg) : (s.advance r).admitted = s.admitted := by cases r <;> rfl
@[simp] theorem advance_env (s : State) (r : WorkReg) : (s.advance r).env = s.env := by cases r <;> rfl

/-! ### `takeOp` -/
@[simp] theorem takeOp_params (s : State) (l : List Op) : (s.takeOp l).params = s.params := rfl
@[simp] theorem takeOp_burst (s : State) (l : List Op) : (s.takeOp l).burst = s.burst := rfl
@[simp] theorem takeOp_hostIn (s : State) (l : List Op) : (s.takeOp l).hostIn = tick s.hostIn := rfl
@[simp] theorem takeOp_hostData (s : State) (l : List Op) : (s.takeOp l).hostData = s.hostData := rfl
@[simp] theorem takeOp_draws (s : State) (l : List Op) : (s.takeOp l).draws = s.draws := rfl
@[simp] theorem takeOp_fsm (s : State) (l : List Op) : (s.takeOp l).fsm = s.fsm := rfl
@[simp] theorem takeOp_eng (s : State) (l : List Op) : (s.takeOp l).eng = s.eng := rfl
@[simp] theorem takeOp_idx (s : State) (l : List Op) : (s.takeOp l).idx = s.idx := rfl
@[simp] theorem takeOp_todo (s : State) (l : List Op) : (s.takeOp l).todo = l := rfl
@[simp] theorem takeOp_current (s : State) (l : List Op) : (s.takeOp l).current = s.current := rfl
@[simp] theorem takeOp_tmpByte (s : State) (l : List Op) : (s.takeOp l).tmpByte = s.tmpByte := rfl
@[simp] theorem takeOp_tmpCr (s : State) (l : List Op) : (s.takeOp l).tmpCr = s.tmpCr := rfl
@[simp] theorem takeOp_mmapActive (s : State) (l : List Op) : (s.takeOp l).mmapActive = s.mmapActive := rfl
@[simp] theorem takeOp_wAddr (s : State) (l : List Op) : (s.takeOp l).wAddr = s.wAddr := rfl
@[simp] theorem takeOp_wBuf (s : State) (l : List Op) : (s.takeOp l).wBuf = s.wBuf := rfl
@[simp] theorem takeOp_wRem (s : State) (l : List Op) : (s.takeOp l).wRem = s.wRem := rfl
@[simp] theorem takeOp_wDone (s : State) (l : List Op) : (s.takeOp l).wDone = s.wDone := rfl
@[simp] theorem takeOp_wN (s : State) (l : List Op) : (s.takeOp l).wN = s.wN := rfl
@[simp] theorem takeOp_cfgbuf (s : State) (l : List Op) : (s.takeOp l).cfgbuf = s.cfgbuf := rfl
@[simp] theorem takeOp_cfgSaved (s : State) (l : List Op) : (s.takeOp l).cfgSaved = s.cfgSaved := rfl
@[simp] theorem takeOp_stg (s : State) (l : List Op) : (s.takeOp l).stg = s.stg := rfl
@[simp] theorem takeOp_desc (s : State) (l : List Op) : (s.takeOp l).desc = s.desc := rfl
@[simp] theorem takeOp_fault (s : State) (l : List Op) : (s.takeOp l).fault = s.fault := rfl
@[simp] theorem takeOp_trace (s : State) (l : List Op) : (s.takeOp l).trace = s.trace := rfl
@[simp] theorem takeOp_port (s : State) (l : List Op) : (s.takeOp l).port = s.port := rfl
@[simp] theorem takeOp_regs (s : State) (l : List Op) : (s.takeOp l).regs = s.regs := rfl
@[simp] theorem takeOp_hostMem (s : State) (l : List Op) : (s.takeOp l).hostMem = s.hostMem := rfl
@[simp] theorem takeOp_admitted (s : State) (l : List Op) : (s.takeOp l).admitted = s.admitted := rfl
@[simp] theorem takeOp_env (s : State) (l : List Op) : (s.takeOp l).env = s.env := rfl

/-! ### `readSr` -/
@[simp] theorem readSr_params (s : State) : (s.readSr.2).params = s.params := by
  cases h : s.env <;> simp [State.readSr, h]
@[simp] theorem readSr_burst (s : State) : (s.readSr.2).burst = s.burst := by
  cases h : s.env <;> simp [State.readSr, h]
@[simp] theorem readSr_hostIn (s : State) : (s.readSr.2).hostIn = s.hostIn := by
  cases h : s.env <;> simp [State.readSr, h]
@[simp] theorem readSr_hostData (s : State) : (s.readSr.2).hostData = s.hostData := by
  cases h : s.env <;> simp [State.readSr, h]
@[simp] theorem readSr_fsm (s : State) : (s.readSr.2).fsm = s.fsm := by
  cases h : s.env <;> simp [State.readSr, h]
@[simp] theorem readSr_eng (s : State) : (s.readSr.2).eng = s.eng := by
  cases h : s.env <;> simp [State.readSr, h]
@[simp] theorem readSr_idx (s : State) : (s.readSr.2).idx = s.idx := by
  cases h : s.env <;> simp [State.readSr, h]
@[simp] theorem readSr_todo (s : State) : (s.readSr.2).todo = s.todo := by
  cases h : s.env <;> simp [State.readSr, h]
@[simp] theorem readSr_current (s : State) : (s.readSr.2).current = s.current := by
  cases h : s.env <;> simp [State.readSr, h]
@[simp] theorem readSr_tmpByte (s : State) : (s.readSr.2).tmpByte = s.tmpByte := by
  cases h : s.env <;> simp [State.readSr, h]
@[simp] theorem readSr_tmpCr (s : State) : (s.readSr.2).tmpCr = s.tmpCr := by
  cases h : s.env <;> simp [State.readSr, h]
@[simp] theorem readSr_mmapActive (s : State) : (s.readSr.2).mmapActive = s.mmapActive := by
  cases h : s.env <;> simp [State.readSr, h]
@[simp] theorem readSr_wAddr (s : State) : (s.readSr.2).wAddr = s.wAddr := by
  cases h : s.env <;> simp [State.readSr, h]
@[simp] theorem readSr_wBuf (s : State) : (s.readSr.2).wBuf = s.wBuf := by
  cases h : s.env <;> simp [State.readSr, h]
@[simp] theorem readSr_wRem (s : State) : (s.readSr.2).wRem = s.wRem := by
  cases h : s.env <;> simp [State.readSr, h]
@[simp] theorem readSr_wDone (s : State) : (s.readSr.2).wDone = s.wDone := by
  cases h : s.env <;> simp [State.readSr, h]
@[simp] theorem readSr_wN (s : State) : (s.readSr.2).wN = s.wN := by
  cases h : s.env <;> simp [State.readSr, h]
@[simp] theorem readSr_cfgbuf (s : State) : (s.readSr.2).cfgbuf = s.cfgbuf := by
  cases h : s.env <;> simp [State.readSr, h]
@[simp] theorem readSr_cfgSaved (s : State) : (s.readSr.2).cfgSaved = s.cfgSaved := by
  cases h : s.env <;> simp [State.readSr, h]
@[simp] theorem readSr_stg (s : State) : (s.readSr.2).stg = s.stg := by
  cases h : s.env <;> simp [State.readSr, h]
@[simp] theorem readSr_desc (s : State) : (s.readSr.2).desc = s.desc := by
  cases h : s.env <;> simp [State.readSr, h]
@[simp] theorem readSr_fault (s : State) : (s.readSr.2).fault = s.fault := by
  cases h : s.env <;> simp [State.readSr, h]
@[simp] theorem readSr_trace (s : State) : (s.readSr.2).trace = s.trace := by
  cases h : s.env <;> simp [State.readSr, h]
@[simp] theorem readSr_port (s : State) : (s.readSr.2).port = s.port := by
  cases h : s.env <;> simp [State.readSr, h]
@[simp] theorem readSr_hostMem (s : State) : (s.readSr.2).hostMem = s.hostMem := by
  cases h : s.env <;> simp [State.readSr, h]
@[simp] theorem readSr_admitted (s : State) : (s.readSr.2).admitted = s.admitted := by
  cases h : s.env <;> simp [State.readSr, h]

/-! ### `readCr` -/
@[simp] theorem readCr_params (s : State) : (s.readCr).params = s.params := by
  cases h : s.env <;> simp [State.readCr, h]
@[simp] theorem readCr_burst (s : State) : (s.readCr).burst = s.burst := by
  cases h : s.env <;> simp [State.readCr, h]
@[simp] theorem readCr_hostIn (s : State) : (s.readCr).hostIn = s.hostIn := by
  cases h : s.env <;> simp [State.readCr, h]
@[simp] theorem readCr_hostData (s : State) : (s.readCr).hostData = s.hostData := by
  cases h : s.env <;> simp [State.readCr, h]
@[simp] theorem readCr_fsm (s : State) : (s.readCr).fsm = s.fsm := by
  cases h : s.env <;> simp [State.readCr, h]
@[simp] theorem readCr_eng (s : State) : (s.readCr).eng = s.eng := by
  cases h : s.env <;> simp [State.readCr, h]
@[simp] theorem readCr_idx (s : State) : (s.readCr).idx = s.idx := by
  cases h : s.env <;> simp [State.readCr, h]
@[simp] theorem readCr_todo (s : State) : (s.readCr).todo = s.todo := by
  cases h : s.env <;> simp [State.readCr, h]
@[simp] theorem readCr_current (s : State) : (s.readCr).current = s.current := by
  cases h : s.env <;> simp [State.readCr, h]
@[simp] theorem readCr_tmpByte (s : State) : (s.readCr).tmpByte = s.tmpByte := by
  cases h : s.env <;> simp [State.readCr, h]
@[simp] theorem readCr_mmapActive (s : State) : (s.readCr).mmapActive = s.mmapActive := by
  cases h : s.env <;> simp [State.readCr, h]
@[simp] theorem readCr_wAddr (s : State) : (s.readCr).wAddr = s.wAddr := by
  cases h : s.env <;> simp [State.readCr, h]
@[simp] theorem readCr_wBuf (s : State) : (s.readCr).wBuf = s.wBuf := by
  cases h : s.env <;> simp [State.readCr, h]
@[simp] theorem readCr_wRem (s : State) : (s.readCr).wRem = s.wRem := by
  cases h : s.env <;> simp [State.readCr, h]
@[simp] theorem readCr_wDone (s : State) : (s.readCr).wDone = s.wDone := by
  cases h : s.env <;> simp [State.readCr, h]
@[simp] theorem readCr_wN (s : State) : (s.readCr).wN = s.wN := by
  cases h : s.env <;> simp [State.readCr, h]
@[simp] theorem readCr_cfgbuf (s : State) : (s.readCr).cfgbuf = s.cfgbuf := by
  cases h : s.env <;> simp [State.readCr, h]
@[simp] theorem readCr_cfgSaved (s : State) : (s.readCr).cfgSaved = s.cfgSaved := by
  cases h : s.env <;> simp [State.readCr, h]
@[simp] theorem readCr_stg (s : State) : (s.readCr).stg = s.stg := by
  cases h : s.env <;> simp [State.readCr, h]
@[simp] theorem readCr_desc (s : State) : (s.readCr).desc = s.desc := by
  cases h : s.env <;> simp [State.readCr, h]
@[simp] theorem readCr_fault (s : State) : (s.readCr).fault = s.fault := by
  cases h : s.env <;> simp [State.readCr, h]
@[simp] theorem readCr_trace (s : State) : (s.readCr).trace = s.trace := by
  cases h : s.env <;> simp [State.readCr, h]
@[simp] theorem readCr_port (s : State) : (s.readCr).port = s.port := by
  cases h : s.env <;> simp [State.readCr, h]
@[simp] theorem readCr_regs (s : State) : (s.readCr).regs = s.regs := by
  cases h : s.env <;> simp [State.readCr, h]
@[simp] theorem readCr_hostMem (s : State) : (s.readCr).hostMem = s.hostMem := by
  cases h : s.env <;> simp [State.readCr, h]
@[simp] theorem readCr_admitted (s : State) : (s.readCr).admitted = s.admitted := by
  cases h : s.env <;> simp [State.readCr, h]
@[simp] theorem readCr_env (s : State) : (s.readCr).env = s.env := by
  cases h : s.env <;> simp [State.readCr, h]

/-! ### `writeReg` -/
@[simp] theorem writeReg_params (s : State) (w : WholeReg) (v : Word) : (s.writeReg w v).params = s.params := by
  cases h : s.env <;> simp [State.writeReg, h]
@[simp] theorem writeReg_burst (s : State) (w : WholeReg) (v : Word) : (s.writeReg w v).burst = s.burst := by
  cases h : s.env <;> simp [State.writeReg, h]
@[simp] theorem writeReg_hostIn (s : State) (w : WholeReg) (v : Word) : (s.writeReg w v).hostIn = s.hostIn := by
  cases h : s.env <;> simp [State.writeReg, h]
@[simp] theorem writeReg_hostData (s : State) (w : WholeReg) (v : Word) : (s.writeReg w v).hostData = s.hostData := by
  cases h : s.env <;> simp [State.writeReg, h]
@[simp] theorem writeReg_fsm (s : State) (w : WholeReg) (v : Word) : (s.writeReg w v).fsm = s.fsm := by
  cases h : s.env <;> simp [State.writeReg, h]
@[simp] theorem writeReg_eng (s : State) (w : WholeReg) (v : Word) : (s.writeReg w v).eng = s.eng := by
  cases h : s.env <;> simp [State.writeReg, h]
@[simp] theorem writeReg_idx (s : State) (w : WholeReg) (v : Word) : (s.writeReg w v).idx = s.idx := by
  cases h : s.env <;> simp [State.writeReg, h]
@[simp] theorem writeReg_todo (s : State) (w : WholeReg) (v : Word) : (s.writeReg w v).todo = s.todo := by
  cases h : s.env <;> simp [State.writeReg, h]
@[simp] theorem writeReg_current (s : State) (w : WholeReg) (v : Word) : (s.writeReg w v).current = s.current := by
  cases h : s.env <;> simp [State.writeReg, h]
@[simp] theorem writeReg_tmpByte (s : State) (w : WholeReg) (v : Word) : (s.writeReg w v).tmpByte = s.tmpByte := by
  cases h : s.env <;> simp [State.writeReg, h]
@[simp] theorem writeReg_tmpCr (s : State) (w : WholeReg) (v : Word) : (s.writeReg w v).tmpCr = s.tmpCr := by
  cases h : s.env <;> simp [State.writeReg, h]
@[simp] theorem writeReg_mmapActive (s : State) (w : WholeReg) (v : Word) : (s.writeReg w v).mmapActive = s.mmapActive := by
  cases h : s.env <;> simp [State.writeReg, h]
@[simp] theorem writeReg_wAddr (s : State) (w : WholeReg) (v : Word) : (s.writeReg w v).wAddr = s.wAddr := by
  cases h : s.env <;> simp [State.writeReg, h]
@[simp] theorem writeReg_wBuf (s : State) (w : WholeReg) (v : Word) : (s.writeReg w v).wBuf = s.wBuf := by
  cases h : s.env <;> simp [State.writeReg, h]
@[simp] theorem writeReg_wRem (s : State) (w : WholeReg) (v : Word) : (s.writeReg w v).wRem = s.wRem := by
  cases h : s.env <;> simp [State.writeReg, h]
@[simp] theorem writeReg_wDone (s : State) (w : WholeReg) (v : Word) : (s.writeReg w v).wDone = s.wDone := by
  cases h : s.env <;> simp [State.writeReg, h]
@[simp] theorem writeReg_wN (s : State) (w : WholeReg) (v : Word) : (s.writeReg w v).wN = s.wN := by
  cases h : s.env <;> simp [State.writeReg, h]
@[simp] theorem writeReg_cfgbuf (s : State) (w : WholeReg) (v : Word) : (s.writeReg w v).cfgbuf = s.cfgbuf := by
  cases h : s.env <;> simp [State.writeReg, h]
@[simp] theorem writeReg_cfgSaved (s : State) (w : WholeReg) (v : Word) : (s.writeReg w v).cfgSaved = s.cfgSaved := by
  cases h : s.env <;> simp [State.writeReg, h]
@[simp] theorem writeReg_stg (s : State) (w : WholeReg) (v : Word) : (s.writeReg w v).stg = s.stg := by
  cases h : s.env <;> simp [State.writeReg, h]
@[simp] theorem writeReg_desc (s : State) (w : WholeReg) (v : Word) : (s.writeReg w v).desc = s.desc := by
  cases h : s.env <;> simp [State.writeReg, h]
@[simp] theorem writeReg_fault (s : State) (w : WholeReg) (v : Word) : (s.writeReg w v).fault = s.fault := by
  cases h : s.env <;> simp [State.writeReg, h]
@[simp] theorem writeReg_trace (s : State) (w : WholeReg) (v : Word) : (s.writeReg w v).trace = s.trace := by
  cases h : s.env <;> simp [State.writeReg, h]
@[simp] theorem writeReg_port (s : State) (w : WholeReg) (v : Word) : (s.writeReg w v).port = s.port := by
  cases h : s.env <;> simp [State.writeReg, h]
@[simp] theorem writeReg_regs (s : State) (w : WholeReg) (v : Word) : (s.writeReg w v).regs = s.regs.write w v := by
  cases h : s.env <;> simp [State.writeReg, h]
@[simp] theorem writeReg_hostMem (s : State) (w : WholeReg) (v : Word) : (s.writeReg w v).hostMem = s.hostMem := by
  cases h : s.env <;> simp [State.writeReg, h]
@[simp] theorem writeReg_admitted (s : State) (w : WholeReg) (v : Word) : (s.writeReg w v).admitted = s.admitted := by
  cases h : s.env <;> simp [State.writeReg, h]

/-! ### `putCr` -/
@[simp] theorem putCr_params (s : State) (v : Word) : (s.putCr v).params = s.params := by
  cases h : s.env <;> simp [State.putCr, h]
@[simp] theorem putCr_burst (s : State) (v : Word) : (s.putCr v).burst = s.burst := by
  cases h : s.env <;> simp [State.putCr, h]
@[simp] theorem putCr_hostIn (s : State) (v : Word) : (s.putCr v).hostIn = s.hostIn := by
  cases h : s.env <;> simp [State.putCr, h]
@[simp] theorem putCr_hostData (s : State) (v : Word) : (s.putCr v).hostData = s.hostData := by
  cases h : s.env <;> simp [State.putCr, h]
@[simp] theorem putCr_draws (s : State) (v : Word) : (s.putCr v).draws = s.draws := by
  cases h : s.env <;> simp [State.putCr, h]
@[simp] theorem putCr_fsm (s : State) (v : Word) : (s.putCr v).fsm = s.fsm := by
  cases h : s.env <;> simp [State.putCr, h]
@[simp] theorem putCr_eng (s : State) (v : Word) : (s.putCr v).eng = s.eng := by
  cases h : s.env <;> simp [State.putCr, h]
@[simp] theorem putCr_idx (s : State) (v : Word) : (s.putCr v).idx = s.idx := by
  cases h : s.env <;> simp [State.putCr, h]
@[simp] theorem putCr_todo (s : State) (v : Word) : (s.putCr v).todo = s.todo := by
  cases h : s.env <;> simp [State.putCr, h]
@[simp] theorem putCr_current (s : State) (v : Word) : (s.putCr v).current = s.current := by
  cases h : s.env <;> simp [State.putCr, h]
@[simp] theorem putCr_tmpByte (s : State) (v : Word) : (s.putCr v).tmpByte = s.tmpByte := by
  cases h : s.env <;> simp [State.putCr, h]
@[simp] theorem putCr_tmpCr (s : State) (v : Word) : (s.putCr v).tmpCr = s.tmpCr := by
  cases h : s.env <;> simp [State.putCr, h]
@[simp] theorem putCr_mmapActive (s : State) (v : Word) : (s.putCr v).mmapActive = s.mmapActive := by
  cases h : s.env <;> simp [State.putCr, h]
@[simp] theorem putCr_wAddr (s : State) (v : Word) : (s.putCr v).wAddr = s.wAddr := by
  cases h : s.env <;> simp [State.putCr, h]
@[simp] theorem putCr_wBuf (s : State) (v : Word) : (s.putCr v).wBuf = s.wBuf := by
  cases h : s.env <;> simp [State.putCr, h]
@[simp] theorem putCr_wRem (s : State) (v : Word) : (s.putCr v).wRem = s.wRem := by
  cases h : s.env <;> simp [State.putCr, h]
@[simp] theorem putCr_wDone (s : State) (v : Word) : (s.putCr v).wDone = s.wDone := by
  cases h : s.env <;> simp [State.putCr, h]
@[simp] theorem putCr_wN (s : State) (v : Word) : (s.putCr v).wN = s.wN := by
  cases h : s.env <;> simp [State.putCr, h]
@[simp] theorem putCr_cfgbuf (s : State) (v : Word) : (s.putCr v).cfgbuf = s.cfgbuf := by
  cases h : s.env <;> simp [State.putCr, h]
@[simp] theorem putCr_cfgSaved (s : State) (v : Word) : (s.putCr v).cfgSaved = s.cfgSaved := by
  cases h : s.env <;> simp [State.putCr, h]
@[simp] theorem putCr_stg (s : State) (v : Word) : (s.putCr v).stg = s.stg := by
  cases h : s.env <;> simp [State.putCr, h]
@[simp] theorem putCr_desc (s : State) (v : Word) : (s.putCr v).desc = s.desc := by
  cases h : s.env <;> simp [State.putCr, h]
@[simp] theorem putCr_fault (s : State) (v : Word) : (s.putCr v).fault = s.fault := by
  cases h : s.env <;> simp [State.putCr, h]
@[simp] theorem putCr_trace (s : State) (v : Word) : (s.putCr v).trace = s.trace := by
  cases h : s.env <;> simp [State.putCr, h]
@[simp] theorem putCr_port (s : State) (v : Word) : (s.putCr v).port = s.port := by
  cases h : s.env <;> simp [State.putCr, h]
@[simp] theorem putCr_hostMem (s : State) (v : Word) : (s.putCr v).hostMem = s.hostMem := by
  cases h : s.env <;> simp [State.putCr, h]
@[simp] theorem putCr_admitted (s : State) (v : Word) : (s.putCr v).admitted = s.admitted := by
  cases h : s.env <;> simp [State.putCr, h]

/-! ### `writeCr` -/
@[simp] theorem writeCr_params (s : State) (e : CrEdit) : (s.writeCr e).params = s.params := by simp [State.writeCr]
@[simp] theorem writeCr_burst (s : State) (e : CrEdit) : (s.writeCr e).burst = s.burst := by simp [State.writeCr]
@[simp] theorem writeCr_hostIn (s : State) (e : CrEdit) : (s.writeCr e).hostIn = s.hostIn := by simp [State.writeCr]
@[simp] theorem writeCr_hostData (s : State) (e : CrEdit) : (s.writeCr e).hostData = s.hostData := by simp [State.writeCr]
@[simp] theorem writeCr_draws (s : State) (e : CrEdit) : (s.writeCr e).draws = s.draws := by simp [State.writeCr]
@[simp] theorem writeCr_fsm (s : State) (e : CrEdit) : (s.writeCr e).fsm = s.fsm := by simp [State.writeCr]
@[simp] theorem writeCr_eng (s : State) (e : CrEdit) : (s.writeCr e).eng = s.eng := by simp [State.writeCr]
@[simp] theorem writeCr_idx (s : State) (e : CrEdit) : (s.writeCr e).idx = s.idx := by simp [State.writeCr]
@[simp] theorem writeCr_todo (s : State) (e : CrEdit) : (s.writeCr e).todo = s.todo := by simp [State.writeCr]
@[simp] theorem writeCr_current (s : State) (e : CrEdit) : (s.writeCr e).current = s.current := by simp [State.writeCr]
@[simp] theorem writeCr_tmpByte (s : State) (e : CrEdit) : (s.writeCr e).tmpByte = s.tmpByte := by simp [State.writeCr]
@[simp] theorem writeCr_tmpCr (s : State) (e : CrEdit) : (s.writeCr e).tmpCr = s.tmpCr := by simp [State.writeCr]
@[simp] theorem writeCr_mmapActive (s : State) (e : CrEdit) : (s.writeCr e).mmapActive = s.mmapActive := by simp [State.writeCr]
@[simp] theorem writeCr_wAddr (s : State) (e : CrEdit) : (s.writeCr e).wAddr = s.wAddr := by simp [State.writeCr]
@[simp] theorem writeCr_wBuf (s : State) (e : CrEdit) : (s.writeCr e).wBuf = s.wBuf := by simp [State.writeCr]
@[simp] theorem writeCr_wRem (s : State) (e : CrEdit) : (s.writeCr e).wRem = s.wRem := by simp [State.writeCr]
@[simp] theorem writeCr_wDone (s : State) (e : CrEdit) : (s.writeCr e).wDone = s.wDone := by simp [State.writeCr]
@[simp] theorem writeCr_wN (s : State) (e : CrEdit) : (s.writeCr e).wN = s.wN := by simp [State.writeCr]
@[simp] theorem writeCr_cfgbuf (s : State) (e : CrEdit) : (s.writeCr e).cfgbuf = s.cfgbuf := by simp [State.writeCr]
@[simp] theorem writeCr_cfgSaved (s : State) (e : CrEdit) : (s.writeCr e).cfgSaved = s.cfgSaved := by simp [State.writeCr]
@[simp] theorem writeCr_stg (s : State) (e : CrEdit) : (s.writeCr e).stg = s.stg := by simp [State.writeCr]
@[simp] theorem writeCr_desc (s : State) (e : CrEdit) : (s.writeCr e).desc = s.desc := by simp [State.writeCr]
@[simp] theorem writeCr_fault (s : State) (e : CrEdit) : (s.writeCr e).fault = s.fault := by simp [State.writeCr]
@[simp] theorem writeCr_trace (s : State) (e : CrEdit) : (s.writeCr e).trace = s.trace := by simp [State.writeCr]
@[simp] theorem writeCr_port (s : State) (e : CrEdit) : (s.writeCr e).port = s.port := by simp [State.writeCr]
@[simp] theorem writeCr_hostMem (s : State) (e : CrEdit) : (s.writeCr e).hostMem = s.hostMem := by simp [State.writeCr]
@[simp] theorem writeCr_admitted (s : State) (e : CrEdit) : (s.writeCr e).admitted = s.admitted := by simp [State.writeCr]

/-! ### `pushDr` -/
@[simp] theorem pushDr_params (s : State) : (s.pushDr).params = s.params := by
  cases h : s.env <;> simp [State.pushDr, h]
@[simp] theorem pushDr_burst (s : State) : (s.pushDr).burst = s.burst := by
  cases h : s.env <;> simp [State.pushDr, h]
@[simp] theorem pushDr_hostIn (s : State) : (s.pushDr).hostIn = s.hostIn := by
  cases h : s.env <;> simp [State.pushDr, h]
@[simp] theorem pushDr_hostData (s : State) : (s.pushDr).hostData = s.hostData := by
  cases h : s.env <;> simp [State.pushDr, h]
@[simp] theorem pushDr_fsm (s : State) : (s.pushDr).fsm = s.fsm := by
  cases h : s.env <;> simp [State.pushDr, h]
@[simp] theorem pushDr_eng (s : State) : (s.pushDr).eng = s.eng := by
  cases h : s.env <;> simp [State.pushDr, h]
@[simp] theorem pushDr_idx (s : State) : (s.pushDr).idx = s.idx := by
  cases h : s.env <;> simp [State.pushDr, h]
@[simp] theorem pushDr_todo (s : State) : (s.pushDr).todo = s.todo := by
  cases h : s.env <;> simp [State.pushDr, h]
@[simp] theorem pushDr_current (s : State) : (s.pushDr).current = s.current := by
  cases h : s.env <;> simp [State.pushDr, h]
@[simp] theorem pushDr_tmpByte (s : State) : (s.pushDr).tmpByte = s.tmpByte := by
  cases h : s.env <;> simp [State.pushDr, h]
@[simp] theorem pushDr_tmpCr (s : State) : (s.pushDr).tmpCr = s.tmpCr := by
  cases h : s.env <;> simp [State.pushDr, h]
@[simp] theorem pushDr_mmapActive (s : State) : (s.pushDr).mmapActive = s.mmapActive := by
  cases h : s.env <;> simp [State.pushDr, h]
@[simp] theorem pushDr_wAddr (s : State) : (s.pushDr).wAddr = s.wAddr := by
  cases h : s.env <;> simp [State.pushDr, h]
@[simp] theorem pushDr_wBuf (s : State) : (s.pushDr).wBuf = s.wBuf := by
  cases h : s.env <;> simp [State.pushDr, h]
@[simp] theorem pushDr_wRem (s : State) : (s.pushDr).wRem = s.wRem := by
  cases h : s.env <;> simp [State.pushDr, h]
@[simp] theorem pushDr_wDone (s : State) : (s.pushDr).wDone = s.wDone := by
  cases h : s.env <;> simp [State.pushDr, h]
@[simp] theorem pushDr_wN (s : State) : (s.pushDr).wN = s.wN := by
  cases h : s.env <;> simp [State.pushDr, h]
@[simp] theorem pushDr_cfgbuf (s : State) : (s.pushDr).cfgbuf = s.cfgbuf := by
  cases h : s.env <;> simp [State.pushDr, h]
@[simp] theorem pushDr_cfgSaved (s : State) : (s.pushDr).cfgSaved = s.cfgSaved := by
  cases h : s.env <;> simp [State.pushDr, h]
@[simp] theorem pushDr_stg (s : State) : (s.pushDr).stg = s.stg := by
  cases h : s.env <;> simp [State.pushDr, h]
@[simp] theorem pushDr_desc (s : State) : (s.pushDr).desc = s.desc := by
  cases h : s.env <;> simp [State.pushDr, h]
@[simp] theorem pushDr_fault (s : State) : (s.pushDr).fault = s.fault := by
  cases h : s.env <;> simp [State.pushDr, h]
@[simp] theorem pushDr_trace (s : State) : (s.pushDr).trace = appendData s.tmpByte s.trace := by
  cases h : s.env <;> simp [State.pushDr, h]
@[simp] theorem pushDr_port (s : State) : (s.pushDr).port = s.port := by
  cases h : s.env <;> simp [State.pushDr, h]
@[simp] theorem pushDr_regs (s : State) : (s.pushDr).regs = { s.regs with dr := dataByte s.regs.dr s.tmpByte } := by
  cases h : s.env <;> simp [State.pushDr, h]
@[simp] theorem pushDr_hostMem (s : State) : (s.pushDr).hostMem = s.hostMem := by
  cases h : s.env <;> simp [State.pushDr, h]
@[simp] theorem pushDr_admitted (s : State) : (s.pushDr).admitted = s.admitted := by
  cases h : s.env <;> simp [State.pushDr, h]

/-! ### `popDr` -/
@[simp] theorem popDr_params (s : State) : (s.popDr).params = s.params := by
  cases h : s.env <;> simp [State.popDr, h]
@[simp] theorem popDr_burst (s : State) : (s.popDr).burst = s.burst := by
  cases h : s.env <;> simp [State.popDr, h]
@[simp] theorem popDr_hostIn (s : State) : (s.popDr).hostIn = s.hostIn := by
  cases h : s.env <;> simp [State.popDr, h]
@[simp] theorem popDr_hostData (s : State) : (s.popDr).hostData = s.hostData := by
  cases h : s.env <;> simp [State.popDr, h]
@[simp] theorem popDr_fsm (s : State) : (s.popDr).fsm = s.fsm := by
  cases h : s.env <;> simp [State.popDr, h]
@[simp] theorem popDr_eng (s : State) : (s.popDr).eng = s.eng := by
  cases h : s.env <;> simp [State.popDr, h]
@[simp] theorem popDr_idx (s : State) : (s.popDr).idx = s.idx := by
  cases h : s.env <;> simp [State.popDr, h]
@[simp] theorem popDr_todo (s : State) : (s.popDr).todo = s.todo := by
  cases h : s.env <;> simp [State.popDr, h]
@[simp] theorem popDr_current (s : State) : (s.popDr).current = s.current := by
  cases h : s.env <;> simp [State.popDr, h]
@[simp] theorem popDr_tmpCr (s : State) : (s.popDr).tmpCr = s.tmpCr := by
  cases h : s.env <;> simp [State.popDr, h]
@[simp] theorem popDr_mmapActive (s : State) : (s.popDr).mmapActive = s.mmapActive := by
  cases h : s.env <;> simp [State.popDr, h]
@[simp] theorem popDr_wAddr (s : State) : (s.popDr).wAddr = s.wAddr := by
  cases h : s.env <;> simp [State.popDr, h]
@[simp] theorem popDr_wBuf (s : State) : (s.popDr).wBuf = s.wBuf := by
  cases h : s.env <;> simp [State.popDr, h]
@[simp] theorem popDr_wRem (s : State) : (s.popDr).wRem = s.wRem := by
  cases h : s.env <;> simp [State.popDr, h]
@[simp] theorem popDr_wDone (s : State) : (s.popDr).wDone = s.wDone := by
  cases h : s.env <;> simp [State.popDr, h]
@[simp] theorem popDr_wN (s : State) : (s.popDr).wN = s.wN := by
  cases h : s.env <;> simp [State.popDr, h]
@[simp] theorem popDr_cfgbuf (s : State) : (s.popDr).cfgbuf = s.cfgbuf := by
  cases h : s.env <;> simp [State.popDr, h]
@[simp] theorem popDr_cfgSaved (s : State) : (s.popDr).cfgSaved = s.cfgSaved := by
  cases h : s.env <;> simp [State.popDr, h]
@[simp] theorem popDr_stg (s : State) : (s.popDr).stg = s.stg := by
  cases h : s.env <;> simp [State.popDr, h]
@[simp] theorem popDr_desc (s : State) : (s.popDr).desc = s.desc := by
  cases h : s.env <;> simp [State.popDr, h]
@[simp] theorem popDr_fault (s : State) : (s.popDr).fault = s.fault := by
  cases h : s.env <;> simp [State.popDr, h]
@[simp] theorem popDr_port (s : State) : (s.popDr).port = s.port := by
  cases h : s.env <;> simp [State.popDr, h]
@[simp] theorem popDr_hostMem (s : State) : (s.popDr).hostMem = s.hostMem := by
  cases h : s.env <;> simp [State.popDr, h]
@[simp] theorem popDr_admitted (s : State) : (s.popDr).admitted = s.admitted := by
  cases h : s.env <;> simp [State.popDr, h]

/-! ### The register file -/

@[simp] theorem regs_write_cr (r : Regs) (w : WholeReg) (v : Word) : (r.write w v).cr = r.cr := by cases w <;> rfl

@[simp] theorem regs_write_dcr (r : Regs) (w : WholeReg) (v : Word) : (r.write w v).dcr = r.dcr := by cases w <;> rfl

@[simp] theorem regs_write_dr (r : Regs) (w : WholeReg) (v : Word) : (r.write w v).dr = r.dr := by cases w <;> rfl

/-- A sample changes no register but SR. -/
theorem readSr_regs (s : State) : s.readSr.2.regs = { s.regs with sr := s.readSr.1 } := by
  cases h : s.env <;> simp [State.readSr, h]

@[simp] theorem putCr_dcr (s : State) (v : Word) : (s.putCr v).regs.dcr = s.regs.dcr := by
  cases h : s.env <;> simp [State.putCr, h]

@[simp] theorem writeCr_dcr (s : State) (e : CrEdit) : (s.writeCr e).regs.dcr = s.regs.dcr := putCr_dcr s _

@[simp] theorem popDr_dcr (s : State) : s.popDr.regs.dcr = s.regs.dcr := by
  cases h : s.env <;> simp [State.popDr, h]

@[simp] theorem popDr_cr (s : State) : s.popDr.regs.cr = s.regs.cr := by
  cases h : s.env <;> simp [State.popDr, h]

/-! ### The peripheral register space: an access at a register's address is an access of it -/

theorem regAt_regAddr (p : Params) (r : PeriphReg) : regAt p (regAddr p r) = some r := by
  simp only [regAt, regAddr, Nat.le_add_right, if_true, Nat.add_sub_cancel_left]
  cases r <;> rfl

@[simp] theorem busWrite_reg (s : State) (w : WholeReg) (v : Word) : s.busWrite (regAddr s.params w.reg) v = s.writeReg w v := by
  simp only [State.busWrite, regAt_regAddr]
  cases w <;> rfl

@[simp] theorem busWrite_cr (s : State) (v : Word) : s.busWrite (regAddr s.params .cr) v = s.putCr v := by
  simp only [State.busWrite, regAt_regAddr]

@[simp] theorem busRead_sr (s : State) : s.busRead (regAddr s.params .sr) = s.readSr := by
  simp only [State.busRead, regAt_regAddr]

@[simp] theorem busRead_cr (s : State) : s.busRead (regAddr s.params .cr) = (s.readCr.tmpCr, s.readCr) := by
  simp only [State.busRead, regAt_regAddr]

@[simp] theorem busWrite8_dr (s : State) : s.busWrite8 (regAddr s.params .dr) = s.pushDr := by
  simp only [State.busWrite8, regAt_regAddr]

@[simp] theorem busRead8_dr (s : State) : s.busRead8 (regAddr s.params .dr) = s.popDr := by
  simp only [State.busRead8, regAt_regAddr]

/-! ### The steps that access the peripheral, by the register they name -/

theorem seqOp_writeReg (s : State) (w : WholeReg) (v : Word) : seqOp (.writeReg w v) s = .next (s.writeReg w v) := by
  simp [seqOp]

theorem seqOp_readCr (s : State) : seqOp .readCr s = .next s.readCr := by simp [seqOp]

theorem seqOp_writeCr (s : State) (e : CrEdit) : seqOp (.writeCr e) s = .next (s.writeCr e) := by
  simp [seqOp, State.writeCr]

theorem seqOp_drWrite (s : State) : seqOp .drWrite s = .next s.pushDr := by simp [seqOp]

theorem seqOp_drRead (s : State) : seqOp .drRead s = .next s.popDr := by simp [seqOp]

/-- A sample of a wait loop is a sample of SR. -/
theorem waitSample_eq (s : State) (c : WaitCond) (k : Nat) : s.waitSample c k = s.readSr.2.onWait s.readSr.1 c k := by
  rw [State.waitSample, busRead_sr]

theorem abortSample_eq (s : State) (k : Nat) : s.abortSample k = s.readSr.2.onAbortWait s.readSr.1 k := by
  rw [State.abortSample, busRead_sr]

/-! ### The port -/

@[simp] theorem arg_setArg_same (p : Port) (k : Fin 6) (v : Word) : (p.setArg k v).arg k = some v := by
  fin_cases k <;> rfl

theorem arg_setArg_other (p : Port) {k l : Fin 6} (v : Word) (h : l ≠ k) : (p.setArg k v).arg l = p.arg l := by
  fin_cases k <;> fin_cases l <;> first | rfl | exact absurd rfl h

@[simp] theorem setArg_resst (p : Port) (k : Fin 6) (v : Word) : (p.setArg k v).resst = p.resst := by
  fin_cases k <;> rfl

@[simp] theorem setArg_rescnt (p : Port) (k : Fin 6) (v : Word) : (p.setArg k v).rescnt = p.rescnt := by
  fin_cases k <;> rfl

end Sys2Proof.Laws
end

