-- ==== Sys2Proof/Laws/Sequencer.lean ====
section
/-! SUPPORT. How a run of sequencer steps goes: one step, several in a row, where it stops. -/

namespace Sys2Proof.Laws

open Sys2Proof.Machine

/-! ### Turns -/

/-- A host that waits lets every sequencer step come first. -/
theorem hostDue_waits {s : State} (hw : s.hostWaits = true) (hf : s.fault = none) (ht : s.todo ≠ []) :
    hostDue s = false := by
  cases hl : s.todo with
  | nil => exact absurd hl ht
  | cons o rest =>
    cases hh : s.hostIn with
    | nil => simp [hostDue, hh]
    | cons e es =>
      simp only [State.hostWaits, hh, beq_iff_eq] at hw
      cases ha : e.act <;> simp [hostDue, hh, hl, State.faulted, hf, hw, ha]

theorem seqTurn_waits {s : State} (hw : s.hostWaits = true) (hf : s.fault = none) (ht : s.todo ≠ []) :
    seqTurn s = true := by
  simp [seqTurn, State.faulted, hf, hostDue_waits hw hf ht, ht]

theorem tick_waits {s : State} (hw : s.hostWaits = true) : tick s.hostIn = s.hostIn := by
  cases hh : s.hostIn with
  | nil => rfl
  | cons e es =>
    obtain ⟨after, act⟩ := e
    simp only [State.hostWaits, hh, beq_iff_eq] at hw
    subst hw
    rfl

theorem takeOp_waits {s : State} (hw : s.hostWaits = true) (rest : List Op) :
    s.takeOp rest = { s with todo := rest } := by
  simp [State.takeOp, tick_waits hw]

/-! ### Runs -/

/-- From `s`, `n` sequencer steps lead to `t`, whatever follows. -/
def Runs (n : Nat) (s t : State) : Prop := ∀ k, runSeq (n + k) s = runSeq k t

theorem Runs.refl (s : State) : Runs 0 s s := fun k => by rw [Nat.zero_add]

theorem Runs.trans {m n : Nat} {s t u : State} (h : Runs m s t) (g : Runs n t u) : Runs (m + n) s u :=
  fun k => by rw [Nat.add_assoc, h, g]

theorem Runs.step {s t : State} {o : Op} {rest : List Op} (hl : s.todo = o :: rest) (ht : seqTurn s = true)
    (ho : seqOp o (s.takeOp rest) = .next t) : Runs 1 s t :=
  fun k => by rw [Nat.add_comm]; simp [runSeq, seqStep, ht, hl, ho]

/-- One step of a state whose host waits. -/
theorem Runs.op {s t : State} {o : Op} {rest : List Op} (hl : s.todo = o :: rest) (hw : s.hostWaits = true)
    (hf : s.fault = none) (ho : seqOp o { s with todo := rest } = .next t) : Runs 1 s t :=
  Runs.step hl (seqTurn_waits hw hf (by simp [hl])) (by rw [takeOp_waits hw]; exact ho)

/-- A run stops where it is not the sequencer's turn. -/
theorem runSeq_stop {s : State} (h : seqTurn s = false) (n : Nat) : runSeq n s = s := by
  cases n with
  | zero => rfl
  | succ n => simp [runSeq, seqStep, h]

theorem runSeq_done {s : State} (h : s.todo = []) (n : Nat) : runSeq n s = s :=
  runSeq_stop (by simp [seqTurn, h]) n

theorem runSeq_faulted {s : State} (h : s.fault ≠ none) (n : Nat) : runSeq n s = s :=
  runSeq_stop (by cases hf : s.fault <;> simp_all [seqTurn, State.faulted]) n

/-- A run that comes to its end within the steps it has ends there. -/
theorem Runs.ends {n m : Nat} {s t : State} (h : Runs n s t) (hd : t.todo = []) (hn : n ≤ m) : runSeq m s = t := by
  obtain ⟨k, rfl⟩ := Nat.exists_eq_add_of_le hn
  rw [h, runSeq_done hd]

/-- What every sequencer step keeps, a run keeps. -/
theorem runSeq_keeps {P : State → Prop}
    (hstep : ∀ s o rest t, P s → s.todo = o :: rest → seqTurn s = true → seqOp o (s.takeOp rest) = .next t → P t)
    (n : Nat) {s : State} (hs : P s) : P (runSeq n s) := by
  induction n generalizing s with
  | zero => exact hs
  | succ n ih =>
    simp only [runSeq]
    cases h : seqStep s with
    | none => exact hs
    | some t =>
      apply ih
      simp only [seqStep] at h
      split at h
      · rename_i hturn
        cases hl : s.todo with
        | nil => simp [hl] at h
        | cons o rest =>
          simp only [hl] at h
          cases ho : seqOp o (s.takeOp rest) with
          | next u => simp only [ho, Option.some.injEq] at h; subst h; exact hstep s o rest u hs hl hturn ho
          | fault r => simp [ho] at h
          | refused r => simp [ho] at h
      · exact absurd h (by simp)

/-! ### Outcomes -/

theorem andThen_next {o : Out} {f : State → Out} {t : State} (h : andThen o f = .next t) :
    ∃ u, o = .next u ∧ f u = .next t := by
  cases o with
  | next u => exact ⟨u, rfl, h⟩
  | fault r => exact absurd h (by simp [andThen])
  | refused r => exact absurd h (by simp [andThen])

/-- A meaning that answers a next state started, and ran its burst. -/
theorem thenRun_next {o : Out} {t : State} (h : thenRun o = .next t) :
    ∃ u, o = .next u ∧ t = runSeq u.burst u := by
  obtain ⟨u, hu, ht⟩ := andThen_next h
  exact ⟨u, hu, (Host.Outcome.next.inj ht).symm⟩

@[simp] theorem thenRun_of_next (s : State) : thenRun (.next s) = .next (runSeq s.burst s) := rfl

@[simp] theorem thenRun_fault (r : Fault) : thenRun (.fault r) = .fault r := rfl

/-- A start that faults the block stops there. -/
theorem thenRun_raiseFault (s : State) (f : FaultReason) : thenRun (.next (s.raiseFault f)) = .next (s.raiseFault f) := by
  rw [thenRun_of_next, runSeq_done rfl]

/-- Every meaning is its start followed by the burst. -/
theorem exec_eq (i : Instr) (s : State) : exec i s = thenRun (startInstr i s) := by cases i <;> rfl

end Sys2Proof.Laws
end

