-- ==== Sys2Proof/Laws/Engine.lean ====
section
/-! SUPPORT. The engine operations on a reference device (40_engine.md): what a run of each one's steps leaves, as a
composition of the machine's own operations, and how many steps it takes. -/

namespace Sys2Proof.Laws

open Sys2Proof.Machine

/-! ### Single steps -/

/-- `x` with the steps `l` still to do. -/
def withTodo (l : List Op) (x : State) : State := { x with todo := l }

/-- Nothing comes between two sequencer steps: the host waits, the block is not faulted. -/
def Calm (x : State) : Prop := x.hostWaits = true ∧ x.fault = none

theorem Calm.of {x y : State} (h : Calm x) (hi : y.hostIn = x.hostIn) (hf : y.fault = x.fault) : Calm y :=
  ⟨by simpa [State.hostWaits, hi] using h.1, hf ▸ h.2⟩

theorem runs_op {x y : State} {o : Op} {l : List Op} (h : Calm x) (ho : seqOp o (withTodo l x) = .next (withTodo l y)) :
    Runs 1 (withTodo (o :: l) x) (withTodo l y) :=
  Runs.op rfl h.1 h.2 ho

theorem runs_setFsm {x : State} (h : Calm x) (f : FsmStep) (l : List Op) :
    Runs 1 (withTodo (.setFsm f :: l) x) (withTodo l { x with fsm := f }) := runs_op h rfl

theorem runs_setEng {x : State} (h : Calm x) (e : EngStep) (l : List Op) :
    Runs 1 (withTodo (.setEng e :: l) x) (withTodo l { x with eng := e }) := runs_op h rfl

theorem runs_setMmap {x : State} (h : Calm x) (b : Bool) (l : List Op) :
    Runs 1 (withTodo (.setMmap b :: l) x) (withTodo l { x with mmapActive := b }) := runs_op h rfl

theorem runs_emit {x : State} (h : Calm x) (e : TraceEntry) (l : List Op) :
    Runs 1 (withTodo (.emit e :: l) x) (withTodo l { x with trace := x.trace ++ [e] }) := runs_op h rfl

theorem runs_dropDesc {x : State} (h : Calm x) (l : List Op) :
    Runs 1 (withTodo (.dropDesc :: l) x) (withTodo l { x with desc := none, cfgSaved := none }) := runs_op h rfl

theorem writeReg_withTodo (l : List Op) (x : State) (r : WholeReg) (v : Word) :
    (withTodo l x).writeReg r v = withTodo l (x.writeReg r v) := by
  cases h : x.env <;> simp [State.writeReg, withTodo, h, State.refBytes]

theorem runs_writeReg {x : State} (h : Calm x) (r : WholeReg) (v : Word) (l : List Op) :
    Runs 1 (withTodo (.writeReg r v :: l) x) (withTodo l (x.writeReg r v)) :=
  runs_op h (by rw [seqOp_writeReg, writeReg_withTodo])

theorem readCr_withTodo (l : List Op) (x : State) : (withTodo l x).readCr = withTodo l x.readCr := by
  cases h : x.env <;> simp [State.readCr, withTodo, h]

theorem writeCr_withTodo (l : List Op) (x : State) (e : CrEdit) :
    (withTodo l x).writeCr e = withTodo l (x.writeCr e) := by
  cases h : x.env <;> simp [State.writeCr, State.putCr, withTodo, h]

theorem runs_readCr {x : State} (h : Calm x) (l : List Op) :
    Runs 1 (withTodo (.readCr :: l) x) (withTodo l x.readCr) :=
  runs_op h (by rw [seqOp_readCr, readCr_withTodo])

theorem runs_writeCr {x : State} (h : Calm x) (e : CrEdit) (l : List Op) :
    Runs 1 (withTodo (.writeCr e :: l) x) (withTodo l (x.writeCr e)) :=
  runs_op h (by rw [seqOp_writeCr, writeCr_withTodo])

theorem readSr_withTodo (l : List Op) (x : State) :
    (withTodo l x).readSr = (x.readSr.1, withTodo l x.readSr.2) := by
  cases h : x.env <;> simp [State.readSr, withTodo, h]

/-! ### Waits (40_engine.md R133) -/

/-- The state after one sample. -/
def sampled (x : State) : State := x.readSr.2

theorem Calm.sampled {x : State} (h : Calm x) : Calm (sampled x) := h.of (readSr_hostIn x) (readSr_fault x)

/-- A sample without an error flag that meets the loop's condition ends the wait. -/
theorem runs_wait_met {x : State} {c : WaitCond} {k : Nat} (h : Calm x) (herr : sampleError x.readSr.1 = none)
    (hc : c.holds x.readSr.1 = true) (l : List Op) :
    Runs 1 (withTodo (.wait c k :: l) x) (withTodo l (sampled x)) := by
  refine runs_op h ?_
  simp only [seqOp, waitSample_eq, readSr_withTodo, State.onWait, herr, hc, if_true]
  rfl

/-- A sample without an error flag that does not meet it goes on, while the budget allows. -/
theorem runs_wait_again {x : State} {c : WaitCond} {k : Nat} (h : Calm x) (herr : sampleError x.readSr.1 = none)
    (hc : c.holds x.readSr.1 = false) (hb : budgetSpent x.params (k + 1) = false) (l : List Op) :
    Runs 1 (withTodo (.wait c k :: l) x) (withTodo (.wait c (k + 1) :: l) (sampled x)) := by
  refine Runs.op rfl h.1 h.2 ?_
  have hp : budgetSpent (withTodo l x.readSr.2).params (k + 1) = false := by rw [← hb]; simp [withTodo]
  have : seqOp (.wait c k) (withTodo l x) = .next (withTodo (.wait c (k + 1) :: l) (sampled x)) := by
    simp only [seqOp, waitSample_eq, readSr_withTodo, State.onWait, herr, hc, State.sampleAgain, hp, Bool.false_eq_true, if_false]
    rfl
  exact this

/-- What a quiet device shows at a sample while no auto-poll runs. -/
theorem readSr_still {x : State} {d : RefDev} (he : x.env = .reference d) (hq : d.quiet = true) (hb : d.busy = false) :
    x.readSr = (d.sr, { x with regs := { x.regs with sr := d.sr }, env := .reference (counted d) }) := by
  simp only [State.readSr, he, sample_still hq hb]
  rfl

/-- A device that shows no error flag and runs no auto-poll. -/
structure Still (x : State) (d : RefDev) : Prop where
  env : x.env = .reference d
  quiet : d.quiet = true
  tef : d.tef = false
  tof : d.tof = false
  busy : d.busy = false

theorem Still.sampled {x : State} {d : RefDev} (h : Still x d) : Still (sampled x) (counted d) where
  env := by rw [Laws.sampled, readSr_still h.env h.quiet h.busy]
  quiet := quiet_counted h.quiet
  tef := h.tef
  tof := h.tof
  busy := h.busy

theorem runs_wait_still {x : State} {d : RefDev} {c : WaitCond} (h : Calm x) (hs : Still x d)
    (hc : c.holds d.sr = true) (k : Nat) (l : List Op) :
    Runs 1 (withTodo (.wait c k :: l) x) (withTodo l (sampled x)) := by
  have hv : x.readSr.1 = d.sr := by rw [readSr_still hs.env hs.quiet hs.busy]
  refine runs_wait_met h ?_ (by rw [hv]; exact hc) l
  rw [hv]
  simp [sampleError, RefDev.sr, hs.tef, hs.tof]

/-! ### Setup and end of transfer (R131, R135) -/

/-- The state after `Setup`. -/
def setUp (op : EngineOp) (h : Header) (fm : FrameMode) (n : Word) (x : State) : State :=
  let y := if n = 0 then x else x.writeReg .dlr (n - 1)
  let z := ((y.writeReg .ccr (packCcr h fm)).writeReg .abr h.alt).writeReg .ar h.addr
  { z with trace := z.trace ++ [{ op := op, ccr := packCcr h fm, ar := some h.addr, abr := h.alt,
                                  dlr := if n = 0 then none else some (n - 1), data := [] }] }

theorem Calm.writeReg {x : State} (h : Calm x) (r : WholeReg) (v : Word) : Calm (x.writeReg r v) :=
  h.of (by simp) (by simp)

theorem Calm.setUp {x : State} (h : Calm x) (op : EngineOp) (hd : Header) (fm : FrameMode) (n : Word) :
    Calm (setUp op hd fm n x) := by
  refine h.of ?_ ?_ <;> (unfold Laws.setUp; split <;> simp)

/-- `Setup` takes five steps, four when it writes no DLR. -/
theorem runs_setup {x : State} (h : Calm x) (op : EngineOp) (hd : Header) (fm : FrameMode) (n : Word) (l : List Op) :
    ∃ k, k ≤ 5 ∧ Runs k (withTodo (setupOps op hd fm n ++ l) x) (withTodo l (setUp op hd fm n x)) := by
  have tail : ∀ y : State, Calm y → Runs 4
      (withTodo ([.writeReg .ccr (packCcr hd fm), .writeReg .abr hd.alt, .writeReg .ar hd.addr,
        .emit { op := op, ccr := packCcr hd fm, ar := some hd.addr, abr := hd.alt,
                dlr := if n = 0 then none else some (n - 1), data := [] }] ++ l) y)
      (withTodo l (let z := ((y.writeReg .ccr (packCcr hd fm)).writeReg .abr hd.alt).writeReg .ar hd.addr
        { z with trace := z.trace ++ [{ op := op, ccr := packCcr hd fm, ar := some hd.addr, abr := hd.alt,
                                        dlr := if n = 0 then none else some (n - 1), data := [] }] })) :=
    fun y hy =>
      (runs_writeReg hy _ _ _).trans <| (runs_writeReg (hy.writeReg _ _) _ _ _).trans <|
        (runs_writeReg ((hy.writeReg _ _).writeReg _ _) _ _ _).trans <|
          runs_emit (((hy.writeReg _ _).writeReg _ _).writeReg _ _) _ _
  unfold setUp setupOps
  by_cases hn : n = 0
  · refine ⟨4, by omega, ?_⟩
    have := tail x h
    simp only [if_pos hn] at this ⊢
    exact this
  · refine ⟨5, by omega, ?_⟩
    have := (runs_writeReg h .dlr (n - 1) _).trans (tail _ (h.writeReg .dlr (n - 1)))
    simp only [if_neg hn] at this ⊢
    exact this

/-- The state after `EndOfTransfer` and the operation's end. -/
def finished (x : State) : State :=
  { (sampled { x with eng := .waitTc }).writeReg .fcr fcrCtcf with eng := .idle, desc := none, cfgSaved := none }

theorem Calm.finished {x : State} (h : Calm x) : Calm (finished x) :=
  h.of (by simp [Laws.finished, Laws.sampled]) (by simp [Laws.finished, Laws.sampled])

theorem runs_finish {x : State} {d : RefDev} (h : Calm x) (hs : Still x d) (ht : d.tcf = true) (l : List Op) :
    Runs 5 (withTodo (endOfTransferOps ++ l) x) (withTodo l (finished x)) := by
  have h1 : Calm { x with eng := .waitTc } := h.of rfl rfl
  have s1 : Still { x with eng := .waitTc } d := ⟨hs.env, hs.quiet, hs.tef, hs.tof, hs.busy⟩
  have hc : WaitCond.transferComplete.holds d.sr = true := by simp [WaitCond.holds, RefDev.sr, ht]
  exact (runs_setEng h .waitTc _).trans <| (runs_wait_still h1 s1 hc 0 _).trans <|
    (runs_writeReg h1.sampled _ _ _).trans <| (runs_setEng (h1.sampled.writeReg _ _) .idle _).trans <|
      runs_dropDesc (x := { (Laws.sampled { x with eng := .waitTc }).writeReg .fcr fcrCtcf with eng := .idle })
        ((h1.sampled.writeReg .fcr fcrCtcf).of rfl rfl) _

/-! ### What no engine step touches -/

/-- `y` differs from `x` in nothing but what an engine operation may change: the engine's own fields, the trace, the
register file but `DCR`, the buffers, `mmap_active` and the environment. -/
structure Kept (x y : State) : Prop where
  params : y.params = x.params
  burst : y.burst = x.burst
  hostIn : y.hostIn = x.hostIn
  hostData : y.hostData = x.hostData
  fsm : y.fsm = x.fsm
  current : y.current = x.current
  wAddr : y.wAddr = x.wAddr
  wBuf : y.wBuf = x.wBuf
  wRem : y.wRem = x.wRem
  wDone : y.wDone = x.wDone
  wN : y.wN = x.wN
  fault : y.fault = x.fault
  port : y.port = x.port
  admitted : y.admitted = x.admitted
  dcr : y.regs.dcr = x.regs.dcr

theorem Kept.refl (x : State) : Kept x x := by constructor <;> rfl

theorem Kept.trans {x y z : State} (h : Kept x y) (g : Kept y z) : Kept x z := by
  constructor
  · rw [g.params, h.params]
  · rw [g.burst, h.burst]
  · rw [g.hostIn, h.hostIn]
  · rw [g.hostData, h.hostData]
  · rw [g.fsm, h.fsm]
  · rw [g.current, h.current]
  · rw [g.wAddr, h.wAddr]
  · rw [g.wBuf, h.wBuf]
  · rw [g.wRem, h.wRem]
  · rw [g.wDone, h.wDone]
  · rw [g.wN, h.wN]
  · rw [g.fault, h.fault]
  · rw [g.port, h.port]
  · rw [g.admitted, h.admitted]
  · rw [g.dcr, h.dcr]

theorem Kept.calm {x y : State} (h : Kept x y) (c : Calm x) : Calm y := c.of h.hostIn h.fault

theorem kept_sampled (x : State) : Kept x (sampled x) := by
  constructor <;> simp [sampled, readSr_regs]

theorem kept_writeReg (x : State) (r : WholeReg) (v : Word) : Kept x (x.writeReg r v) := by
  constructor <;> simp

theorem kept_setUp (op : EngineOp) (h : Header) (fm : FrameMode) (n : Word) (x : State) : Kept x (setUp op h fm n x) := by
  unfold setUp; split <;> constructor <;> simp

theorem kept_finished (x : State) : Kept x (finished x) := by
  constructor <;> simp [finished, sampled, readSr_regs]

theorem kept_readCr (x : State) : Kept x x.readCr := by
  constructor <;> simp

theorem kept_writeCr (x : State) (e : CrEdit) : Kept x (x.writeCr e) := by
  constructor <;> simp

/-! ### Buffers (00_scope.md R12) -/

/-- The byte of a buffer at an index. -/
def bufByte (x : State) (b : BufRef) (i : Nat) : Byte :=
  match b with
  | .host a => x.memByte (a.toNat + i)
  | .stg => x.stgByte i
  | .cfgbuf => x.cfgbuf

/-- The buffer has the byte. -/
def bufOk (x : State) (b : BufRef) (i : Nat) : Bool :=
  match b with
  | .host a => x.admits (a.toNat + i)
  | .stg => decide (i < x.params.page)
  | .cfgbuf => true

/-- The state after a byte is stored. -/
def stored (x : State) (b : BufRef) (i : Nat) : State :=
  match b with
  | .host a => { x with hostMem := cellWrite hostDefault x.hostMem (a.toNat + i) x.tmpByte }
  | .stg => { x with stg := cellWrite stgDefault x.stg i x.tmpByte }
  | .cfgbuf => { x with cfgbuf := x.tmpByte }

theorem bufRead_ok {x : State} {b : BufRef} {i : Nat} (h : bufOk x b i = true) :
    x.bufRead b i = .next { x with tmpByte := bufByte x b i } := by
  cases b <;> simp_all [bufOk, State.bufRead, State.memRead, State.stgRead, bufByte]

theorem bufWrite_ok {x : State} {b : BufRef} {i : Nat} (h : bufOk x b i = true) :
    x.bufWrite b i = .next (stored x b i) := by
  cases b <;> simp_all [bufOk, State.bufWrite, State.memWrite, State.stgWrite, stored]

/-! ### Bytes to the peripheral (R134) -/

/-- The engine inside its byte loop, after the wait's sample. -/
def ready (x : State) : State := sampled { x with eng := .data }

/-- A byte in flight. -/
def inFlight (b : Byte) (x : State) : State := { x with tmpByte := b }

/-- A byte pushed: the index, the wait's sample, the read of the buffer, the write of DR. -/
def pushByte (first : Bool) (x : State) (b : Byte) : State := (inFlight b (ready (x.nextIdx first))).pushDr

/-- The index at the head of a byte loop. -/
def headIdx (first : Bool) (x : State) : Word := (x.nextIdx first).idx

theorem kept_nextIdx (x : State) (first : Bool) : Kept x (x.nextIdx first) := by constructor <;> rfl

theorem kept_ready (x : State) : Kept x (ready x) := by
  constructor <;> simp [ready, sampled, readSr_regs]

/-- What the wait's sample leaves of the other fields. -/
theorem ready_rest (x : State) :
    (ready x).hostMem = x.hostMem ∧ (ready x).stg = x.stg ∧ (ready x).cfgbuf = x.cfgbuf ∧ (ready x).desc = x.desc ∧
      (ready x).idx = x.idx ∧ (ready x).trace = x.trace ∧ (ready x).mmapActive = x.mmapActive ∧
      (ready x).regs.cr = x.regs.cr ∧ (ready x).tmpCr = x.tmpCr := by
  refine ⟨?_, ?_, ?_, ?_, ?_, ?_, ?_, ?_, ?_⟩ <;> simp [ready, sampled, readSr_regs]

theorem ready_still {x : State} {d : RefDev} (hs : Still x d) :
    ready x = { x with eng := .data, regs := { x.regs with sr := d.sr }, env := .reference (counted d) } := by
  rw [ready, sampled, readSr_still (x := { x with eng := .data }) (d := d) hs.env hs.quiet hs.busy]

theorem Still.ready {x : State} {d : RefDev} (h : Still x d) : Still (ready x) (counted d) where
  env := by rw [ready_still h]
  quiet := quiet_counted h.quiet
  tef := h.tef
  tof := h.tof
  busy := h.busy

theorem Still.nextIdx {x : State} {d : RefDev} (h : Still x d) (first : Bool) : Still (x.nextIdx first) d :=
  ⟨h.env, h.quiet, h.tef, h.tof, h.busy⟩

theorem kept_pushByte (f : Bool) (x : State) (b : Byte) : Kept x (pushByte f x b) :=
  (kept_nextIdx x f).trans ((kept_ready _).trans (by constructor <;> simp [pushByte, inFlight]))

theorem pushByte_desc (f : Bool) (x : State) (b : Byte) : (pushByte f x b).desc = x.desc := by
  simp [pushByte, inFlight, ready_rest]

theorem pushByte_idx (f : Bool) (x : State) (b : Byte) : (pushByte f x b).idx = headIdx f x := by
  simp [pushByte, inFlight, ready_rest, headIdx]

theorem headIdx_next (f : Bool) (x : State) (b : Byte) : headIdx false (pushByte f x b) = headIdx f x + 1 := by
  simp [headIdx, pushByte, inFlight, ready_rest]

theorem pushByte_trace (f : Bool) (x : State) (b : Byte) : (pushByte f x b).trace = appendData b x.trace := by
  simp [pushByte, inFlight, ready_rest]

/-- What a byte pushed leaves of the buffers and of the mode. -/
theorem pushByte_rest (f : Bool) (x : State) (b : Byte) :
    (pushByte f x b).hostMem = x.hostMem ∧ (pushByte f x b).stg = x.stg ∧ (pushByte f x b).cfgbuf = x.cfgbuf ∧
      (pushByte f x b).mmapActive = x.mmapActive ∧ (pushByte f x b).regs.cr = x.regs.cr ∧
      (pushByte f x b).tmpCr = x.tmpCr := by
  refine ⟨?_, ?_, ?_, ?_, ?_, ?_⟩ <;> simp [pushByte, inFlight, ready_rest]

theorem pushByte_env {x : State} {d : RefDev} (hs : Still x d) (f : Bool) (b : Byte) :
    (pushByte f x b).env = .reference ((counted d).pushDr x.params (Config.freeRefByte x.draws) b) := by
  simp only [pushByte, inFlight, ready_still (hs.nextIdx f), State.pushDr, State.refBytes]
  rfl

/-- The bytes pushed come from the latched buffer. -/
theorem bufByte_of {x y : State} (hm : y.hostMem = x.hostMem) (hst : y.stg = x.stg) (hcf : y.cfgbuf = x.cfgbuf)
    (b : BufRef) (i : Nat) : bufByte y b i = bufByte x b i := by
  cases b <;> simp [bufByte, State.memByte, State.stgByte, hm, hst, hcf]

theorem bufOk_of {x y : State} (hk : Kept x y) (b : BufRef) (i : Nat) : bufOk y b i = bufOk x b i := by
  cases b <;> simp [bufOk, State.admits, hk.admitted, hk.params]

/-- The wait before a byte (R134, R136). -/
theorem runs_byteWait {x : State} {d : RefDev} (h : Calm x) (hs : Still x d) (hf : d.ftf = true ∨ d.tcf = true)
    (l : List Op) : Runs 2 (withTodo (.setEng .data :: .wait .fifo 0 :: l) x) (withTodo l (ready x)) :=
  (runs_setEng h .data _).trans <| runs_wait_still (x := { x with eng := .data }) (c := .fifo) (h.of rfl rfl) (d := d)
    ⟨hs.env, hs.quiet, hs.tef, hs.tof, hs.busy⟩
    (by rcases hf with hf | hf <;> simp [WaitCond.holds, RefDev.sr, hf]) 0 l

theorem runs_pushByte {f : Bool} {x : State} {d : RefDev} {b : Byte} (h : Calm x) (hs : Still x d) (hf : d.ftf = true)
    (hl : (headIdx f x).toNat < x.latchedLen) (hok : bufOk x x.latchedBuf (headIdx f x).toNat = true)
    (hb : bufByte x x.latchedBuf (headIdx f x).toNat = b) (l : List Op) :
    Runs 5 (withTodo (.writeLoop f :: l) x) (withTodo (.writeLoop false :: l) (pushByte f x b)) := by
  have hn := (kept_nextIdx x f).calm h
  have hr := (kept_ready _).calm hn
  have head : Runs 1 (withTodo (.writeLoop f :: l) x)
      (withTodo (.setEng .data :: .wait .fifo 0 :: .bufRead :: .drWrite :: .writeLoop false :: l) (x.nextIdx f)) := by
    refine Runs.op rfl h.1 h.2 ?_
    have : ((withTodo l x).nextIdx f).idx.toNat < ((withTodo l x).nextIdx f).latchedLen := hl
    show Host.Outcome.next ((withTodo l x).writeLoop f) = _
    simp only [State.writeLoop, if_pos this]
    rfl
  have read : Runs 1 (withTodo (.bufRead :: .drWrite :: .writeLoop false :: l) (ready (x.nextIdx f)))
      (withTodo (.drWrite :: .writeLoop false :: l) (inFlight b (ready (x.nextIdx f)))) := by
    refine runs_op hr ?_
    have hi : (withTodo (.drWrite :: .writeLoop false :: l) (ready (x.nextIdx f))).idx = headIdx f x :=
      (ready_rest (x.nextIdx f)).2.2.2.2.1
    have hbuf : (withTodo (.drWrite :: .writeLoop false :: l) (ready (x.nextIdx f))).latchedBuf = x.latchedBuf := by
      simp [withTodo, State.latchedBuf, ready_rest]
    have hby : bufByte (withTodo (.drWrite :: .writeLoop false :: l) (ready (x.nextIdx f))) x.latchedBuf (headIdx f x).toNat = b := by
      rw [← hb]
      exact bufByte_of (ready_rest (x.nextIdx f)).1 (ready_rest (x.nextIdx f)).2.1 (ready_rest (x.nextIdx f)).2.2.1 _ _
    show State.bufRead _ _ _ = _
    rw [hi, hbuf, bufRead_ok (by rw [← hok]; exact bufOk_of ((kept_nextIdx x f).trans (kept_ready _)) _ _), hby]
    rfl
  have push : Runs 1 (withTodo (.drWrite :: .writeLoop false :: l) (inFlight b (ready (x.nextIdx f))))
      (withTodo (.writeLoop false :: l) (pushByte f x b)) := by
    refine runs_op (hr.of rfl rfl) ?_
    rw [seqOp_drWrite]
    simp only [State.pushDr, withTodo, pushByte, inFlight, State.refBytes]
    cases (ready (x.nextIdx f)).env <;> rfl
  exact head.trans ((runs_byteWait hn (hs.nextIdx f) (.inl hf) _).trans (read.trans push))

/-- The loop falls through at the descriptor's length. -/
theorem runs_writeLoop_end {f : Bool} {x : State} (h : Calm x) (hl : x.latchedLen ≤ (headIdx f x).toNat) (l : List Op) :
    Runs 1 (withTodo (.writeLoop f :: l) x) (withTodo l (x.nextIdx f)) := by
  refine runs_op h ?_
  have : ¬ ((withTodo l x).nextIdx f).idx.toNat < ((withTodo l x).nextIdx f).latchedLen := by
    show ¬ (headIdx f x).toNat < x.latchedLen
    omega
  show Host.Outcome.next ((withTodo l x).writeLoop f) = _
  simp only [State.writeLoop, if_neg this]
  rfl

/-- The state after a byte loop of a write. -/
def pushAll : Bool → List Byte → State → State
  | f, [], x => x.nextIdx f
  | f, b :: rest, x => pushAll false rest (pushByte f x b)

/-- An operation complete. -/
def complete (d : RefDev) : RefDev := { d with tcf := true, cur := .none }

/-- What the last byte of a write leaves of the device: the command has run. -/
def ran (p : Params) (free : Nat → Byte) (op : Byte) (a : Word) (data : List Byte) (d : RefDev) : RefDev :=
  complete (d.command p free op a data)

theorem ran_setCur (p : Params) (free : Nat → Byte) (op : Byte) (a : Word) (data : List Byte) (d : RefDev) (c : Cur) :
    ran p free op a data (setCur c d) = ran p free op a data d := by
  rw [ran, command_setCur]
  rfl

theorem still_of_env {x : State} {d e : RefDev} (hx : x.env = .reference e) (hq : e.inject = d.inject) (hn : d.ns ≤ e.ns)
    (hd : d.quiet = true) (ht : e.tef = false) (ho : e.tof = false) (hb : e.busy = false) : Still x e where
  env := hx
  quiet := by
    simp only [RefDev.quiet, List.all_eq_true, hq] at hd ⊢
    exact fun i hi => decide_eq_true (le_trans (of_decide_eq_true (hd i hi)) hn)
  tef := ht
  tof := ho
  busy := hb

/-- The byte loop of a write of `bytes`. -/
theorem runs_writeLoop {op : Byte} {a : Word} (bytes : List Byte) {f : Bool} {x : State} {d : RefDev} {data : List Byte}
    (h : Calm x) (hs : Still x d) (hne : bytes ≠ []) (hc : d.cur = .write op a bytes.length data)
    (hlen : x.latchedLen = (headIdx f x).toNat + bytes.length) (hlt : x.latchedLen < 2 ^ 32)
    (hb : ∀ j (hj : j < bytes.length), bufOk x x.latchedBuf ((headIdx f x).toNat + j) = true ∧
      bufByte x x.latchedBuf ((headIdx f x).toNat + j) = bytes[j]) (l : List Op) :
    Runs (5 * bytes.length + 1) (withTodo (.writeLoop f :: l) x) (withTodo l (pushAll f bytes x)) ∧
      ∃ free, (pushAll f bytes x).env =
        .reference (ran x.params free op a (data ++ bytes) { d with ns := d.ns + bytes.length }) := by
  induction bytes generalizing f x d data with
  | nil => exact absurd rfl hne
  | cons b rest ih =>
    have hf : d.ftf = true := by simp [RefDev.ftf, hc]
    have h0 := hb 0 (by simp)
    simp only [Nat.add_zero, List.getElem_cons_zero] at h0
    have hl0 : (headIdx f x).toNat < x.latchedLen := by simp only [List.length_cons] at hlen; omega
    have hstep := runs_pushByte h hs hf hl0 h0.1 h0.2 l
    have hk := kept_pushByte f x b
    have hbuf : (pushByte f x b).latchedBuf = x.latchedBuf := by simp [State.latchedBuf, pushByte_desc]
    have hll : (pushByte f x b).latchedLen = x.latchedLen := by simp [State.latchedLen, pushByte_desc]
    have hidx : (headIdx false (pushByte f x b)).toNat = (headIdx f x).toNat + 1 := by
      rw [headIdx_next, BitVec.toNat_add]
      exact Nat.mod_eq_of_lt (by simp; omega)
    have henv := pushByte_env hs f b
    cases rest with
    | nil =>
      have hpush : (counted d).pushDr x.params (Config.freeRefByte x.draws) b =
          ran x.params (Config.freeRefByte x.draws) op a (data ++ [b]) { d with ns := d.ns + 1 } := by
        have hc' : (counted d).cur = .write op a 1 data := hc
        unfold RefDev.pushDr
        rw [hc']
        rfl
      refine ⟨?_, Config.freeRefByte x.draws, ?_⟩
      · have hend := runs_writeLoop_end (f := false) (hk.calm h) (by rw [hll, hidx, hlen]; simp) l
        exact hstep.trans hend
      · show (pushByte f x b).env = _
        rw [henv, hpush]; rfl
    | cons c more =>
      have hpush : (counted d).pushDr x.params (Config.freeRefByte x.draws) b =
          { d with ns := d.ns + 1, cur := .write op a (c :: more).length (data ++ [b]) } := by
        have hc' : (counted d).cur = .write op a (more.length + 1 + 1) data := hc
        unfold RefDev.pushDr
        rw [hc']
        dsimp only
        rw [if_neg (by omega)]
        rfl
      rw [hpush] at henv
      have hs' : Still (pushByte f x b) { d with ns := d.ns + 1, cur := .write op a (c :: more).length (data ++ [b]) } :=
        still_of_env (d := d) henv rfl (by simp) hs.quiet hs.tef hs.tof rfl
      obtain ⟨hrun, free, hfin⟩ := ih (f := false) (hk.calm h) hs' (by simp) rfl (by rw [hll, hidx, hlen]; simp; omega)
        (by rw [hll]; exact hlt) (fun j hj => by
          have := hb (j + 1) (by simpa using hj)
          rw [hbuf, hidx, bufOk_of hk, bufByte_of (pushByte_rest f x b).1 (pushByte_rest f x b).2.1 (pushByte_rest f x b).2.2.1,
            show (headIdx f x).toNat + 1 + j = (headIdx f x).toNat + (j + 1) by omega]
          simpa using this)
      refine ⟨?_, free, ?_⟩
      · have := hstep.trans hrun
        rw [show 5 + (5 * (c :: more).length + 1) = 5 * (b :: c :: more).length + 1 by simp; omega] at this
        exact this
      · show (pushAll false (c :: more) (pushByte f x b)).env = _
        rw [hfin, hk.params]
        simp only [List.append_assoc, List.singleton_append, List.length_cons, Nat.add_assoc, Nat.add_comm 1]
        exact congrArg _ (ran_setCur x.params free op a _ { d with ns := d.ns + (more.length + (1 + 1)) } _)

end Sys2Proof.Laws
end

