-- ==== Sys2Proof/Laws/Transfers.lean ====
section
/-! SUPPORT. Whole engine operations on a ready reference device (40_engine.md R134 to R138): each comes to its end, and what
it leaves. -/

namespace Sys2Proof.Laws

open Sys2Proof.Machine

/-! ### The premises and the parts that stay -/

/-- A reference device with nothing stale, and an engine that is on. -/
structure Ready (x : State) (d : RefDev) : Prop where
  calm : Calm x
  env : x.env = .reference d
  dev : d.ready = true
  en : crEn x.regs.cr = true
  abort : crAbort x.regs.cr = false

theorem ready_iff {d : RefDev} : d.ready = true ↔
    d.quiet = true ∧ d.tef = false ∧ d.tof = false ∧ d.tcf = false ∧ d.smf = false ∧ d.busy = false := by
  simp [RefDev.ready, and_assoc]

theorem Ready.still {x : State} {d : RefDev} (h : Ready x d) : Still x d :=
  have hd := ready_iff.1 h.dev
  ⟨h.env, hd.1, hd.2.1, hd.2.2.1, hd.2.2.2.2.2⟩

/-- The buffers and the mode are as before. -/
structure Rest (x y : State) : Prop where
  hostMem : y.hostMem = x.hostMem
  stg : y.stg = x.stg
  cfgbuf : y.cfgbuf = x.cfgbuf
  mmapActive : y.mmapActive = x.mmapActive

theorem Rest.refl (x : State) : Rest x x := ⟨rfl, rfl, rfl, rfl⟩

theorem Rest.trans {x y z : State} (h : Rest x y) (g : Rest y z) : Rest x z :=
  ⟨g.hostMem.trans h.hostMem, g.stg.trans h.stg, g.cfgbuf.trans h.cfgbuf, g.mmapActive.trans h.mmapActive⟩

theorem rest_sampled (x : State) : Rest x (sampled x) := by constructor <;> simp [sampled]

theorem rest_setUp (op : EngineOp) (h : Header) (fm : FrameMode) (n : Word) (x : State) : Rest x (setUp op h fm n x) := by
  unfold setUp; split <;> constructor <;> simp

theorem rest_finished (x : State) : Rest x (finished x) := by constructor <;> simp [finished, sampled]

theorem rest_pushByte (f : Bool) (x : State) (b : Byte) : Rest x (pushByte f x b) :=
  have h := pushByte_rest f x b
  ⟨h.1, h.2.1, h.2.2.1, h.2.2.2.1⟩

theorem appendData_last (b : Byte) (l : List TraceEntry) (e : TraceEntry) :
    appendData b (l ++ [e]) = l ++ [{ e with data := e.data ++ [b] }] := by
  induction l with
  | nil => rfl
  | cons a rest ih =>
    cases hr : rest ++ [e] with
    | nil => simp at hr
    | cons c more =>
      rw [List.cons_append, hr]
      show a :: appendData b (c :: more) = _
      rw [← hr, ih, List.cons_append]

/-! ### The start of an operation (R131, R132, 20_memory.md R84) -/

/-- The state after the idle wait and `ESetup`. -/
def idleSetup (x : State) : State := { sampled { x with eng := .waitIdle } with eng := .setup }

theorem kept_idleSetup (x : State) : Kept x (idleSetup x) := by
  constructor <;> simp [idleSetup, sampled, readSr_regs]

theorem rest_idleSetup (x : State) : Rest x (idleSetup x) := by constructor <;> simp [idleSetup, sampled]

theorem idleSetup_still {x : State} {d : RefDev} (hs : Still x d) :
    idleSetup x = { x with eng := .setup, regs := { x.regs with sr := d.sr }, env := .reference (counted d) } := by
  rw [idleSetup, sampled, readSr_still (x := { x with eng := .waitIdle }) hs.env hs.quiet hs.busy]

theorem Ready.idleSetup {x : State} {d : RefDev} (h : Ready x d) : Ready (idleSetup x) (counted d) := by
  have hs := idleSetup_still h.still
  refine ⟨(kept_idleSetup x).calm h.calm, by rw [hs], ?_, by rw [hs]; exact h.en, by rw [hs]; exact h.abort⟩
  have hd := ready_iff.1 h.dev
  exact ready_iff.2 ⟨quiet_counted hd.1, hd.2⟩

theorem runs_idleSetup {x : State} {d : RefDev} (h : Ready x d) (l : List Op) :
    Runs 3 (withTodo (startOps ++ l) x) (withTodo l (idleSetup x)) := by
  have hb : WaitCond.busyClear.holds d.sr = true := by simp [WaitCond.holds, RefDev.sr, (ready_iff.1 h.dev).2.2.2.2.2]
  have h1 : Calm { x with eng := .waitIdle } := h.calm.of rfl rfl
  have s1 : Still { x with eng := .waitIdle } d := ⟨h.env, h.still.quiet, h.still.tef, h.still.tof, h.still.busy⟩
  exact (runs_setEng h.calm .waitIdle _).trans <| (runs_wait_still h1 s1 hb 0 _).trans (runs_setEng h1.sampled .setup _)

/-- The register file after `Setup`. -/
def framed (h : Header) (fm : FrameMode) (n : Word) (r : Regs) : Regs :=
  { r with dlr := if n = 0 then r.dlr else n - 1, ccr := packCcr h fm, abr := h.alt, ar := h.addr }

theorem setUp_regs (op : EngineOp) (h : Header) (fm : FrameMode) (n : Word) (x : State) :
    (setUp op h fm n x).regs = framed h fm n x.regs := by
  unfold setUp framed; split <;> simp_all [Regs.write]

theorem setUp_trace (op : EngineOp) (h : Header) (fm : FrameMode) (n : Word) (x : State) :
    (setUp op h fm n x).trace = x.trace ++ [entryOf op h fm n []] := by
  unfold setUp entryOf; split <;> simp_all

theorem setUp_desc (op : EngineOp) (h : Header) (fm : FrameMode) (n : Word) (x : State) :
    (setUp op h fm n x).desc = x.desc ∧ (setUp op h fm n x).idx = x.idx ∧ (setUp op h fm n x).eng = x.eng := by
  unfold setUp; split <;> simp

theorem onCcr_indirect {r : Regs} {d : RefDev} {h : Header} {fm : FrameMode} (hc : r.ccr = packCcr h fm)
    (hfm : fm ≠ .memoryMapped) : d.onCcr r = d := by
  unfold RefDev.onCcr
  rw [hc, packCcr_fmode, if_neg]
  cases fm <;> first | exact absurd rfl hfm | decide

/-- The write of AR starts the operation on the device. -/
theorem setUp_env {x : State} {d : RefDev} (op : EngineOp) (h : Header) (fm : FrameMode) (n : Word)
    (he : x.env = .reference d) (hfm : fm ≠ .memoryMapped) :
    ∃ free, (setUp op h fm n x).env = .reference (d.onAr x.params free (framed h fm n x.regs)) := by
  have step : ∀ (y : State) (e : RefDev) (w : WholeReg) (v : Word), y.env = .reference e →
      (y.writeReg w v).env = .reference (e.onWrite y.params y.refBytes (y.regs.write w v) w v) := by
    intro y e w v hy
    simp [State.writeReg, hy]
  have tail : ∀ y : State, y.env = .reference d → y.params = x.params →
      y.regs = { x.regs with dlr := if n = 0 then x.regs.dlr else n - 1 } →
      ∃ free, ((((y.writeReg .ccr (packCcr h fm)).writeReg .abr h.alt).writeReg .ar h.addr)).env =
        .reference (d.onAr x.params free (framed h fm n x.regs)) := by
    intro y hy hp hr
    have h1 : (y.writeReg .ccr (packCcr h fm)).env = .reference d := by
      rw [step y d _ _ hy]
      exact congrArg _ (onCcr_indirect (h := h) (fm := fm) rfl hfm)
    have h2 := step _ d .abr h.alt h1
    refine ⟨((y.writeReg .ccr (packCcr h fm)).writeReg .abr h.alt).refBytes, ?_⟩
    rw [step _ d .ar h.addr h2]
    simp [RefDev.onWrite, hp, hr, framed, Regs.write]
  unfold setUp
  by_cases hn : n = 0
  · simp only [if_pos hn]
    exact tail x he rfl (by simp [hn])
  · simp only [if_neg hn]
    refine tail (x.writeReg .dlr (n - 1)) ?_ (by simp) (by simp only [writeReg_regs, Regs.write, if_neg hn])
    rw [step x d _ _ he]
    rfl

theorem dataCount_framed (h : Header) (fm : FrameMode) (n : Word) (r : Regs) (hn : n = 0 ↔ h.dmode = .none) :
    dataCount (framed h fm n r) = n.toNat := by
  unfold dataCount framed
  simp only [packCcr_dmode]
  by_cases h0 : n = 0
  · rw [if_pos (by rw [hn.1 h0]; rfl), h0]; rfl
  · rw [if_neg (by rw [code_eq_zero]; exact fun hm => h0 (hn.2 hm)), if_neg h0]
    have : 0 < n.toNat := by
      rcases Nat.eq_zero_or_pos n.toNat with hz | hp
      · exact absurd (BitVec.eq_of_toNat_eq hz) h0
      · exact hp
    show (n - 1).toNat + 1 = n.toNat
    bv_omega

/-! ### The end of an operation (R135) -/

theorem onFcr_tcf (d : RefDev) : d.onFcr fcrCtcf = { d with tcf := false } := by
  simp [RefDev.onFcr, fcrCtcf]

theorem onFcr_smf (d : RefDev) : d.onFcr fcrCsmf = { d with smf := false } := by
  simp [RefDev.onFcr, fcrCsmf]

/-- The end of a transfer: TCF is acknowledged, the engine is idle. -/
theorem finished_env {x : State} {d : RefDev} (hs : Still x d) :
    (finished x).env = .reference { counted d with tcf := false } := by
  have h : sampled { x with eng := .waitTc } =
      { x with eng := .waitTc, regs := { x.regs with sr := d.sr }, env := .reference (counted d) } := by
    rw [sampled, readSr_still (x := { x with eng := .waitTc }) (d := d) hs.env hs.quiet hs.busy]
  simp only [finished, h, State.writeReg, RefDev.onWrite, onFcr_tcf]

theorem finished_cr (x : State) : (finished x).regs.cr = x.regs.cr := by
  simp [finished, sampled, readSr_regs]

theorem finished_trace (x : State) : (finished x).trace = x.trace := by simp [finished, sampled]

/-- From a device that has completed its operation, the end of transfer leaves a ready one. -/
theorem ends_ready {x : State} {d : RefDev} (hc : Calm x) (hs : Still x d) (ht : d.tcf = true) (hsm : d.smf = false)
    (hen : crEn x.regs.cr = true) (hab : crAbort x.regs.cr = false) (l : List Op) :
    Runs 5 (withTodo (endOfTransferOps ++ l) x) (withTodo l (finished x)) ∧
      Ready (finished x) { counted d with tcf := false } := by
  refine ⟨runs_finish hc hs ht l, hc.finished, finished_env hs, ?_, by rw [finished_cr]; exact hen,
    by rw [finished_cr]; exact hab⟩
  exact ready_iff.2 ⟨quiet_counted hs.quiet, hs.tef, hs.tof, rfl, hsm, hs.busy⟩

/-! ### `E_WRITE` (R134) -/

/-- What a completed operation answers: the state `y` after the steps, the device `e`. -/
structure Done (x y : State) (e : RefDev) : Prop where
  ready : Ready y e
  kept : Kept x y
  eng : y.eng = .idle
  desc : y.desc = none

theorem rest_nextIdx (x : State) (f : Bool) : Rest x (x.nextIdx f) := ⟨rfl, rfl, rfl, rfl⟩

theorem pushAll_kept (bytes : List Byte) (f : Bool) (x : State) :
    Kept x (pushAll f bytes x) ∧ Rest x (pushAll f bytes x) ∧ (pushAll f bytes x).regs.cr = x.regs.cr := by
  induction bytes generalizing f x with
  | nil => exact ⟨kept_nextIdx x f, rest_nextIdx x f, rfl⟩
  | cons b rest ih =>
    have h := ih false (pushByte f x b)
    exact ⟨(kept_pushByte f x b).trans h.1, (rest_pushByte f x b).trans h.2.1, h.2.2.trans (pushByte_rest f x b).2.2.2.2.1⟩

theorem pushAll_trace (bytes : List Byte) (f : Bool) (x : State) (l : List TraceEntry) (e : TraceEntry)
    (ht : x.trace = l ++ [e]) : (pushAll f bytes x).trace = l ++ [{ e with data := e.data ++ bytes }] := by
  induction bytes generalizing f x e with
  | nil => simp [pushAll, ht]
  | cons b rest ih =>
    rw [pushAll, ih false (pushByte f x b) { e with data := e.data ++ [b] } (by rw [pushByte_trace, ht, appendData_last])]
    simp

theorem complete_command_still {p : Params} {free : Nat → Byte} {op : Byte} {a : Word} {data : List Byte} {d : RefDev}
    (hd : d.ready = true) : let e := ran p free op a data d
    e.quiet = true ∧ e.tef = false ∧ e.tof = false ∧ e.tcf = true ∧ e.smf = false ∧ e.busy = false ∧
      e.chip = d.chip.command p free op a data := by
  obtain ⟨hq, h1, h2, h3, h4, h5⟩ := ready_iff.1 hd
  obtain ⟨k1, k2, k3, k4, k5, k6, k7, k8, k9⟩ := command_keeps p free op a data d
  refine ⟨?_, k1.trans h1, k2.trans h2, rfl, k4.trans h4, rfl, ?_⟩
  · show (RefDev.quiet _) = true
    unfold RefDev.quiet ran complete
    simp only [k8, k6]
    exact hq
  · rw [command_chip]; rfl

/-- `E_WRITE` of `bytes` on a ready device: the command runs on the chip with them. -/
theorem run_write {x : State} {d : RefDev} {t : Transaction} {bytes : List Byte} (h : Ready x d)
    (hd : x.desc = some (.transfer t)) (hok : descriptorOk (.transfer t) = true)
    (hlen : bytes.length = t.len.toNat)
    (hb : ∀ j (hj : j < bytes.length), bufOk x t.buf j = true ∧ bufByte x t.buf j = bytes[j]) (l : List Op) :
    ∃ k y e free, k ≤ 14 + 5 * bytes.length ∧ Runs k (withTodo (writeOps t ++ l) x) (withTodo l y) ∧ Done x y e ∧
      Rest x y ∧ y.regs.cr = x.regs.cr ∧ e.chip = d.chip.command x.params free t.hdr.instr t.hdr.addr bytes ∧
      y.trace = x.trace ++ [entryOf .eWrite t.hdr .indirectWrite t.len bytes] := by
  have h1 := h.idleSetup
  have k1 := kept_idleSetup x
  obtain ⟨n1, hn1, r2⟩ := runs_setup h1.calm .eWrite t.hdr .indirectWrite t.len (.writeLoop true :: endOfTransferOps ++ l)
  have r1 := runs_idleSetup h (setupOps .eWrite t.hdr .indirectWrite t.len ++ (.writeLoop true :: endOfTransferOps ++ l))
  obtain ⟨free, henv⟩ := setUp_env .eWrite t.hdr .indirectWrite t.len h1.env (by decide)
  rw [k1.params] at henv
  generalize hz : setUp .eWrite t.hdr .indirectWrite t.len (idleSetup x) = z at *
  have kz : Kept x z := k1.trans (hz ▸ kept_setUp _ _ _ _ _)
  have rz : Rest x z := (rest_idleSetup x).trans (hz ▸ rest_setUp _ _ _ _ _)
  have hcr1 : (idleSetup x).regs.cr = x.regs.cr := by rw [idleSetup_still h.still]
  have hcr : z.regs.cr = x.regs.cr := by rw [← hz, setUp_regs, ← hcr1]; rfl
  have htr : z.trace = x.trace ++ [entryOf .eWrite t.hdr .indirectWrite t.len []] := by
    rw [← hz, setUp_trace]; simp [idleSetup, sampled]
  have hdesc : z.desc = some (.transfer t) := by rw [← hz, (setUp_desc _ _ _ _ _).1, ← hd]; simp [idleSetup, sampled]
  have hidx : headIdx true z = 0 := rfl
  have cz := kz.calm h.calm
  have hll : z.latchedLen = t.len.toNat := by simp [State.latchedLen, hdesc]
  have hbuf : z.latchedBuf = t.buf := by simp [State.latchedBuf, hdesc]
  simp only [descriptorOk, Bool.and_eq_true, beq_iff_eq, decide_eq_decide] at hok
  have hdm : t.len = 0 ↔ t.hdr.dmode = .none := not_iff_not.1 hok.2
  have hcount := dataCount_framed t.hdr .indirectWrite t.len (idleSetup x).regs hdm
  have hops : writeOps t ++ l = startOps ++
      (setupOps .eWrite t.hdr .indirectWrite t.len ++ (.writeLoop true :: endOfTransferOps ++ l)) := by
    simp [writeOps]
  have hready1 := h1.dev
  obtain ⟨c1, c2, c3, c4, c5, c6, c7⟩ :=
    complete_command_still (p := x.params) (free := free) (op := t.hdr.instr) (a := t.hdr.addr) (data := []) hready1
  by_cases hne : bytes = []
  · -- no data: the command runs at once
    have hlen0 : t.len = 0 := BitVec.eq_of_toNat_eq (by rw [← hlen, hne]; rfl)
    have hdev : (counted d).onAr x.params free (framed t.hdr .indirectWrite t.len (idleSetup x).regs) =
        ran x.params free t.hdr.instr t.hdr.addr [] (counted d) := by
      unfold RefDev.onAr
      simp only [hcount]
      rw [show (framed t.hdr .indirectWrite t.len (idleSetup x).regs).ccr = packCcr t.hdr .indirectWrite from rfl,
        packCcr_instr, packCcr_fmode, if_pos rfl, if_pos (by rw [hlen0]; rfl)]
      rfl
    rw [hdev] at henv
    have sz : Still z (ran x.params free t.hdr.instr t.hdr.addr [] (counted d)) := ⟨henv, c1, c2, c3, c6⟩
    have r3 := runs_writeLoop_end (f := true) cz (by rw [hll, hlen0]; exact Nat.zero_le _) (endOfTransferOps ++ l)
    have cn := (kept_nextIdx z true).calm cz
    obtain ⟨r4, e4⟩ := ends_ready cn (sz.nextIdx true) c4 c5 (by show crEn z.regs.cr = true; rw [hcr]; exact h.en)
      (by show crAbort z.regs.cr = false; rw [hcr]; exact h.abort) l
    refine ⟨3 + (n1 + (1 + 5)), finished (z.nextIdx true), _, free, by omega, ?_,
      ⟨e4, kz.trans ((kept_nextIdx z true).trans (kept_finished _)), rfl, rfl⟩,
      rz.trans ((rest_nextIdx z true).trans (rest_finished _)), (finished_cr _).trans hcr, ?_, ?_⟩
    · rw [hops]
      exact r1.trans (r2.trans (r3.trans r4))
    · rw [hne]; exact c7
    · rw [finished_trace]
      show z.trace = _
      rw [htr, hne]
  · -- data: the command runs at the last byte
    have hpos : 0 < bytes.length := List.length_pos_iff.2 hne
    have hdev : (counted d).onAr x.params free (framed t.hdr .indirectWrite t.len (idleSetup x).regs) =
        setCur (.write t.hdr.instr t.hdr.addr bytes.length []) (counted d) := by
      unfold RefDev.onAr
      simp only [hcount]
      rw [show (framed t.hdr .indirectWrite t.len (idleSetup x).regs).ccr = packCcr t.hdr .indirectWrite from rfl,
        packCcr_instr, packCcr_fmode, if_pos rfl, if_neg (by omega), ← hlen]
      rfl
    rw [hdev] at henv
    obtain ⟨q1, q2, q3, q4, q5, q6⟩ := ready_iff.1 hready1
    have sz : Still z (setCur (.write t.hdr.instr t.hdr.addr bytes.length []) (counted d)) := ⟨henv, q1, q2, q3, rfl⟩
    obtain ⟨r3, free', henv3⟩ := runs_writeLoop bytes (f := true) cz sz hne rfl (by rw [hll, hidx, hlen]; simp)
      (by rw [hll]; exact t.len.isLt)
      (fun j hj => by
        rw [hbuf, hidx, bufOk_of kz, bufByte_of rz.hostMem rz.stg rz.cfgbuf]
        simpa using hb j hj) (endOfTransferOps ++ l)
    obtain ⟨kf, rf, crf⟩ := pushAll_kept bytes true z
    have htrf := pushAll_trace bytes true z _ _ htr
    generalize hw : pushAll true bytes z = w at *
    rw [List.nil_append, kz.params,
      show ({ setCur (.write t.hdr.instr t.hdr.addr bytes.length []) (counted d) with
        ns := (setCur (.write t.hdr.instr t.hdr.addr bytes.length []) (counted d)).ns + bytes.length } : RefDev) =
        setCur (.write t.hdr.instr t.hdr.addr bytes.length []) { d with ns := d.ns + 1 + bytes.length } from rfl,
      ran_setCur] at henv3
    have hrd : ({ d with ns := d.ns + 1 + bytes.length } : RefDev).ready = true := by
      have hd0 := ready_iff.1 h.dev
      refine ready_iff.2 ⟨?_, hd0.2⟩
      have := hd0.1
      simp only [RefDev.quiet, List.all_eq_true] at this ⊢
      exact fun i hi => decide_eq_true (le_trans (of_decide_eq_true (this i hi)) (by show d.ns ≤ d.ns + 1 + bytes.length; omega))
    obtain ⟨b1, b2, b3, b4, b5, b6, b7⟩ := complete_command_still (p := x.params) (free := free') (op := t.hdr.instr)
      (a := t.hdr.addr) (data := bytes) hrd
    have sw : Still w _ := ⟨henv3, b1, b2, b3, b6⟩
    obtain ⟨r4, e4⟩ := ends_ready (kf.calm cz) sw b4 b5 (by rw [crf, hcr]; exact h.en)
      (by rw [crf, hcr]; exact h.abort) l
    refine ⟨3 + (n1 + (5 * bytes.length + 1 + 5)), finished w, _, free', by omega, ?_,
      ⟨e4, (kz.trans kf).trans (kept_finished w), rfl, rfl⟩, (rz.trans rf).trans (rest_finished w),
      (finished_cr w).trans (crf.trans hcr), b7, ?_⟩
    · rw [hops]
      exact r1.trans (r2.trans (r3.trans r4))
    · rw [finished_trace, htrf]; rfl

/-! ### `E_READ` (R136) -/

/-- A byte taken: the index, the wait's sample, the read of DR, the write of the buffer. -/
def takeByte (f : Bool) (x : State) : State := stored (ready (x.nextIdx f)).popDr x.latchedBuf (headIdx f x).toNat

theorem popDr_read {x : State} {d : RefDev} {b : Byte} {q : List Byte} (he : x.env = .reference d)
    (hc : d.cur = .read (b :: q)) :
    x.popDr = { x with
      tmpByte := b, regs := { x.regs with dr := dataByte x.regs.dr b }, trace := appendData b x.trace
      env := .reference (setCur (.read q) d) } := by
  simp only [State.popDr, he, RefDev.popDr, hc]
  rfl

/-- Host memory after bytes are stored in a buffer from an index on. -/
def hostAfter (x : State) (b : BufRef) (i : Nat) (bytes : List Byte) : List Host.Cell :=
  match b with
  | .host a => writeCells hostDefault x.hostMem (a.toNat + i) bytes
  | .stg | .cfgbuf => x.hostMem

/-- The staging buffer after it. -/
def stgAfter (x : State) (b : BufRef) (i : Nat) (bytes : List Byte) : List Host.Cell :=
  match b with
  | .stg => writeCells stgDefault x.stg i bytes
  | .host _ | .cfgbuf => x.stg

/-- `CFGBUF` after it. -/
def cfgAfter (x : State) (b : BufRef) (bytes : List Byte) : Byte :=
  match b with
  | .cfgbuf => bytes.getLastD x.cfgbuf
  | .host _ | .stg => x.cfgbuf

/-- The buffers of `y` are those of `x` with bytes stored. -/
structure Filled (x y : State) (b : BufRef) (i : Nat) (bytes : List Byte) : Prop where
  hostMem : y.hostMem = hostAfter x b i bytes
  stg : y.stg = stgAfter x b i bytes
  cfgbuf : y.cfgbuf = cfgAfter x b bytes

theorem stored_kept (x : State) (b : BufRef) (i : Nat) : Kept x (stored x b i) := by
  cases b <;> constructor <;> rfl

theorem stored_rest (x : State) (b : BufRef) (i : Nat) :
    (stored x b i).env = x.env ∧ (stored x b i).desc = x.desc ∧ (stored x b i).trace = x.trace ∧
      (stored x b i).mmapActive = x.mmapActive ∧ (stored x b i).regs = x.regs := by
  cases b <;> exact ⟨rfl, rfl, rfl, rfl, rfl⟩

theorem stored_idx (x : State) (b : BufRef) (i : Nat) : (stored x b i).idx = x.idx := by cases b <;> rfl

/-- What one byte taken leaves. -/
theorem takeByte_facts {x : State} {d : RefDev} {b : Byte} {q : List Byte} (f : Bool) (hs : Still x d)
    (hc : d.cur = .read (b :: q)) :
    Kept x (takeByte f x) ∧ (takeByte f x).env = .reference (setCur (.read q) (counted d)) ∧
      (takeByte f x).desc = x.desc ∧ (takeByte f x).idx = headIdx f x ∧ (takeByte f x).trace = appendData b x.trace ∧
      (takeByte f x).mmapActive = x.mmapActive ∧ (takeByte f x).regs.cr = x.regs.cr ∧
      Filled x (takeByte f x) x.latchedBuf (headIdx f x).toNat [b] := by
  have hp := popDr_read (x := ready (x.nextIdx f)) (d := counted d) (b := b) (q := q) (by rw [ready_still (hs.nextIdx f)]) hc
  have hr := ready_rest (x.nextIdx f)
  have hst := stored_rest (ready (x.nextIdx f)).popDr x.latchedBuf (headIdx f x).toNat
  refine ⟨?_, ?_, ?_, ?_, ?_, ?_, ?_, ?_⟩
  · refine (kept_nextIdx x f).trans ((kept_ready _).trans (Kept.trans ?_ (stored_kept _ _ _)))
    rw [hp]; constructor <;> rfl
  · show (stored _ _ _).env = _
    rw [hst.1, hp]
  · show (stored _ _ _).desc = _
    rw [hst.2.1, hp]; exact hr.2.2.2.1
  · show (stored _ _ _).idx = _
    rw [stored_idx, hp]; exact hr.2.2.2.2.1
  · show (stored _ _ _).trace = _
    rw [hst.2.2.1, hp]; exact congrArg _ hr.2.2.2.2.2.1
  · show (stored _ _ _).mmapActive = _
    rw [hst.2.2.2.1, hp]; exact hr.2.2.2.2.2.2.1
  · show (stored _ _ _).regs.cr = _
    rw [hst.2.2.2.2, hp]; exact hr.2.2.2.2.2.2.2.1
  · rw [takeByte, hp]
    cases x.latchedBuf <;>
      refine ⟨?_, ?_, ?_⟩ <;> simp [stored, hostAfter, stgAfter, cfgAfter, writeCells, hr]

theorem headIdx_taken {f : Bool} {x : State} (h : (takeByte f x).idx = headIdx f x) :
    headIdx false (takeByte f x) = headIdx f x + 1 := by
  show (takeByte f x).idx + 1 = _
  rw [h]

theorem runs_takeByte {f : Bool} {x : State} {d : RefDev} (h : Calm x) (hs : Still x d) (hf : d.tcf = true)
    (hl : (headIdx f x).toNat < x.latchedLen) (hok : bufOk x x.latchedBuf (headIdx f x).toNat = true) (l : List Op) :
    Runs 5 (withTodo (.readLoop f :: l) x) (withTodo (.readLoop false :: l) (takeByte f x)) := by
  have hn := (kept_nextIdx x f).calm h
  have hr := (kept_ready _).calm hn
  have hpk : Kept (ready (x.nextIdx f)) (ready (x.nextIdx f)).popDr := by constructor <;> simp
  have head : Runs 1 (withTodo (.readLoop f :: l) x)
      (withTodo (.setEng .data :: .wait .fifo 0 :: .drRead :: .bufWrite :: .readLoop false :: l) (x.nextIdx f)) := by
    refine Runs.op rfl h.1 h.2 ?_
    have : ((withTodo l x).nextIdx f).idx.toNat < ((withTodo l x).nextIdx f).latchedLen := hl
    show Host.Outcome.next ((withTodo l x).readLoop f) = _
    simp only [State.readLoop, if_pos this]
    rfl
  have pop : Runs 1 (withTodo (.drRead :: .bufWrite :: .readLoop false :: l) (ready (x.nextIdx f)))
      (withTodo (.bufWrite :: .readLoop false :: l) (ready (x.nextIdx f)).popDr) := by
    refine runs_op hr ?_
    rw [seqOp_drRead]
    simp only [State.popDr, withTodo]
    cases (ready (x.nextIdx f)).env <;> rfl
  have store : Runs 1 (withTodo (.bufWrite :: .readLoop false :: l) (ready (x.nextIdx f)).popDr)
      (withTodo (.readLoop false :: l) (takeByte f x)) := by
    refine runs_op (hpk.calm hr) ?_
    have hi : (withTodo (.readLoop false :: l) (ready (x.nextIdx f)).popDr).idx = headIdx f x := by
      simp [withTodo, ready_rest, headIdx]
    have hbuf : (withTodo (.readLoop false :: l) (ready (x.nextIdx f)).popDr).latchedBuf = x.latchedBuf := by
      simp [withTodo, State.latchedBuf, ready_rest]
    show State.bufWrite _ _ _ = _
    rw [hi, hbuf, bufWrite_ok (by rw [← hok]; exact bufOk_of ((kept_nextIdx x f).trans ((kept_ready _).trans hpk)) _ _)]
    cases hb : x.latchedBuf <;> simp [stored, takeByte, withTodo, hb]
  exact head.trans ((runs_byteWait hn (hs.nextIdx f) (.inr hf) _).trans (pop.trans store))

theorem runs_readLoop_end {f : Bool} {x : State} (h : Calm x) (hl : x.latchedLen ≤ (headIdx f x).toNat) (l : List Op) :
    Runs 1 (withTodo (.readLoop f :: l) x) (withTodo l (x.nextIdx f)) := by
  refine runs_op h ?_
  have : ¬ ((withTodo l x).nextIdx f).idx.toNat < ((withTodo l x).nextIdx f).latchedLen := by
    show ¬ (headIdx f x).toNat < x.latchedLen
    omega
  show Host.Outcome.next ((withTodo l x).readLoop f) = _
  simp only [State.readLoop, if_neg this]
  rfl

theorem Filled.nil (x : State) (b : BufRef) (i : Nat) : Filled x x b i [] := by
  cases b <;> exact ⟨rfl, rfl, rfl⟩

theorem Filled.cons {x y z : State} {b : BufRef} {i : Nat} {c : Byte} {l : List Byte} (h : Filled x y b i [c])
    (g : Filled y z b (i + 1) l) : Filled x z b i (c :: l) := by
  cases b with
  | host a =>
    refine ⟨?_, g.stg.trans h.stg, g.cfgbuf.trans h.cfgbuf⟩
    rw [g.hostMem, hostAfter, h.hostMem]
    rfl
  | stg =>
    refine ⟨g.hostMem.trans h.hostMem, ?_, g.cfgbuf.trans h.cfgbuf⟩
    rw [g.stg, stgAfter, h.stg]
    rfl
  | cfgbuf =>
    refine ⟨g.hostMem.trans h.hostMem, g.stg.trans h.stg, ?_⟩
    rw [g.cfgbuf, cfgAfter, h.cfgbuf]
    cases l <;> rfl

theorem filled_nextIdx (x : State) (f : Bool) (b : BufRef) (i : Nat) : Filled x (x.nextIdx f) b i [] := by
  cases b <;> exact ⟨rfl, rfl, rfl⟩

/-- The byte loop of a read of the queue `q`. -/
theorem runs_readLoop (q : List Byte) {f : Bool} {x : State} {d : RefDev} (h : Calm x) (hs : Still x d) (ht : d.tcf = true)
    (hc : d.cur = .read q) (hlen : x.latchedLen = (headIdx f x).toNat + q.length) (hlt : x.latchedLen < 2 ^ 32)
    (hb : ∀ j, j < q.length → bufOk x x.latchedBuf ((headIdx f x).toNat + j) = true) (tr : List TraceEntry) (en : TraceEntry)
    (htr : x.trace = tr ++ [en]) (l : List Op) :
    ∃ y, Runs (5 * q.length + 1) (withTodo (.readLoop f :: l) x) (withTodo l y) ∧ Kept x y ∧
      y.env = .reference (setCur (.read []) { d with ns := d.ns + q.length }) ∧ y.mmapActive = x.mmapActive ∧
      y.regs.cr = x.regs.cr ∧ y.trace = tr ++ [{ en with data := en.data ++ q }] ∧
      Filled x y x.latchedBuf (headIdx f x).toNat q := by
  induction q generalizing f x d en with
  | nil =>
    refine ⟨x.nextIdx f, runs_readLoop_end h (by rw [hlen]; simp) l, kept_nextIdx x f, ?_, rfl, rfl, ?_, filled_nextIdx x f _ _⟩
    · show x.env = _
      rw [hs.env]
      exact congrArg _ (by cases d; simp_all [setCur])
    · show x.trace = _
      rw [htr]; simp
  | cons b rest ih =>
    have hl0 : (headIdx f x).toNat < x.latchedLen := by simp only [List.length_cons] at hlen; omega
    have hstep := runs_takeByte h hs ht hl0 (by simpa using hb 0 (by simp)) l
    obtain ⟨hk, henv, hdesc, hidx, htrace, hmm, hcr, hfill⟩ := takeByte_facts f hs hc
    have hbuf : (takeByte f x).latchedBuf = x.latchedBuf := by simp [State.latchedBuf, hdesc]
    have hll : (takeByte f x).latchedLen = x.latchedLen := by simp [State.latchedLen, hdesc]
    have hi : (headIdx false (takeByte f x)).toNat = (headIdx f x).toNat + 1 := by
      rw [headIdx_taken hidx, BitVec.toNat_add]
      exact Nat.mod_eq_of_lt (by simp; omega)
    have hs' : Still (takeByte f x) (setCur (.read rest) (counted d)) :=
      ⟨henv, quiet_counted hs.quiet, hs.tef, hs.tof, rfl⟩
    obtain ⟨y, hrun, ky, ey, my, cy, ty, fy⟩ := ih (f := false) (hk.calm h) hs' ht rfl (by rw [hll, hi, hlen]; simp; omega)
      (by rw [hll]; exact hlt)
      (fun j hj => by
        rw [hbuf, hi, bufOk_of hk, show (headIdx f x).toNat + 1 + j = (headIdx f x).toNat + (j + 1) by omega]
        exact hb (j + 1) (by simpa using hj))
      { en with data := en.data ++ [b] } (by rw [htrace, htr, appendData_last])
    refine ⟨y, ?_, hk.trans ky, ?_, my.trans hmm, cy.trans hcr, ?_, ?_⟩
    · have := hstep.trans hrun
      rw [show 5 + (5 * rest.length + 1) = 5 * (b :: rest).length + 1 by simp; omega] at this
      exact this
    · rw [ey]
      simp only [setCur, counted, List.length_cons, Nat.add_assoc, Nat.add_comm 1]
    · rw [ty]; simp
    · rw [hbuf, hi] at fy
      exact hfill.cons fy

/-- `E_READ` on a ready device: the response bytes fill the buffer. -/
theorem run_read {x : State} {d : RefDev} {t : Transaction} (h : Ready x d)
    (hd : x.desc = some (.transfer t)) (hok : descriptorOk (.transfer t) = true)
    (hb : ∀ j, j < t.len.toNat → bufOk x t.buf j = true) (l : List Op) :
    ∃ k y e free, k ≤ 14 + 5 * t.len.toNat ∧ Runs k (withTodo (readOps t ++ l) x) (withTodo l y) ∧ Done x y e ∧
      y.mmapActive = x.mmapActive ∧ y.regs.cr = x.regs.cr ∧
      e.chip = d.chip.command x.params free t.hdr.instr t.hdr.addr [] ∧
      Filled x y t.buf 0 (d.response x.params free t.hdr.instr t.hdr.addr t.len.toNat) ∧
      y.trace = x.trace ++ [entryOf .eRead t.hdr .indirectRead t.len
        (d.response x.params free t.hdr.instr t.hdr.addr t.len.toNat)] := by
  have h1 := h.idleSetup
  have k1 := kept_idleSetup x
  obtain ⟨n1, hn1, r2⟩ := runs_setup h1.calm .eRead t.hdr .indirectRead t.len (.readLoop true :: endOfTransferOps ++ l)
  have r1 := runs_idleSetup h (setupOps .eRead t.hdr .indirectRead t.len ++ (.readLoop true :: endOfTransferOps ++ l))
  obtain ⟨free, henv⟩ := setUp_env .eRead t.hdr .indirectRead t.len h1.env (by decide)
  rw [k1.params] at henv
  generalize hz : setUp .eRead t.hdr .indirectRead t.len (idleSetup x) = z at *
  have kz : Kept x z := k1.trans (hz ▸ kept_setUp _ _ _ _ _)
  have rz : Rest x z := (rest_idleSetup x).trans (hz ▸ rest_setUp _ _ _ _ _)
  have hcr1 : (idleSetup x).regs.cr = x.regs.cr := by rw [idleSetup_still h.still]
  have hcr : z.regs.cr = x.regs.cr := by rw [← hz, setUp_regs, ← hcr1]; rfl
  have htr : z.trace = x.trace ++ [entryOf .eRead t.hdr .indirectRead t.len []] := by
    rw [← hz, setUp_trace]; simp [idleSetup, sampled]
  have hdesc : z.desc = some (.transfer t) := by rw [← hz, (setUp_desc _ _ _ _ _).1, ← hd]; simp [idleSetup, sampled]
  have hidx : headIdx true z = 0 := rfl
  have cz := kz.calm h.calm
  have hll : z.latchedLen = t.len.toNat := by simp [State.latchedLen, hdesc]
  have hbuf : z.latchedBuf = t.buf := by simp [State.latchedBuf, hdesc]
  simp only [descriptorOk, Bool.and_eq_true, beq_iff_eq, decide_eq_decide] at hok
  have hcount := dataCount_framed t.hdr .indirectRead t.len (idleSetup x).regs (not_iff_not.1 hok.2)
  have hops : readOps t ++ l = startOps ++
      (setupOps .eRead t.hdr .indirectRead t.len ++ (.readLoop true :: endOfTransferOps ++ l)) := by
    simp [readOps]
  obtain ⟨c1, c2, c3, c4, c5, c6, c7⟩ := complete_command_still (p := x.params) (free := free) (op := t.hdr.instr)
    (a := t.hdr.addr) (data := []) h1.dev
  let q := d.response x.params free t.hdr.instr t.hdr.addr t.len.toNat
  have hql : q.length = t.len.toNat := by simp [q, RefDev.response]
  have hdev : (counted d).onAr x.params free (framed t.hdr .indirectRead t.len (idleSetup x).regs) =
      setCur (.read q) (ran x.params free t.hdr.instr t.hdr.addr [] (counted d)) := by
    unfold RefDev.onAr
    simp only [hcount]
    rw [show (framed t.hdr .indirectRead t.len (idleSetup x).regs).ccr = packCcr t.hdr .indirectRead from rfl,
      packCcr_instr, packCcr_fmode, if_neg (by decide), if_pos rfl]
    rfl
  rw [hdev] at henv
  generalize hdz : setCur (.read q) (ran x.params free t.hdr.instr t.hdr.addr [] (counted d)) = dz at henv
  have sz : Still z dz := ⟨henv, by rw [← hdz]; exact c1, by rw [← hdz]; exact c2, by rw [← hdz]; exact c3, by rw [← hdz]; rfl⟩
  obtain ⟨w, r3, kw, ew, mw, cw, tw, fw⟩ := runs_readLoop q (f := true) cz sz (by rw [← hdz]; exact c4) (by rw [← hdz]; rfl)
    (by rw [hll, hidx, hql]; simp) (by rw [hll]; exact t.len.isLt)
    (fun j hj => by rw [hbuf, hidx, bufOk_of kz]; simpa using hb j (by omega)) _ _ htr (endOfTransferOps ++ l)
  have sw : Still w (setCur (.read []) { dz with ns := dz.ns + q.length }) := by
    refine ⟨ew, ?_, sz.tef, sz.tof, rfl⟩
    have := sz.quiet
    simp only [RefDev.quiet, setCur, List.all_eq_true] at this ⊢
    exact fun i hi => decide_eq_true (le_trans (of_decide_eq_true (this i hi)) (Nat.le_add_right _ _))
  obtain ⟨r4, e4⟩ := ends_ready (kw.calm cz) sw (by rw [← hdz]; exact c4) (by rw [← hdz]; exact c5)
    (by rw [cw, hcr]; exact h.en) (by rw [cw, hcr]; exact h.abort) l
  refine ⟨3 + (n1 + (5 * q.length + 1 + 5)), finished w, _, free, by omega, ?_,
    ⟨e4, (kz.trans kw).trans (kept_finished w), rfl, rfl⟩,
    (rest_finished w).mmapActive.trans (mw.trans rz.mmapActive), (finished_cr w).trans (cw.trans hcr), ?_, ?_, ?_⟩
  · rw [hops]
    exact r1.trans (r2.trans (r3.trans r4))
  · rw [← hdz]; exact c7
  · rw [hbuf, hidx] at fw
    have hf := rest_finished w
    have e1 : hostAfter z t.buf 0 q = hostAfter x t.buf 0 q := by cases t.buf <;> simp [hostAfter, rz.hostMem]
    have e2 : stgAfter z t.buf 0 q = stgAfter x t.buf 0 q := by cases t.buf <;> simp [stgAfter, rz.stg]
    have e3 : cfgAfter z t.buf q = cfgAfter x t.buf q := by cases t.buf <;> simp [cfgAfter, rz.cfgbuf]
    exact ⟨by rw [hf.hostMem, ← e1]; exact fw.hostMem, by rw [hf.stg, ← e2]; exact fw.stg,
      by rw [hf.cfgbuf, ← e3]; exact fw.cfgbuf⟩
  · rw [finished_trace, tw]; rfl

end Sys2Proof.Laws
end

