-- ==== Sys2Proof/Laws/Polls.lean ====
section
/-! SUPPORT. The auto-poll and the memory-mapped entry on a ready reference device (40_engine.md R137, R138; 20_memory.md
R90). -/

namespace Sys2Proof.Laws

open Sys2Proof.Machine

/-! ### The read-modify-write of CR (10_state.md R42) -/

/-- `CR` after a read-modify-write on the reference device: the fields changed, ABORT read as 0. -/
def crAfter (e : CrEdit) (cr : Word) : Word := setBit (e.apply cr) 1 false

/-- The state after it, the device untouched. -/
def edited (e : CrEdit) (x : State) : State :=
  { x with tmpCr := x.regs.cr, regs := { x.regs with cr := crAfter e x.regs.cr } }

/-- An edit that neither disables the peripheral nor requests an abort. -/
def CrEditMild : CrEdit → Prop
  | .poll _ _ | .tcen _ => True
  | .abort | .disable => False

theorem crEn_apply {e : CrEdit} (h : CrEditMild e) (cr : Word) : crEn (e.apply cr) = crEn cr := by
  cases e with
  | poll a b => simp [CrEdit.apply, crEn, getElem_setBit]
  | tcen b => simp [CrEdit.apply, crEn, getElem_setBit]
  | abort => exact absurd h (by simp [CrEditMild])
  | disable => exact absurd h (by simp [CrEditMild])

theorem crAbort_apply {e : CrEdit} (h : CrEditMild e) (cr : Word) : crAbort (e.apply cr) = crAbort cr := by
  cases e with
  | poll a b => simp [CrEdit.apply, crAbort, getElem_setBit]
  | tcen b => simp [CrEdit.apply, crAbort, getElem_setBit]
  | abort => exact absurd h (by simp [CrEditMild])
  | disable => exact absurd h (by simp [CrEditMild])

theorem edited_eq {x : State} {d : RefDev} {e : CrEdit} (he : x.env = .reference d) (hen : crEn x.regs.cr = true)
    (hab : crAbort x.regs.cr = false) (hm : CrEditMild e) : x.readCr.writeCr e = edited e x := by
  have hdev : d.onCr (e.apply x.regs.cr) = d := by
    simp [RefDev.onCr, crAbort_apply hm, crEn_apply hm, hen, hab]
  simp [State.readCr, State.writeCr, State.putCr, he, edited, crAfter, hdev]

theorem kept_edited (e : CrEdit) (x : State) : Kept x (edited e x) := by constructor <;> rfl

theorem rest_edited (e : CrEdit) (x : State) : Rest x (edited e x) := ⟨rfl, rfl, rfl, rfl⟩

theorem crEn_crAfter {e : CrEdit} (h : CrEditMild e) (cr : Word) : crEn (crAfter e cr) = crEn cr := by
  rw [← crEn_apply h cr]; simp [crAfter, crEn, getElem_setBit]

theorem crAbort_crAfter (e : CrEdit) (cr : Word) : crAbort (crAfter e cr) = false := by
  simp [crAfter, crAbort, getElem_setBit]

theorem Ready.edited {x : State} {d : RefDev} {e : CrEdit} (h : Ready x d) (hm : CrEditMild e) : Ready (edited e x) d :=
  ⟨(kept_edited e x).calm h.calm, h.env, h.dev, (crEn_crAfter hm _).trans h.en, crAbort_crAfter e _⟩

theorem runs_edit {x : State} {d : RefDev} {e : CrEdit} (h : Ready x d) (hm : CrEditMild e) (l : List Op) :
    Runs 2 (withTodo (.readCr :: .writeCr e :: l) x) (withTodo l (edited e x)) := by
  have := (runs_readCr h.calm (.writeCr e :: l)).trans
    (runs_writeCr ((kept_readCr x).calm h.calm) e l)
  rw [edited_eq h.env h.en h.abort hm] at this
  exact this

/-- A write of a register that starts nothing leaves the device as it was. -/
theorem Ready.writeReg {x : State} {d : RefDev} (h : Ready x d) {w : WholeReg} (hw : ∀ free r v, d.onWrite x.params free r w v = d)
    (v : Word) : Ready (x.writeReg w v) d :=
  ⟨h.calm.writeReg w v, by simp [State.writeReg, h.env, hw], h.dev, by simpa using h.en, by simpa using h.abort⟩

theorem rest_writeReg (x : State) (w : WholeReg) (v : Word) : Rest x (x.writeReg w v) := by constructor <;> simp

/-! ### `E_POLL` (R137) -/

/-- The status byte of evaluation `i` of a poll that starts now (20_memory.md R90). -/
def statusAt (p : Params) (d : RefDev) (i : Nat) : Byte := RefDev.status p { d with bc := d.bc - i }

theorem budgetSpent_mono {p : Params} {i j : Nat} (hij : i ≤ j) (h : budgetSpent p j = false) : budgetSpent p i = false := by
  unfold budgetSpent at *
  cases hb : p.waitBudget with
  | none => rfl
  | some b =>
    simp only [hb, decide_eq_false_iff_not] at h ⊢
    omega

/-- The status-match wait whose evaluation `j` is the first to match. -/
theorem runs_pollWait {apms pmm : Bool} {n : Nat} (j : Nat) {x : State} {d : RefDev} {k : Nat} (h : Calm x)
    (he : x.env = .reference d) (hq : d.quiet = true) (h1 : d.tef = false) (h2 : d.tof = false) (h3 : d.smf = false)
    (hc : d.cur = .poll apms pmm n)
    (hno : ∀ i, i < j → pollMatches x.regs pmm n (statusAt x.params d i) = false)
    (hyes : pollMatches x.regs pmm n (statusAt x.params d j) = true) (hb : budgetSpent x.params (k + j) = false)
    (l : List Op) :
    ∃ y, Runs (j + 1) (withTodo (.wait .statusMatch k :: l) x) (withTodo l y) ∧ Kept x y ∧ Rest x y ∧
      y.regs.cr = x.regs.cr ∧ y.trace = x.trace ∧
      y.env = .reference { d with
        ns := d.ns + (j + 1), bc := d.bc - (j + 1), smf := true, cur := if apms then .none else d.cur } := by
  have hsm := sample_poll (p := x.params) (r := x.regs) hq hc
  have kx := kept_sampled x
  have rx := rest_sampled x
  have hreg : (sampled x).regs = { x.regs with sr := x.readSr.1 } := readSr_regs x
  induction j generalizing x d k with
  | zero =>
    have hm : pollMatches x.regs pmm n ((counted d).status x.params) = true := hyes
    have hev : (counted d).evaluate x.params x.regs apms pmm n =
        { d with ns := d.ns + 1, bc := d.bc - 1, smf := true, cur := if apms then .none else d.cur } := by
      simp only [RefDev.evaluate, hm, if_true]
      rfl
    have hv : x.readSr = ((counted d).evaluate x.params x.regs apms pmm n |>.sr,
        { x with
          regs := { x.regs with sr := ((counted d).evaluate x.params x.regs apms pmm n).sr }
          env := .reference ((counted d).evaluate x.params x.regs apms pmm n) }) := by
      simp only [State.readSr, he, hsm]
    refine ⟨sampled x, runs_wait_met h ?_ ?_ l, kx, rx, by rw [hreg], by simp [sampled], ?_⟩
    · rw [hv, hev]; simp [sampleError, RefDev.sr, h1, h2]
    · rw [hv, hev]; simp [WaitCond.holds, RefDev.sr]
    · rw [sampled, hv, hev]
  | succ j ih =>
    have hm : pollMatches x.regs pmm n ((counted d).status x.params) = false := hno 0 (by omega)
    have hev : (counted d).evaluate x.params x.regs apms pmm n = { d with ns := d.ns + 1, bc := d.bc - 1 } := by
      simp only [RefDev.evaluate, hm, Bool.false_eq_true, if_false]
      rfl
    have hv : x.readSr = ((counted d).evaluate x.params x.regs apms pmm n |>.sr,
        { x with
          regs := { x.regs with sr := ((counted d).evaluate x.params x.regs apms pmm n).sr }
          env := .reference ((counted d).evaluate x.params x.regs apms pmm n) }) := by
      simp only [State.readSr, he, hsm]
    have hstep : Runs 1 (withTodo (.wait .statusMatch k :: l) x) (withTodo (.wait .statusMatch (k + 1) :: l) (sampled x)) := by
      refine runs_wait_again h ?_ ?_ (budgetSpent_mono (by omega) hb) l
      · rw [hv, hev]; simp [sampleError, RefDev.sr, h1, h2]
      · rw [hv, hev]; simp [WaitCond.holds, RefDev.sr, h3]
    have henv : (sampled x).env = .reference { d with ns := d.ns + 1, bc := d.bc - 1 } := by rw [sampled, hv, hev]
    have hq' : RefDev.quiet { d with ns := d.ns + 1, bc := d.bc - 1 } = true := quiet_counted hq
    have hst : ∀ i, statusAt x.params { d with ns := d.ns + 1, bc := d.bc - 1 } i = statusAt x.params d (i + 1) := by
      intro i
      simp only [statusAt, RefDev.status, Nat.sub_sub, Nat.add_comm 1]
    have hp : ∀ s, pollMatches (sampled x).regs pmm n s = pollMatches x.regs pmm n s := by
      intro s; rw [hreg]; rfl
    have hc' : ({ d with ns := d.ns + 1, bc := d.bc - 1 } : RefDev).cur = .poll apms pmm n := hc
    obtain ⟨y, hrun, ky, ry, cy, ty, ey⟩ := ih (x := sampled x) (k := k + 1) (kx.calm h) henv hq' h1 h2 h3 hc'
      (fun i hi => by rw [hp, kx.params, hst]; exact hno (i + 1) (by omega))
      (by rw [hp, kx.params, hst]; exact hyes) (by rw [kx.params, show k + 1 + j = k + (j + 1) by omega]; exact hb)
      (sample_poll hq' hc') (kept_sampled _) (rest_sampled _) (readSr_regs _)
    refine ⟨y, ?_, kx.trans ky, rx.trans ry, by rw [cy, hreg], by rw [ty]; simp [sampled], ?_⟩
    · have := hstep.trans hrun
      rw [show 1 + (j + 1) = j + 1 + 1 by omega] at this
      exact this
    · rw [ey]
      simp only [Nat.sub_sub, Nat.add_assoc, Nat.add_comm 1]

/-- `E_POLL` on a ready device, matching first at evaluation `j`; without auto-stop
the device polls on. -/
theorem run_anyPoll {x : State} {d : RefDev} {pd : PollDescriptor} (j : Nat) (h : Ready x d)
    (hok : descriptorOk (.poll pd) = true)
    (hno : ∀ i, i < j → pollMatches { x.regs with psmar := pd.matchVal, psmkr := pd.mask } pd.pmm pd.sample
      (statusAt x.params d i) = false)
    (hyes : pollMatches { x.regs with psmar := pd.matchVal, psmkr := pd.mask } pd.pmm pd.sample
      (statusAt x.params d j) = true) (hb : budgetSpent x.params j = false) (l : List Op) :
    ∃ k y e, k ≤ 18 + j ∧ Runs k (withTodo (pollOps pd ++ l) x) (withTodo l y) ∧ Kept x y ∧ Rest x y ∧ y.eng = .idle ∧
      y.desc = none ∧ y.env = .reference e ∧ e.chip = { d.chip with bc := d.bc - (j + 1) } ∧
      (pd.apms = true → Ready y e) ∧ y.regs.cr = crAfter (.poll pd.pmm pd.apms) x.regs.cr ∧
      y.trace = x.trace ++ [entryOf .ePoll pd.hdr .autoPoll (BitVec.ofNat 32 pd.sample) []] ∧ e.smf = false ∧
      e.busy = !pd.apms := by
  have h1 := h.idleSetup
  have r1 := runs_idleSetup h (.writeReg .psmar pd.matchVal :: .writeReg .psmkr pd.mask ::
    .writeReg .pir (pd.interval.setWidth 32) :: .readCr :: .writeCr (.poll pd.pmm pd.apms) ::
    (setupOps .ePoll pd.hdr .autoPoll (BitVec.ofNat 32 pd.sample) ++
      (.setEng .waitSm :: .wait .statusMatch 0 :: .writeReg .fcr fcrCsmf :: .setEng .idle :: .dropDesc :: l)))
  have h2 := h1.writeReg (w := .psmar) (fun _ _ _ => rfl) pd.matchVal
  have h3 := h2.writeReg (w := .psmkr) (fun _ _ _ => rfl) pd.mask
  have h4 := h3.writeReg (w := .pir) (fun _ _ _ => rfl) (pd.interval.setWidth 32)
  have h5 := h4.edited (e := .poll pd.pmm pd.apms) trivial
  have r2 := runs_writeReg h1.calm .psmar pd.matchVal (.writeReg .psmkr pd.mask ::
    .writeReg .pir (pd.interval.setWidth 32) :: .readCr :: .writeCr (.poll pd.pmm pd.apms) ::
    (setupOps .ePoll pd.hdr .autoPoll (BitVec.ofNat 32 pd.sample) ++
      (.setEng .waitSm :: .wait .statusMatch 0 :: .writeReg .fcr fcrCsmf :: .setEng .idle :: .dropDesc :: l)))
  have r3 := runs_writeReg h2.calm .psmkr pd.mask (.writeReg .pir (pd.interval.setWidth 32) :: .readCr ::
    .writeCr (.poll pd.pmm pd.apms) :: (setupOps .ePoll pd.hdr .autoPoll (BitVec.ofNat 32 pd.sample) ++
      (.setEng .waitSm :: .wait .statusMatch 0 :: .writeReg .fcr fcrCsmf :: .setEng .idle :: .dropDesc :: l)))
  have r4 := runs_writeReg h3.calm .pir (pd.interval.setWidth 32) (.readCr :: .writeCr (.poll pd.pmm pd.apms) ::
    (setupOps .ePoll pd.hdr .autoPoll (BitVec.ofNat 32 pd.sample) ++
      (.setEng .waitSm :: .wait .statusMatch 0 :: .writeReg .fcr fcrCsmf :: .setEng .idle :: .dropDesc :: l)))
  have r5 := runs_edit h4 (e := .poll pd.pmm pd.apms) trivial
    (setupOps .ePoll pd.hdr .autoPoll (BitVec.ofNat 32 pd.sample) ++
      (.setEng .waitSm :: .wait .statusMatch 0 :: .writeReg .fcr fcrCsmf :: .setEng .idle :: .dropDesc :: l))
  have hbase : ∀ w, w = edited (.poll pd.pmm pd.apms) ((((idleSetup x).writeReg .psmar pd.matchVal).writeReg .psmkr
      pd.mask).writeReg .pir (pd.interval.setWidth 32)) →
      w.trace = x.trace ∧ w.regs.psmar = pd.matchVal ∧ w.regs.psmkr = pd.mask ∧
        w.regs.cr = crAfter (.poll pd.pmm pd.apms) x.regs.cr := by
    rintro w rfl
    refine ⟨by simp [edited, idleSetup, sampled], by simp [edited, Regs.write], by simp [edited, Regs.write], ?_⟩
    simp [edited, idleSetup_still h.still]
  generalize hw : edited (.poll pd.pmm pd.apms) ((((idleSetup x).writeReg .psmar pd.matchVal).writeReg .psmkr
      pd.mask).writeReg .pir (pd.interval.setWidth 32)) = w at *
  obtain ⟨tw, ma, mk, crw⟩ := hbase w rfl
  have kw : Kept x w := hw ▸ ((kept_idleSetup x).trans <| (kept_writeReg _ _ _).trans <| (kept_writeReg _ _ _).trans <|
    (kept_writeReg _ _ _).trans (kept_edited _ _))
  have rw' : Rest x w := hw ▸ ((rest_idleSetup x).trans <| (rest_writeReg _ _ _).trans <| (rest_writeReg _ _ _).trans <|
    (rest_writeReg _ _ _).trans (rest_edited _ _))
  simp only [descriptorOk, Bool.and_eq_true, decide_eq_true_eq] at hok
  obtain ⟨⟨⟨-, hdm⟩, hs1⟩, hs4⟩ := hok
  have hsn : BitVec.ofNat 32 pd.sample ≠ 0 := by
    intro h0
    have := congrArg BitVec.toNat h0
    simp at this
    omega
  obtain ⟨n1, hn1, r6⟩ := runs_setup h5.calm .ePoll pd.hdr .autoPoll (BitVec.ofNat 32 pd.sample)
    (.setEng .waitSm :: .wait .statusMatch 0 :: .writeReg .fcr fcrCsmf :: .setEng .idle :: .dropDesc :: l)
  obtain ⟨free, henv⟩ := setUp_env .ePoll pd.hdr .autoPoll (BitVec.ofNat 32 pd.sample) h5.env (by decide)
  have hcount := dataCount_framed pd.hdr .autoPoll (BitVec.ofNat 32 pd.sample) w.regs
    ⟨fun h0 => absurd h0 hsn, fun h0 => absurd h0 hdm⟩
  have hsmp : (BitVec.ofNat 32 pd.sample).toNat = pd.sample := by simp only [BitVec.toNat_ofNat]; omega
  have hapms : crApms w.regs.cr = pd.apms := by
    rw [crw]; simp [crAfter, crApms, CrEdit.apply, getElem_setBit]
  have hpmm : crPmm w.regs.cr = pd.pmm := by
    rw [crw]; simp [crAfter, crPmm, CrEdit.apply, getElem_setBit]
  have hdev : (counted d).onAr w.params free (framed pd.hdr .autoPoll (BitVec.ofNat 32 pd.sample) w.regs) =
      setCur (.poll pd.apms pd.pmm pd.sample) (counted d) := by
    unfold RefDev.onAr
    simp only [hcount, hsmp]
    rw [show (framed pd.hdr .autoPoll (BitVec.ofNat 32 pd.sample) w.regs).ccr = packCcr pd.hdr .autoPoll from rfl,
      packCcr_fmode, if_neg (by decide), if_neg (by decide), if_pos rfl,
      show (framed pd.hdr .autoPoll (BitVec.ofNat 32 pd.sample) w.regs).cr = w.regs.cr from rfl, hapms, hpmm]
    rfl
  rw [hdev] at henv
  have ztr := setUp_trace .ePoll pd.hdr .autoPoll (BitVec.ofNat 32 pd.sample) w
  have zrg := setUp_regs .ePoll pd.hdr .autoPoll (BitVec.ofNat 32 pd.sample) w
  have kz := kept_setUp .ePoll pd.hdr .autoPoll (BitVec.ofNat 32 pd.sample) w
  have rz := rest_setUp .ePoll pd.hdr .autoPoll (BitVec.ofNat 32 pd.sample) w
  generalize hz : setUp .ePoll pd.hdr .autoPoll (BitVec.ofNat 32 pd.sample) w = z at *
  have cz : Calm z := kz.calm h5.calm
  obtain ⟨q1, q2, q3, q4, q5, q6⟩ := ready_iff.1 h1.dev
  have hpm : ∀ s, pollMatches ({ z with eng := .waitSm } : State).regs pd.pmm pd.sample s =
      pollMatches { x.regs with psmar := pd.matchVal, psmkr := pd.mask } pd.pmm pd.sample s := by
    intro s
    show pollMatches z.regs pd.pmm pd.sample s = _
    rw [zrg]
    simp only [pollMatches, framed, ma, mk]
  have hpar : z.params = x.params := kz.params.trans kw.params
  obtain ⟨v, r8, kv, rv, cv, tv, ev⟩ := runs_pollWait (x := { z with eng := .waitSm })
    (d := setCur (.poll pd.apms pd.pmm pd.sample) (counted d)) (k := 0) j (cz.of rfl rfl) henv q1 q2 q3 q5 rfl
    (fun i hi => by rw [hpm, hpar]; exact hno i hi) (by rw [hpm, hpar]; exact hyes)
    (by rw [Nat.zero_add, hpar]; exact hb) (.writeReg .fcr fcrCsmf :: .setEng .idle :: .dropDesc :: l)
  have kzv : Kept z v := Kept.trans (by constructor <;> rfl) kv
  have cv' := kzv.calm cz
  have r9 := (runs_writeReg cv' .fcr fcrCsmf (.setEng .idle :: .dropDesc :: l)).trans <|
    (runs_setEng (cv'.writeReg .fcr fcrCsmf) .idle _).trans
      (runs_dropDesc (x := { v.writeReg .fcr fcrCsmf with eng := .idle }) ((cv'.writeReg .fcr fcrCsmf).of rfl rfl) l)
  refine ⟨3 + (1 + (1 + (1 + (2 + (n1 + (1 + (j + 1 + (1 + (1 + 1))))))))), { v.writeReg .fcr fcrCsmf with eng := .idle, desc := none, cfgSaved := none },
    { d with
      ns := d.ns + 1 + (j + 1), bc := d.bc - (j + 1), smf := false
      cur := if pd.apms then .none else .poll pd.apms pd.pmm pd.sample },
    by omega, ?_, ?_, ?_, rfl, rfl, ?_, ?_, ?_, ?_, ?_, rfl, ?_⟩
  · have hops : pollOps pd ++ l = startOps ++ .writeReg .psmar pd.matchVal ::
        .writeReg .psmkr pd.mask :: .writeReg .pir (pd.interval.setWidth 32) :: .readCr ::
        .writeCr (.poll pd.pmm pd.apms) :: (setupOps .ePoll pd.hdr .autoPoll (BitVec.ofNat 32 pd.sample) ++
          (.setEng .waitSm :: .wait .statusMatch 0 :: .writeReg .fcr fcrCsmf :: .setEng .idle :: .dropDesc :: l)) := by
      simp [pollOps]
    rw [hops]
    exact r1.trans <| r2.trans <| r3.trans <| r4.trans <| r5.trans <| r6.trans <|
      (runs_setEng cz .waitSm _).trans (r8.trans r9)
  · exact kw.trans <| kz.trans <| kzv.trans <| (kept_writeReg v _ _).trans (by constructor <;> rfl)
  · have hzv : Rest z v := ⟨rv.hostMem, rv.stg, rv.cfgbuf, rv.mmapActive⟩
    have hv : Rest v { v.writeReg .fcr fcrCsmf with eng := .idle, desc := none, cfgSaved := none } :=
      (rest_writeReg v .fcr fcrCsmf).trans ⟨rfl, rfl, rfl, rfl⟩
    exact rw'.trans (rz.trans (hzv.trans hv))
  · show (v.writeReg .fcr fcrCsmf).env = _
    simp only [State.writeReg, ev, RefDev.onWrite, onFcr_smf]
    rfl
  · rfl
  · intro ha
    refine ⟨⟨?_, ?_⟩, ?_, ?_, ?_, ?_⟩
    · exact ((cv'.writeReg _ _).of (y := { v.writeReg .fcr fcrCsmf with eng := .idle, desc := none, cfgSaved := none }) rfl rfl).1
    · exact ((cv'.writeReg _ _).of (y := { v.writeReg .fcr fcrCsmf with eng := .idle, desc := none, cfgSaved := none }) rfl rfl).2
    · show (v.writeReg .fcr fcrCsmf).env = _
      simp only [State.writeReg, ev, RefDev.onWrite, onFcr_smf]
      rfl
    · refine ready_iff.2 ⟨?_, q2, q3, q4, rfl, by simp [ha, RefDev.busy]⟩
      have := (ready_iff.1 h.dev).1
      simp only [RefDev.quiet, List.all_eq_true] at this ⊢
      exact fun i hi => decide_eq_true (le_trans (of_decide_eq_true (this i hi)) (by show d.ns ≤ _; omega))
    · show crEn (v.writeReg .fcr fcrCsmf).regs.cr = true
      rw [writeReg_regs, regs_write_cr, cv]
      show crEn z.regs.cr = true
      rw [zrg]; exact h5.en
    · show crAbort (v.writeReg .fcr fcrCsmf).regs.cr = false
      rw [writeReg_regs, regs_write_cr, cv]
      show crAbort z.regs.cr = false
      rw [zrg]; exact h5.abort
  · show (v.writeReg .fcr fcrCsmf).regs.cr = _
    rw [writeReg_regs, regs_write_cr, cv]
    show z.regs.cr = _
    rw [zrg]; exact crw
  · show (v.writeReg .fcr fcrCsmf).trace = _
    rw [writeReg_trace, tv]
    show z.trace = _
    rw [ztr, tw]
  · cases ha : pd.apms <;> simp [RefDev.busy]

/-- `E_POLL` on a ready device, matching first at evaluation `j`. -/
theorem run_poll {x : State} {d : RefDev} {pd : PollDescriptor} (j : Nat) (h : Ready x d)
    (hok : descriptorOk (.poll pd) = true)
    (hno : ∀ i, i < j → pollMatches { x.regs with psmar := pd.matchVal, psmkr := pd.mask } pd.pmm pd.sample
      (statusAt x.params d i) = false)
    (hyes : pollMatches { x.regs with psmar := pd.matchVal, psmkr := pd.mask } pd.pmm pd.sample
      (statusAt x.params d j) = true) (hb : budgetSpent x.params j = false) (l : List Op) :
    ∃ k y e, k ≤ 18 + j ∧ Runs k (withTodo (pollOps pd ++ l) x) (withTodo l y) ∧ Kept x y ∧ Rest x y ∧ y.eng = .idle ∧
      y.desc = none ∧ y.env = .reference e ∧ e.chip = { d.chip with bc := d.bc - (j + 1) } ∧
      (pd.apms = true → Ready y e) ∧ y.regs.cr = crAfter (.poll pd.pmm pd.apms) x.regs.cr ∧
      y.trace = x.trace ++ [entryOf .ePoll pd.hdr .autoPoll (BitVec.ofNat 32 pd.sample) []] := by
  obtain ⟨k, y, e, a1, a2, a3, a4, a5, a6, a7, a8, a9, a10, a11, -⟩ := run_anyPoll j h hok hno hyes hb l
  exact ⟨k, y, e, a1, a2, a3, a4, a5, a6, a7, a8, a9, a10, a11⟩

/-! ### `E_MMAP` (R138) -/

/-- The state after the last steps of `E_MMAP`. -/
def mapped (e : TraceEntry) (v : State) : State :=
  { v with trace := v.trace ++ [e], mmapActive := true, eng := .idle, desc := none, cfgSaved := none }

theorem runs_mapEnd {v : State} (c : Calm v) (e : TraceEntry) (l : List Op) :
    Runs 4 (withTodo (.emit e :: .setMmap true :: .setEng .idle :: .dropDesc :: l) v) (withTodo l (mapped e v)) :=
  (runs_emit c e _).trans <|
    (runs_setMmap (x := { v with trace := v.trace ++ [e] }) (c.of rfl rfl) true _).trans <|
      (runs_setEng (x := { v with trace := v.trace ++ [e], mmapActive := true }) (c.of rfl rfl) .idle _).trans <|
        runs_dropDesc (x := { v with trace := v.trace ++ [e], mmapActive := true, eng := .idle }) (c.of rfl rfl) l

/-- `E_MMAP` on a ready device: the device is mapped, and `mmap_active` is 1. -/
theorem run_map {x : State} {d : RefDev} {m : MemoryMapDescriptor} (h : Ready x d) (l : List Op) :
    ∃ y, Runs 12 (withTodo (mapOps m ++ l) x) (withTodo l y) ∧ Kept x y ∧ y.hostMem = x.hostMem ∧ y.stg = x.stg ∧
      y.cfgbuf = x.cfgbuf ∧ y.mmapActive = true ∧ y.eng = .idle ∧ y.desc = none ∧
      y.env = .reference { d with ns := d.ns + 1, cur := .mapped } ∧ y.regs.cr = crAfter (.tcen m.tcen) x.regs.cr ∧
      y.regs.lptr = m.period.setWidth 32 ∧ y.regs.abr = m.hdr.alt ∧ y.regs.ccr = packCcr m.hdr .memoryMapped ∧
      y.regs.dlr = x.regs.dlr ∧ y.regs.ar = x.regs.ar ∧ y.trace = x.trace ++ [mapEntry m] := by
  have h1 := h.idleSetup
  have h2 := h1.writeReg (w := .lptr) (fun _ _ _ => rfl) (m.period.setWidth 32)
  have h3 := h2.edited (e := .tcen m.tcen) trivial
  have h4 := h3.writeReg (w := .abr) (fun _ _ _ => rfl) m.hdr.alt
  have c5 := h4.calm.writeReg .ccr (packCcr m.hdr .memoryMapped)
  have r := (runs_idleSetup h _).trans <| (runs_writeReg h1.calm .lptr (m.period.setWidth 32) _).trans <|
    (runs_edit h2 (e := .tcen m.tcen) trivial _).trans <| (runs_writeReg h3.calm .abr m.hdr.alt _).trans <|
      (runs_writeReg h4.calm .ccr (packCcr m.hdr .memoryMapped) _).trans (runs_mapEnd c5 (mapEntry m) l)
  refine ⟨_, r, ?_, ?_, ?_, ?_, rfl, rfl, rfl, ?_, ?_, ?_, ?_, ?_, ?_, ?_, ?_⟩
  · refine (kept_idleSetup x).trans <| (kept_writeReg _ .lptr (m.period.setWidth 32)).trans <|
      (kept_edited (.tcen m.tcen) _).trans <| (kept_writeReg _ .abr m.hdr.alt).trans <|
        (kept_writeReg _ .ccr (packCcr m.hdr .memoryMapped)).trans ?_
    constructor <;> rfl
  · simp [mapped, edited, idleSetup, sampled]
  · simp [mapped, edited, idleSetup, sampled]
  · simp [mapped, edited, idleSetup, sampled]
  · show (State.writeReg _ .ccr (packCcr m.hdr .memoryMapped)).env = _
    rw [State.writeReg, h4.env]
    simp only [RefDev.onWrite, RefDev.onCcr, Regs.write, packCcr_fmode]
    rfl
  · simp [mapped, edited, idleSetup_still h.still]
  · simp [mapped, edited, Regs.write]
  · simp [mapped, edited, Regs.write]
  · simp [mapped, edited, Regs.write]
  · simp [mapped, edited, Regs.write, idleSetup_still h.still]
  · simp [mapped, edited, Regs.write, idleSetup_still h.still]
  · simp [mapped, edited, idleSetup, sampled]

end Sys2Proof.Laws
end

