-- ==== Sys2Proof/Laws/Abort.lean ====
section
/-! SUPPORT. `E_ABORT` on the reference device (40_engine.md R140, R141; 20_memory.md R92). -/

namespace Sys2Proof.Laws

open Sys2Proof.Machine

/-- A sample that shows TCF or SMF is acknowledged, and the wait goes on. -/
theorem runs_abortWait_ack {x : State} {k : Nat} (h : Calm x) (herr : sampleError x.readSr.1 = none)
    (hc : abortClear x.readSr.1 ≠ 0) (hb : budgetSpent x.params (k + 1) = false) (l : List Op) :
    Runs 2 (withTodo (.abortWait k :: l) x)
      (withTodo (.abortWait (k + 1) :: l) ((sampled x).writeReg .fcr (abortClear x.readSr.1))) := by
  have hp : budgetSpent (withTodo l x.readSr.2).params (k + 1) = false := by rw [← hb]; simp [withTodo]
  have r1 : Runs 1 (withTodo (.abortWait k :: l) x)
      (withTodo (.writeReg .fcr (abortClear x.readSr.1) :: .abortWait (k + 1) :: l) (sampled x)) := by
    have ho : seqOp (.abortWait k) (withTodo l x) =
        .next (withTodo (.writeReg .fcr (abortClear x.readSr.1) :: .abortWait (k + 1) :: l) (sampled x)) := by
      simp only [seqOp, abortSample_eq, State.onAbortWait, readSr_withTodo, herr, hc, State.sampleAgain, hp, Bool.false_eq_true, if_false, ne_eq,
        not_false_eq_true, if_true]
      rfl
    exact Runs.op rfl h.1 h.2 ho
  exact r1.trans (runs_writeReg h.sampled _ _ _)

/-- A sample that shows none of BUSY, TCF and SMF ends the wait. -/
theorem runs_abortWait_done {x : State} {k : Nat} (h : Calm x) (herr : sampleError x.readSr.1 = none)
    (hc : abortClear x.readSr.1 = 0) (hb : srBusy x.readSr.1 = false) (l : List Op) :
    Runs 1 (withTodo (.abortWait k :: l) x) (withTodo l (sampled x)) := by
  refine runs_op h ?_
  simp only [seqOp, abortSample_eq, State.onAbortWait, readSr_withTodo, herr, hc, hb, Bool.false_eq_true, if_false, ne_eq, not_true_eq_false]
  rfl

/-- The device once `CR.ABORT` is set. -/
def aborted (d : RefDev) : RefDev := { d with cur := .none, tcf := true }

/-- The state once ABORT is requested and `mmap_active` is 0. -/
def aborting (d : RefDev) (x : State) : State :=
  { x with
    tmpCr := x.regs.cr, regs := { x.regs with cr := crAfter .abort x.regs.cr }, env := .reference (aborted d)
    mmapActive := false, eng := .abortWait }

theorem kept_aborting (d : RefDev) (x : State) : Kept x (aborting d x) := by constructor <;> rfl

theorem runs_aborting {x : State} {d : RefDev} (h : Calm x) (he : x.env = .reference d) (hen : crEn x.regs.cr = true)
    (l : List Op) :
    Runs 4 (withTodo (.readCr :: .writeCr .abort :: .setMmap false :: .setEng .abortWait :: l) x)
      (withTodo l (aborting d x)) := by
  have c1 := (kept_readCr x).calm h
  have c2 := (kept_writeCr _ .abort).calm c1
  have r := (runs_readCr h _).trans <| (runs_writeCr c1 .abort _).trans <| (runs_setMmap c2 false _).trans
    (runs_setEng (x := { x.readCr.writeCr .abort with mmapActive := false }) c2 .abortWait l)
  have hd : d.onCr (CrEdit.abort.apply x.regs.cr) = aborted d := by
    have ha : crAbort (CrEdit.abort.apply x.regs.cr) = true := by simp [crAbort, CrEdit.apply, getElem_setBit]
    have hn : crEn (CrEdit.abort.apply x.regs.cr) = true := by simpa [crEn, CrEdit.apply, getElem_setBit] using hen
    simp [RefDev.onCr, ha, hn, aborted]
  have hx : x.readCr.writeCr .abort =
      { x with
        tmpCr := x.regs.cr, regs := { x.regs with cr := crAfter .abort x.regs.cr }, env := .reference (aborted d) } := by
    simp [State.readCr, State.writeCr, State.putCr, he, hd, crAfter]
  rw [hx] at r
  exact r

theorem srWord_flags (a b c d e f : Bool) : srBusy (srWord a b c d e f) = f ∧
    (abortClear (srWord a b c d e f) = 0 ↔ b = false ∧ d = false) ∧
    (abortClear (srWord a b c d e f)).getLsbD 1 = b ∧ (abortClear (srWord a b c d e f)).getLsbD 3 = d ∧
    (abortClear (srWord a b c d e f)).getLsbD 0 = false ∧ (abortClear (srWord a b c d e f)).getLsbD 4 = false := by
  revert a b c d e f; decide

/-- `E_ABORT` on a device without an error flag: whatever ran is dropped, no flag is left. -/
theorem run_abort {x : State} {d : RefDev} (h : Calm x) (he : x.env = .reference d) (hq : d.quiet = true)
    (h1 : d.tef = false) (h2 : d.tof = false) (hen : crEn x.regs.cr = true) (hb : budgetSpent x.params 1 = false)
    (l : List Op) :
    ∃ y e, Runs 8 (withTodo (abortOps ++ l) x) (withTodo l y) ∧ Kept x y ∧ y.hostMem = x.hostMem ∧ y.stg = x.stg ∧
      y.cfgbuf = x.cfgbuf ∧ y.mmapActive = false ∧ y.trace = x.trace ∧ y.regs.cr = crAfter .abort x.regs.cr ∧
      y.env = .reference e ∧ e.ready = true ∧ e.cur = .none ∧ e.chip = d.chip := by
  have r0 := runs_aborting h he hen (.abortWait 0 :: .setEng .idle :: l)
  have kx := kept_aborting d x
  have cx := kx.calm h
  have ex : (aborting d x).env = .reference (aborted d) := rfl
  have v0 := readSr_still ex (d := aborted d) hq rfl
  have f0 := srWord_flags d.tef true (aborted d).ftf d.smf d.tof (aborted d).busy
  have s0 : (aborting d x).readSr.1 = srWord d.tef true (aborted d).ftf d.smf d.tof (aborted d).busy := by rw [v0]; rfl
  have e0 : sampleError (aborting d x).readSr.1 = none := by
    rw [v0]; simp [sampleError, RefDev.sr, aborted, h1, h2]
  have r1 := runs_abortWait_ack cx e0 (by rw [s0, Ne, f0.2.1]; simp) hb (.setEng .idle :: l)
  obtain ⟨-, -, b1, b3, b0, b4⟩ := f0
  rw [← s0] at b1 b3 b0 b4
  have hdev : ((sampled (aborting d x)).writeReg .fcr (abortClear (aborting d x).readSr.1)).env =
      .reference { d with cur := .none, ns := d.ns + 1, tcf := false, smf := false } := by
    simp only [State.writeReg, sampled, v0, RefDev.onWrite, RefDev.onFcr]
    rw [v0] at b1 b3 b0 b4
    simp only at b1 b3 b0 b4
    rw [b1, b3, b0, b4]
    simp [aborted, counted]
  have kz : Kept (aborting d x) ((sampled (aborting d x)).writeReg .fcr (abortClear (aborting d x).readSr.1)) :=
    (kept_sampled _).trans (kept_writeReg _ _ _)
  have rz : Rest (aborting d x) ((sampled (aborting d x)).writeReg .fcr (abortClear (aborting d x).readSr.1)) :=
    (rest_sampled _).trans (rest_writeReg _ _ _)
  have tz : ((sampled (aborting d x)).writeReg .fcr (abortClear (aborting d x).readSr.1)).trace = x.trace := by
    simp [sampled, aborting]
  have crz : ((sampled (aborting d x)).writeReg .fcr (abortClear (aborting d x).readSr.1)).regs.cr =
      crAfter .abort x.regs.cr := by
    simp [sampled, readSr_regs, aborting]
  generalize (sampled (aborting d x)).writeReg .fcr (abortClear (aborting d x).readSr.1) = z at *
  have cz := kz.calm cx
  have hq1 : RefDev.quiet { d with cur := .none, ns := d.ns + 1, tcf := false, smf := false } = true := quiet_counted hq
  have v1 := readSr_still hdev hq1 rfl
  have f1 := srWord_flags d.tef false false false d.tof false
  have s1 : z.readSr.1 = srWord d.tef false false false d.tof false := by rw [v1]; rfl
  have r2 := runs_abortWait_done (k := 1) cz (by rw [v1]; simp [sampleError, RefDev.sr, h1, h2])
    (by rw [s1, f1.2.1]; simp) (by rw [s1, f1.1]) (.setEng .idle :: l)
  have r3 := runs_setEng cz.sampled .idle l
  refine ⟨_, { d with cur := .none, ns := d.ns + 1 + 1, tcf := false, smf := false }, r0.trans (r1.trans (r2.trans r3)), ?_, ?_, ?_,
    ?_, ?_, ?_, ?_, ?_, ?_, rfl, rfl⟩
  · exact kx.trans <| kz.trans <| (kept_sampled z).trans (by constructor <;> rfl)
  · exact (rest_sampled z).hostMem.trans rz.hostMem
  · exact (rest_sampled z).stg.trans rz.stg
  · exact (rest_sampled z).cfgbuf.trans rz.cfgbuf
  · exact (rest_sampled z).mmapActive.trans rz.mmapActive
  · show (sampled z).trace = _
    rw [← tz]; simp [sampled]
  · show (sampled z).regs.cr = _
    rw [← crz]; simp [sampled, readSr_regs]
  · show (sampled z).env = _
    rw [sampled, v1]; rfl
  · exact ready_iff.2 ⟨quiet_counted hq1, h1, h2, rfl, rfl, rfl⟩

end Sys2Proof.Laws
end

