-- ==== Sys2Proof/Laws/Burst.lean ====
section
/-! SUPPORT. The burst is no part of what a step does: a step of a state with another burst is the same step (log 1). -/

namespace Sys2Proof.Laws

open Sys2Proof.Machine

/-- The state with another burst. -/
def withBurst (b : Nat) (s : State) : State := { s with burst := b }

@[simp] theorem withBurst_self (s : State) : withBurst s.burst s = s := rfl

@[simp] theorem withBurst_withBurst (a b : Nat) (s : State) : withBurst a (withBurst b s) = withBurst a s := rfl

/-- An outcome with another burst in its next state. -/
def outBurst (b : Nat) (o : Out) : Out := andThen o fun t => .next (withBurst b t)

theorem outBurst_if (b : Nat) {c : Prop} [Decidable c] (x y : Out) :
    outBurst b (if c then x else y) = if c then outBurst b x else outBurst b y := by split <;> rfl

theorem withBurst_if (b : Nat) {c : Prop} [Decidable c] (x y : State) :
    withBurst b (if c then x else y) = if c then withBurst b x else withBurst b y := by split <;> rfl

section

variable (b : Nat) (s : State)

theorem burst_engine {s' : State} (hs : s' = withBurst b s) (D : Descriptor) (ops : List Op) :
    s'.startEngine D ops = outBurst b (s.startEngine D ops) := by
  subst hs
  show (match firstFault (s.guardChecks (!descriptorOk D)) with | some f => _ | none => _) = _
  rw [State.startEngine]
  cases firstFault (s.guardChecks (!descriptorOk D)) <;> rfl

theorem burst_raw (i : Instr) (D : Descriptor) (ops : List Op) :
    (withBurst b s).startRaw i D ops = outBurst b (s.startRaw i D ops) := by
  show (match firstFault (s.guardChecks (!descriptorOk D)) with | some f => _ | none => _) = _
  rw [State.startRaw]
  cases firstFault (s.guardChecks (!descriptorOk D)) <;> rfl

theorem burst_flash {l' l : List (Bool × FaultReason)} {t' t : State} (hl : l' = l) (ht : t' = withBurst b t) :
    (withBurst b s).startFlash l' t' = outBurst b (s.startFlash l t) := by
  subst hl ht
  unfold State.startFlash
  cases firstFault l' <;> rfl

theorem burst_command (i : Instr) {f : State → Out} (hf : ∀ s, f (withBurst b s) = outBurst b (f s)) :
    (withBurst b s).startCommand i f = outBurst b (s.startCommand i f) := by
  show (if s.faulted then _ else if s.busy then _ else if s.argsMissing i then _ else _) = _
  simp only [State.startCommand, outBurst_if, hf]
  rfl

theorem burst_tx (i : Instr) {f : State → Out} (hf : ∀ s, f (withBurst b s) = outBurst b (f s)) :
    (withBurst b s).startTx i f = outBurst b (s.startTx i f) := by
  show (if s.faulted then _ else if s.fsm = .idle then f (withBurst b (s.begin i .engineCommand [.finish .ok 0])) else f (withBurst b s)) = _
  simp only [State.startTx, outBurst_if, hf]
  rfl

theorem burst_start (i : Instr) : startInstr i (withBurst b s) = outBurst b (startInstr i s) := by
  cases i with
  | tWrvcr => exact burst_tx b s _ (f := fun s => .next { s with cfgbuf := s.cfgbuf ||| s.params.qeMask, todo := .configWrite :: s.todo }) fun s => rfl
  | eWrite | eRead =>
    simp only [startInstr, startEWrite, startERead]
    refine burst_command b s _ fun s => ?_
    show (match s.rawTransfer with | none => _ | some t => _) = outBurst b (match s.rawTransfer with | none => _ | some t => _)
    cases s.rawTransfer with
    | none => rfl
    | some t => exact burst_raw b s _ _ _
  | ePoll =>
    simp only [startInstr, startEPoll]
    refine burst_command b s _ fun s => ?_
    show (match s.rawPoll with | none => _ | some t => _) = outBurst b (match s.rawPoll with | none => _ | some t => _)
    cases s.rawPoll with
    | none => rfl
    | some t => exact burst_raw b s _ _ _
  | eMmap =>
    simp only [startInstr, startEMmap]
    refine burst_command b s _ fun s => ?_
    show (match s.rawMap with | none => _ | some t => _) = outBurst b (match s.rawMap with | none => _ | some t => _)
    cases s.rawMap with
    | none => rfl
    | some t => exact burst_raw b s _ _ _
  | eAbort =>
    simp only [startInstr, startEAbort]
    refine burst_command b s _ fun s => ?_
    show (match firstFault [(!crEn s.regs.cr, .engineDisabled)] with | some f => _ | none => _) =
      outBurst b (match firstFault [(!crEn s.regs.cr, .engineDisabled)] with | some f => _ | none => _)
    cases firstFault [(!crEn s.regs.cr, FaultReason.engineDisabled)] <;> rfl
  | eDeinit =>
    simp only [startInstr, startEDeinit]
    exact burst_command b s _ fun s => rfl
  | tRdcr =>
    simp only [startInstr, startTRdcr]
    exact burst_tx b s _ fun s => burst_engine b { s with cfgSaved := some s.cfgbuf } rfl _ _
  | tWren | tPollWel | tPollWip | tRsten | tRst | tSe | tCe | tQpp | tQread | tQreadMmap =>
    simp only [startInstr, startTWren, startTPollWel, startTPollWip, startTRsten, startTRst, startTSe, startTCe, startTQpp, startTQread,
      startTQreadMmap]
    exact burst_tx b s _ fun s => burst_engine b s rfl _ _
  | init | eraseChip | mmap | programPage | eraseSector | read | verify | blankCheck | write =>
    simp only [startInstr, startInit, startEraseChip, startMmap, startProgramPage, startEraseSector, startReadCommand, startVerify,
      startBlankCheck, startWriteCommand]
    exact burst_command b s _ fun s => burst_flash b s rfl rfl

theorem burst_writeReg (w : WholeReg) (v : Word) : (withBurst b s).writeReg w v = withBurst b (s.writeReg w v) := by
  cases h : s.env <;> (simp only [State.writeReg, withBurst, h]; try rfl)

theorem burst_readSr : (withBurst b s).readSr = (s.readSr.1, withBurst b s.readSr.2) := by
  cases h : s.env <;> simp only [State.readSr, withBurst, h]

theorem burst_readCr : (withBurst b s).readCr = withBurst b s.readCr := by
  cases h : s.env <;> simp only [State.readCr, withBurst, h]

theorem burst_writeCr (e : CrEdit) : (withBurst b s).writeCr e = withBurst b (s.writeCr e) := by
  cases h : s.env <;> simp only [State.writeCr, State.putCr, withBurst, h]

theorem burst_pushDr : (withBurst b s).pushDr = withBurst b s.pushDr := by
  cases h : s.env <;> (simp only [State.pushDr, withBurst, h]; try rfl)

theorem burst_popDr : (withBurst b s).popDr = withBurst b s.popDr := by
  cases h : s.env <;> simp only [State.popDr, withBurst, h]

theorem burst_again (o : Op) (k : Nat) : (withBurst b s).sampleAgain o k = withBurst b (s.sampleAgain o k) := by
  show (if budgetSpent s.params k then _ else _) = _
  rw [State.sampleAgain, withBurst_if]; rfl

/-- A step of a state with another burst is the same step. -/
theorem burst_seqOp (o : Op) : seqOp o (withBurst b s) = outBurst b (seqOp o s) := by
  cases o with
  | issue i => exact burst_start b s i
  | configWrite => exact burst_engine b s rfl _ _
  | callPage =>
    show Host.Outcome.next (withBurst b s).callPage = .next (withBurst b s.callPage)
    refine congrArg _ ?_
    show (match firstFault (s.programChecks s.wAddr s.wN s.wBuf) with | some f => _ | none => _) = _
    rw [State.callPage]
    cases firstFault (s.programChecks s.wAddr s.wN s.wBuf) <;> rfl
  | wait c k =>
    show Host.Outcome.next ((withBurst b s).waitSample c k) = .next (withBurst b (s.waitSample c k))
    rw [waitSample_eq, waitSample_eq, burst_readSr]
    refine congrArg _ ?_
    unfold State.onWait
    cases sampleError s.readSr.1 with
    | some st => rfl
    | none => simp only [withBurst_if, burst_again]
  | abortWait k =>
    show Host.Outcome.next ((withBurst b s).abortSample k) = .next (withBurst b (s.abortSample k))
    rw [abortSample_eq, abortSample_eq, burst_readSr]
    refine congrArg _ ?_
    unfold State.onAbortWait
    cases sampleError s.readSr.1 with
    | some st => rfl
    | none => simp only [withBurst_if, burst_again]; rfl
  | writeReg w v => rw [seqOp_writeReg, seqOp_writeReg, burst_writeReg]; rfl
  | readCr => rw [seqOp_readCr, seqOp_readCr, burst_readCr]; rfl
  | writeCr e => rw [seqOp_writeCr, seqOp_writeCr, burst_writeCr]; rfl
  | drWrite => rw [seqOp_drWrite, seqOp_drWrite, burst_pushDr]; rfl
  | drRead => rw [seqOp_drRead, seqOp_drRead, burst_popDr]; rfl
  | bufRead =>
    show (withBurst b s).bufRead s.latchedBuf s.idx.toNat = outBurst b (s.bufRead s.latchedBuf s.idx.toNat)
    cases s.latchedBuf with
    | host a =>
      show (if s.admits (a.toNat + s.idx.toNat) then _ else _) = _
      rw [State.bufRead, State.memRead, outBurst_if]; rfl
    | stg =>
      show (if s.idx.toNat < s.params.page then _ else _) = _
      rw [State.bufRead, State.stgRead, outBurst_if]; rfl
    | cfgbuf => rfl
  | bufWrite =>
    show (withBurst b s).bufWrite s.latchedBuf s.idx.toNat = outBurst b (s.bufWrite s.latchedBuf s.idx.toNat)
    cases s.latchedBuf with
    | host a =>
      show (if s.admits (a.toNat + s.idx.toNat) then _ else _) = _
      rw [State.bufWrite, State.memWrite, outBurst_if]; rfl
    | stg =>
      show (if s.idx.toNat < s.params.page then _ else _) = _
      rw [State.bufWrite, State.stgWrite, outBurst_if]; rfl
    | cfgbuf => rfl
  | fetchStg =>
    show (if s.idx.toNat < s.params.page then _ else _) = _
    rw [seqOp, State.stgRead, outBurst_if]; rfl
  | compareHost =>
    show (if s.admits (s.wBuf.toNat + s.idx.toNat) then
      Host.Outcome.next (if s.tmpByte = s.memByte (s.wBuf.toNat + s.idx.toNat) then _ else _) else _) = _
    rw [seqOp, State.compareHost]
    simp only [outBurst_if]
    refine if_congr Iff.rfl ?_ rfl
    show _ = Host.Outcome.next (withBurst b _)
    rw [withBurst_if]; rfl
  | compareStg q =>
    by_cases h : s.idx.toNat < s.params.page
    · have e1 : s.stgRead s.idx.toNat = .next { s with tmpByte := s.stgByte s.idx.toNat } := if_pos h
      have e2 : (withBurst b s).stgRead s.idx.toNat = .next (withBurst b { s with tmpByte := s.stgByte s.idx.toNat }) := if_pos h
      show andThen ((withBurst b s).stgRead s.idx.toNat) _ = outBurst b (andThen (s.stgRead s.idx.toNat) _)
      rw [e1, e2]
      show Host.Outcome.next (if s.stgByte s.idx.toNat = q then _ else _) = .next (withBurst b (if s.stgByte s.idx.toNat = q then _ else _))
      rw [withBurst_if]; rfl
    · have e1 : s.stgRead s.idx.toNat = .fault .stagingIndex := if_neg h
      have e2 : (withBurst b s).stgRead s.idx.toNat = .fault .stagingIndex := if_neg h
      show andThen ((withBurst b s).stgRead s.idx.toNat) _ = outBurst b (andThen (s.stgRead s.idx.toNat) _)
      rw [e1, e2]; rfl
  | writeLoop f | readLoop f | compareLoop f q | qeCheck | verifyLoop | blankLoop q | orchLoop =>
    refine congrArg Host.Outcome.next (?_ : _ = withBurst b _)
    simp only [State.writeLoop, State.readLoop, State.compareLoop, State.qeCheck, State.verifyLoop, State.blankLoop,
      State.orchLoop, withBurst_if]
    rfl
  | orchFirst =>
    refine congrArg Host.Outcome.next (?_ : _ = withBurst b _)
    simp only [State.orchFirst, State.orchLoop, withBurst_if]
    rfl
  | setWork r v => cases r <;> rfl
  | advance r => cases r <;> rfl
  | _ => rfl

theorem burst_seqStep : seqStep (withBurst b s) = (seqStep s).map (withBurst b) := by
  show (if seqTurn s then (match s.todo with
    | [] => none
    | o :: rest =>
      match seqOp o (withBurst b (s.takeOp rest)) with
      | .next t => some t
      | _ => none) else none) = _
  rw [seqStep]
  split
  · cases s.todo with
    | nil => rfl
    | cons o rest =>
      simp only [burst_seqOp]
      cases seqOp o (s.takeOp rest) <;> rfl
  · rfl

/-- A run of a state with another burst. -/
theorem burst_runSeq (n : Nat) : runSeq n (withBurst b s) = withBurst b (runSeq n s) := by
  induction n generalizing s with
  | zero => rfl
  | succ n ih =>
    simp only [runSeq, burst_seqStep]
    cases seqStep s with
    | none => rfl
    | some t => exact ih t

end

end Sys2Proof.Laws
end

