-- ==== Sys2Proof/Laws/Starts.lean ====
section
/-! SUPPORT. How every instruction starts, in any environment: it faults, or it begins with the steps of its rule
(42_flash_operations.md R190, 40_engine.md R130). -/

namespace Sys2Proof.Laws

open Sys2Proof.Machine

/-! ### Transactions -/

/-- The descriptor and the engine steps of a transaction (30_encoding.md R114). -/
def txPlan (p : Params) : Instr → Descriptor × List Op
  | .tWren => (.transfer (commandOnly (plainHeader p.opc.wren)), writeOps (commandOnly (plainHeader p.opc.wren)))
  | .tPollWel => (.poll (statusPoll p p.welMask p.welMask), pollOps (statusPoll p p.welMask p.welMask))
  | .tPollWip => (.poll (statusPoll p 0 p.wipMask), pollOps (statusPoll p 0 p.wipMask))
  | .tRsten => (.transfer (commandOnly (plainHeader p.opc.rsten)), writeOps (commandOnly (plainHeader p.opc.rsten)))
  | .tRst => (.transfer (commandOnly (plainHeader p.opc.rst)), writeOps (commandOnly (plainHeader p.opc.rst)))
  | .tRdcr => (.transfer (configRead p), readOps (configRead p))
  | .tWrvcr => (.transfer (configWrite p), writeOps (configWrite p))
  | .tSe addr =>
    (.transfer (commandOnly (sectorEraseHeader p addr)), writeOps (commandOnly (sectorEraseHeader p addr)))
  | .tCe => (.transfer (commandOnly (plainHeader p.opc.ce)), writeOps (commandOnly (plainHeader p.opc.ce)))
  | .tQpp dest n src => (.transfer (quadProgram p dest n src), writeOps (quadProgram p dest n src))
  | .tQread dest n buf => (.transfer (quadRead p dest n buf), readOps (quadRead p dest n buf))
  | .tQreadMmap => (.map (quadReadMap p), mapOps (quadReadMap p))
  | _ => (.transfer (commandOnly (plainHeader 0)), [])

/-- What a transaction does before its engine operation: `T_RDCR` keeps `CFGBUF` for a failure (R166, log 37). -/
def prep (i : Instr) (s : State) : State :=
  { s with cfgSaved := match i with | .tRdcr => some s.cfgbuf | _ => s.cfgSaved }

theorem prep_other {i : Instr} (h : i ≠ .tRdcr) (s : State) : prep i s = s := by
  cases i <;> first | rfl | exact absurd rfl h

/-- The steps of a transaction: its engine operation's, but for `T_WRVCR`, which updates `CFGBUF` first (R167). -/
def txOps (p : Params) : Instr → List Op
  | .tWrvcr => [.configWrite]
  | i => (txPlan p i).2

theorem txOps_other {i : Instr} (h : i ≠ .tWrvcr) (p : Params) : txOps p i = (txPlan p i).2 := by
  cases i <;> first | rfl | exact absurd rfl h

/-- `T_WRVCR` after its first step: `CFGBUF` has the quad-enable bit, the write is ahead. -/
def quadEnabled (s : State) : State :=
  { s with cfgbuf := s.cfgbuf ||| s.params.qeMask, todo := .configWrite :: s.todo }

/-- A transaction that has passed its guards. -/
def entered : Instr → State → State
  | .tWrvcr, s => quadEnabled s
  | i, s => (prep i s).latch (txPlan s.params i).1 (txPlan s.params i).2

theorem entered_other {i : Instr} (h : i ≠ .tWrvcr) (s : State) :
    entered i s = (prep i s).latch (txPlan s.params i).1 (txPlan s.params i).2 := by
  cases i <;> first | rfl | exact absurd rfl h

theorem entered_todo (i : Instr) (s : State) : (entered i s).todo = txOps s.params i ++ s.todo := by
  cases i <;> rfl

theorem startTx_eq {i : Instr} {s : State} {body : State → Out} (hf : s.fault = none) :
    s.startTx i body = body (if s.fsm = .idle then s.begin i .engineCommand [.finish .ok 0] else s) := by
  by_cases hfi : s.fsm = .idle <;> simp [State.startTx, State.faulted, hf, hfi]

/-- A transaction on a block that is not faulted goes to the engine: from the command that runs, or, on an idle block, as a
command of its own (log 6). -/
theorem startInstr_tx {i : Instr} (hi : Instr.code i = 0) (hw : i ≠ .tWrvcr) {s : State} (hf : s.fault = none) :
    startInstr i s =
      let b := if s.fsm = .idle then s.begin i .engineCommand [.finish .ok 0] else s
      (prep i b).startEngine (txPlan s.params i).1 (txPlan s.params i).2 := by
  cases i <;> first | exact absurd hi (by decide) | exact absurd rfl hw | (
    simp only [startInstr, startTWren, startTPollWel, startTPollWip, startTRsten, startTRst, startTRdcr, startTSe,
      startTCe, startTQpp, startTQread, startTQreadMmap, startTx_eq hf, State.startWrite, State.startRead, State.startPoll,
      State.startMap]
    by_cases hfi : s.fsm = .idle
    · simp only [hfi, if_true]; rfl
    · simp only [hfi, if_false]; rfl)

theorem startInstr_wrvcr {s : State} (hf : s.fault = none) : startInstr .tWrvcr s =
    .next (quadEnabled (if s.fsm = .idle then s.begin .tWrvcr .engineCommand [.finish .ok 0] else s)) := by
  simp only [startInstr, startTWrvcr, startTx_eq hf]
  rfl

/-- The engine's guards fault, or the operation is latched. -/
theorem startEngine_next {s t : State} {D : Descriptor} {ops : List Op} (h : s.startEngine D ops = .next t) :
    (∃ f, t = s.raiseFault f) ∨
      (t = s.latch D ops ∧ descriptorOk D = true ∧ crEn s.regs.cr = true ∧ s.mmapActive = false) := by
  unfold State.startEngine at h
  cases hf : firstFault (s.guardChecks (!descriptorOk D)) with
  | some f => simp only [hf, Host.Outcome.next.injEq] at h; exact .inl ⟨f, h.symm⟩
  | none =>
    simp only [hf, Host.Outcome.next.injEq] at h
    refine .inr ⟨h.symm, ?_⟩
    simp only [State.guardChecks, firstFault] at hf
    cases hd : descriptorOk D <;> cases he : crEn s.regs.cr <;> cases hm : s.mmapActive <;> simp_all

/-- A transaction's start: it faults at its guards, or it has passed them. -/
theorem startTx_next {i : Instr} (hi : Instr.code i = 0) {s t : State} (hf : s.fault = none) (h : startInstr i s = .next t) :
    (i ≠ .tWrvcr ∧ ∃ f, t = (prep i (if s.fsm = .idle then s.begin i .engineCommand [.finish .ok 0] else s)).raiseFault f) ∨
      t = entered i (if s.fsm = .idle then s.begin i .engineCommand [.finish .ok 0] else s) := by
  by_cases hw : i = .tWrvcr
  · subst hw
    rw [startInstr_wrvcr hf] at h
    exact .inr (Host.Outcome.next.inj h).symm
  · rw [startInstr_tx hi hw hf] at h
    rcases startEngine_next h with ⟨f, hf⟩ | ⟨rfl, -⟩
    · exact .inl ⟨hw, f, hf⟩
    · refine .inr ?_
      rw [entered_other hw]
      split <;> rfl

/-! ### Every start -/

/-- The state in which an instruction has begun. -/
inductive Begins (s : State) : Instr → State → Prop where
  | init : Begins s .init (s.begin .init .resetIssued initOps)
  | programPage : Begins s .programPage (s.begin .programPage .writeEnablePending
      (mutateOps (.tQpp (s.arg 0) (s.arg 1) (s.arg 2)) ++ [.finish .ok 0]))
  | eraseSector : Begins s .eraseSector
      (s.begin .eraseSector .writeEnablePending (mutateOps (.tSe (s.arg 0)) ++ [.finish .ok 0]))
  | eraseChip : Begins s .eraseChip (s.begin .eraseChip .writeEnablePending (mutateOps .tCe ++ [.finish .ok 0]))
  | read : Begins s .read (s.begin .read .reading
      [.issue (.tQread (s.arg 0) (s.arg 1) (.host (s.arg 2))), .finish .ok 0])
  | verify : Begins s .verify (s.begin .verify .comparing
      [.setWork .addr (s.arg 0), .setWork .buf (s.arg 2), .setWork .rem (s.arg 1), .setWork .done 0, .verifyLoop])
  | blankCheck (b : Byte) : Begins s .blankCheck (s.begin .blankCheck .comparing
      [.setWork .addr (s.arg 0), .setWork .rem (s.arg 1), .blankLoop b])
  | mmap : Begins s .mmap (s.begin .mmap .mapEntering [.issue .tQreadMmap, .finish .ok 0])
  | write : Begins s .write (s.begin .write .orchestrating
      [.setWork .addr (s.arg 0), .setWork .buf (s.arg 2), .setWork .rem (s.arg 1), .orchFirst])
  | eWrite (h : Header) : Begins s .eWrite ((s.begin .eWrite .engineCommand [.finish .ok 0]).latch
      (.transfer { hdr := h, len := s.arg 3, buf := .host (s.arg 4) })
      (writeOps { hdr := h, len := s.arg 3, buf := .host (s.arg 4) }))
  | eRead (h : Header) : Begins s .eRead ((s.begin .eRead .engineCommand [.finish .ok 0]).latch
      (.transfer { hdr := h, len := s.arg 3, buf := .host (s.arg 4) })
      (readOps { hdr := h, len := s.arg 3, buf := .host (s.arg 4) }))
  | ePoll (d : PollDescriptor) :
      Begins s .ePoll ((s.begin .ePoll .engineCommand [.finish .ok 0]).latch (.poll d) (pollOps d))
  | eMmap (d : MemoryMapDescriptor) :
      Begins s .eMmap ((s.begin .eMmap .engineCommand [.finish .ok 0]).latch (.map d) (mapOps d))
  | eAbort : Begins s .eAbort (s.begin .eAbort .engineCommand (abortOps ++ [.finish .ok 0]))
  | eDeinit : Begins s .eDeinit (s.begin .eDeinit .engineCommand (deinitOps ++ [.finish .ok 0]))
  | tx (i : Instr) (hi : Instr.code i = 0) : Begins s i (entered i (s.begin i .engineCommand [.finish .ok 0]))

theorem startCommand_next {s t : State} {i : Instr} {body : State → Out} (h : s.startCommand i body = .next t) :
    (∃ f, t = s.raiseFault f) ∨ body s = .next t := by
  unfold State.startCommand at h
  split at h
  · cases h
  · split at h
    · exact .inl ⟨_, (Host.Outcome.next.inj h).symm⟩
    · split at h
      · exact .inl ⟨_, (Host.Outcome.next.inj h).symm⟩
      · exact .inr h

/-- A command written while the block is busy faults with `Reentry` (R190). -/
theorem startInstr_busy {x : Instr} (hc : Instr.code x ≠ 0) {s : State} (hf : s.fault = none) (hb : s.busy = true) :
    startInstr x s = .next (s.raiseFault .reentry) := by
  have h : ∀ (i : Instr) (body : State → Out), s.startCommand i body = .next (s.raiseFault .reentry) := fun i body => by
    simp [State.startCommand, State.faulted, hf, hb]
  cases x <;> first
    | exact absurd rfl hc
    | (simp only [startInstr, startInit, startProgramPage, startEraseSector, startEraseChip, startReadCommand, startVerify,
        startBlankCheck, startMmap, startWriteCommand, startEWrite, startERead, startEPoll, startEMmap, startEAbort, startEDeinit]
       exact h _ _)

theorem startFlash_next {s t b : State} {l : List (Bool × FaultReason)} (h : s.startFlash l b = .next t) :
    (∃ f, t = s.raiseFault f) ∨ t = b := by
  unfold State.startFlash at h
  split at h
  · exact .inl ⟨_, (Host.Outcome.next.inj h).symm⟩
  · exact .inr (Host.Outcome.next.inj h).symm

theorem startRaw_next {s t : State} {i : Instr} {D : Descriptor} {ops : List Op} (h : s.startRaw i D ops = .next t) :
    (∃ f, t = s.raiseFault f) ∨ t = (s.begin i .engineCommand [.finish .ok 0]).latch D ops := by
  unfold State.startRaw at h
  split at h
  · exact .inl ⟨_, (Host.Outcome.next.inj h).symm⟩
  · exact .inr (Host.Outcome.next.inj h).symm

/-- An instruction that answers a next state faulted, or began, or, for a transaction of a running command, went to the
engine. A transaction standing alone faults once it has begun. -/
theorem start_any {i : Instr} {s t : State} (h : startInstr i s = .next t) :
    (∃ f, t = s.raiseFault f) ∨
      (Instr.code i = 0 ∧ ∃ f, t = (prep i (if s.fsm = .idle then s.begin i .engineCommand [.finish .ok 0] else s)).raiseFault f) ∨
      Begins s i t ∨
      (Instr.code i = 0 ∧ s.fsm ≠ .idle ∧ t = entered i s) := by
  have tx : ∀ i, Instr.code i = 0 → startInstr i s = .next t → (Instr.code i = 0 ∧ ∃ f, t =
        (prep i (if s.fsm = .idle then s.begin i .engineCommand [.finish .ok 0] else s)).raiseFault f) ∨ Begins s i t ∨
      (Instr.code i = 0 ∧ s.fsm ≠ .idle ∧ t = entered i s) := by
    intro i hc h
    cases hf : s.fault with
    | some f =>
      exfalso
      cases i <;> first | exact absurd hc (by decide) | (
        simp only [startInstr, startTWren, startTPollWel, startTPollWip, startTRsten, startTRst, startTRdcr, startTWrvcr, startTSe,
          startTCe, startTQpp, startTQread, startTQreadMmap, State.startTx, State.faulted, hf] at h
        cases h)
    | none =>
      rcases startTx_next hc hf h with ⟨-, f, hf⟩ | rfl
      · exact .inl ⟨hc, f, hf⟩
      · by_cases hi : s.fsm = .idle
        · rw [if_pos hi]; exact .inr (.inl (.tx i hc))
        · rw [if_neg hi]; exact .inr (.inr ⟨hc, hi, rfl⟩)
  have out : ∀ {i : Instr}, ((∃ f, t = s.raiseFault f) ∨ Begins s i t) → (∃ f, t = s.raiseFault f) ∨
      (Instr.code i = 0 ∧ ∃ f, t = (prep i (if s.fsm = .idle then s.begin i .engineCommand [.finish .ok 0] else s)).raiseFault f) ∨
      Begins s i t ∨
      (Instr.code i = 0 ∧ s.fsm ≠ .idle ∧ t = entered i s) := by
    rintro i (h | h)
    · exact .inl h
    · exact .inr (.inr (.inl h))
  cases i with
  | init | programPage | eraseSector | eraseChip | read | verify | blankCheck | mmap | write =>
    simp only [startInstr, startInit, startProgramPage, startEraseSector, startEraseChip, startReadCommand, startVerify,
      startBlankCheck, startMmap, startWriteCommand] at h
    rcases startCommand_next h with hf | h
    · exact .inl hf
    · rcases startFlash_next h with hf | rfl
      · exact .inl hf
      · exact .inr (.inr (.inl (by constructor)))
  | eWrite =>
    simp only [startInstr, startEWrite] at h
    rcases startCommand_next h with hf | h
    · exact .inl hf
    · cases ha : s.rawTransfer with
      | none => simp only [ha] at h; exact .inl ⟨_, (Host.Outcome.next.inj h).symm⟩
      | some a =>
        simp only [ha] at h
        rcases startRaw_next h with hf | rfl
        · exact .inl hf
        · unfold State.rawTransfer at ha
          obtain ⟨hd, -, rfl⟩ := Option.map_eq_some_iff.1 ha
          exact .inr (.inr (.inl (.eWrite hd)))
  | eRead =>
    simp only [startInstr, startERead] at h
    rcases startCommand_next h with hf | h
    · exact .inl hf
    · cases ha : s.rawTransfer with
      | none => simp only [ha] at h; exact .inl ⟨_, (Host.Outcome.next.inj h).symm⟩
      | some a =>
        simp only [ha] at h
        rcases startRaw_next h with hf | rfl
        · exact .inl hf
        · unfold State.rawTransfer at ha
          obtain ⟨hd, -, rfl⟩ := Option.map_eq_some_iff.1 ha
          exact .inr (.inr (.inl (.eRead hd)))
  | ePoll =>
    simp only [startInstr, startEPoll] at h
    rcases startCommand_next h with hf | h
    · exact .inl hf
    · cases ha : s.rawPoll with
      | none => simp only [ha] at h; exact .inl ⟨_, (Host.Outcome.next.inj h).symm⟩
      | some a =>
        simp only [ha] at h
        rcases startRaw_next h with hf | rfl
        · exact .inl hf
        · exact .inr (.inr (.inl (.ePoll a)))
  | eMmap =>
    simp only [startInstr, startEMmap] at h
    rcases startCommand_next h with hf | h
    · exact .inl hf
    · cases ha : s.rawMap with
      | none => simp only [ha] at h; exact .inl ⟨_, (Host.Outcome.next.inj h).symm⟩
      | some a =>
        simp only [ha] at h
        rcases startRaw_next h with hf | rfl
        · exact .inl hf
        · exact .inr (.inr (.inl (.eMmap a)))
  | eAbort =>
    refine out ?_
    simp only [startInstr, startEAbort] at h
    rcases startCommand_next h with hf | h
    · exact .inl hf
    · split at h
      · exact .inl ⟨_, (Host.Outcome.next.inj h).symm⟩
      · cases Host.Outcome.next.inj h; exact .inr .eAbort
  | eDeinit =>
    refine out ?_
    simp only [startInstr, startEDeinit] at h
    rcases startCommand_next h with hf | h
    · exact .inl hf
    · cases Host.Outcome.next.inj h; exact .inr .eDeinit
  | _ => exact .inr (tx _ rfl h)


/-- On an idle block. -/
theorem start_begins {i : Instr} {s t : State} (hi : s.idle = true) (h : startInstr i s = .next t) :
    (∃ f, t = s.raiseFault f) ∨
      (Instr.code i = 0 ∧ ∃ f, t = (prep i (s.begin i .engineCommand [.finish .ok 0])).raiseFault f) ∨ Begins s i t := by
  simp only [State.idle, Bool.and_eq_true, beq_iff_eq] at hi
  rcases start_any h with h | h | h | ⟨-, h, -⟩
  · exact .inl h
  · rw [if_pos hi.1.1] at h; exact .inr (.inl h)
  · exact .inr (.inr h)
  · exact absurd hi.1.1 h

end Sys2Proof.Laws
end

