-- ==== Sys2Proof/Laws/Next.lean ====
section
/-! SUPPORT. What one sequencer step leaves still to do, in any environment: said once, for every step. -/

namespace Sys2Proof.Laws

open Sys2Proof.Machine

/-- A step that may leave the list of remaining steps as it finds it. -/
def plain : Op → Bool
  | .issue _ | .configWrite | .callPage | .raise _ | .finish _ _ | .qeCheck | .verifyLoop | .blankLoop _ | .orchFirst
  | .orchLoop => false
  | _ => true

/-- `Next p o l l'`: the step `o`, with the steps `l` after it, may leave the steps `l'`. -/
inductive Next (p : Params) : Op → List Op → List Op → Prop where
  | same {o l} : plain o = true → Next p o l l
  | faultIssue {x l} : Next p (.issue x) l []
  | faultCall {l} : Next p .callPage l []
  | raise {st l} : Next p (.raise st) l []
  | finish {st n l} : Next p (.finish st n) l []
  | issue {x l} : Instr.code x = 0 → Next p (.issue x) l (txOps p x ++ l)
  | faultConfig {l} : Next p .configWrite l []
  | config {l} : Next p .configWrite l (writeOps (configWrite p) ++ l)
  | call {a n b l} : Next p .callPage l (mutateOps (.tQpp a n b) ++ l)
  | waitError {c k l v st} : Next p (.wait c k) l [.writeReg .fcr (errorClear v), .raise st]
  | waitOver {c k l} : Next p (.wait c k) l [.raise .exhausted]
  | waitAgain {c k l} : Next p (.wait c k) l (.wait c (k + 1) :: l)
  | abortError {k l v st} : Next p (.abortWait k) l [.writeReg .fcr (errorClear v), .raise st]
  | abortOver {k l} : Next p (.abortWait k) l [.raise .exhausted]
  | abortAgain {k l} : Next p (.abortWait k) l (.abortWait (k + 1) :: l)
  | ack {k l v} : Next p (.abortWait k) l (.writeReg .fcr (abortClear v) :: .abortWait (k + 1) :: l)
  | ackOver {k l v} : Next p (.abortWait k) l [.writeReg .fcr (abortClear v), .raise .exhausted]
  | writeLoop {f l} : Next p (.writeLoop f) l (.setEng .data :: .wait .fifo 0 :: .bufRead :: .drWrite :: .writeLoop false :: l)
  | readLoop {f l} : Next p (.readLoop f) l (.setEng .data :: .wait .fifo 0 :: .drRead :: .bufWrite :: .readLoop false :: l)
  | qeDone {l} : Next p .qeCheck l []
  | qeSet {l} : Next p .qeCheck l (quadEnableOps p ++ [.finish .ok 0])
  | verifyDone {l} : Next p .verifyLoop l []
  | verifyMore {l a n} : Next p .verifyLoop l (.issue (.tQread a n .stg) :: .compareLoop true none :: verifyTail)
  | blankDone {b l} : Next p (.blankLoop b) l []
  | blankMore {b l a n} :
      Next p (.blankLoop b) l (.issue (.tQread a n .stg) :: .compareLoop true (some b) :: blankTail b)
  | compare {f q l} : Next p (.compareLoop f q) l (compareOps q ++ .compareLoop false q :: l)
  | hostMismatch {l n} : Next p .compareHost l [.finish .verifyMismatch n]
  | stgMismatch {b l n} : Next p (.compareStg b) l [.finish .verifyMismatch n]
  | firstPage {l} : Next p .orchFirst l (.callPage :: orchTail)
  | firstLast {l} : Next p .orchFirst l [.callPage, .finish .ok 0]
  | firstDone {l} : Next p .orchFirst l []
  | wholePage {l} : Next p .orchLoop l (.callPage :: orchTail)
  | lastPart {l} : Next p .orchLoop l [.callPage, .finish .ok 0]
  | lastDone {l} : Next p .orchLoop l []

theorem next_sampleAgain {p : Params} {o o' : Op} {s : State} {k : Nat} (h1 : Next p o s.todo [.raise .exhausted])
    (h2 : Next p o s.todo (o' :: s.todo)) : Next p o s.todo (s.sampleAgain o' k).todo := by
  unfold State.sampleAgain; split
  · exact h1
  · exact h2

theorem bufRead_todo {s t : State} {b : BufRef} {i : Nat} (h : s.bufRead b i = .next t) :
    t = { s with tmpByte := t.tmpByte } := by
  cases b with
  | host a =>
    simp only [State.bufRead, State.memRead] at h
    split at h
    · cases h; rfl
    · cases h
  | stg =>
    simp only [State.bufRead, State.stgRead] at h
    split at h
    · cases h; rfl
    · cases h
  | cfgbuf => cases h; rfl

theorem bufWrite_todo {s t : State} {b : BufRef} {i : Nat} (h : s.bufWrite b i = .next t) : t.todo = s.todo := by
  cases b with
  | host a =>
    simp only [State.bufWrite, State.memWrite] at h
    split at h
    · cases h; rfl
    · cases h
  | stg =>
    simp only [State.bufWrite, State.stgWrite] at h
    split at h
    · cases h; rfl
    · cases h
  | cfgbuf => cases h; rfl

/-- Every step of a running command leaves one of the listed continuations. -/
theorem next_of_seqOp {o : Op} {s t : State}
    (hx : ∀ x, o = .issue x → Instr.code x = 0 ∧ s.fault = none ∧ s.fsm ≠ .idle) (h : seqOp o s = .next t) :
    Next s.params o s.todo t.todo := by
  cases o with
  | issue x =>
    obtain ⟨hc, hf, hr⟩ := hx x rfl
    rcases startTx_next hc hf h with ⟨-, f, rfl⟩ | rfl
    · exact .faultIssue
    · rw [if_neg hr, entered_todo]; exact .issue hc
  | configWrite =>
    rcases startEngine_next (show s.startEngine _ _ = .next t from h) with ⟨f, rfl⟩ | ⟨rfl, -⟩
    · exact .faultConfig
    · exact .config
  | callPage =>
    cases h
    unfold State.callPage
    split
    · exact .faultCall
    · exact .call
  | wait c k =>
    cases h
    rw [waitSample_eq]
    simp only [State.onWait]
    split
    · exact .waitError
    · split
      · rw [readSr_todo]; exact .same rfl
      · have := next_sampleAgain (p := s.params) (o := .wait c k) (s := s.readSr.2) (k := k + 1) (o' := .wait c (k + 1))
          .waitOver .waitAgain
        rwa [readSr_todo] at this
  | abortWait k =>
    cases h
    rw [abortSample_eq]
    simp only [State.onAbortWait]
    split
    · exact .abortError
    · split
      · simp only [State.sampleAgain]
        split
        · exact .ackOver
        · simp only [readSr_todo]; exact .ack
      · split
        · have := next_sampleAgain (p := s.params) (o := .abortWait k) (s := s.readSr.2) (k := k + 1)
            (o' := .abortWait (k + 1)) .abortOver .abortAgain
          rwa [readSr_todo] at this
        · rw [readSr_todo]; exact .same rfl
  | writeReg r v => rw [seqOp_writeReg] at h; cases h; rw [writeReg_todo]; exact .same rfl
  | readCr => rw [seqOp_readCr] at h; cases h; rw [readCr_todo]; exact .same rfl
  | writeCr e => rw [seqOp_writeCr] at h; cases h; rw [writeCr_todo]; exact .same rfl
  | setFsm _ | setEng _ | setMmap _ | emit _ | dropDesc => cases h; exact .same rfl
  | setWork r v => cases h; rw [setWork_todo]; exact .same rfl
  | advance r => cases h; rw [advance_todo]; exact .same rfl
  | writeLoop f =>
    cases h
    simp only [State.writeLoop]; split
    · exact .writeLoop
    · exact .same rfl
  | readLoop f =>
    cases h
    simp only [State.readLoop]; split
    · exact .readLoop
    · exact .same rfl
  | bufRead =>
    rw [bufRead_todo h]; exact .same rfl
  | drWrite => rw [seqOp_drWrite] at h; cases h; rw [pushDr_todo]; exact .same rfl
  | drRead => rw [seqOp_drRead] at h; cases h; rw [popDr_todo]; exact .same rfl
  | bufWrite =>
    rw [bufWrite_todo h]; exact .same rfl
  | qeCheck =>
    cases h; simp only [State.qeCheck]; split
    · exact .qeDone
    · exact .qeSet
  | verifyLoop =>
    cases h; simp only [State.verifyLoop]; split
    · exact .verifyDone
    · exact .verifyMore
  | blankLoop b =>
    cases h; simp only [State.blankLoop]; split
    · exact .blankDone
    · exact .blankMore
  | compareLoop f q =>
    cases h; simp only [State.compareLoop]; split
    · exact .compare
    · exact .same rfl
  | fetchStg =>
    simp only [seqOp, State.stgRead] at h
    split at h
    · cases h; exact .same rfl
    · cases h
  | compareHost =>
    simp only [seqOp, State.compareHost] at h
    split at h
    · cases h
      split
      · exact .same rfl
      · exact .hostMismatch
    · cases h
  | compareStg b =>
    obtain ⟨u, hu, hv⟩ := andThen_next h
    simp only [State.stgRead] at hu
    split at hu
    · cases hu; cases hv
      split
      · exact .same rfl
      · exact .stgMismatch
    · cases hu
  | orchFirst =>
    cases h; simp only [State.orchFirst]; split
    · exact .firstPage
    · simp only [State.orchLoop]; split
      · exact .firstPage
      · split
        · exact .firstDone
        · exact .firstLast
  | orchLoop =>
    cases h; simp only [State.orchLoop]; split
    · exact .wholePage
    · split
      · exact .lastDone
      · exact .lastPart
  | raise st => cases h; exact .raise
  | finish st n => cases h; exact .finish

end Sys2Proof.Laws
end

