-- ==== Sys2Proof/Laws/Effects.lean ====
section
/-! SUPPORT. What one sequencer step changes, in any environment: said once, field by field. -/

namespace Sys2Proof.Laws

open Sys2Proof.Machine

/-- The registers the sequencer writes whole, by name. -/
def regOf (r : Regs) : WholeReg → Word
  | .fcr => r.fcr
  | .dlr => r.dlr
  | .ccr => r.ccr
  | .ar => r.ar
  | .abr => r.abr
  | .psmkr => r.psmkr
  | .psmar => r.psmar
  | .pir => r.pir
  | .lptr => r.lptr

theorem regOf_write (r : Regs) (w w' : WholeReg) (v : Word) :
    regOf (r.write w v) w' = if w' = w then v else regOf r w' := by
  cases w <;> cases w' <;> rfl

/-- A step that may end the command. -/
def ending : Op → Bool
  | .raise _ | .finish _ _ | .qeCheck | .verifyLoop | .blankLoop _ | .orchFirst | .orchLoop => true
  | _ => false

/-- A step that adds to the trace or to its last entry. -/
def tracing : Op → Bool
  | .emit _ | .drWrite | .drRead => true
  | _ => false

/-- A step that moves a working register. -/
def working : Op → Bool
  | .setWork _ _ | .advance _ | .verifyLoop | .blankLoop _ | .orchFirst | .orchLoop => true
  | _ => false

/-- A step that moves the byte index. -/
def indexing : Op → Bool
  | .writeLoop _ | .readLoop _ | .compareLoop _ _ => true
  | _ => false

/-- A step that latches or drops the descriptor. -/
def latching : Op → Bool
  | .issue _ | .configWrite | .dropDesc | .raise _ | .finish _ _ | .qeCheck | .verifyLoop | .blankLoop _ | .orchFirst
  | .orchLoop => true
  | _ => false

/-- A step that may fault. -/
def faulting : Op → Bool
  | .issue _ | .configWrite | .callPage => true
  | _ => false

/-- A step that moves `fsm`, other than by a fault or the command's end. -/
def moving : Op → Bool
  | .setFsm _ | .callPage | .qeCheck => true
  | _ => false

/-- A step that lets go of the `CFGBUF` kept for a failure (log 37). -/
def dropping : Op → Bool
  | .dropDesc | .raise _ => true
  | _ => false

/-- The command that ran in `s` has ended in `t` (42_flash_operations.md R191). -/
structure Over (s t : State) : Prop where
  fsm : t.fsm = .idle
  eng : t.eng = .idle
  desc : t.desc = none
  todo : t.todo = []
  port : ∃ st n, t.port = { s.port with resst := some st, rescnt := some n }

/-- What the step `o` may change from `s` to `t`. -/
structure Effect (o : Op) (s t : State) : Prop where
  params : t.params = s.params
  burst : t.burst = s.burst
  hostIn : t.hostIn = s.hostIn
  hostData : t.hostData = s.hostData
  admitted : t.admitted = s.admitted
  dcr : t.regs.dcr = s.regs.dcr
  ends : (t.port = s.port ∧ (ending o = true → t.todo ≠ [])) ∨ (ending o = true ∧ Over s t)
  trace : tracing o = false → t.trace = s.trace
  cfgbuf : (o = .bufWrite → s.latchedBuf ≠ .cfgbuf) → o ≠ .issue .tWrvcr → (∀ st, o = .raise st → s.cfgSaved = none) →
    t.cfgbuf = s.cfgbuf
  cfgSaved : o ≠ .issue .tRdcr → t.cfgSaved = s.cfgSaved ∨ (dropping o = true ∧ t.cfgSaved = none)
  stg : (o = .bufWrite → s.latchedBuf ≠ .stg) → t.stg = s.stg
  hostMem : ∀ x, (o = .bufWrite → ∀ a, s.latchedBuf = .host a → x ≠ a.toNat + s.idx.toNat) → t.memByte x = s.memByte x
  work : working o = false → s.SameWork t
  mmapActive : (∀ b, o ≠ .setMmap b) → t.mmapActive = s.mmapActive
  reg : ∀ w, (∀ v, o ≠ .writeReg w v) → regOf t.regs w = regOf s.regs w
  cr : (∀ e, o ≠ .writeCr e) → t.regs.cr = s.regs.cr
  dr : o ≠ .drWrite → o ≠ .drRead → t.regs.dr = s.regs.dr
  tmpCr : o ≠ .readCr → t.tmpCr = s.tmpCr
  desc : latching o = false → t.desc = s.desc
  idx : indexing o = false → t.idx = s.idx
  fault : t.fault = s.fault ∨ (faulting o = true ∧ t.fault ≠ none ∧ t.fsm = .faulted ∧ t.todo = [])
  fsm : t.fsm = s.fsm ∨ (faulting o = true ∧ t.fsm = .faulted ∧ t.todo = []) ∨
    (ending o = true ∧ Over s t) ∨ moving o = true

theorem arg_results (p : Port) (st : Option Status) (n : Option Word) (k : Fin 6) :
    ({ p with resst := st, rescnt := n } : Port).arg k = p.arg k := rfl

theorem Effect.arg {o : Op} {s t : State} (h : Effect o s t) (k : Fin 6) : t.port.arg k = s.port.arg k := by
  rcases h.ends with ⟨h, -⟩ | ⟨-, h⟩
  · rw [h]
  · obtain ⟨st, n, h⟩ := h.port
    rw [h]; exact arg_results s.port (some st) (some n) k

theorem Effect.port {o : Op} {s t : State} (h : Effect o s t) (ho : ending o = false) : t.port = s.port := by
  rcases h.ends with ⟨h, -⟩ | ⟨h, -⟩
  · exact h
  · rw [ho] at h; cases h

theorem memByte_eq {s t : State} (h : t.hostMem = s.hostMem) (x : Nat) : t.memByte x = s.memByte x := by
  simp [State.memByte, h]

/-- A sample changes only what every step may change, whatever is left to do. -/
theorem effect_sampled {o : Op} (ho : ending o = false) (s : State) (l : List Op) :
    Effect o s { s.readSr.2 with todo := l } := by
  constructor
  case work => exact fun _ => ⟨by simp, by simp, by simp, by simp, by simp⟩
  case hostMem => exact fun x _ => memByte_eq (by simp) x
  case ends => exact .inl ⟨by simp, (by intro h; rw [ho] at h; cases h)⟩
  case cfgSaved => exact fun _ => .inl (by simp)
  case fault => exact .inl (by simp)
  case fsm => exact .inl (by simp)
  case reg => intro w _; simp only [readSr_regs]; cases w <;> rfl
  all_goals (try intros); simp [readSr_regs]

theorem effect_fault {o : Op} (ho : faulting o = true) (he : ending o = false) (s : State) (f : FaultReason) :
    Effect o s (s.raiseFault f) := by
  constructor
  case work => exact fun _ => ⟨rfl, rfl, rfl, rfl, rfl⟩
  case hostMem => exact fun x _ => rfl
  case ends => exact .inl ⟨rfl, (by intro h; rw [he] at h; cases h)⟩
  case cfgSaved => exact fun _ => .inl rfl
  case fault => exact .inr ⟨ho, (fun h => by cases h), rfl, rfl⟩
  case fsm => exact .inr (.inl ⟨ho, rfl, rfl⟩)
  all_goals (try intros); rfl

theorem over_end (s : State) (st : Status) (n : Word) : Over s (s.endCommand st n) := ⟨rfl, rfl, rfl, rfl, _, _, rfl⟩

theorem effect_end {o : Op} (ho : ending o = true) (s : State) (st : Status) (n : Word) :
    Effect o s (s.endCommand st n) := by
  constructor
  case work => exact fun _ => ⟨rfl, rfl, rfl, rfl, rfl⟩
  case hostMem => exact fun x _ => rfl
  case ends => exact .inr ⟨ho, over_end s st n⟩
  case cfgSaved => exact fun _ => .inl rfl
  case fault => exact .inl rfl
  case fsm => exact .inr (.inr (.inl ⟨ho, over_end s st n⟩))
  case desc => intro h; cases o <;> simp_all [ending, latching]
  all_goals (try intros); rfl

/-- The choice of a page call's size, and the steps that follow. -/
theorem effect_chosen {o : Op} (hw : working o = true) (s : State) (n : Word) {l : List Op} (hl : l ≠ []) :
    Effect o s { s with wN := n, todo := l } := by
  constructor
  case work => intro h; rw [hw] at h; cases h
  case hostMem => exact fun x _ => rfl
  case ends => exact .inl ⟨rfl, fun _ => hl⟩
  case cfgSaved => exact fun _ => .inl rfl
  case fault => exact .inl rfl
  case fsm => exact .inl rfl
  all_goals (try intros); rfl

theorem effect_orchLoop {o : Op} (hw : working o = true) (ho : ending o = true) (s : State) : Effect o s s.orchLoop := by
  unfold State.orchLoop
  split
  · exact effect_chosen hw s _ (by simp)
  · split
    · exact effect_end ho s _ _
    · exact effect_chosen hw s _ (by simp)

/-- The assignment of the byte index, and the steps that follow. -/
theorem effect_index {o : Op} (hi : indexing o = true) (ho : ending o = false) (s : State) (f : Bool) (l : List Op) :
    Effect o s { s.nextIdx f with todo := l } := by
  constructor
  case work => exact fun _ => ⟨rfl, rfl, rfl, rfl, rfl⟩
  case hostMem => exact fun x _ => rfl
  case ends => exact .inl ⟨rfl, (by intro h; rw [ho] at h; cases h)⟩
  case cfgSaved => exact fun _ => .inl rfl
  case fault => exact .inl rfl
  case fsm => exact .inl rfl
  case idx => intro h; rw [hi] at h; cases h
  all_goals (try intros); rfl

/-- A comparison of a byte: at most the byte in flight and the steps left change. -/
theorem effect_compared {o : Op} (ho : ending o = false) (s : State) (b : Byte) (l : List Op) :
    Effect o s { s with tmpByte := b, todo := l } := by
  constructor
  case work => exact fun _ => ⟨rfl, rfl, rfl, rfl, rfl⟩
  case hostMem => exact fun x _ => rfl
  case ends => exact .inl ⟨rfl, (by intro h; rw [ho] at h; cases h)⟩
  case cfgSaved => exact fun _ => .inl rfl
  case fault => exact .inl rfl
  case fsm => exact .inl rfl
  all_goals (try intros); rfl

/-- The effect of every step of a running command. -/
theorem effect_of_seqOp {o : Op} {s t : State}
    (hx : ∀ x, o = .issue x → Instr.code x = 0 ∧ s.fault = none ∧ s.fsm ≠ .idle) (h : seqOp o s = .next t) : Effect o s t := by
  cases o with
  | issue x =>
    obtain ⟨hc, hf, hr⟩ := hx x rfl
    rcases startTx_next hc hf h with ⟨-, f, rfl⟩ | rfl <;> simp only [if_neg hr]
    · by_cases hw : x = .tRdcr
      · subst hw
        constructor
        case work => exact fun _ => ⟨rfl, rfl, rfl, rfl, rfl⟩
        case hostMem => exact fun x _ => rfl
        case ends => exact .inl ⟨rfl, (by intro h; cases h)⟩
        case cfgSaved => intro h; exact absurd rfl h
        case fault => exact .inr ⟨rfl, (fun h => by cases h), rfl, rfl⟩
        case fsm => exact .inr (.inl ⟨rfl, rfl, rfl⟩)
        all_goals (try intros); rfl
      · rw [prep_other hw]; exact effect_fault rfl rfl s f
    · by_cases hw : x = .tWrvcr
      · subst hw
        constructor
        case work => exact fun _ => ⟨rfl, rfl, rfl, rfl, rfl⟩
        case hostMem => exact fun x _ => rfl
        case ends => exact .inl ⟨rfl, (by intro h; cases h)⟩
        case cfgSaved => exact fun _ => .inl rfl
        case fault => exact .inl rfl
        case fsm => exact .inl rfl
        case cfgbuf => intro _ h; exact absurd rfl h
        all_goals (try intros); rfl
      · rw [entered_other hw]
        constructor
        case work => exact fun _ => ⟨rfl, rfl, rfl, rfl, rfl⟩
        case hostMem => exact fun x _ => rfl
        case ends => exact .inl ⟨rfl, (by intro h; cases h)⟩
        case cfgSaved => intro h; rw [prep_other (by rintro rfl; exact h rfl)]; exact .inl rfl
        case fault => exact .inl rfl
        case fsm => exact .inl rfl
        case desc => intro h; cases h
        all_goals (try intros); rfl
  | configWrite =>
    rcases startEngine_next (show s.startEngine _ _ = .next t from h) with ⟨f, rfl⟩ | ⟨rfl, -⟩
    · exact effect_fault rfl rfl s f
    · constructor
      case work => exact fun _ => ⟨rfl, rfl, rfl, rfl, rfl⟩
      case hostMem => exact fun x _ => rfl
      case ends => exact .inl ⟨rfl, (by intro h; cases h)⟩
      case cfgSaved => exact fun _ => .inl rfl
      case fault => exact .inl rfl
      case fsm => exact .inl rfl
      case desc => intro h; cases h
      all_goals (try intros); rfl
  | callPage =>
    cases h
    unfold State.callPage
    split
    · exact effect_fault rfl rfl s _
    · constructor
      case work => exact fun _ => ⟨rfl, rfl, rfl, rfl, rfl⟩
      case hostMem => exact fun x _ => rfl
      case ends => exact .inl ⟨rfl, (by intro h; cases h)⟩
      case cfgSaved => exact fun _ => .inl rfl
      case fault => exact .inl rfl
      case fsm => exact .inr (.inr (.inr rfl))
      all_goals (try intros); rfl
  | wait c k =>
    cases h
    rw [waitSample_eq]
    have e := effect_sampled (o := .wait c k) rfl s
    simp only [State.onWait, State.sampleAgain]
    split
    · exact e _
    · split
      · exact e s.readSr.2.todo
      · split <;> exact e _
  | abortWait k =>
    cases h
    rw [abortSample_eq]
    have e := effect_sampled (o := .abortWait k) rfl s
    simp only [State.onAbortWait, State.sampleAgain]
    split
    · exact e _
    · split
      · split <;> exact e _
      · split
        · split <;> exact e _
        · exact e s.readSr.2.todo
  | writeReg r v =>
    rw [seqOp_writeReg] at h
    cases h
    constructor
    case work => exact fun _ => ⟨by simp, by simp, by simp, by simp, by simp⟩
    case hostMem => exact fun x _ => memByte_eq (by simp) x
    case ends => exact .inl ⟨by simp, (by intro h; cases h)⟩
    case cfgSaved => exact fun _ => .inl (by simp)
    case fault => exact .inl (by simp)
    case fsm => exact .inl (by simp)
    case reg => intro w hw; rw [writeReg_regs, regOf_write, if_neg]; rintro rfl; exact hw v rfl
    all_goals (try intros); simp
  | readCr =>
    rw [seqOp_readCr] at h
    cases h
    constructor
    case work => exact fun _ => ⟨by simp, by simp, by simp, by simp, by simp⟩
    case hostMem => exact fun x _ => memByte_eq (by simp) x
    case ends => exact .inl ⟨by simp, (by intro h; cases h)⟩
    case cfgSaved => exact fun _ => .inl (by simp)
    case fault => exact .inl (by simp)
    case fsm => exact .inl (by simp)
    case tmpCr => intro h; exact absurd rfl h
    all_goals (try intros); simp
  | writeCr e =>
    rw [seqOp_writeCr] at h
    cases h
    constructor
    case work => exact fun _ => ⟨by simp, by simp, by simp, by simp, by simp⟩
    case hostMem => exact fun x _ => memByte_eq (by simp) x
    case ends => exact .inl ⟨by simp, (by intro h; cases h)⟩
    case cfgSaved => exact fun _ => .inl (by simp)
    case fault => exact .inl (by simp)
    case fsm => exact .inl (by simp)
    case cr => intro h; exact absurd rfl (h e)
    case reg => intro w _; cases he : s.env <;> cases w <;> simp [State.writeCr, State.putCr, he, regOf]
    case dr => intro _ _; cases he : s.env <;> simp [State.writeCr, State.putCr, he]
    all_goals (try intros); simp
  | setFsm _ =>
    cases h
    constructor
    case work => exact fun _ => ⟨rfl, rfl, rfl, rfl, rfl⟩
    case hostMem => exact fun x _ => rfl
    case ends => exact .inl ⟨rfl, (by intro h; cases h)⟩
    case cfgSaved => exact fun _ => .inl rfl
    case fault => exact .inl rfl
    case fsm => exact .inr (.inr (.inr rfl))
    all_goals (try intros); rfl
  | setEng _ =>
    cases h
    constructor
    case work => exact fun _ => ⟨rfl, rfl, rfl, rfl, rfl⟩
    case hostMem => exact fun x _ => rfl
    case ends => exact .inl ⟨rfl, (by intro h; cases h)⟩
    case cfgSaved => exact fun _ => .inl rfl
    case fault => exact .inl rfl
    case fsm => exact .inl rfl
    all_goals (try intros); rfl
  | dropDesc =>
    cases h
    constructor
    case work => exact fun _ => ⟨rfl, rfl, rfl, rfl, rfl⟩
    case hostMem => exact fun x _ => rfl
    case ends => exact .inl ⟨rfl, (by intro h; cases h)⟩
    case cfgSaved => exact fun _ => .inr ⟨rfl, rfl⟩
    case fault => exact .inl rfl
    case fsm => exact .inl rfl
    case desc => intro h; cases h
    all_goals (try intros); rfl
  | setMmap b =>
    cases h
    constructor
    case work => exact fun _ => ⟨rfl, rfl, rfl, rfl, rfl⟩
    case hostMem => exact fun x _ => rfl
    case ends => exact .inl ⟨rfl, (by intro h; cases h)⟩
    case cfgSaved => exact fun _ => .inl rfl
    case fault => exact .inl rfl
    case fsm => exact .inl rfl
    case mmapActive => intro h; exact absurd rfl (h b)
    all_goals (try intros); rfl
  | emit e =>
    cases h
    constructor
    case work => exact fun _ => ⟨rfl, rfl, rfl, rfl, rfl⟩
    case hostMem => exact fun x _ => rfl
    case ends => exact .inl ⟨rfl, (by intro h; cases h)⟩
    case cfgSaved => exact fun _ => .inl rfl
    case fault => exact .inl rfl
    case fsm => exact .inl rfl
    case trace => intro h; cases h
    all_goals (try intros); rfl
  | setWork r v =>
    cases h
    cases r <;>
    · constructor
      case work => intro h; cases h
      case hostMem => exact fun x _ => rfl
      case ends => exact .inl ⟨rfl, (by intro h; cases h)⟩
      case cfgSaved => exact fun _ => .inl rfl
      case fault => exact .inl rfl
      case fsm => exact .inl rfl
      all_goals (try intros); rfl
  | advance r =>
    cases h
    cases r <;>
    · constructor
      case work => intro h; cases h
      case hostMem => exact fun x _ => rfl
      case ends => exact .inl ⟨rfl, (by intro h; cases h)⟩
      case cfgSaved => exact fun _ => .inl rfl
      case fault => exact .inl rfl
      case fsm => exact .inl rfl
      all_goals (try intros); rfl
  | writeLoop f =>
    cases h
    simp only [State.writeLoop]
    split
    · exact effect_index rfl rfl s f _
    · exact effect_index rfl rfl s f s.todo
  | readLoop f =>
    cases h
    simp only [State.readLoop]
    split
    · exact effect_index rfl rfl s f _
    · exact effect_index rfl rfl s f s.todo
  | compareLoop f q =>
    cases h
    simp only [State.compareLoop]
    split
    · exact effect_index rfl rfl s f _
    · exact effect_index rfl rfl s f s.todo
  | qeCheck =>
    cases h
    simp only [State.qeCheck]
    split
    · exact effect_end rfl s _ _
    · constructor
      case work => exact fun _ => ⟨rfl, rfl, rfl, rfl, rfl⟩
      case hostMem => exact fun x _ => rfl
      case ends => exact .inl ⟨rfl, (by intro _ h; exact absurd (List.append_eq_nil_iff.1 h).2 (by simp))⟩
      case cfgSaved => exact fun _ => .inl rfl
      case fault => exact .inl rfl
      case fsm => exact .inr (.inr (.inr rfl))
      all_goals (try intros); rfl
  | verifyLoop =>
    cases h
    simp only [State.verifyLoop]
    split
    · exact effect_end rfl s _ _
    · exact effect_chosen rfl s _ (by simp [State.chunkOps])
  | blankLoop b =>
    cases h
    simp only [State.blankLoop]
    split
    · exact effect_end rfl s _ _
    · exact effect_chosen rfl s _ (by simp [State.chunkOps])
  | orchFirst =>
    cases h
    simp only [State.orchFirst]
    split
    · exact effect_chosen rfl s _ (by simp)
    · exact effect_orchLoop rfl rfl s
  | orchLoop => cases h; exact effect_orchLoop rfl rfl s
  | bufRead =>
    rw [bufRead_todo h]; exact effect_compared rfl s _ s.todo
  | drWrite =>
    rw [seqOp_drWrite] at h
    cases h
    constructor
    case work => exact fun _ => ⟨by simp, by simp, by simp, by simp, by simp⟩
    case hostMem => exact fun x _ => memByte_eq (by simp) x
    case ends => exact .inl ⟨by simp, (by intro h; cases h)⟩
    case cfgSaved => exact fun _ => .inl (by simp)
    case fault => exact .inl (by simp)
    case fsm => exact .inl (by simp)
    case trace => intro h; cases h
    case reg => intro w _; cases he : s.env <;> cases w <;> simp [State.pushDr, he, regOf]
    case dr => intro h _; exact absurd rfl h
    all_goals (try intros); simp
  | drRead =>
    rw [seqOp_drRead] at h
    cases h
    constructor
    case work => exact fun _ => ⟨by simp, by simp, by simp, by simp, by simp⟩
    case hostMem => exact fun x _ => memByte_eq (by simp) x
    case ends => exact .inl ⟨by simp, (by intro h; cases h)⟩
    case cfgSaved => exact fun _ => .inl (by simp)
    case fault => exact .inl (by simp)
    case fsm => exact .inl (by simp)
    case trace => intro h; cases h
    case reg => intro w _; cases he : s.env <;> cases w <;> simp [State.popDr, he, regOf]
    case dr => intro _ h; exact absurd rfl h
    all_goals (try intros); simp
  | bufWrite =>
    change s.bufWrite s.latchedBuf s.idx.toNat = .next t at h
    cases hb : s.latchedBuf with
    | host a =>
      simp only [hb, State.bufWrite, State.memWrite] at h
      split at h
      · cases h
        constructor
        case work => exact fun _ => ⟨rfl, rfl, rfl, rfl, rfl⟩
        case hostMem => exact fun x hx => cellRead_write_ne _ _ (hx rfl a hb)
        case ends => exact .inl ⟨rfl, (by intro h; cases h)⟩
        case cfgSaved => exact fun _ => .inl rfl
        case fault => exact .inl rfl
        case fsm => exact .inl rfl
        all_goals (try intros); rfl
      · cases h
    | stg =>
      simp only [hb, State.bufWrite, State.stgWrite] at h
      split at h
      · cases h
        constructor
        case work => exact fun _ => ⟨rfl, rfl, rfl, rfl, rfl⟩
        case hostMem => exact fun x _ => rfl
        case ends => exact .inl ⟨rfl, (by intro h; cases h)⟩
        case cfgSaved => exact fun _ => .inl rfl
        case fault => exact .inl rfl
        case fsm => exact .inl rfl
        case stg => intro h; exact absurd hb (h rfl)
        all_goals (try intros); rfl
      · cases h
    | cfgbuf =>
      simp only [hb, State.bufWrite] at h
      cases h
      constructor
      case work => exact fun _ => ⟨rfl, rfl, rfl, rfl, rfl⟩
      case hostMem => exact fun x _ => rfl
      case ends => exact .inl ⟨rfl, (by intro h; cases h)⟩
      case cfgSaved => exact fun _ => .inl rfl
      case fault => exact .inl rfl
      case fsm => exact .inl rfl
      case cfgbuf => intro h _; exact absurd hb (h rfl)
      all_goals (try intros); rfl
  | fetchStg =>
    simp only [seqOp, State.stgRead] at h
    split at h
    · cases h; exact effect_compared rfl s _ s.todo
    · cases h
  | compareHost =>
    simp only [seqOp, State.compareHost] at h
    split at h
    · cases h
      split
      · exact effect_compared rfl s s.tmpByte s.todo
      · exact effect_compared rfl s s.tmpByte _
    · cases h
  | compareStg b =>
    obtain ⟨u, hu, hv⟩ := andThen_next h
    simp only [State.stgRead] at hu
    split at hu
    · cases hu; cases hv
      split
      · exact effect_compared rfl s _ s.todo
      · exact effect_compared rfl s _ _
    · cases hu
  | raise st =>
    cases h
    constructor
    case work => exact fun _ => ⟨rfl, rfl, rfl, rfl, rfl⟩
    case hostMem => exact fun x _ => rfl
    case ends => exact .inr ⟨rfl, rfl, rfl, rfl, rfl, _, _, rfl⟩
    case cfgSaved => exact fun _ => .inr ⟨rfl, rfl⟩
    case fault => exact .inl rfl
    case fsm => exact .inr (.inr (.inl ⟨rfl, rfl, rfl, rfl, rfl, _, _, rfl⟩))
    case cfgbuf => intro _ _ h; simp [State.raiseStatus, State.restoreCfg, State.endCommand, h st rfl]
    case desc => intro h; cases h
    all_goals (try intros); rfl
  | finish st n => cases h; exact effect_end rfl s _ _

end Sys2Proof.Laws
end

