-- ==== Sys2Proof/Laws/Memory.lean ====
section
/-! SUPPORT. Every operation keeps the canonical form of the memories and their bounds (20_memory.md R60, 10_state.md R30,
R55), and the launch state has it. -/

namespace Sys2Proof.Laws

open Sys2Proof.Machine

/-- The flash array is canonical and lies below `P_SIZE`. -/
def arrayWf (p : Params) (d : RefDev) : Bool :=
  cellsWf arrayDefault d.array && d.array.all (fun c => decide (c.1 < p.size))

/-- The environment's memory. -/
def envWf (p : Params) : Env → Bool
  | .envelope => true
  | .reference d => arrayWf p d

theorem memoryWf_iff (s : State) : s.memoryWf = true ↔
    (cellsWf hostDefault s.hostMem = true ∧ s.hostMem.all (fun c => decide (c.1 < 2 ^ Config.hostAddrBits)) = true) ∧
    (cellsWf stgDefault s.stg = true ∧ s.stg.all (fun c => decide (c.1 < s.params.page)) = true) ∧
    envWf s.params s.env = true := by
  cases he : s.env <;> simp [State.memoryWf, envWf, arrayWf, he, and_assoc]

/-- What has the same memories and the same parameters has the same form. -/
theorem memoryWf_same {s t : State} (h : s.memoryWf = true) (hp : t.params = s.params) (hm : t.hostMem = s.hostMem)
    (hg : t.stg = s.stg) (he : envWf s.params t.env = true) : t.memoryWf = true := by
  rw [memoryWf_iff] at h ⊢
  rw [hp, hm, hg]
  exact ⟨h.1, h.2.1, he⟩

theorem envWf_of {s : State} (h : s.memoryWf = true) : envWf s.params s.env = true := ((memoryWf_iff s).1 h).2.2

/-! ### The device -/

theorem arrayWf_command {p : Params} {free : Nat → Byte} {op : Byte} {a : Word} {data : List Byte} {d : RefDev}
    (h : arrayWf p d = true) : arrayWf p (d.command p free op a data) = true := by
  simp only [arrayWf, Bool.and_eq_true] at h ⊢
  exact command_array h.1 h.2

theorem arrayWf_sample {p : Params} {r : Regs} {d : RefDev} (h : arrayWf p d = true) : arrayWf p (d.sample p r).2 = true := by
  have : (d.sample p r).2.array = d.array := by
    simp only [RefDev.sample, RefDev.injected]
    split
    · simp only [RefDev.evaluate]; split <;> rfl
    · rfl
  simpa only [arrayWf, this] using h

theorem arrayWf_onWrite {p : Params} {free : Nat → Byte} {r : Regs} {w : WholeReg} {v : Word} {d : RefDev}
    (h : arrayWf p d = true) : arrayWf p (d.onWrite p free r w v) = true := by
  cases w with
  | ccr => simp only [RefDev.onWrite, RefDev.onCcr]; split <;> exact h
  | ar =>
    simp only [RefDev.onWrite, RefDev.onAr]
    split
    · split
      · exact arrayWf_command h
      · exact h
    · split
      · exact arrayWf_command h
      · split <;> exact h
  | _ => exact h

theorem arrayWf_onCr {p : Params} {v : Word} {d : RefDev} (h : arrayWf p d = true) : arrayWf p (d.onCr v) = true := by
  simp only [RefDev.onCr]
  split <;> split <;> exact h

theorem arrayWf_pushDr {p : Params} {free : Nat → Byte} {b : Byte} {d : RefDev} (h : arrayWf p d = true) :
    arrayWf p (d.pushDr p free b) = true := by
  simp only [RefDev.pushDr]
  split
  · split
    · exact arrayWf_command h
    · exact h
  · exact h

theorem arrayWf_popDr {p : Params} {d : RefDev} (h : arrayWf p d = true) : arrayWf p d.popDr.2 = true := by
  simp only [RefDev.popDr]
  split <;> exact h

/-! ### The operations -/

theorem memoryWf_readSr {s : State} (h : s.memoryWf = true) : s.readSr.2.memoryWf = true := by
  refine memoryWf_same h (by simp) (by simp) (by simp) ?_
  have := envWf_of h
  cases he : s.env with
  | envelope => simp [State.readSr, he, envWf]
  | reference d => rw [he] at this; simpa [State.readSr, he, envWf] using arrayWf_sample this

theorem memoryWf_writeReg {s : State} (w : WholeReg) (v : Word) (h : s.memoryWf = true) :
    (s.writeReg w v).memoryWf = true := by
  refine memoryWf_same h (by simp) (by simp) (by simp) ?_
  have := envWf_of h
  cases he : s.env with
  | envelope => simp [State.writeReg, he, envWf]
  | reference d => rw [he] at this; simpa [State.writeReg, he, envWf] using arrayWf_onWrite this

theorem memoryWf_readCr {s : State} (h : s.memoryWf = true) : s.readCr.memoryWf = true := by
  refine memoryWf_same h (by simp) (by simp) (by simp) ?_
  have := envWf_of h
  cases he : s.env with
  | envelope => simp [State.readCr, he, envWf]
  | reference d => rw [he] at this; simpa [State.readCr, he, envWf] using this

theorem memoryWf_writeCr {s : State} (e : CrEdit) (h : s.memoryWf = true) : (s.writeCr e).memoryWf = true := by
  refine memoryWf_same h (by simp) (by simp) (by simp) ?_
  have := envWf_of h
  cases he : s.env with
  | envelope => simp [State.writeCr, State.putCr, he, envWf]
  | reference d => rw [he] at this; simpa [State.writeCr, State.putCr, he, envWf] using arrayWf_onCr this

theorem memoryWf_pushDr {s : State} (h : s.memoryWf = true) : s.pushDr.memoryWf = true := by
  refine memoryWf_same h (by simp) (by simp) (by simp) ?_
  have := envWf_of h
  cases he : s.env with
  | envelope => simp [State.pushDr, he, envWf]
  | reference d => rw [he] at this; simpa [State.pushDr, he, envWf] using arrayWf_pushDr this

theorem memoryWf_popDr {s : State} (h : s.memoryWf = true) : s.popDr.memoryWf = true := by
  refine memoryWf_same h (by simp) (by simp) (by simp) ?_
  have := envWf_of h
  cases he : s.env with
  | envelope => simp [State.popDr, he, envWf]
  | reference d => rw [he] at this; simpa [State.popDr, he, envWf] using arrayWf_popDr this

/-- A write of host memory keeps the form: it lies where the launch memory admits it, below `2^32`. -/
theorem memoryWf_memWrite {s t : State} {a : Nat} {b : Byte} (h : s.memoryWf = true) (ht : s.memWrite a b = .next t) :
    t.memoryWf = true := by
  simp only [State.memWrite] at ht
  split at ht
  · rename_i ha
    cases ht
    have hlt : a < 2 ^ Config.hostAddrBits := by
      simp only [State.admits, List.any_eq_true, Bool.and_eq_true, decide_eq_true_eq] at ha
      obtain ⟨-, -, -, hlt⟩ := ha
      exact hlt
    rw [memoryWf_iff] at h ⊢
    exact ⟨⟨cellWrite_wf h.1.1, cellWrite_all (p := fun o => decide (o < 2 ^ Config.hostAddrBits)) h.1.2 (by simpa using hlt)⟩,
      h.2⟩
  · cases ht

/-- A write of the staging buffer keeps the form. -/
theorem memoryWf_stgWrite {s t : State} {k : Nat} {b : Byte} (h : s.memoryWf = true) (ht : s.stgWrite k b = .next t) :
    t.memoryWf = true := by
  simp only [State.stgWrite] at ht
  split at ht
  · rename_i hk
    cases ht
    rw [memoryWf_iff] at h ⊢
    exact ⟨h.1, ⟨cellWrite_wf h.2.1.1, cellWrite_all (p := fun o => decide (o < s.params.page)) h.2.1.2 (by simpa using hk)⟩,
      h.2.2⟩
  · cases ht

theorem memoryWf_bufWrite {s t : State} {b : BufRef} {i : Nat} (h : s.memoryWf = true) (ht : s.bufWrite b i = .next t) :
    t.memoryWf = true := by
  cases b with
  | host a => exact memoryWf_memWrite h ht
  | stg => exact memoryWf_stgWrite h ht
  | cfgbuf => cases ht; exact h

theorem memoryWf_entered (i : Instr) {s : State} (h : s.memoryWf = true) : (entered i s).memoryWf = true := by
  cases i <;> exact h

/-- Every start keeps the form. -/
theorem memoryWf_start {i : Instr} {s t : State} (h : s.memoryWf = true) (ht : startInstr i s = .next t) :
    t.memoryWf = true := by
  rcases start_any ht with ⟨f, rfl⟩ | ⟨-, f, rfl⟩ | hb | ⟨-, -, rfl⟩
  · exact h
  · split <;> exact h
  · cases hb <;> first | exact h | exact memoryWf_entered i h
  · exact memoryWf_entered i h

theorem memoryWf_orchLoop {s : State} (h : s.memoryWf = true) : s.orchLoop.memoryWf = true := by
  simp only [State.orchLoop]
  split
  · exact h
  · split <;> exact h

/-- Every sequencer step keeps the form. -/
theorem memoryWf_seqOp {o : Op} {s t : State} (h : s.memoryWf = true) (ht : seqOp o s = .next t) : t.memoryWf = true := by
  cases o with
  | issue x => exact memoryWf_start h ht
  | configWrite =>
    rcases startEngine_next (show s.startEngine _ _ = .next t from ht) with ⟨f, rfl⟩ | ⟨rfl, -⟩ <;> exact h
  | callPage => cases ht; unfold State.callPage; split <;> exact h
  | wait c k =>
    cases ht
    rw [waitSample_eq]
    have := memoryWf_readSr h
    simp only [State.onWait, State.sampleAgain]
    split
    · exact this
    · split
      · exact this
      · split <;> exact this
  | abortWait k =>
    cases ht
    rw [abortSample_eq]
    have := memoryWf_readSr h
    simp only [State.onAbortWait, State.sampleAgain]
    split
    · exact this
    · split
      · split <;> exact this
      · split
        · split <;> exact this
        · exact this
  | writeReg r v => rw [seqOp_writeReg] at ht; cases ht; exact memoryWf_writeReg r v h
  | readCr => rw [seqOp_readCr] at ht; cases ht; exact memoryWf_readCr h
  | writeCr e => rw [seqOp_writeCr] at ht; cases ht; exact memoryWf_writeCr e h
  | drWrite => rw [seqOp_drWrite] at ht; cases ht; exact memoryWf_pushDr h
  | drRead => rw [seqOp_drRead] at ht; cases ht; exact memoryWf_popDr h
  | bufWrite => exact memoryWf_bufWrite h ht
  | bufRead => rw [bufRead_todo ht]; exact h
  | setWork r v => cases ht; cases r <;> exact h
  | advance r => cases ht; cases r <;> exact h
  | fetchStg =>
    simp only [seqOp, State.stgRead] at ht
    split at ht
    · cases ht; exact h
    · cases ht
  | compareHost =>
    simp only [seqOp, State.compareHost] at ht
    split at ht
    · cases ht; split <;> exact h
    · cases ht
  | compareStg b =>
    obtain ⟨u, hu, hv⟩ := andThen_next ht
    simp only [State.stgRead] at hu
    split at hu
    · cases hu; cases hv; split <;> exact h
    · cases hu
  | writeLoop _ | readLoop _ | qeCheck | verifyLoop | blankLoop _ | compareLoop _ _ =>
    cases ht
    simp only [State.writeLoop, State.readLoop, State.qeCheck, State.verifyLoop, State.blankLoop, State.compareLoop]
    split <;> exact h
  | orchFirst =>
    cases ht
    simp only [State.orchFirst]
    split
    · exact h
    · exact memoryWf_orchLoop h
  | orchLoop => cases ht; exact memoryWf_orchLoop h
  | _ => cases ht; exact h

/-- A run keeps the form. -/
theorem memoryWf_run {s : State} (n : Nat) (h : s.memoryWf = true) : (runSeq n s).memoryWf = true :=
  runSeq_keeps (P := fun s => s.memoryWf = true) (fun s _ rest _ hs _ _ ho => memoryWf_seqOp (s := s.takeOp rest) hs ho) n h

/-- Every instruction keeps the form. -/
theorem memoryWf_exec {i : Instr} {s t : State} (h : s.memoryWf = true) (ht : exec i s = .next t) : t.memoryWf = true := by
  rw [exec_eq] at ht
  obtain ⟨u, hu, rfl⟩ := thenRun_next ht
  exact memoryWf_run _ (memoryWf_start h hu)

theorem memoryWf_readValue {s : State} (v : Option Word) (h : s.memoryWf = true) : (s.readValue v).memoryWf = true := by
  cases v <;> exact h

/-- Every host action keeps the form. -/
theorem memoryWf_hostAction {a : HostAction} {s t : State} (h : s.memoryWf = true) (ht : hostAction a s = .next t) :
    t.memoryWf = true := by
  cases a with
  | portWrite off v =>
    simp only [hostAction, portWrite, cmdrWrite] at ht
    split at ht
    · cases ht
    · split at ht
      · split at ht
        · cases ht; exact h
        · split at ht
          · cases ht; exact h
          · exact memoryWf_exec h ht
      · split at ht <;> (cases ht; exact h)
      all_goals cases ht; exact h
  | portRead off =>
    simp only [hostAction, portRead] at ht
    split at ht <;> cases ht
    all_goals first | exact h | exact memoryWf_readValue _ h
  | windowLoad a w =>
    simp only [hostAction, windowLoad] at ht
    split at ht
    · cases ht
    · split at ht <;> (cases ht; exact h)
  | windowStore a w v =>
    simp only [hostAction, windowStore] at ht
    split at ht
    · cases ht
    · cases ht; exact h
  | memWrite a b =>
    simp only [hostAction, hostMemWrite] at ht
    split at ht
    · cases ht
    · exact memoryWf_memWrite h ht

/-- Every step keeps the form. -/
theorem memoryWf_step {s t : State} (h : s.memoryWf = true) (ht : step s = .next t) : t.memoryWf = true := by
  simp only [step] at ht
  split at ht
  · simp only [agentStep] at ht
    split at ht
    · split at ht
      · cases ht; exact h
      · refine memoryWf_hostAction ?_ ht; exact h
    · split at ht
      · cases ht
      · split at ht
        · cases ht; exact h
        · exact memoryWf_exec (s := s.takeOp _) h ht
        · obtain ⟨u, hu, rfl⟩ := thenRun_next ht
          exact memoryWf_run _ (memoryWf_seqOp (s := s.takeOp _) h hu)
  · cases ht

theorem memoryWf_reset : State.reset.memoryWf = true := by decide

end Sys2Proof.Laws
end

