-- ==== Sys2Proof/Laws/Frames.lean ====
section
/-! SUPPORT. Which steps a command of each instruction can come to, and what they find: the ground of every frame. -/

namespace Sys2Proof.Laws

open Sys2Proof.Machine

set_option maxRecDepth 4000

/-! ### The steps of an instruction -/

/-- `E_ABORT` and `E_DEINIT`. -/
def stops (i : Instr) : Bool := i == .eAbort || i == .eDeinit

/-- The command `i`, whose host target is `g`, may issue the transaction `x`. -/
def mayIssue (i : Instr) (g : Option (Nat × Nat)) (x : Instr) : Bool :=
  Instr.code x == 0 && (!polls x || polls i) && (maps x == maps i) && (!configures x || configures i) &&
  (!stages x || stages i) && !stops i &&
  match x with
  | .tQread _ n (.host a) => g == some (a.toNat, n.toNat)
  | _ => true

/-- The steps that a command of `i`, whose host target is `g`, can come to. -/
def may (i : Instr) (g : Option (Nat × Nat)) : Op → Bool
  | .issue x => mayIssue i g x
  | .configWrite => configures i && !maps i && !stops i
  | .callPage => polls i && works i && !maps i && !stops i
  | .writeReg .psmar _ | .writeReg .psmkr _ | .writeReg .pir _ => polls i
  | .writeReg .lptr _ => maps i
  | .writeReg .dlr _ | .writeReg .ar _ => !maps i && !stops i
  | .writeReg .ccr _ | .writeReg .abr _ => !stops i
  | .writeReg .fcr _ => true
  | .writeCr (.poll _ _) => polls i
  | .writeCr (.tcen _) => maps i
  | .writeCr .abort => i == .eAbort
  | .writeCr .disable => i == .eDeinit
  | .setMmap _ => maps i || stops i
  | .emit _ => !stops i
  | .writeLoop _ | .readLoop _ | .bufRead | .bufWrite | .drWrite | .drRead => !maps i && !stops i
  | .qeCheck => i == .init
  | .setWork _ _ | .advance _ => works i
  | .verifyLoop | .blankLoop _ => stages i && works i && !maps i && !stops i
  | .compareLoop _ _ | .fetchStg | .compareHost | .compareStg _ => stages i && !maps i && !stops i
  | .orchFirst | .orchLoop => polls i && works i && !maps i && !stops i
  | .setFsm f => f != .idle
  | .setEng _ | .wait _ _ | .abortWait _ | .readCr | .dropDesc | .raise _ | .finish _ _ => true

theorem may_setup {i : Instr} {g : Option (Nat × Nat)} (hs : stops i = false) (hm : maps i = false) (op : EngineOp) (h : Header)
    (fm : FrameMode) (n : Word) : (setupOps op h fm n).all (may i g) = true := by
  unfold setupOps; split <;> simp [may, hs, hm]

theorem may_write {i : Instr} {g : Option (Nat × Nat)} (hs : stops i = false) (hm : maps i = false) (t : Transaction) :
    (writeOps t).all (may i g) = true := by
  simp [startOps, writeOps, may_setup hs hm, may, endOfTransferOps, hs, hm]

theorem may_read {i : Instr} {g : Option (Nat × Nat)} (hs : stops i = false) (hm : maps i = false) (t : Transaction) :
    (readOps t).all (may i g) = true := by
  simp [startOps, readOps, may_setup hs hm, may, endOfTransferOps, hs, hm]

theorem may_poll {i : Instr} {g : Option (Nat × Nat)} (hs : stops i = false) (hm : maps i = false) (hp : polls i = true)
    (d : PollDescriptor) : (pollOps d).all (may i g) = true := by
  simp [startOps, pollOps, may_setup hs hm, may, hp]

theorem may_map {i : Instr} {g : Option (Nat × Nat)} (hs : stops i = false) (hm : maps i = true) (d : MemoryMapDescriptor) :
    (mapOps d).all (may i g) = true := by
  simp [startOps, mapOps, may, hs, hm]

/-- The engine steps of a transaction that `i` may issue. -/
theorem may_plan {i x : Instr} {g : Option (Nat × Nat)} (p : Params) (h : mayIssue i g x = true) :
    (txPlan p x).2.all (may i g) = true := by
  simp only [mayIssue, Bool.and_eq_true, beq_iff_eq, Bool.or_eq_true, Bool.not_eq_true'] at h
  obtain ⟨⟨⟨⟨⟨⟨hc, hp⟩, hm⟩, -⟩, -⟩, hs⟩, -⟩ := h
  cases x with
  | tPollWel | tPollWip => exact may_poll hs hm.symm (by simpa [polls] using hp) _
  | tQreadMmap => exact may_map hs hm.symm _
  | tRdcr | tQread _ _ _ => exact may_read hs hm.symm _
  | tWren | tRsten | tRst | tWrvcr | tSe _ | tCe | tQpp _ _ _ => exact may_write hs hm.symm _
  | _ => exact absurd hc (by decide)

/-- The steps of a transaction that `i` may issue. -/
theorem may_ops {i x : Instr} {g : Option (Nat × Nat)} (p : Params) (h : mayIssue i g x = true) :
    (txOps p x).all (may i g) = true := by
  by_cases hw : x = .tWrvcr
  · subst hw
    have hc : configures .tWrvcr = true := rfl
    have hm : maps .tWrvcr = false := rfl
    simp only [mayIssue, hc, hm, Bool.and_eq_true, beq_iff_eq, Bool.or_eq_true, Bool.not_eq_true'] at h
    obtain ⟨⟨⟨⟨⟨-, hm⟩, hc⟩, -⟩, hs⟩, -⟩ := h
    simp only [txOps, List.all_cons, List.all_nil, may, ← hm, hs, hc.resolve_left (by simp), Bool.not_false, Bool.and_self]
  · rw [txOps_other hw]; exact may_plan p h

/-- The transactions of the write-enable and busy protocols. -/
theorem may_protocol {i : Instr} {g : Option (Nat × Nat)} (hp : polls i = true) (hm : maps i = false)
    (hs : stops i = false) : mayIssue i g .tWren = true ∧ mayIssue i g .tPollWel = true ∧ mayIssue i g .tPollWip = true := by
  refine ⟨?_, ?_, ?_⟩ <;> (simp only [mayIssue, hp, hm, hs]; rfl)

/-- The steps of a mutating command's protocols. -/
theorem may_mutate {i x : Instr} {g : Option (Nat × Nat)} (hp : polls i = true) (hm : maps i = false) (hs : stops i = false)
    (hx : mayIssue i g x = true) : (mutateOps x).all (may i g) = true := by
  obtain ⟨h1, h2, h3⟩ := may_protocol (g := g) hp hm hs
  show (mayIssue i g .tWren && (mayIssue i g .tPollWel && (true && (true && (mayIssue i g x && (true &&
    (mayIssue i g .tPollWip && true))))))) = true
  rw [hx, h1, h2, h3]
  rfl

theorem may_qpp {i : Instr} {g : Option (Nat × Nat)} (hm : maps i = false) (hs : stops i = false) (a n b : Word) :
    mayIssue i g (.tQpp a n b) = true := by
  simp only [mayIssue, hm, hs]; rfl

theorem may_stage {i : Instr} {g : Option (Nat × Nat)} (hg : stages i = true) (hm : maps i = false) (hs : stops i = false)
    (a n : Word) : mayIssue i g (.tQread a n .stg) = true := by
  simp only [mayIssue, hm, hs, hg]; rfl

/-- The steps of `INIT` after its configuration read. -/
theorem may_quadEnable (p : Params) (g : Option (Nat × Nat)) :
    (quadEnableOps p ++ [Op.finish .ok 0]).all (may .init g) = true := by
  have hw : mayIssue .init g .tWrvcr = true := rfl
  have hn : mayIssue .init g .tWren = true := rfl
  have h1 : mayIssue .init g .tPollWel = true := rfl
  have h2 : mayIssue .init g .tPollWip = true := rfl
  unfold quadEnableOps
  cases p.initWelPoll <;> cases p.initCfgBusyPoll <;> rfl

/-- Every step leads to steps that the command can come to. -/
theorem may_next {i : Instr} {g : Option (Nat × Nat)} {p : Params} {o : Op} {l l' : List Op} (h : Next p o l l')
    (ho : may i g o = true) (hl : l.all (may i g) = true) : l'.all (may i g) = true := by
  cases h with
  | same => exact hl
  | issue hc => rw [List.all_append, hl, may_ops p (by exact ho)]; rfl
  | config =>
    simp only [may, Bool.and_eq_true, Bool.not_eq_true'] at ho
    rw [List.all_append, hl, may_write ho.2 ho.1.2]; rfl
  | call =>
    simp only [may, Bool.and_eq_true, Bool.not_eq_true'] at ho
    rw [List.all_append, hl, may_mutate ho.1.1.1 ho.1.2 ho.2 (may_qpp ho.1.2 ho.2 _ _ _)]
    rfl
  | qeSet =>
    have : i = .init := by simpa only [may, beq_iff_eq] using ho
    subst this
    exact may_quadEnable p g
  | verifyMore =>
    simp only [may, Bool.and_eq_true, Bool.not_eq_true'] at ho
    simp only [verifyTail, List.all_cons, List.all_nil, may, may_stage ho.1.1.1 ho.1.2 ho.2, ho, Bool.not_false, Bool.and_self]
  | blankMore =>
    simp only [may, Bool.and_eq_true, Bool.not_eq_true'] at ho
    simp only [blankTail, List.all_cons, List.all_nil, may, may_stage ho.1.1.1 ho.1.2 ho.2, ho, Bool.not_false, Bool.and_self]
  | firstPage | firstLast | wholePage | lastPart =>
    simp only [may, Bool.and_eq_true, Bool.not_eq_true'] at ho
    simp [orchTail, List.all_cons, List.all_nil, may, ho, Bool.not_false, Bool.and_self]
  | @compare f q l =>
    simp only [may, Bool.and_eq_true, Bool.not_eq_true'] at ho
    cases q <;> simp only [compareOps, List.cons_append, List.nil_append, List.all_cons, may, ho, hl, Bool.not_false, Bool.and_self]
  | writeLoop | readLoop =>
    simp only [may, Bool.and_eq_true, Bool.not_eq_true'] at ho
    simp only [List.all_cons, may, ho, hl, Bool.not_false, Bool.and_self]
  | waitAgain | abortAgain | ack => simp only [List.all_cons, may, hl, Bool.and_self]
  | faultIssue | faultConfig | faultCall | raise | finish => rfl
  | waitError | waitOver | abortError | abortOver | ackOver | qeDone | verifyDone | blankDone | hostMismatch | stgMismatch | firstDone | lastDone =>
    rfl

/-! ### Where the steps stand -/

/-- A step of the byte loop of `E_READ` that stores, now or later. -/
def storing : Op → Bool
  | .readLoop _ | .bufWrite => true
  | _ => false

/-- A step after which no store of the operation in progress is left. -/
def closesRead : Op → Bool
  | .issue _ | .configWrite | .callPage | .dropDesc => true
  | _ => false

/-- A step that moves the byte index: the head of a loop. -/
def movesIdx : Op → Bool
  | .writeLoop _ | .readLoop _ | .compareLoop _ _ => true
  | _ => false

def isBufWrite : Op → Bool
  | .bufWrite => true
  | _ => false

def isWriteCr : Op → Bool
  | .writeCr _ => true
  | _ => false

def isReadCr : Op → Bool
  | .readCr => true
  | _ => false

/-- The head of the list is a write of `CR`. -/
def headCr : List Op → Bool
  | o :: _ => isWriteCr o
  | [] => false

@[simp] theorem headCr_nil : headCr [] = false := rfl

@[simp] theorem headCr_cons (o : Op) (l : List Op) : headCr (o :: l) = isWriteCr o := rfl

/-- No store stands after the operation's end, no store after the index moves, and every write of `CR` but one at the head
comes right after its read. -/
def tidy : List Op → Bool
  | [] => true
  | o :: l =>
    (!closesRead o || !l.any storing) && (!movesIdx o || !l.any isBufWrite) && (!headCr l || isReadCr o) && tidy l

/-- A block of steps that may stand before any tidy list: tidy, no store at its end's far side, no write of `CR` first. -/
theorem tidy_append {P l : List Op} (hP : tidy P = true) (hl : tidy l = true) (hn : headCr l = false)
    (h1 : l.any storing = false ∨ P.any closesRead = false) (h2 : l.any isBufWrite = false ∨ P.any movesIdx = false) :
    tidy (P ++ l) = true := by
  induction P with
  | nil => exact hl
  | cons o P ih =>
    simp only [tidy, Bool.and_eq_true, Bool.or_eq_true, Bool.not_eq_true'] at hP
    obtain ⟨⟨⟨p1, p2⟩, p3⟩, p4⟩ := hP
    have ih' := ih p4 (h1.imp id fun h => by simp_all) (h2.imp id fun h => by simp_all)
    simp only [List.cons_append, tidy, ih', Bool.and_true, Bool.and_eq_true, Bool.or_eq_true, Bool.not_eq_true',
      List.any_append, Bool.or_eq_false_iff]
    refine ⟨⟨?_, ?_⟩, ?_⟩
    · rcases h1 with h1 | h1
      · exact p1.imp id fun h => ⟨h, h1⟩
      · exact .inl (by simp_all)
    · rcases h2 with h2 | h2
      · exact p2.imp id fun h => ⟨h, h2⟩
      · exact .inl (by simp_all)
    · cases P with
      | nil => exact .inl hn
      | cons a P => exact p3

/-! ### The plans are tidy -/

theorem setup_tidy (op : EngineOp) (h : Header) (fm : FrameMode) (n : Word) (l : List Op) (hl : tidy l = true)
    (hn : headCr l = false) : tidy (setupOps op h fm n ++ l) = true ∧ headCr (setupOps op h fm n ++ l) = false := by
  unfold setupOps; split <;> simp [tidy, hl, closesRead, movesIdx, hn, isWriteCr]

theorem plan_cases (p : Params) {x : Instr} (hx : Instr.code x = 0) :
    (∃ t, txPlan p x = (.transfer t, writeOps t)) ∨
    (∃ t, txPlan p x = (.transfer t, readOps t) ∧
      ((x = .tRdcr ∧ t.buf = .cfgbuf) ∨ ∃ a n b, x = .tQread a n b ∧ t.buf = b ∧ t.len = n)) ∨
    (∃ d, txPlan p x = (.poll d, pollOps d)) ∨ ∃ d, txPlan p x = (.map d, mapOps d) := by
  cases x with
  | tPollWel => exact .inr (.inr (.inl ⟨statusPoll p p.welMask p.welMask, rfl⟩))
  | tPollWip => exact .inr (.inr (.inl ⟨statusPoll p 0 p.wipMask, rfl⟩))
  | tQreadMmap => exact .inr (.inr (.inr ⟨quadReadMap p, rfl⟩))
  | tRdcr => exact .inr (.inl ⟨configRead p, rfl, .inl ⟨rfl, rfl⟩⟩)
  | tQread a n b => exact .inr (.inl ⟨quadRead p a n b, rfl, .inr ⟨a, n, b, rfl, rfl, rfl⟩⟩)
  | tWren => exact .inl ⟨commandOnly (plainHeader p.opc.wren), rfl⟩
  | tRsten => exact .inl ⟨commandOnly (plainHeader p.opc.rsten), rfl⟩
  | tRst => exact .inl ⟨commandOnly (plainHeader p.opc.rst), rfl⟩
  | tWrvcr => exact .inl ⟨configWrite p, rfl⟩
  | tSe a => exact .inl ⟨commandOnly (sectorEraseHeader p a), rfl⟩
  | tCe => exact .inl ⟨commandOnly (plainHeader p.opc.ce), rfl⟩
  | tQpp a n b => exact .inl ⟨quadProgram p a n b, rfl⟩
  | _ => exact absurd hx (by decide)

theorem write_tidy (t : Transaction) : tidy (writeOps t) = true := by
  have := setup_tidy .eWrite t.hdr .indirectWrite t.len (.writeLoop true :: endOfTransferOps) (by decide) (by decide)
  simp only [writeOps, startOps, List.append_assoc, List.cons_append, List.nil_append]
  simp [tidy, this, closesRead, movesIdx, isWriteCr]

theorem read_tidy (t : Transaction) : tidy (readOps t) = true := by
  have := setup_tidy .eRead t.hdr .indirectRead t.len (.readLoop true :: endOfTransferOps) (by decide) (by decide)
  simp only [readOps, startOps, List.append_assoc, List.cons_append, List.nil_append]
  simp [tidy, this, closesRead, movesIdx, isWriteCr]

theorem poll_tidy (d : PollDescriptor) : tidy (pollOps d) = true := by
  have := setup_tidy .ePoll d.hdr .autoPoll (BitVec.ofNat 32 d.sample)
    [.setEng .waitSm, .wait .statusMatch 0, .writeReg .fcr fcrCsmf, .setEng .idle, .dropDesc] (by decide) (by decide)
  simp only [pollOps, startOps, List.cons_append, List.nil_append]
  simp [tidy, this, closesRead, movesIdx, isWriteCr, isReadCr]

theorem map_tidy (d : MemoryMapDescriptor) : tidy (mapOps d) = true := by
  simp [mapOps, startOps, tidy, closesRead, movesIdx, isWriteCr, isReadCr]

theorem plan_tidy (p : Params) {x : Instr} (hx : Instr.code x = 0) :
    tidy (txPlan p x).2 = true ∧ headCr (txPlan p x).2 = false ∧ (txPlan p x).2 ≠ [] := by
  rcases plan_cases p hx with ⟨t, h⟩ | ⟨t, h, -⟩ | ⟨d, h⟩ | ⟨d, h⟩ <;> rw [h]
  · exact ⟨write_tidy t, by simp [writeOps, startOps, isWriteCr], by simp [writeOps, startOps]⟩
  · exact ⟨read_tidy t, by simp [readOps, startOps, isWriteCr], by simp [readOps, startOps]⟩
  · exact ⟨poll_tidy d, by simp [pollOps, startOps, isWriteCr], by simp [pollOps, startOps]⟩
  · exact ⟨map_tidy d, by simp [mapOps, startOps, isWriteCr], by simp [mapOps, startOps]⟩

theorem ops_tidy (p : Params) {x : Instr} (hx : Instr.code x = 0) :
    tidy (txOps p x) = true ∧ headCr (txOps p x) = false ∧ txOps p x ≠ [] := by
  by_cases hw : x = .tWrvcr
  · subst hw; exact ⟨rfl, rfl, by simp [txOps]⟩
  · rw [txOps_other hw]; exact plan_tidy p hx

theorem no_bufWrite {l : List Op} (h : l.any storing = false) : l.any isBufWrite = false := by
  rw [List.any_eq_false] at h ⊢
  intro y hy hw
  exact h y hy (by cases y <;> simp_all [isBufWrite, storing])

/-- Every step but a read of `CR` leads to a tidy list with no write of `CR` at its head. -/
theorem tidy_next {p : Params} {o : Op} {l l' : List Op} (h : Next p o l l') (ht : tidy (o :: l) = true) :
    tidy l' = true ∧ (headCr l' = true → isReadCr o = true) := by
  simp only [tidy, Bool.and_eq_true, Bool.or_eq_true, Bool.not_eq_true'] at ht
  obtain ⟨⟨⟨h1, h2⟩, h3⟩, h4⟩ := ht
  have hclose : closesRead o = true → l.any storing = false ∧ l.any isBufWrite = false := fun hc =>
    have hs := h1.resolve_left (by simp [hc])
    ⟨hs, no_bufWrite hs⟩
  have app : ∀ P : List Op, tidy P = true → headCr P = false → P ≠ [] → closesRead o = true → isReadCr o = false →
      tidy (P ++ l) = true ∧ (headCr (P ++ l) = true → isReadCr o = true) := by
    intro P hP hh hne hc hr
    refine ⟨tidy_append hP h4 (h3.resolve_right (by simp [hr])) (.inl (hclose hc).1) (.inl (hclose hc).2), fun hx => ?_⟩
    cases P with
    | nil => exact absurd rfl hne
    | cons y ys => exact absurd hx (by simpa using hh)
  cases h with
  | same => exact ⟨h4, fun hc => h3.resolve_left (by simp [hc])⟩
  | issue hc =>
    obtain ⟨a, b, c⟩ := ops_tidy p hc
    exact app _ a b c rfl rfl
  | config => exact app _ (write_tidy _) (by simp [writeOps, startOps, isWriteCr]) (by simp [writeOps, startOps]) rfl rfl
  | call => exact app _ rfl rfl (by simp [mutateOps, wenOps]) rfl rfl
  | qeSet =>
    refine ⟨?_, fun hh => absurd hh ?_⟩ <;> unfold quadEnableOps <;> cases p.initWelPoll <;> cases p.initCfgBusyPoll <;> decide
  | @compare f q =>
    have hn : headCr l = false := h3.resolve_right (by simp [isReadCr])
    cases q <;> simp_all [tidy, compareOps, closesRead, movesIdx, isWriteCr, isBufWrite, storing, isReadCr]
  | waitAgain | abortAgain | ack | writeLoop | readLoop =>
    have hn : headCr l = false := h3.resolve_right (by simp [isReadCr])
    refine ⟨?_, fun hh => absurd hh (by simp [isWriteCr])⟩
    simp only [movesIdx] at h2
    simp only [tidy, List.any_cons, Bool.and_eq_true, Bool.or_eq_true, Bool.not_eq_true', Bool.or_eq_false_iff, headCr_cons]
    simp_all [closesRead, movesIdx, isWriteCr, isBufWrite, storing, isReadCr]
  | _ => exact ⟨rfl, fun hh => absurd hh (by simp [isWriteCr])⟩

/-! ### What a running command keeps -/

/-- The buffer latched is one that `i`, whose host target is `g`, may store to. -/
def bufMay (i : Instr) (g : Option (Nat × Nat)) (s : State) : Bool :=
  match s.latchedBuf with
  | .host a => g == some (a.toNat, s.latchedLen)
  | .stg => stages i
  | .cfgbuf => configures i

/-- What holds at every point of a command of `i` whose host target is `g`. -/
structure Shape (i : Instr) (g : Option (Nat × Nat)) (s : State) : Prop where
  all : s.todo.all (may i g) = true
  tidy : tidy s.todo = true
  buf : s.todo.any storing = true → bufMay i g s = true
  bound : s.todo.any isBufWrite = true → s.idx.toNat < s.latchedLen
  fresh : headCr s.todo = true → ∀ b, b ≠ 1 → s.tmpCr.getLsbD b = s.regs.cr.getLsbD b
  running : s.todo ≠ [] → s.fsm ≠ .idle ∧ s.fault = none
  saved : s.todo ≠ [] → configures i = false → s.cfgSaved = none

theorem Shape.done {i : Instr} {g : Option (Nat × Nat)} {s : State} (h : s.todo = []) : Shape i g s := by
  constructor <;> simp [h, Laws.tidy]

theorem quadEnable_storing (p : Params) : (quadEnableOps p ++ [Op.finish .ok 0]).any storing = false := by
  unfold quadEnableOps; cases p.initWelPoll <;> cases p.initCfgBusyPoll <;> rfl

theorem compare_storing (q : Option Byte) : (compareOps q).any storing = false := by cases q <;> rfl

theorem next_storing {p : Params} {o : Op} {l l' : List Op} (h : Next p o l l') (ho : closesRead o = false)
    (hl : l'.any storing = true) : (o :: l).any storing = true := by
  cases h with
  | issue => simp [closesRead] at ho
  | config => simp [closesRead] at ho
  | call => simp [closesRead] at ho
  | same => simp_all
  | qeSet => rw [quadEnable_storing] at hl; cases hl
  | compare => simpa [List.any_append, compare_storing, storing] using hl
  | waitAgain | abortAgain | ack | writeLoop | readLoop => simp_all [storing]
  | _ => simp [storing, verifyTail, blankTail, orchTail] at hl

theorem next_bufWrite {p : Params} {o : Op} {l l' : List Op} (h : Next p o l l') (ho : closesRead o = false)
    (hr : ∀ f, o ≠ .readLoop f) (hl : l'.any isBufWrite = true) : l.any isBufWrite = true := by
  cases h with
  | issue => simp [closesRead] at ho
  | config => simp [closesRead] at ho
  | call => simp [closesRead] at ho
  | same => exact hl
  | readLoop => exact absurd rfl (hr _)
  | qeSet => rw [no_bufWrite (quadEnable_storing p)] at hl; cases hl
  | compare => simpa [List.any_append, no_bufWrite (compare_storing _), isBufWrite] using hl
  | waitAgain | abortAgain | ack | writeLoop => simpa [isBufWrite] using hl
  | _ => simp [isBufWrite, verifyTail, blankTail, orchTail] at hl

theorem setup_storing (op : EngineOp) (h : Header) (fm : FrameMode) (n : Word) :
    (setupOps op h fm n).any storing = false := by
  unfold setupOps; split <;> simp [storing]

/-- A transaction whose steps store has a buffer that its issuer may store to. -/
theorem plan_buf {i x : Instr} {g : Option (Nat × Nat)} {s : State} {l : List Op} (hx : mayIssue i g x = true)
    (hs : (txPlan s.params x).2.any storing = true) :
    bufMay i g ((prep x s).latch (txPlan s.params x).1 l) = true := by
  simp only [mayIssue, Bool.and_eq_true, beq_iff_eq, Bool.or_eq_true, Bool.not_eq_true'] at hx
  obtain ⟨⟨⟨⟨⟨⟨hc, -⟩, -⟩, hcf⟩, hst⟩, -⟩, hg⟩ := hx
  rcases plan_cases s.params hc with ⟨t, h⟩ | ⟨t, h, hb⟩ | ⟨d, h⟩ | ⟨d, h⟩ <;> rw [h] at hs ⊢
  · exact absurd hs (by simp [writeOps, startOps, setup_storing, storing, endOfTransferOps])
  · rcases hb with ⟨rfl, hb⟩ | ⟨a, n, b, rfl, hb, hn⟩
    · simpa [bufMay, State.latchedBuf, State.latch, hb, configures] using hcf
    · cases b with
      | host b => simpa [bufMay, State.latchedBuf, State.latchedLen, State.latch, hb, hn] using hg
      | stg => simpa [bufMay, State.latchedBuf, State.latch, hb, stages] using hst
      | cfgbuf => simpa [bufMay, State.latchedBuf, State.latch, hb, configures] using hcf
  · exact absurd hs (by simp [pollOps, startOps, setup_storing, storing])
  · exact absurd hs (by simp [mapOps, startOps, storing])

theorem setup_bufWrite (op : EngineOp) (h : Header) (fm : FrameMode) (n : Word) :
    (setupOps op h fm n).any isBufWrite = false := by
  unfold setupOps; split <;> simp [isBufWrite]

theorem write_bufWrite (t : Transaction) : (writeOps t).any isBufWrite = false := by
  simp [writeOps, startOps, setup_bufWrite, isBufWrite, endOfTransferOps]

theorem read_bufWrite (t : Transaction) : (readOps t).any isBufWrite = false := by
  simp [readOps, startOps, setup_bufWrite, isBufWrite, endOfTransferOps]

theorem poll_bufWrite (d : PollDescriptor) : (pollOps d).any isBufWrite = false := by
  simp [pollOps, startOps, setup_bufWrite, isBufWrite]

theorem map_bufWrite (d : MemoryMapDescriptor) : (mapOps d).any isBufWrite = false := by
  simp [mapOps, startOps, isBufWrite]

theorem plan_bufWrite (p : Params) {x : Instr} (hx : Instr.code x = 0) : (txPlan p x).2.any isBufWrite = false := by
  rcases plan_cases p hx with ⟨t, h⟩ | ⟨t, h, -⟩ | ⟨d, h⟩ | ⟨d, h⟩ <;> rw [h]
  · exact write_bufWrite t
  · exact read_bufWrite t
  · exact poll_bufWrite d
  · exact map_bufWrite d

theorem ops_bufWrite (p : Params) {x : Instr} (hx : Instr.code x = 0) : (txOps p x).any isBufWrite = false := by
  by_cases hw : x = .tWrvcr
  · subst hw; rfl
  · rw [txOps_other hw]; exact plan_bufWrite p hx

/-- A transaction that has passed its guards, and whose steps store, has a buffer that its issuer may store to. -/
theorem entered_buf {i x : Instr} {g : Option (Nat × Nat)} {s : State} (hx : mayIssue i g x = true)
    (hs : (txOps s.params x).any storing = true) : bufMay i g (entered x s) = true := by
  by_cases hw : x = .tWrvcr
  · subst hw; cases hs
  · rw [txOps_other hw] at hs
    rw [entered_other hw]; exact plan_buf hx hs

/-- A step that may end the command leaves no store. -/
theorem next_ending {p : Params} {o : Op} {l l' : List Op} (h : Next p o l l') (ho : ending o = true) :
    l'.any storing = false := by
  cases h with
  | same hp => cases o <;> simp_all [ending, plain]
  | qeSet => exact quadEnable_storing p
  | verifyMore | blankMore | firstPage | firstLast | wholePage | lastPart => rfl
  | qeDone | verifyDone | blankDone | firstDone | lastDone | raise | finish => rfl
  | _ => simp [ending] at ho

theorem next_call {p : Params} {l l' : List Op} (h : Next p .callPage l l') :
    l' = [] ∨ ∃ a n b, l' = mutateOps (.tQpp a n b) ++ l := by
  cases h with
  | same hp => simp [plain] at hp
  | faultCall => exact .inl rfl
  | call => exact .inr ⟨_, _, _, rfl⟩

theorem next_config {p : Params} {l l' : List Op} (h : Next p .configWrite l l') :
    l' = [] ∨ l' = writeOps (configWrite p) ++ l := by
  cases h with
  | same hp => simp [plain] at hp
  | faultConfig => exact .inl rfl
  | config => exact .inr rfl

theorem next_dropDesc {p : Params} {l l' : List Op} (h : Next p .dropDesc l l') : l' = l := by
  cases h; rfl

theorem latching_cases {o : Op} (h : latching o = true) : closesRead o = true ∨ ending o = true := by
  cases o <;> first | exact .inl rfl | exact .inr rfl | simp [latching] at h

theorem indexing_moves {o : Op} (h : indexing o = true) : movesIdx o = true := h

theorem write_storing (t : Transaction) : (writeOps t).any storing = false := by
  simp [writeOps, startOps, setup_storing, storing, endOfTransferOps]

/-- The shape is kept by every step. -/
theorem shape_next {i : Instr} {g : Option (Nat × Nat)} {s t : State} {o : Op} {l : List Op} (h : Shape i g s)
    (hl : s.todo = o :: l) (ho : seqOp o (s.takeOp l) = .next t) :
    Shape i g t ∧ Effect o (s.takeOp l) t ∧ may i g o = true := by
  have hne0 : s.todo ≠ [] := by simp [hl]
  obtain ⟨hr, hf⟩ := h.running hne0
  have hall := h.all
  rw [hl, List.all_cons, Bool.and_eq_true] at hall
  have hx : ∀ x, o = .issue x → Instr.code x = 0 := by
    rintro x rfl
    have := hall.1
    simp only [may, mayIssue, Bool.and_eq_true, beq_iff_eq] at this
    exact this.1.1.1.1.1.1
  have hn : Next s.params o l t.todo := next_of_seqOp (s := s.takeOp l) (fun x e => ⟨hx x e, hf, hr⟩) ho
  have he : Effect o (s.takeOp l) t := effect_of_seqOp (s := s.takeOp l) (fun x e => ⟨hx x e, hf, hr⟩) ho
  have htd := h.tidy
  rw [hl] at htd
  obtain ⟨ht', hcr⟩ := tidy_next hn htd
  simp only [Laws.tidy, Bool.and_eq_true, Bool.or_eq_true, Bool.not_eq_true'] at htd
  obtain ⟨⟨⟨k1, k2⟩, -⟩, -⟩ := htd
  have hend : t.todo.any storing = true → ending o = false := by
    intro hs
    rw [Bool.eq_false_iff]
    intro h1
    rw [next_ending hn h1] at hs; cases hs
  have stored : t.todo.any storing = true → bufMay i g t = true := by
    intro hs
    cases hc : closesRead o with
    | false =>
      have hlat : latching o = false := by
        rw [Bool.eq_false_iff]
        intro hla
        rcases latching_cases hla with h1 | h1
        · simp [hc] at h1
        · rw [hend hs] at h1; cases h1
      have := h.buf (by rw [hl]; exact next_storing hn hc hs)
      have hd := he.desc hlat
      simpa [bufMay, State.latchedBuf, State.latchedLen, hd] using this
    | true =>
      have hs0 := k1.resolve_left (by simp [hc])
      cases o with
      | issue x =>
        rcases startTx_next (s := s.takeOp l) (hx x rfl) hf ho with ⟨-, f, rfl⟩ | rfl
        · simp at hs
        · rw [takeOp_fsm, if_neg hr] at hs ⊢
          rw [entered_todo, List.any_append] at hs
          have : (s.takeOp l).todo = l := rfl
          rw [this, hs0, Bool.or_false] at hs
          exact entered_buf hall.1 hs
      | configWrite =>
        rcases next_config hn with h1 | h1 <;> rw [h1] at hs
        · cases hs
        · rw [List.any_append, hs0, write_storing] at hs; cases hs
      | callPage =>
        rcases next_call hn with h1 | ⟨a, n, b, h1⟩ <;> rw [h1] at hs
        · cases hs
        · rw [List.any_append, hs0] at hs; exact absurd hs (by simp [mutateOps, wenOps, busyWaitOps, storing])
      | dropDesc => rw [next_dropDesc hn, hs0] at hs; cases hs
      | _ => simp [closesRead] at hc
  refine ⟨⟨may_next hn hall.1 hall.2, ht', stored, ?_, ?_, ?_, ?_⟩, he, hall.1⟩
  · intro hb
    cases hc : closesRead o with
    | false =>
      by_cases hro : ∃ f, o = .readLoop f
      · obtain ⟨f, rfl⟩ := hro
        have hb0 := k2.resolve_left (by simp [movesIdx])
        cases ho
        simp only [State.readLoop] at hb ⊢
        split at hb
        · rename_i hlt
          simp only [hlt, if_true]
          exact hlt
        · rw [show ((s.takeOp l).nextIdx f).todo = l from rfl, hb0] at hb; cases hb
      · have hbl := next_bufWrite hn hc (fun f e => hro ⟨f, e⟩) hb
        have hidx : indexing o = false := by
          rw [Bool.eq_false_iff]
          intro hi
          rw [k2.resolve_left (by simp [indexing_moves hi])] at hbl; cases hbl
        have hlat : latching o = false := by
          rw [Bool.eq_false_iff]
          intro hla
          rcases latching_cases hla with h1 | h1
          · simp [hc] at h1
          · rw [no_bufWrite (next_ending hn h1)] at hb; cases hb
        have := h.bound (by rw [hl]; simp only [List.any_cons, hbl, Bool.or_true])
        rw [he.idx hidx]
        simpa [State.latchedLen, he.desc hlat] using this
    | true =>
      have hb0 := no_bufWrite (k1.resolve_left (by simp [hc]))
      cases o with
      | issue x =>
        rcases startTx_next (s := s.takeOp l) (hx x rfl) hf ho with ⟨-, f, rfl⟩ | rfl
        · simp at hb
        · rw [takeOp_fsm, if_neg hr, entered_todo, List.any_append, ops_bufWrite _ (hx x rfl)] at hb
          have : (s.takeOp l).todo = l := rfl
          rw [this, hb0] at hb; cases hb
      | configWrite =>
        rcases next_config hn with h1 | h1 <;> rw [h1] at hb
        · cases hb
        · rw [List.any_append, hb0, write_bufWrite] at hb; cases hb
      | callPage =>
        rcases next_call hn with h1 | ⟨a, n, b, h1⟩ <;> rw [h1] at hb
        · cases hb
        · rw [List.any_append, hb0] at hb; exact absurd hb (by simp [mutateOps, wenOps, busyWaitOps, isBufWrite])
      | dropDesc => rw [next_dropDesc hn, hb0] at hb; cases hb
      | _ => simp [closesRead] at hc
  · intro hh b hb
    have := hcr hh
    cases o with
    | readCr =>
      rw [seqOp_readCr] at ho
      cases ho
      cases hv : s.env with
      | envelope =>
        simp only [State.readCr, State.takeOp, hv]
        split
        · rw [Laws.getLsbD_setBit _ _ _ _ (by decide), if_neg hb]
        · rfl
      | reference d => simp only [State.readCr, State.takeOp, hv]
    | _ => simp [isReadCr] at this
  · intro hne
    have hfsm : t.fsm ≠ .idle := by
      rcases he.fsm with h1 | ⟨-, -, h1⟩ | ⟨-, h1⟩ | h1
      · rw [h1]; exact hr
      · exact absurd h1 hne
      · exact absurd h1.todo hne
      · cases o with
        | setFsm f =>
          cases ho
          have := hall.1
          simpa [may] using this
        | callPage =>
          cases ho
          unfold State.callPage at hne ⊢
          split at hne
          · exact absurd rfl hne
          · exact fun h => by cases h
        | qeCheck =>
          cases ho
          unfold State.qeCheck at hne ⊢
          split at hne
          · exact absurd rfl hne
          · rename_i hq; rw [if_neg hq]; exact fun h => by cases h
        | _ => simp [moving] at h1
    refine ⟨hfsm, ?_⟩
    rcases he.fault with h1 | ⟨-, -, -, h1⟩
    · rw [h1]; exact hf
    · exact absurd h1 hne
  · intro hne hcf
    have h0 : s.cfgSaved = none := h.saved hne0 hcf
    have hnr : o ≠ .issue .tRdcr := by
      rintro rfl
      have := hall.1
      simp only [may, mayIssue, Bool.and_eq_true, Bool.or_eq_true, Bool.not_eq_true', hcf] at this
      simp [configures] at this
    rcases he.cfgSaved hnr with h1 | ⟨-, h1⟩
    · rw [h1]; exact h0
    · exact h1

end Sys2Proof.Laws
end

