-- ==== Sys2Proof/Laws/Runs.lean ====
section
/-! SUPPORT. Every instruction's run: how it begins, and how what each step keeps carries to its end. -/

namespace Sys2Proof.Laws

open Sys2Proof.Machine

/-- What the start of an instruction on an idle block keeps. -/
structure Began (s t : State) : Prop where
  params : t.params = s.params
  burst : t.burst = s.burst
  hostData : t.hostData = s.hostData
  admitted : t.admitted = s.admitted
  regs : t.regs = s.regs
  port : t.port = s.port
  trace : t.trace = s.trace
  stg : t.stg = s.stg
  hostMem : t.hostMem = s.hostMem
  mmapActive : t.mmapActive = s.mmapActive
  tmpCr : t.tmpCr = s.tmpCr

theorem any_map_finish {f : Op → Bool} (st : Status) (n : Word) (h : f (.finish st n) = false) :
    [Op.finish st n].any f = false := by simp [h]

/-- What an instruction that has begun has left alone. -/
theorem begins_frame {i : Instr} {s t : State} (h : Begins s i t) :
    Began s t ∧ t.fault = s.fault ∧ t.fsm ≠ .idle ∧ (configures i = false → t.cfgbuf = s.cfgbuf) ∧ s.SameWork t := by
  cases h with
  | tx _ hc =>
    cases i <;> first
      | exact absurd hc (by decide)
      | exact ⟨⟨rfl, rfl, rfl, rfl, rfl, rfl, rfl, rfl, rfl, rfl, rfl⟩, rfl, (by intro h; cases h), (by intro h; first | rfl | cases h),
          ⟨rfl, rfl, rfl, rfl, rfl⟩⟩
  | _ =>
    exact ⟨⟨rfl, rfl, rfl, rfl, rfl, rfl, rfl, rfl, rfl, rfl, rfl⟩, rfl, (by intro h; cases h), fun _ => rfl,
      ⟨rfl, rfl, rfl, rfl, rfl⟩⟩

/-- The saved `CFGBUF` is that of a `T_RDCR` alone. -/
theorem begins_saved {i : Instr} {s t : State} (h : Begins s i t) (hc : configures i = false) : t.cfgSaved = none := by
  cases h with
  | tx _ hi => cases i <;> first | exact absurd hi (by decide) | exact absurd hc (by decide) | rfl
  | _ => rfl

theorem bufMay_noBuf {l : List Op} (h : l.any storing = false) {P : Prop} (hs : l.any storing = true) : P := by
  rw [h] at hs; cases hs

theorem mayIssue_self {i : Instr} {s : State} (hc : Instr.code i = 0) : mayIssue i (s.hostTarget i) i = true := by
  cases i with
  | tQread a n b => cases b <;> simp [mayIssue, Instr.code, polls, maps, configures, stages, stops, State.hostTarget]
  | tWren | tPollWel | tPollWip | tRsten | tRst | tRdcr | tWrvcr | tSe | tCe | tQpp | tQreadMmap =>
    simp [mayIssue, Instr.code, polls, maps, configures, stages, stops]
  | _ => cases hc

/-- The shape holds where an instruction has begun. -/
theorem begins_shape {i : Instr} {s t : State} (hf : s.fault = none) (h : Begins s i t) : Shape i (s.hostTarget i) t := by
  obtain ⟨-, hft, hfs, -, -⟩ := begins_frame h
  rw [hf] at hft
  have small : ∀ l : List Op, t.todo = l → l.all (may i (s.hostTarget i)) = true → tidy l = true → l.any storing = false →
      headCr l = false → Shape i (s.hostTarget i) t := by
    rintro l rfl h1 h2 h3 h4
    exact ⟨h1, h2, fun hh => (bufMay_noBuf h3 hh), fun hh => (by rw [no_bufWrite h3] at hh; cases hh),
      fun hh => (by rw [h4] at hh; cases hh), fun _ => ⟨hfs, hft⟩,
      fun _ => begins_saved h⟩
  have raw : ∀ (ops : List Op), t.todo = ops ++ [.finish .ok 0] → (ops.all (may i (s.hostTarget i))) = true → tidy ops = true →
      ops.any isBufWrite = false → headCr ops = false → ops ≠ [] → (ops.any storing = true → bufMay i (s.hostTarget i) t = true) →
      Shape i (s.hostTarget i) t := by
    intro ops h0 h1 h2 h3 h4 hne h5
    refine ⟨?_, ?_, ?_, ?_, ?_, fun _ => ⟨hfs, hft⟩, fun _ => begins_saved h⟩ <;> rw [h0]
    · rw [List.all_append, h1]; rfl
    · exact tidy_append h2 rfl rfl (.inl rfl) (.inl rfl)
    · intro hh; rw [List.any_append, any_map_finish _ _ rfl, Bool.or_false] at hh; exact h5 hh
    · intro hh; rw [List.any_append, h3, any_map_finish _ _ rfl] at hh; cases hh
    · intro hh
      cases ops with
      | nil => exact absurd rfl hne
      | cons o os => simp only [headCr_cons] at h4; rw [List.cons_append, headCr_cons, h4] at hh; cases hh
  have pfalse : ∀ t, (pollOps t).any storing = false := by
    intro t; simp [pollOps, startOps, setup_storing, storing]
  have mfalse : ∀ t, (mapOps t).any storing = false := by
    intro t; simp [mapOps, startOps, storing]
  cases h with
  | init => exact small _ rfl rfl rfl rfl rfl
  | programPage =>
    refine small _ rfl ?_ rfl rfl rfl
    refine (List.all_append ..).trans ?_; rw [may_mutate rfl rfl rfl (may_qpp rfl rfl _ _ _)]; rfl
  | eraseSector =>
    refine small _ rfl ?_ rfl rfl rfl
    refine (List.all_append ..).trans ?_; rw [may_mutate rfl rfl rfl rfl]; rfl
  | eraseChip =>
    refine small _ rfl ?_ rfl rfl rfl
    refine (List.all_append ..).trans ?_; rw [may_mutate rfl rfl rfl rfl]; rfl
  | read =>
    refine small _ rfl ?_ rfl rfl rfl
    simp [may, mayIssue, Instr.code, polls, maps, configures, stages, stops, State.hostTarget]
  | verify => exact small _ rfl rfl rfl rfl rfl
  | blankCheck b => exact small _ rfl rfl rfl rfl rfl
  | mmap => exact small _ rfl rfl rfl rfl rfl
  | write => exact small _ rfl rfl rfl rfl rfl
  | eWrite h => exact raw _ rfl (may_write rfl rfl _) (write_tidy _) (write_bufWrite _) rfl (by simp [writeOps, startOps]) (fun hh => bufMay_noBuf (write_storing _) hh)
  | eRead h => exact raw _ rfl (may_read rfl rfl _) (read_tidy _) (read_bufWrite _) rfl (by simp [readOps, startOps]) (fun _ => by
      simp [bufMay, State.latchedBuf, State.latchedLen, State.latch, State.hostTarget])
  | ePoll d => exact raw _ rfl (may_poll rfl rfl rfl _) (poll_tidy _) (poll_bufWrite _) rfl (by simp [pollOps, startOps]) (fun hh => bufMay_noBuf (pfalse _) hh)
  | eMmap d => exact raw _ rfl (may_map rfl rfl _) (map_tidy _) (map_bufWrite _) rfl (by simp [mapOps, startOps]) (fun hh => bufMay_noBuf (mfalse _) hh)
  | eAbort => exact small _ rfl rfl rfl rfl rfl
  | eDeinit => exact small _ rfl rfl rfl rfl rfl
  | tx _ hc =>
    obtain ⟨a, b, c⟩ := ops_tidy s.params hc
    exact raw _ (entered_todo i _) (may_ops _ (mayIssue_self hc)) a (ops_bufWrite _ hc) b c
      (fun hh => entered_buf (s := s.begin i .engineCommand [.finish .ok 0]) (mayIssue_self hc) hh)

theorem idle_facts {s : State} (h : s.idle = true) : s.fsm = .idle ∧ s.todo = [] ∧ s.fault = none := by
  simp only [State.idle, Bool.and_eq_true, beq_iff_eq, Bool.not_eq_true', State.faulted, Option.isSome_eq_false_iff,
    Option.isNone_iff_eq_none, List.isEmpty_iff] at h
  exact ⟨h.1.1, h.1.2, h.2⟩

/-- What every start leaves alone, whether it faults or not. -/
theorem start_frame {i : Instr} {s t : State} (hi : s.idle = true) (h : startInstr i s = .next t) :
    Began s t ∧ Shape i (s.hostTarget i) t ∧ t.fsm ≠ .idle ∧ (configures i = false → t.cfgbuf = s.cfgbuf) ∧
      s.SameWork t ∧ ((t.fault ≠ none ∧ t.todo = []) ∨ Begins s i t) := by
  rcases start_begins hi h with ⟨f, rfl⟩ | ⟨hc, f, rfl⟩ | hb
  · exact ⟨⟨rfl, rfl, rfl, rfl, rfl, rfl, rfl, rfl, rfl, rfl, rfl⟩, Shape.done rfl, (by intro h; cases h), fun _ => rfl,
      ⟨rfl, rfl, rfl, rfl, rfl⟩, .inl ⟨(by intro h; cases h), rfl⟩⟩
  · exact ⟨⟨rfl, rfl, rfl, rfl, rfl, rfl, rfl, rfl, rfl, rfl, rfl⟩, Shape.done rfl, (by intro h; cases h), fun _ => rfl,
      ⟨rfl, rfl, rfl, rfl, rfl⟩, .inl ⟨(by intro h; cases h), rfl⟩⟩
  · obtain ⟨h1, -, h3, h4, h5⟩ := begins_frame hb
    exact ⟨h1, begins_shape (idle_facts hi).2.2 hb, h3, h4, h5, .inr hb⟩

/-- What the start of an instruction has, and every step of its run keeps, its end has. -/
theorem exec_keeps {i : Instr} {s t : State} {P : State → Prop} (hi : s.idle = true) (h : exec i s = .next t)
    (h0 : ∀ u, startInstr i s = .next u → P u)
    (hstep : ∀ u v o l, P u → Shape i (s.hostTarget i) u → u.todo = o :: l → may i (s.hostTarget i) o = true →
      Shape i (s.hostTarget i) v → Next u.params o l v.todo → Effect o (u.takeOp l) v → seqOp o (u.takeOp l) = .next v → P v) : P t := by
  rw [exec_eq] at h
  obtain ⟨u, hu, rfl⟩ := thenRun_next h
  have hs := (start_frame hi hu).2.1
  refine (runSeq_keeps (P := fun x => Shape i (s.hostTarget i) x ∧ P x) ?_ _ ⟨hs, h0 u hu⟩).2
  rintro x o l y ⟨hx, px⟩ hl - ho
  obtain ⟨hy, he, hm⟩ := shape_next hx hl ho
  obtain ⟨hr, hf⟩ := hx.running (by simp [hl])
  have hcode : ∀ z, o = .issue z → Instr.code z = 0 := by
    rintro z rfl
    simp only [may, mayIssue, Bool.and_eq_true, beq_iff_eq] at hm
    exact hm.1.1.1.1.1.1
  exact ⟨hy, hstep x y o l px hx hl hm hy (next_of_seqOp (s := x.takeOp l) (fun z e => ⟨hcode z e, hf, hr⟩) ho) he ho⟩

/-! ### `CR` -/

/-- The bits of `CR` an edit may change. -/
def crFields : CrEdit → List Nat
  | .poll _ _ => [1, 22, 23]
  | .tcen _ => [1, 3]
  | .abort => [1]
  | .disable => [1, 0]

theorem apply_bits (e : CrEdit) (v : Word) {b : Nat} (hb : b ∉ crFields e) : (e.apply v).getLsbD b = v.getLsbD b := by
  cases e <;> simp [crFields] at hb <;> simp [CrEdit.apply] <;> repeat rw [getLsbD_setBit _ _ _ _ (by decide)]
  all_goals simp [hb]

theorem writeCr_bits {s t : State} {e : CrEdit} (h : seqOp (.writeCr e) s = .next t) {b : Nat} (hb : b ∉ crFields e) :
    t.regs.cr.getLsbD b = s.tmpCr.getLsbD b := by
  have h1 : b ≠ 1 := by rintro rfl; cases e <;> simp [crFields] at hb
  rw [seqOp_writeCr] at h
  cases h
  simp only [State.writeCr, State.putCr]
  split
  · exact apply_bits e _ hb
  · show (setBit _ 1 false).getLsbD b = _
    rw [getLsbD_setBit _ _ _ _ (by decide), if_neg h1]
    exact apply_bits e _ hb

theorem cr_step {i : Instr} {g} {u v : State} {o : Op} {l : List Op} (hs : Shape i g u) (hl : u.todo = o :: l)
    (he : Effect o (u.takeOp l) v) (ho : seqOp o (u.takeOp l) = .next v) {b : Nat} (hb : ∀ e, o = .writeCr e → b ∉ crFields e) :
    v.regs.cr.getLsbD b = u.regs.cr.getLsbD b := by
  cases o with
  | writeCr e =>
    have h := hb e rfl
    have h1 : b ≠ 1 := by rintro rfl; cases e <;> simp [crFields] at h
    rw [writeCr_bits ho h]
    exact hs.fresh (by simp [hl, isWriteCr]) b h1
  | _ => rw [he.cr (by simp)]; rfl

end Sys2Proof.Laws
end

