-- ==== Sys2Proof/Laws/Invariant.lean ====
section
/-! SUPPORT. What every sequencer step keeps: what no step changes, the steps that may be left to do, and the invariant. -/

namespace Sys2Proof.Laws

open Sys2Proof.Machine

/-- What no step of the machine changes. -/
structure Fixed (s t : State) : Prop where
  params : t.params = s.params
  dcr : t.regs.dcr = s.regs.dcr
  admitted : t.admitted = s.admitted
  burst : t.burst = s.burst

theorem Fixed.trans {s t u : State} (h : Fixed s t) (g : Fixed t u) : Fixed s u :=
  ⟨g.params.trans h.params, g.dcr.trans h.dcr, g.admitted.trans h.admitted, g.burst.trans h.burst⟩

theorem Fixed.refl (s : State) : Fixed s s := ⟨rfl, rfl, rfl, rfl⟩

theorem fixed_start {i : Instr} {s t : State} (h : startInstr i s = .next t) : Fixed s t := by
  rcases start_any h with ⟨f, rfl⟩ | ⟨-, f, rfl⟩ | hb | ⟨-, -, rfl⟩
  · exact ⟨rfl, rfl, rfl, rfl⟩
  · split <;> exact ⟨rfl, rfl, rfl, rfl⟩
  · obtain ⟨b, -⟩ := begins_frame hb
    exact ⟨b.params, by rw [b.regs], b.admitted, b.burst⟩
  · cases i <;> exact ⟨rfl, rfl, rfl, rfl⟩

theorem fixed_seqOp {o : Op} {s t : State} (h : seqOp o s = .next t) : Fixed s t := by
  by_cases hx : ∃ x, o = .issue x
  · obtain ⟨x, rfl⟩ := hx; exact fixed_start h
  · have he := effect_of_seqOp (fun x e => absurd ⟨x, e⟩ hx) h
    exact ⟨he.params, he.dcr, he.admitted, he.burst⟩

theorem fixed_take {s t : State} {l : List Op} (h : Fixed (s.takeOp l) t) : Fixed s t :=
  ⟨h.params, h.dcr, h.admitted, h.burst⟩

theorem fixed_run (n : Nat) (s : State) : Fixed s (runSeq n s) :=
  runSeq_keeps (P := fun t => Fixed s t) (fun _ _ _ _ hu _ _ ho => hu.trans (fixed_take (fixed_seqOp ho))) n
    (Fixed.refl s)

theorem fixed_thenRun {s t : State} {o : Out} (h : thenRun o = .next t) (ho : ∀ u, o = .next u → Fixed s u) : Fixed s t := by
  obtain ⟨u, hu, rfl⟩ := thenRun_next h
  exact (ho u hu).trans (fixed_run _ u)

/-- No instruction changes them. -/
theorem fixed_exec {i : Instr} {s t : State} (h : exec i s = .next t) : Fixed s t := by
  rw [exec_eq] at h
  exact fixed_thenRun h fun u hu => fixed_start hu

/-! ### The steps left to do -/

theorem reserved_fcr (v : Word) : errorClear v &&& WholeReg.fcr.reserved = 0 ∧ abortClear v &&& WholeReg.fcr.reserved = 0 ∧
    fcrCtcf &&& WholeReg.fcr.reserved = 0 ∧ fcrCsmf &&& WholeReg.fcr.reserved = 0 := by
  refine ⟨?_, ?_, by decide, by decide⟩
  · simp only [errorClear]; cases srTef v <;> cases srTof v <;> decide
  · simp only [abortClear]; cases srTcf v <;> cases srSmf v <;> decide

/-- A mask that selects only clear bits. -/
theorem mask_zero {w m : Word} (h : ∀ i, i < 32 → m.getLsbD i = true → w.getLsbD i = false) : w &&& m = 0 := by
  apply BitVec.eq_of_getLsbD_eq
  intro i hi
  rw [BitVec.getLsbD_and]
  cases hm : m.getLsbD i with
  | false => simp
  | true => rw [h i hi hm]; simp

theorem reserved_ccr (h : Header) (fm : FrameMode) : packCcr h fm &&& WholeReg.ccr.reserved = 0 := by
  apply mask_zero
  intro i hi hm
  have : i = 23 ∨ i = 29 := by
    revert hm; revert i; decide
  rcases this with rfl | rfl <;> simp [packCcr, BitVec.getLsbD_of_ge, getElem_bit]

theorem reserved_low (v : BitVec 16) : v.setWidth 32 &&& (0xFFFF0000 : Word) = 0 := by
  apply mask_zero
  intro i hi hm
  have : 16 ≤ i := by
    revert hm; revert i; decide
  rw [BitVec.getLsbD_setWidth, BitVec.getLsbD_of_ge v i this, Bool.and_false]

theorem lawful_setup (op : EngineOp) (h : Header) (fm : FrameMode) (n : Word) : (setupOps op h fm n).all Op.lawful = true := by
  have := reserved_ccr h fm
  unfold setupOps; split <;> simp [Op.lawful, WholeReg.reserved] <;> exact this

theorem lawful_write (t : Transaction) : (writeOps t).all Op.lawful = true := by
  simp [writeOps, startOps, lawful_setup, Op.lawful, endOfTransferOps, (reserved_fcr 0).2.2]

theorem lawful_read (t : Transaction) : (readOps t).all Op.lawful = true := by
  simp [readOps, startOps, lawful_setup, Op.lawful, endOfTransferOps, (reserved_fcr 0).2.2]

theorem lawful_poll (d : PollDescriptor) : (pollOps d).all Op.lawful = true := by
  have := reserved_low d.interval
  simp [pollOps, startOps, lawful_setup, Op.lawful, WholeReg.reserved]
  exact ⟨this, by decide⟩

theorem lawful_map (d : MemoryMapDescriptor) : (mapOps d).all Op.lawful = true := by
  have h1 := reserved_low d.period
  have h2 := reserved_ccr d.hdr .memoryMapped
  simp [mapOps, startOps, Op.lawful, WholeReg.reserved]
  exact ⟨h1, h2⟩

theorem lawful_plan (p : Params) {x : Instr} (hx : Instr.code x = 0) : (txPlan p x).2.all Op.lawful = true := by
  rcases plan_cases p hx with ⟨t, h⟩ | ⟨t, h, -⟩ | ⟨d, h⟩ | ⟨d, h⟩ <;> rw [h]
  · exact lawful_write t
  · exact lawful_read t
  · exact lawful_poll d
  · exact lawful_map d

theorem lawful_ops (p : Params) {x : Instr} (hx : Instr.code x = 0) : (txOps p x).all Op.lawful = true := by
  by_cases hw : x = .tWrvcr
  · subst hw; rfl
  · rw [txOps_other hw]; exact lawful_plan p hx

/-- Every step leads to lawful steps. -/
theorem lawful_next {p : Params} {o : Op} {l l' : List Op} (h : Next p o l l') (hl : l.all Op.lawful = true) :
    l'.all Op.lawful = true := by
  cases h with
  | same => exact hl
  | issue hc => rw [List.all_append, hl, lawful_ops p hc]; rfl
  | config => rw [List.all_append, hl, lawful_write]; rfl
  | call => rw [List.all_append, hl]; rfl
  | qeSet => unfold quadEnableOps; cases p.initWelPoll <;> cases p.initCfgBusyPoll <;> rfl
  | waitError | abortError => simp [Op.lawful, (reserved_fcr _).1]
  | ackOver => simp [Op.lawful, (reserved_fcr _).2.1]
  | ack => simp only [List.all_cons, Op.lawful, (reserved_fcr _).2.1, hl]; rfl
  | @compare f q => cases q <;> exact hl
  | waitAgain | abortAgain | writeLoop | readLoop => simp only [List.all_cons, Op.lawful, hl]; rfl
  | _ => rfl

theorem closes_append {P l : List Op} (h : closes l = true) : closes (P ++ l) = true := by
  induction P with
  | nil => exact h
  | cons o P ih =>
    cases hp : P ++ l with
    | nil => rw [hp] at ih; cases ih
    | cons a m => rw [hp] at ih; rw [List.cons_append, hp]; exact ih

theorem closes_cons {o : Op} {l : List Op} (h : closes (o :: l) = true) (ho : o.closing = false) : closes l = true := by
  cases l with
  | nil => rw [closes, ho] at h; cases h
  | cons a m => exact h

/-- Every step leads towards the command's end. -/
theorem closes_next {p : Params} {o : Op} {l l' : List Op} (h : Next p o l l') (hc : closes (o :: l) = true) :
    (l' = [] ∧ (ending o = true ∨ faulting o = true)) ∨ closes l' = true := by
  cases h with
  | raise | finish | qeDone | verifyDone | blankDone | firstDone | lastDone => exact .inl ⟨rfl, .inl rfl⟩
  | faultIssue | faultConfig | faultCall => exact .inl ⟨rfl, .inr rfl⟩
  | same hp => exact .inr (closes_cons hc (by cases o <;> first | rfl | cases hp))
  | issue hx => exact .inr (closes_append (closes_cons hc rfl))
  | config | call => exact .inr (closes_append (closes_cons hc rfl))
  | qeSet => exact .inr (closes_append rfl)
  | waitAgain | abortAgain => exact .inr (closes_append (P := [_]) (closes_cons hc rfl))
  | @compare f q => exact .inr (closes_append (closes_append (P := [_]) (closes_cons hc rfl)))
  | ack | writeLoop | readLoop =>
    have := closes_cons hc rfl
    first
    | exact .inr (closes_append (P := [_, _]) this)
    | exact .inr (closes_append (P := [_, _, _]) this)
    | exact .inr (closes_append (P := [_, _, _, _, _]) this)
  | _ => exact .inr rfl

/-! ### The invariant -/

/-- The part of the invariant that does not speak of the steps still to do. -/
structure Core (s : State) : Prop where
  params : s.params.wf = true
  memory : s.memoryWf = true
  results : s.port.resst.isSome = s.port.rescnt.isSome
  cr : s.regs.cr &&& crMustBeZero = 0 ∧ s.tmpCr &&& crMustBeZero = 0
  reserved : s.regs.reservedClear = true

theorem Core.of_inv {s : State} (h : s.Inv) : Core s := ⟨h.params, h.memory, h.results, h.cr, h.reserved⟩

/-- A fault from a state with the core leads to one with the invariant. -/
theorem inv_fault {s : State} (h : Core s) (f : FaultReason) : (s.raiseFault f).Inv where
  params := h.params
  memory := h.memory
  faulted := rfl
  busy := rfl
  between := fun h => by cases h
  results := h.results
  cr := h.cr
  reserved := h.reserved
  lawful := rfl
  closing := .inl rfl

theorem mask_bit {w m : Word} (h : w &&& m = 0) {i : Nat} (hi : m.getLsbD i = true) : w.getLsbD i = false := by
  have := congrArg (fun x : Word => x.getLsbD i) h
  simpa [hi] using this

theorem crMask_bits {i : Nat} (hi : i < 32) (h : crMustBeZero.getLsbD i = true) : ∀ e, i ∉ crFields e := by
  intro e
  have : i ≠ 0 ∧ i ≠ 1 ∧ i ≠ 3 ∧ i ≠ 22 ∧ i ≠ 23 := by revert h; revert i; decide
  cases e <;> simp [crFields, this]

theorem reservedClear_iff (r : Regs) : r.reservedClear = true ↔ ∀ w, regOf r w &&& w.reserved = 0 := by
  simp only [Regs.reservedClear, Bool.and_eq_true, beq_iff_eq]
  constructor
  · rintro ⟨⟨⟨h1, h2⟩, h3⟩, h4⟩ w
    cases w <;> first | assumption | simp [WholeReg.reserved]
  · intro h
    exact ⟨⟨⟨h .fcr, h .ccr⟩, h .pir⟩, h .lptr⟩

theorem readCr_mask {s : State} (h : s.regs.cr &&& crMustBeZero = 0) : s.readCr.tmpCr &&& crMustBeZero = 0 := by
  apply mask_zero
  intro i hi hm
  have h1 := mask_bit h hm
  cases hv : s.env with
  | envelope =>
    simp only [State.readCr, hv]
    split
    · rw [getLsbD_setBit _ _ _ _ (by decide), if_neg]
      · exact h1
      · rintro rfl; cases hm
    · exact h1
  | reference d => simpa only [State.readCr, hv] using h1

/-- Every sequencer step keeps the core. -/
theorem core_seqOp {o : Op} {s t : State} (h : Core s) (hl : o.lawful = true) (ho : seqOp o s = .next t) : Core t := by
  have hf := fixed_seqOp ho
  suffices h3 : t.port.resst.isSome = t.port.rescnt.isSome ∧ (t.regs.cr &&& crMustBeZero = 0 ∧ t.tmpCr &&& crMustBeZero = 0) ∧
      t.regs.reservedClear = true from
    ⟨by rw [hf.params]; exact h.params, memoryWf_seqOp h.memory ho, h3.1, h3.2.1, h3.2.2⟩
  by_cases hx : ∃ x, o = .issue x
  · obtain ⟨x, rfl⟩ := hx
    rcases start_any ho with ⟨f, rfl⟩ | ⟨-, f, rfl⟩ | hb | ⟨-, -, rfl⟩
    · exact ⟨h.results, h.cr, h.reserved⟩
    · split <;> exact ⟨h.results, h.cr, h.reserved⟩
    · obtain ⟨b, -⟩ := begins_frame hb
      rw [b.port, b.regs, b.tmpCr]
      exact ⟨h.results, h.cr, h.reserved⟩
    · cases x <;> exact ⟨h.results, h.cr, h.reserved⟩
  · have he := effect_of_seqOp (fun x e => absurd ⟨x, e⟩ hx) ho
    refine ⟨?_, ⟨?_, ?_⟩, ?_⟩
    · rcases he.ends with ⟨h1, -⟩ | ⟨-, h1⟩
      · rw [h1]; exact h.results
      · obtain ⟨st, n, h1⟩ := h1.port; rw [h1]; rfl
    · cases o with
      | writeCr e =>
        apply mask_zero
        intro i hi hm
        rw [writeCr_bits ho (crMask_bits hi hm e)]
        exact mask_bit h.cr.2 hm
      | _ => rw [he.cr (by simp)]; exact h.cr.1
    · cases o with
      | readCr => rw [seqOp_readCr] at ho; cases ho; exact readCr_mask h.cr.1
      | _ => rw [he.tmpCr (by simp)]; exact h.cr.2
    · rw [reservedClear_iff]
      intro w
      by_cases hw : ∃ v, o = .writeReg w v
      · obtain ⟨v, rfl⟩ := hw
        rw [seqOp_writeReg] at ho
        cases ho
        rw [writeReg_regs, regOf_write, if_pos rfl]
        simpa [Op.lawful] using hl
      · rw [he.reg w (fun v e => hw ⟨v, e⟩)]
        exact (reservedClear_iff _).1 h.reserved w

theorem core_take {s : State} (h : Core s) (l : List Op) : Core (s.takeOp l) :=
  ⟨h.params, h.memory, h.results, h.cr, h.reserved⟩

/-- A run keeps the invariant. -/
theorem inv_running {s : State} (h : s.Inv) (ht : s.todo ≠ []) : s.fsm ≠ .idle ∧ s.fsm ≠ .faulted := by
  have := h.busy
  cases hl : s.todo with
  | nil => exact absurd hl ht
  | cons o l => simpa [State.busy, hl] using this

/-- Every sequencer step keeps the invariant. -/
theorem inv_seqOp {o : Op} {l : List Op} {s t : State} (h : s.Inv) (hf : s.fault = none) (hl : s.todo = o :: l)
    (ho : seqOp o (s.takeOp l) = .next t) : t.Inv := by
  obtain ⟨hr, hr'⟩ := inv_running h (by simp [hl])
  have hlaw := h.lawful
  rw [hl, List.all_cons, Bool.and_eq_true] at hlaw
  have hclose : closes (o :: l) = true := by rw [← hl]; exact h.closing.resolve_left (by simp [hl])
  have core : Core t := core_seqOp (core_take (Core.of_inv h) l) hlaw.1 ho
  by_cases hx : ∃ x, o = .issue x ∧ Instr.code x ≠ 0
  · obtain ⟨x, rfl, hc⟩ := hx
    have hbusy : (s.takeOp l).busy = true := by simp [State.busy, State.takeOp, hr, hr']
    have hb : seqOp (.issue x) (s.takeOp l) = .next ((s.takeOp l).raiseFault .reentry) := startInstr_busy hc hf hbusy
    have : t = (s.takeOp l).raiseFault .reentry := (Host.Outcome.next.inj (hb.symm.trans ho)).symm
    subst this
    exact inv_fault (core_take (Core.of_inv h) l) .reentry
  · have hx' : ∀ x, o = .issue x → Instr.code x = 0 ∧ (s.takeOp l).fault = none ∧ (s.takeOp l).fsm ≠ .idle := by
      intro x e
      refine ⟨?_, hf, hr⟩
      by_cases hc : Instr.code x = 0
      · exact hc
      · exact absurd ⟨x, e, hc⟩ hx
    have hn : Next s.params o l t.todo := next_of_seqOp (s := s.takeOp l) hx' ho
    have he := effect_of_seqOp hx' ho
    have hcl := closes_next hn hclose
    have hfail : faulting o = true → t.todo = [] → t.fault ≠ none := by
      intro h1 h2
      cases o with
      | issue x =>
        obtain ⟨hc, hff, hrr⟩ := hx' x rfl
        rcases startTx_next hc hff ho with ⟨-, f, rfl⟩ | rfl
        · exact fun h => by cases h
        · rw [if_neg hrr, entered_todo] at h2
          exact absurd (List.append_eq_nil_iff.1 h2).1 (ops_tidy _ hc).2.2
      | configWrite =>
        rcases startEngine_next (show (s.takeOp l).startEngine _ _ = .next t from ho) with ⟨f, rfl⟩ | ⟨rfl, -⟩
        · exact fun h => by cases h
        · cases h2
      | callPage =>
        cases ho
        unfold State.callPage at h2 ⊢
        split at h2
        · exact fun h => by cases h
        · cases h2
      | _ => cases h1
    have hmove : moving o = true → t.todo ≠ [] → t.fsm ≠ .idle ∧ (t.fsm = .faulted → t.fault ≠ none) := by
      intro h1 hne
      cases o with
      | setFsm f =>
        cases ho
        have := hlaw.1
        simp only [Op.lawful, Bool.and_eq_true, bne_iff_ne, ne_eq] at this
        exact ⟨this.1, fun hh => absurd hh this.2⟩
      | callPage =>
        cases ho
        unfold State.callPage
        split
        · exact ⟨(fun h => by cases h), (fun _ h => by cases h)⟩
        · exact ⟨(fun h => by cases h), (fun h => by cases h)⟩
      | qeCheck =>
        cases ho
        unfold State.qeCheck at hne ⊢
        split at hne
        · exact absurd rfl hne
        · rename_i hq; rw [if_neg hq]; exact ⟨(fun h => by cases h), (fun h => by cases h)⟩
      | _ => cases h1
    rcases he.fault with h1 | ⟨-, h1, h2, h3⟩
    · rw [show (s.takeOp l).fault = none from hf] at h1
      rcases he.ends with ⟨-, h0⟩ | ⟨-, h0⟩
      · have htodo : t.todo ≠ [] := by
          intro h
          rcases hcl with ⟨-, h4 | h4⟩ | h4
          · exact h0 h4 h
          · exact hfail h4 h h1
          · rw [h] at h4; cases h4
        have hnf : t.fsm ≠ .idle ∧ t.fsm ≠ .faulted := by
          rcases he.fsm with h2 | ⟨-, -, h2⟩ | ⟨-, h2⟩ | h2
          · rw [h2]; exact ⟨hr, hr'⟩
          · exact absurd h2 htodo
          · exact absurd h2.todo htodo
          · exact ⟨(hmove h2 htodo).1, fun hh => (hmove h2 htodo).2 hh h1⟩
        refine ⟨core.params, core.memory, by simp [State.faulted, h1, hnf.2], ?_, fun h => absurd h hnf.1,
          core.results, core.cr, core.reserved, lawful_next hn hlaw.2, .inr (hcl.resolve_left fun h => htodo h.1)⟩
        cases hl' : t.todo with
        | nil => exact absurd hl' htodo
        | cons a m => simp [State.busy, hnf.1, hnf.2]
      · exact ⟨core.params, core.memory, by simp [State.faulted, h1, h0.fsm], by simp [State.busy, h0.fsm, h0.todo],
          fun _ => ⟨h0.eng, h0.desc⟩, core.results, core.cr, core.reserved, by rw [h0.todo]; rfl, .inl h0.todo⟩
    · refine ⟨core.params, core.memory, ?_, by simp [State.busy, h2, h3], (fun h => by rw [h2] at h; cases h),
        core.results, core.cr, core.reserved, by rw [h3]; rfl, .inl h3⟩
      cases hft : t.fault with
      | none => exact absurd hft h1
      | some f => simp [State.faulted, hft, h2]

/-- Where an instruction begins, the invariant holds. -/
theorem inv_begins {i : Instr} {s t : State} (h : s.Inv) (hi : s.idle = true) (hb : Begins s i t) : t.Inv := by
  obtain ⟨hfsm, htodo, hf⟩ := idle_facts hi
  obtain ⟨b, h1, h2, -⟩ := begins_frame hb
  have hc := Core.of_inv h
  have hfin : [Op.finish .ok 0].all Op.lawful = true := rfl
  have rest : t.fsm ≠ .faulted ∧ t.todo.all Op.lawful = true ∧ closes t.todo = true := by
    cases hb with
    | eWrite h => exact ⟨(fun h => by cases h), (by rw [latch_todo, List.all_append, lawful_write]; rfl), closes_append rfl⟩
    | eRead h => exact ⟨(fun h => by cases h), (by rw [latch_todo, List.all_append, lawful_read]; rfl), closes_append rfl⟩
    | ePoll h => exact ⟨(fun h => by cases h), (by rw [latch_todo, List.all_append, lawful_poll]; rfl), closes_append rfl⟩
    | eMmap h => exact ⟨(fun h => by cases h), (by rw [latch_todo, List.all_append, lawful_map]; rfl), closes_append rfl⟩
    | tx _ hx =>
      refine ⟨?_, by rw [entered_todo, List.all_append, lawful_ops _ hx]; rfl, by rw [entered_todo]; exact closes_append rfl⟩
      cases i <;> exact fun h => by cases h
    | _ => exact ⟨(fun h => by cases h), rfl, rfl⟩
  have hne : t.todo ≠ [] := by intro h; rw [h] at rest; cases rest.2.2
  refine ⟨by rw [b.params]; exact hc.params, ?_, by rw [State.faulted, h1, hf]; simp [rest.1], ?_, fun h => absurd h h2,
    by rw [b.port]; exact hc.results, by rw [b.regs, b.tmpCr]; exact hc.cr, by rw [b.regs]; exact hc.reserved, rest.2.1, .inr rest.2.2⟩
  · cases hb <;> first | exact hc.memory | exact memoryWf_entered i hc.memory
  · cases hl' : t.todo with
    | nil => exact absurd hl' hne
    | cons a m => simp [State.busy, h2, rest.1]

theorem inv_run {s : State} (n : Nat) (h : s.Inv) : (runSeq n s).Inv := by
  refine runSeq_keeps (P := State.Inv) ?_ n h
  intro u o l v hu hl ht ho
  refine inv_seqOp hu ?_ hl ho
  simp only [seqTurn, Bool.and_eq_true, Bool.not_eq_true', State.faulted, Option.isSome_eq_false_iff, Option.isNone_iff_eq_none] at ht
  exact ht.1.2

theorem inv_hostIn {s : State} (h : s.Inv) (l : List HostEvent) : ({ s with hostIn := l } : State).Inv :=
  ⟨h.params, h.memory, h.faulted, h.busy, h.between, h.results, h.cr, h.reserved, h.lawful, h.closing⟩

/-- A block that is neither busy nor faulted is idle. -/
theorem inv_idle {s : State} (h : s.Inv) (hf : s.fault = none) (hb : s.busy = false) : s.idle = true := by
  have h1 := h.busy
  have h2 := h.faulted
  rw [hb] at h1
  have ht : s.todo = [] := by
    cases hl : s.todo with
    | nil => rfl
    | cons a m => rw [hl] at h1; cases h1
  simp only [State.faulted, hf] at h2
  simp only [State.busy] at hb
  have : s.fsm = .idle := by
    by_contra hc
    have h3 : s.fsm ≠ .faulted := by intro h; simp [h] at h2
    simp [hc, h3] at hb
  simp [State.idle, this, ht, State.faulted, hf]

/-- Every instruction on an idle block keeps the invariant. -/
theorem inv_exec {i : Instr} {s t : State} (h : s.Inv) (hi : s.idle = true) (ht : exec i s = .next t) : t.Inv := by
  rw [exec_eq] at ht
  obtain ⟨u, hu, rfl⟩ := thenRun_next ht
  refine inv_run _ ?_
  rcases start_begins hi hu with ⟨f, rfl⟩ | ⟨-, f, rfl⟩ | hb
  · exact inv_fault (Core.of_inv h) f
  · exact inv_fault (s := prep i (s.begin i .engineCommand [.finish .ok 0]))
      ⟨h.params, h.memory, h.results, h.cr, h.reserved⟩ f
  · exact inv_begins h hi hb

end Sys2Proof.Laws
end

