-- ==== Sys2Proof/Laws/Chip.lean ====
section
/-! SUPPORT. What each command does to the chip of the reference device when it is accepted (20_memory.md R87 to R91), and
when the two status polls match (R90). -/

namespace Sys2Proof.Laws

open Sys2Proof.Machine

/-! ### Well-formed parameters (00_scope.md R9) -/

/-- The checks of R9 as facts. -/
structure WfParams (p : Params) : Prop where
  size : 0 < p.size
  page : 0 < p.page
  sector : 0 < p.sector
  sizeSector : p.size % p.sector = 0
  sectorPage : p.sector % p.page = 0
  size32 : p.size < 2 ^ 32
  addrBits : p.size ≤ 2 ^ p.addrBits.bits
  dummy : p.readDummy ≤ 31
  wel : oneBit p.welMask = true
  wip : oneBit p.wipMask = true
  qe : oneBit p.qeMask = true
  welWip : p.welMask ≠ p.wipMask
  opcodes : distinctBytes p.opc.toList = true

theorem wf_iff {p : Params} (h : p.wf = true) : WfParams p := by
  simp only [Params.wf, Bool.and_eq_true, decide_eq_true_eq, bne_iff_ne, ne_eq] at h
  obtain ⟨h1, h2, h3, h4, h5, h6, h7, h8, h9, h10, h11, h12, -, -, h15⟩ := h
  exact ⟨h1, h2, h3, h4, h5, h6, h7, h8, h9, h10, h11, h12, h15⟩

/-- A page divides the flash. -/
theorem WfParams.pageDvdSize {p : Params} (h : WfParams p) : p.page ∣ p.size :=
  (Nat.dvd_of_mod_eq_zero h.sectorPage).trans (Nat.dvd_of_mod_eq_zero h.sizeSector)

/-- The opcodes are pairwise distinct. -/
theorem WfParams.pairwise {p : Params} (h : WfParams p) : p.opc.toList.Pairwise (· ≠ ·) := by
  have key : ∀ l : List Byte, distinctBytes l = true → l.Pairwise (· ≠ ·) := by
    intro l
    induction l with
    | nil => exact fun _ => List.Pairwise.nil
    | cons b rest ih =>
      intro hd
      simp only [distinctBytes, Bool.and_eq_true, Bool.not_eq_true', List.contains_eq_mem, decide_eq_false_iff_not] at hd
      exact List.Pairwise.cons (fun c hc hbc => hd.1 (hbc ▸ hc)) (ih hd.2)
  exact key _ h.opcodes

/-- A mask of one bit is a power of two. -/
theorem oneBit_pow {m : Byte} (h : oneBit m = true) : ∃ k : Fin 8, m = 1 <<< k.val := by
  revert m; decide

theorem oneBit_and {m n : Byte} (hm : oneBit m = true) (hn : oneBit n = true) (hne : m ≠ n) : m &&& n = 0 := by
  obtain ⟨i, rfl⟩ := oneBit_pow hm
  obtain ⟨j, rfl⟩ := oneBit_pow hn
  revert i j; decide

theorem oneBit_test {m s : Byte} (hm : oneBit m = true) (h : s &&& m ≠ 0) : s &&& m = m := by
  obtain ⟨i, rfl⟩ := oneBit_pow hm
  revert s i; decide

theorem oneBit_ne {m : Byte} (hm : oneBit m = true) : m ≠ 0 := by
  rintro rfl; exact absurd hm (by decide)

/-! ### Accepted commands -/

section
variable {p : Params} (hp : WfParams p) (free : Nat → Byte) (a : Word) {d : RefDev} (hb : d.bc = 0)
include hp hb

theorem command_wren (data : List Byte) : d.command p free p.opc.wren a data =
    { d with rsten := false, fsr := d.fsr ||| p.welMask } := by
  have := hp.pairwise
  simp [Opcodes.toList] at this
  simp [RefDev.command, RefDev.accepts, Opcodes.toList, hb, this, Ne.symm]

omit hp in
theorem command_rsten (data : List Byte) : d.command p free p.opc.rsten a data = { d with rsten := true } := by
  simp [RefDev.command, RefDev.accepts, Opcodes.toList, hb]

theorem command_rst (data : List Byte) : d.command p free p.opc.rst a data =
    if d.rsten then
      { d with fsr := d.fsr &&& ~~~(p.welMask ||| p.wipMask), bc := 0, fcfg := d.fcfgReset, rsten := false }
    else d := by
  have := hp.pairwise
  simp [Opcodes.toList] at this
  simp [RefDev.command, RefDev.accepts, Opcodes.toList, hb, this, Ne.symm]

/-- The read commands only drop the reset-enable latch (R87). -/
theorem command_reads (data : List Byte) {op : Byte} (hop : op = p.opc.rdsr ∨ op = p.opc.rdcr ∨ op = p.opc.qread) :
    d.command p free op a data = { d with rsten := false } := by
  have := hp.pairwise
  simp [Opcodes.toList] at this
  rcases hop with rfl | rfl | rfl <;>
    simp [RefDev.command, RefDev.accepts, Opcodes.toList, hb, this, Ne.symm]

theorem command_wrvcr (b : Byte) (hl : d.latched p = true) : d.command p free p.opc.wrvcr a [b] =
    { d with rsten := false, fcfg := b, fsr := d.fsr &&& ~~~p.welMask } := by
  have := hp.pairwise
  simp [Opcodes.toList] at this
  simp [RefDev.command, RefDev.accepts, Opcodes.toList, hb, hl, this, Ne.symm]

theorem command_se (data : List Byte) (hl : d.latched p = true) : d.command p free p.opc.se a data =
    { d with
      rsten := false, fsr := d.fsr &&& ~~~p.welMask, bc := d.busyPolls
      array := cellClear (fun o => decide (o / p.sector = a.toNat / p.sector)) d.array } := by
  have := hp.pairwise
  simp [Opcodes.toList] at this
  simp [RefDev.command, RefDev.accepts, RefDev.arrayDone, Opcodes.toList, hb, hl, this, Ne.symm]

theorem command_ce (data : List Byte) (hl : d.latched p = true) : d.command p free p.opc.ce a data =
    { d with
      rsten := false, fsr := d.fsr &&& ~~~p.welMask, bc := d.busyPolls
      array := cellClear (fun o => decide (o < p.size)) d.array } := by
  have := hp.pairwise
  simp [Opcodes.toList] at this
  simp [RefDev.command, RefDev.accepts, RefDev.arrayDone, Opcodes.toList, hb, hl, this, Ne.symm]

theorem command_qpp (data : List Byte) (hl : d.latched p = true) : d.command p free p.opc.qpp a data =
    { d with
      rsten := false, fsr := d.fsr &&& ~~~p.welMask, bc := d.busyPolls
      array := programBytes p a.toNat 0 data d.array } := by
  have := hp.pairwise
  simp [Opcodes.toList] at this
  simp [RefDev.command, RefDev.accepts, RefDev.arrayDone, Opcodes.toList, hb, hl, this, Ne.symm]

/-- The response of a quad read (R92). -/
theorem response_qread (n : Nat) : d.response p free p.opc.qread a n =
    (List.range n).map fun j => d.arrayByte ((a.toNat + j) % p.size) := by
  have := hp.pairwise
  simp [Opcodes.toList] at this
  unfold RefDev.response
  refine List.map_congr_left fun j _ => ?_
  simp [RefDev.responseByte, RefDev.accepts, RefDev.arrayByte, Opcodes.toList, hb, this, Ne.symm]

/-- The response of a configuration read (R89). -/
theorem response_rdcr (n : Nat) : d.response p free p.opc.rdcr a n = (List.range n).map fun _ => d.fcfg := by
  have := hp.pairwise
  simp [Opcodes.toList] at this
  unfold RefDev.response
  refine List.map_congr_left fun j _ => ?_
  simp [RefDev.responseByte, RefDev.accepts, Opcodes.toList, hb, this, Ne.symm]

end

/-! ### Status polls (R90) -/

/-- A one-byte AND poll compares the status byte with the match under the mask. -/
theorem pollMatches_byte (r : Regs) (m k s : Byte) :
    pollMatches { r with psmar := m.setWidth 32, psmkr := k.setWidth 32 } false 1 s = ((s ^^^ m) &&& k == 0) := by
  have hw : (replicateByte s ^^^ m.setWidth 32) &&& (k.setWidth 32 &&& sampleMask 1) =
      ((s ^^^ m) &&& k).setWidth 32 := by
    have hmask : sampleMask 1 = 0xFF#32 := by decide
    rw [hmask]
    apply BitVec.eq_of_getLsbD_eq
    intro i hi
    by_cases h8 : i < 8
    · have h255 : (255#32)[i] = true := by
        have : ∀ i : Fin 8, (255#32).getLsbD i.val = true := by decide
        rw [← BitVec.getLsbD_eq_getElem]
        exact this ⟨i, h8⟩
      simp [replicateByte, hi, h8, show i < 16 by omega, show i < 24 by omega, h255]
    · have : k.getLsbD i = false := BitVec.getLsbD_of_ge _ _ (by omega)
      simp [this]
  simp only [pollMatches, Bool.false_eq_true, if_false, hw]
  have hinj : ∀ b : Byte, ((b.setWidth 32 : Word) == 0) = (b == 0) := by decide
  exact hinj _

/-- The latch poll matches once the latch is set (41_flash_transactions.md R161). -/
theorem welPoll_matches {p : Params} (hp : WfParams p) {d : RefDev} (hl : d.latched p = true) (i : Nat) :
    ((statusAt p d i ^^^ p.welMask) &&& p.welMask == 0) = true := by
  have hw := oneBit_and hp.wel hp.wip hp.welWip
  have hf : d.fsr &&& p.welMask = p.welMask := oneBit_test hp.wel (by simpa [RefDev.latched] using hl)
  have key : ∀ s : Byte, s &&& p.welMask = p.welMask → ((s ^^^ p.welMask) &&& p.welMask == 0) = true := by
    intro s hs
    rw [beq_iff_eq]
    rw [show (s ^^^ p.welMask) &&& p.welMask = (s &&& p.welMask) ^^^ p.welMask by
      apply BitVec.eq_of_getLsbD_eq; intro i _
      simp only [BitVec.getLsbD_and, BitVec.getLsbD_xor]
      cases s.getLsbD i <;> cases p.welMask.getLsbD i <;> rfl, hs, BitVec.xor_self]
    rfl
  apply key
  unfold statusAt RefDev.status
  have hbit : ∀ j, d.fsr.getLsbD j = false → p.welMask.getLsbD j = false := by
    intro j hj
    have := congrArg (fun b : Byte => b.getLsbD j) hf
    simpa [hj] using this.symm
  have hdis : ∀ j, p.welMask.getLsbD j = true → p.wipMask.getLsbD j = false := by
    intro j hj
    have := congrArg (fun b : Byte => b.getLsbD j) hw
    simpa [hj] using this
  split <;> apply BitVec.eq_of_getLsbD_eq <;> intro j hj8 <;>
    simp only [BitVec.getLsbD_and, BitVec.getLsbD_or, BitVec.getLsbD_not, hj8, decide_true, Bool.true_and] <;>
    have h1 := hbit j <;> have h2 := hdis j <;> revert h1 h2 <;>
    cases p.welMask.getLsbD j <;> cases p.wipMask.getLsbD j <;> cases d.fsr.getLsbD j <;> simp

/-- The busy poll matches exactly when the countdown is over (R162). -/
theorem wipPoll_matches {p : Params} (hp : WfParams p) (d : RefDev) (i : Nat) :
    ((statusAt p d i ^^^ 0) &&& p.wipMask == 0) = decide (d.bc ≤ i) := by
  rw [show statusAt p d i ^^^ 0 = statusAt p d i from BitVec.xor_zero]
  unfold statusAt RefDev.status
  by_cases hb : d.bc ≤ i
  · rw [if_neg (by simp only; omega), decide_eq_true hb, beq_iff_eq, BitVec.and_assoc,
      show ~~~p.wipMask &&& p.wipMask = 0#8 by rw [BitVec.and_comm]; exact BitVec.and_not_self _]
    exact BitVec.and_zero
  · rw [if_pos (by simp only; omega), decide_eq_false hb, beq_eq_false_iff_ne]
    intro h0
    refine oneBit_ne hp.wip ?_
    apply BitVec.eq_of_getLsbD_eq
    intro j hj
    have := congrArg (fun b : Byte => b.getLsbD j) h0
    simp only [BitVec.getLsbD_and, BitVec.getLsbD_or] at this
    cases hw : p.wipMask.getLsbD j
    · simp
    · rw [hw] at this; simp at this

/-- A configuration write, latched or not. -/
theorem command_wrvcr_any {p : Params} (hp : WfParams p) (free : Nat → Byte) (a : Word) {d : RefDev} (hb : d.bc = 0) (b : Byte) : d.command p free p.opc.wrvcr a [b] =
    if d.latched p then { d with rsten := false, fcfg := b, fsr := d.fsr &&& ~~~p.welMask } else { d with rsten := false } := by
  have := hp.pairwise
  simp [Opcodes.toList] at this
  simp [RefDev.command, RefDev.accepts, Opcodes.toList, hb, this, Ne.symm]

/-- An erase or program of an unlatched chip only clears the reset-enable latch. -/
theorem command_array_unlatched {p : Params} (hp : WfParams p) (free : Nat → Byte) (a : Word) {d : RefDev} (hb : d.bc = 0) (hl : d.latched p = false) (data : List Byte) {op : Byte} (hop : op = p.opc.se ∨ op = p.opc.ce ∨ op = p.opc.qpp) :
    d.command p free op a data = { d with rsten := false } := by
  have := hp.pairwise
  simp [Opcodes.toList] at this
  rcases hop with rfl | rfl | rfl <;>
    simp [RefDev.command, RefDev.accepts, Opcodes.toList, hb, hl, this, Ne.symm]

/-- A cleared bit reads 0. -/
theorem unlatch (a b : Byte) : ((a &&& ~~~b) &&& b != 0) = false := by
  rw [BitVec.and_assoc, BitVec.and_comm (~~~b), BitVec.and_not_self]; simp

end Sys2Proof.Laws
end

