-- ==== Sys2Proof/Laws/Transactions.lean ====
section
/-! SUPPORT. The flash transactions of a running command on a ready reference device (41_flash_transactions.md): each comes
to its end, and what it leaves of the chip, the trace and the buffers. -/

namespace Sys2Proof.Laws

open Sys2Proof.Machine

/-! ### The premises of a transaction -/

/-- A command is running on a ready device, and the guards of R130 pass. -/
structure Live (x : State) (d : RefDev) : Prop where
  ready : Ready x d
  wf : x.params.wf = true
  unmapped : x.mmapActive = false
  running : x.fsm ≠ .idle

theorem Live.params {x : State} {d : RefDev} (h : Live x d) : WfParams x.params := wf_iff h.wf

theorem Live.of {x y : State} {d e : RefDev} (h : Live x d) (hr : Ready y e) (hk : Kept x y)
    (hm : y.mmapActive = x.mmapActive) : Live y e :=
  ⟨hr, by rw [hk.params]; exact h.wf, hm.trans h.unmapped, by rw [hk.fsm]; exact h.running⟩

/-- The state after an operation's guards: the descriptor latched. -/
def latched (D : Descriptor) (x : State) : State := { x with desc := some D }

theorem kept_prep (i : Instr) (x : State) : Kept x (prep i x) := by constructor <;> rfl

theorem Ready.prep {x : State} {d : RefDev} (h : Ready x d) (i : Instr) : Ready (prep i x) d :=
  ⟨h.calm.of rfl rfl, h.env, h.dev, h.en, h.abort⟩

theorem kept_latched (D : Descriptor) (x : State) : Kept x (latched D x) := by constructor <;> rfl

theorem Ready.latched {x : State} {d : RefDev} (h : Ready x d) (D : Descriptor) : Ready (latched D x) d :=
  ⟨h.calm.of rfl rfl, h.env, h.dev, h.en, h.abort⟩

/-- The guards of R130 pass on a well-formed descriptor, an engine that is on and not mapped. -/
theorem startEngine_ok {x : State} {D : Descriptor} {ops : List Op} (hok : descriptorOk D = true)
    (hen : crEn x.regs.cr = true) (hm : x.mmapActive = false) :
    x.startEngine D ops = .next (x.latch D ops) := by
  simp [State.startEngine, State.guardChecks, firstFault, hok, hen, hm]

/-- A running command's transaction goes straight to the engine. -/
theorem startTx_running {x : State} {i : Instr} {f : State → Out} (hf : x.fault = none) (hr : x.fsm ≠ .idle) :
    x.startTx i f = f x := by
  simp [State.startTx, State.faulted, hf, hr]

/-- The step that hands a transaction to the engine. -/
theorem runs_issue {x : State} {d : RefDev} {i : Instr} {D : Descriptor} {ops l : List Op} (h : Live x d)
    (hs : startInstr i (withTodo l x) = (withTodo l (prep i x)).startEngine D ops) (hok : descriptorOk D = true) :
    Runs 1 (withTodo (.issue i :: l) x) (withTodo (ops ++ l) (latched D (prep i x))) := by
  refine Runs.op rfl h.ready.calm.1 h.ready.calm.2 ?_
  show startInstr i (withTodo l x) = _
  rw [hs, startEngine_ok (x := withTodo l (prep i x)) hok h.ready.en h.unmapped]
  rfl

/-! ### Descriptors are well formed (30_encoding.md R109) -/

theorem ok_plain (op : Byte) : descriptorOk (.transfer (commandOnly (plainHeader op))) = true := by
  simp [descriptorOk, headerOk, commandOnly, plainHeader]

theorem ok_sectorErase {p : Params} (hp : WfParams p) {addr : Word} (ha : addr.toNat < p.size) :
    descriptorOk (.transfer (commandOnly (sectorEraseHeader p addr))) = true := by
  have := lt_of_lt_of_le ha hp.addrBits
  simp [descriptorOk, headerOk, commandOnly, sectorEraseHeader, plainHeader]
  exact decide_eq_true this

theorem ok_quadProgram {p : Params} (hp : WfParams p) {dest n src : Word} (hd : dest.toNat < p.size)
    (hn : n ≠ 0) : descriptorOk (.transfer (quadProgram p dest n src)) = true := by
  have := lt_of_lt_of_le hd hp.addrBits
  simp [descriptorOk, headerOk, quadProgram, quadProgramHeader, plainHeader]
  exact ⟨decide_eq_true this, decide_eq_true hn⟩

theorem ok_quadReadHeader {p : Params} (hp : WfParams p) {dest : Word} (hd : dest.toNat < p.size) :
    headerOk (quadReadHeader p dest) = true := by
  have ha := lt_of_lt_of_le hd hp.addrBits
  have h8 : (p.readAlt.setWidth 32).toNat < 2 ^ AddrSize.bits8.bits := by
    have := p.readAlt.isLt
    simp [AddrSize.bits, AddrSize.code] at *
    omega
  have h5 : (BitVec.ofNat 5 p.readDummy).toNat ≤ 31 := by have := (BitVec.ofNat 5 p.readDummy).isLt; omega
  simp only [headerOk, quadReadHeader, plainHeader, Bool.and_eq_true, Bool.or_eq_true]
  exact ⟨⟨decide_eq_true h5, .inr (decide_eq_true ha)⟩, .inr (decide_eq_true h8)⟩

theorem ok_quadRead {p : Params} (hp : WfParams p) {dest n : Word} {b : BufRef} (hd : dest.toNat < p.size)
    (hn : n ≠ 0) : descriptorOk (.transfer (quadRead p dest n b)) = true := by
  have h4 : (quadReadHeader p dest).dmode ≠ .none := by simp [quadReadHeader]
  simp [descriptorOk, quadRead, ok_quadReadHeader hp hd, h4]
  exact decide_eq_true hn

theorem ok_quadReadMap {p : Params} (hp : WfParams p) : descriptorOk (.map (quadReadMap p)) = true := by
  simp only [descriptorOk, quadReadMap, ok_quadReadHeader hp (dest := 0) hp.size, Bool.true_and]
  simp [quadReadHeader]

theorem ok_statusPoll (p : Params) (m k : Byte) : descriptorOk (.poll (statusPoll p m k)) = true := by
  simp [descriptorOk, headerOk, statusPoll, statusHeader, plainHeader]

theorem ok_config (p : Params) : descriptorOk (.transfer (configRead p)) = true ∧
    descriptorOk (.transfer (configWrite p)) = true := by
  constructor <;> simp [descriptorOk, headerOk, configRead, configWrite, plainHeader]

/-! ### Whole transactions -/

/-- A transaction that writes: the command runs on the chip with the bytes of its buffer. -/
theorem run_txWrite {x : State} {d : RefDev} {i : Instr} {t : Transaction} {bytes : List Byte} {l : List Op} (h : Live x d)
    (hs : startInstr i (withTodo l x) = (withTodo l (prep i x)).startEngine (.transfer t) (writeOps t))
    (hok : descriptorOk (.transfer t) = true) (hlen : bytes.length = t.len.toNat)
    (hb : ∀ j (hj : j < bytes.length), bufOk x t.buf j = true ∧ bufByte x t.buf j = bytes[j]) :
    ∃ k y e free, k ≤ 15 + 5 * bytes.length ∧ Runs k (withTodo (.issue i :: l) x) (withTodo l y) ∧ Live y e ∧ Kept x y ∧
      Rest x y ∧ e.chip = d.chip.command x.params free t.hdr.instr t.hdr.addr bytes ∧
      y.trace = x.trace ++ [entryOf .eWrite t.hdr .indirectWrite t.len bytes] := by
  obtain ⟨k, y, e, free, hk, hr, hd, rest, -, hchip, htr⟩ := run_write ((h.ready.prep i).latched (.transfer t)) rfl hok hlen
    (bytes := bytes) (fun j hj => by
      rw [bufOk_of ((kept_prep i x).trans (kept_latched (.transfer t) _)),
        bufByte_of (x := x) (y := latched (.transfer t) (prep i x)) rfl rfl rfl]; exact hb j hj) l
  have hkept : Kept x y := (kept_prep i x).trans ((kept_latched (.transfer t) _).trans hd.kept)
  refine ⟨1 + k, y, e, free, by omega, (runs_issue h hs hok).trans hr, h.of hd.ready hkept rest.mmapActive, hkept,
    ⟨rest.hostMem, rest.stg, rest.cfgbuf, rest.mmapActive⟩, hchip, htr⟩

/-- A transaction that reads: the response fills its buffer. -/
theorem run_txRead {x : State} {d : RefDev} {i : Instr} {t : Transaction} {l : List Op} (h : Live x d)
    (hs : startInstr i (withTodo l x) = (withTodo l (prep i x)).startEngine (.transfer t) (readOps t))
    (hok : descriptorOk (.transfer t) = true) (hb : ∀ j, j < t.len.toNat → bufOk x t.buf j = true) :
    ∃ k y e free, k ≤ 15 + 5 * t.len.toNat ∧ Runs k (withTodo (.issue i :: l) x) (withTodo l y) ∧ Live y e ∧ Kept x y ∧
      e.chip = d.chip.command x.params free t.hdr.instr t.hdr.addr [] ∧
      Filled x y t.buf 0 (d.response x.params free t.hdr.instr t.hdr.addr t.len.toNat) ∧
      y.trace = x.trace ++ [entryOf .eRead t.hdr .indirectRead t.len
        (d.response x.params free t.hdr.instr t.hdr.addr t.len.toNat)] := by
  obtain ⟨k, y, e, free, hk, hr, hd, hm, -, hchip, hf, htr⟩ := run_read ((h.ready.prep i).latched (.transfer t)) rfl hok
    (fun j hj => by rw [bufOk_of ((kept_prep i x).trans (kept_latched (.transfer t) _))]; exact hb j hj) l
  have hkept : Kept x y := (kept_prep i x).trans ((kept_latched (.transfer t) _).trans hd.kept)
  refine ⟨1 + k, y, e, free, by omega, (runs_issue h hs hok).trans hr, h.of hd.ready hkept hm, hkept, hchip, ?_, htr⟩
  have e1 : hostAfter (latched (.transfer t) (prep i x)) = hostAfter x := rfl
  have e2 : stgAfter (latched (.transfer t) (prep i x)) = stgAfter x := rfl
  have e3 : cfgAfter (latched (.transfer t) (prep i x)) = cfgAfter x := rfl
  exact ⟨e1 ▸ hf.hostMem, e2 ▸ hf.stg, e3 ▸ hf.cfgbuf⟩

/-- A status poll whose evaluation `j` is the first to match. -/
theorem run_txPoll {x : State} {d : RefDev} {i : Instr} {m k : Byte} (j : Nat) {l : List Op} (h : Live x d)
    (hs : startInstr i (withTodo l x) =
      (withTodo l (prep i x)).startEngine (.poll (statusPoll x.params m k)) (pollOps (statusPoll x.params m k)))
    (hno : ∀ n, n < j → ((statusAt x.params d n ^^^ m) &&& k == 0) = false)
    (hyes : ((statusAt x.params d j ^^^ m) &&& k == 0) = true) (hb : budgetSpent x.params j = false) :
    ∃ c y e, c ≤ 19 + j ∧ Runs c (withTodo (.issue i :: l) x) (withTodo l y) ∧ Live y e ∧ Kept x y ∧ Rest x y ∧
      e.chip = { d.chip with bc := d.bc - (j + 1) } ∧
      y.trace = x.trace ++ [entryOf .ePoll (statusHeader x.params) .autoPoll 1 []] := by
  obtain ⟨c, y, e, hc, hr, hkept, hrest, -, -, -, hchip, hrdy, -, htr⟩ := run_poll (pd := statusPoll x.params m k) j
    ((h.ready.prep i).latched (.poll (statusPoll x.params m k))) (ok_statusPoll _ _ _)
    (fun n hn => by rw [← hno n hn]; exact pollMatches_byte _ _ _ _)
    (by rw [← hyes]; exact pollMatches_byte _ _ _ _) hb l
  have hk : Kept x y := (kept_prep i x).trans ((kept_latched _ _).trans hkept)
  exact ⟨1 + c, y, e, by omega, (runs_issue h hs (ok_statusPoll _ _ _)).trans hr, h.of (hrdy rfl) hk hrest.mmapActive, hk,
    ⟨hrest.hostMem, hrest.stg, hrest.cfgbuf, hrest.mmapActive⟩, hchip, htr⟩

/-! ### Starts of the transactions, inside a command -/

section
variable {x : State} {d : RefDev} (h : Live x d) (l : List Op)
include h

theorem start_running (i : Instr) (f : State → Out) : (withTodo l x).startTx i f = f (withTodo l x) :=
  startTx_running (x := withTodo l x) h.ready.calm.2 h.running

theorem run_wren : ∃ k y e free, k ≤ 15 ∧ Runs k (withTodo (.issue .tWren :: l) x) (withTodo l y) ∧ Live y e ∧ Kept x y ∧
    Rest x y ∧ e.chip = d.chip.command x.params free x.params.opc.wren 0 [] ∧
    y.trace = x.trace ++ [entryOf .eWrite (plainHeader x.params.opc.wren) .indirectWrite 0 []] :=
  run_txWrite (t := commandOnly (plainHeader x.params.opc.wren)) (bytes := []) h 
    (start_running h l .tWren fun s => s.startWrite (commandOnly (plainHeader s.params.opc.wren))) (ok_plain _) rfl
    (fun _ hj => absurd hj (by simp))

/-- The latch poll of a chip whose latch is set (41_flash_transactions.md R161). -/
theorem run_pollWel (hl : d.latched x.params = true) : ∃ k y e, k ≤ 19 ∧
    Runs k (withTodo (.issue .tPollWel :: l) x) (withTodo l y) ∧ Live y e ∧ Kept x y ∧ Rest x y ∧
    e.chip = { d.chip with bc := d.bc - 1 } ∧
    y.trace = x.trace ++ [entryOf .ePoll (statusHeader x.params) .autoPoll 1 []] :=
  run_txPoll 0 h 
    (start_running h l .tPollWel fun s => s.startPoll (statusPoll s.params s.params.welMask s.params.welMask))
     (fun n hn => absurd hn (by omega)) (welPoll_matches h.params hl 0) (by
    have := h.wf
    unfold budgetSpent
    cases hb : x.params.waitBudget with
    | none => rfl
    | some b =>
      simp only [Params.wf, hb, Bool.and_eq_true, decide_eq_true_eq] at this
      simp only [decide_eq_false_iff_not]
      omega)

/-- The busy poll (R162): it takes one evaluation more than the countdown. -/
theorem run_pollWip (hb : budgetSpent x.params d.bc = false) : ∃ k y e, k ≤ 19 + d.bc ∧
    Runs k (withTodo (.issue .tPollWip :: l) x) (withTodo l y) ∧ Live y e ∧ Kept x y ∧ Rest x y ∧
    e.chip = { d.chip with bc := 0 } ∧
    y.trace = x.trace ++ [entryOf .ePoll (statusHeader x.params) .autoPoll 1 []] := by
  have := run_txPoll (i := .tPollWip) (m := 0) (k := x.params.wipMask) d.bc (l := l) h 
    (start_running h l .tPollWip fun s => s.startPoll (statusPoll s.params 0 s.params.wipMask))
    
    (fun n hn => by rw [wipPoll_matches h.params]; simpa using hn)
    (by rw [wipPoll_matches h.params]; simp) hb
  rwa [show d.bc - (d.bc + 1) = 0 by omega] at this

/-- A command with no data (R163, R164 and the others of their shape). -/
theorem run_command {i : Instr} {op : Byte}
    (hs : startInstr i (withTodo l x) =
      (withTodo l (prep i x)).startEngine (.transfer (commandOnly (plainHeader op))) (writeOps (commandOnly (plainHeader op)))) :
    ∃ k y e free, k ≤ 15 ∧ Runs k (withTodo (.issue i :: l) x) (withTodo l y) ∧ Live y e ∧ Kept x y ∧ Rest x y ∧
      e.chip = d.chip.command x.params free op 0 [] ∧
      y.trace = x.trace ++ [entryOf .eWrite (plainHeader op) .indirectWrite 0 []] :=
  run_txWrite (t := commandOnly (plainHeader op)) (bytes := []) h hs (ok_plain _) rfl (fun _ hj => absurd hj (by simp))

/-- The configuration read (R166): the byte in `CFGBUF`. -/
theorem run_rdcr (hb : d.bc = 0) : ∃ k y e, k ≤ 20 ∧ Runs k (withTodo (.issue .tRdcr :: l) x) (withTodo l y) ∧
    Live y e ∧ Kept x y ∧ y.hostMem = x.hostMem ∧ y.stg = x.stg ∧ y.cfgbuf = d.fcfg ∧ y.mmapActive = x.mmapActive ∧
    e.chip = { d.chip with rsten := false } ∧
    y.trace = x.trace ++
      [entryOf .eRead { plainHeader x.params.opc.rdcr with dmode := .one } .indirectRead 1 [d.fcfg]] := by
  obtain ⟨k, y, e, free, hk, r, ly, kp, ch, fl, tr⟩ := run_txRead (i := .tRdcr) (l := l)
    (t := configRead x.params) h
    (start_running h l .tRdcr fun s => State.startRead { s with cfgSaved := some s.cfgbuf } (configRead s.params)) (ok_config _).1 (fun _ _ => rfl)
  have hr : d.response x.params free (configRead x.params).hdr.instr (configRead x.params).hdr.addr
      (configRead x.params).len.toNat = [d.fcfg] := by
    show d.response x.params free x.params.opc.rdcr 0 1 = _
    rw [response_rdcr h.params free 0 hb]; rfl
  rw [hr] at fl tr
  refine ⟨k, y, e, hk, r, ly, kp, fl.hostMem, fl.stg, fl.cfgbuf, ly.unmapped.trans h.unmapped.symm, ?_, tr⟩
  rw [ch]
  exact command_reads h.params free 0 (d := d.chip) hb [] (.inr (.inl rfl))

/-- The configuration write (R167): `CFGBUF` with the quad-enable bit set goes to a latched chip. -/
theorem run_wrvcr (hb : d.bc = 0) (hl : d.latched x.params = true) : ∃ k y e, k ≤ 21 ∧
    Runs k (withTodo (.issue .tWrvcr :: l) x) (withTodo l y) ∧ Live y e ∧ Kept x y ∧ y.hostMem = x.hostMem ∧
    y.stg = x.stg ∧ y.cfgbuf = x.cfgbuf ||| x.params.qeMask ∧ y.mmapActive = x.mmapActive ∧
    e.chip = { d.chip with
      rsten := false, fcfg := x.cfgbuf ||| x.params.qeMask, fsr := d.fsr &&& ~~~x.params.welMask } ∧
    y.trace = x.trace ++ [entryOf .eWrite { plainHeader x.params.opc.wrvcr with dmode := .one } .indirectWrite 1
      [x.cfgbuf ||| x.params.qeMask]] := by
  have h' : Live { x with cfgbuf := x.cfgbuf ||| x.params.qeMask } d :=
    ⟨⟨h.ready.calm, h.ready.env, h.ready.dev, h.ready.en, h.ready.abort⟩, h.wf, h.unmapped, h.running⟩
  have kx : Kept x { x with cfgbuf := x.cfgbuf ||| x.params.qeMask } := by constructor <;> rfl
  obtain ⟨k, y, e, free, hk, r, hd, rest, -, ch, tr⟩ := run_write (h'.ready.latched (.transfer (configWrite x.params)))
    (t := configWrite x.params) (bytes := [x.cfgbuf ||| x.params.qeMask]) rfl (ok_config _).2 rfl
    (fun j hj => ⟨rfl, by
      have : j = 0 := by simpa using hj
      subst this; rfl⟩) l
  have kp := kx.trans ((kept_latched _ _).trans hd.kept)
  have issue : Runs 1 (withTodo (.issue .tWrvcr :: l) x)
      (withTodo (.configWrite :: l) { x with cfgbuf := x.cfgbuf ||| x.params.qeMask }) := by
    refine Runs.op rfl h.ready.calm.1 h.ready.calm.2 ?_
    show startTWrvcr (withTodo l x) = _
    rw [startTWrvcr, startTx_running (x := withTodo l x) h.ready.calm.2 h.running]
    rfl
  have config : Runs 1 (withTodo (.configWrite :: l) { x with cfgbuf := x.cfgbuf ||| x.params.qeMask })
      (withTodo (writeOps (configWrite x.params) ++ l)
        (latched (.transfer (configWrite x.params)) { x with cfgbuf := x.cfgbuf ||| x.params.qeMask })) :=
    Runs.op rfl h'.ready.calm.1 h'.ready.calm.2 <|
      startEngine_ok (x := withTodo l { x with cfgbuf := x.cfgbuf ||| x.params.qeMask }) (ok_config _).2 h.ready.en h.unmapped
  refine ⟨1 + (1 + k), y, e, by simp at hk; omega, issue.trans (config.trans r),
    ⟨hd.ready, by rw [kp.params]; exact h.wf, rest.mmapActive.trans h.unmapped, by rw [kp.fsm]; exact h.running⟩, kp,
    rest.hostMem, rest.stg, rest.cfgbuf, rest.mmapActive, ?_, tr⟩
  rw [ch]
  exact command_wrvcr h.params free 0 (d := d.chip) hb _ hl

end

end Sys2Proof.Laws
end

