-- ==== Sys2Proof/Laws/Checks.lean ====
section
/-! SUPPORT. What a command's start checks: the faults it owes against the checks the model makes, the descriptor checks,
and the small facts of the device that statements about single operations need. -/

namespace Sys2Proof.Laws

open Sys2Proof.Machine

/-- A block without a fault mark is not faulted. -/
theorem not_faulted {s : State} (h : s.fault = none) : s.faulted = false := by simp [State.faulted, h]

/-- An idle block reads BUSY as 0. -/
theorem idle_not_busy {s : State} (h : s.idle = true) : s.busy = false := by
  simp [State.busy, (idle_facts h).1]

/-- On an idle block with its operands written a command's start is its rule. -/
theorem startCommand_idle {s : State} {i : Instr} {body : State → Out} (hi : s.idle = true) :
    s.startCommand i body = if s.argsMissing i then .next (s.raiseFault .unwritten) else body s := by
  simp only [State.startCommand, not_faulted (idle_facts hi).2.2, idle_not_busy hi, Bool.false_eq_true, if_false]

/-- A pattern past 8 bits is one with bits 31:8 set. -/
theorem badPattern_iff (v : Word) : badPattern v = true ↔ 256 ≤ v.toNat := by
  have hz : (0 : BitVec 24).toNat = 0 := rfl
  simp only [badPattern, bne_iff_ne, ne_eq, ← BitVec.toNat_inj, BitVec.extractLsb'_toNat, Nat.shiftRight_eq_div_pow,
    Nat.reducePow, hz]
  omega

/-- The start of a host command goes through the checks of every command start. -/
theorem startInstr_command {i : Instr} (hc : Instr.code i ≠ 0) (s : State) : ∃ body, startInstr i s = s.startCommand i body := by
  cases i <;> first
    | exact absurd rfl hc
    | (simp only [startInstr, startInit, startProgramPage, startEraseSector, startEraseChip, startReadCommand, startVerify,
        startBlankCheck, startMmap, startWriteCommand, startEWrite, startERead, startEPoll, startEMmap, startEAbort, startEDeinit]
       exact ⟨_, rfl⟩)

theorem ite_code {c : Prop} [Decidable c] {a b : Except DecodeError Instr} {k : Instr} (h : (if c then a else b) = .ok k) (ha : a = .ok k → Instr.code k = 0)
    (hb : b = .ok k → Instr.code k = 0) : Instr.code k = 0 := by
  by_cases hc : c
  · rw [if_pos hc] at h; exact ha h
  · rw [if_neg hc] at h; exact hb h

/-- Every instruction a transaction word decodes to is a transaction. -/
theorem decodeTx_code {p : Params} {c : Word} {o : TxWords} {k : Instr} (h : decodeTx p c o = .ok k) : Instr.code k = 0 := by
  unfold decodeTx at h
  have ok : ∀ j, Instr.code j = 0 → (Except.ok j : Except DecodeError Instr) = .ok k → Instr.code k = 0 := by
    intro j hj h; injection h with h; rw [← h]; exact hj
  have er : ∀ e, (Except.error e : Except DecodeError Instr) = .ok k → Instr.code k = 0 := by
    intro e h; injection h
  exact ite_code h (ok _ rfl) fun h => ite_code h (fun h => ite_code h (ok _ rfl) fun h => ite_code h (ok _ rfl) (er _)) fun h =>
    ite_code h (ok _ rfl) fun h => ite_code h (ok _ rfl) fun h => ite_code h (ok _ rfl) fun h => ite_code h (ok _ rfl) fun h =>
    ite_code h (ok _ rfl) fun h => ite_code h (ok _ rfl) fun h => ite_code h (fun h => ite_code h (ok _ rfl) (er _)) fun h =>
    ite_code h (fun h => ite_code h (ok _ rfl) fun h => ite_code h (ok _ rfl) (er _)) fun h => ite_code h (ok _ rfl) (er _)

/-- The value of a little-endian load, and its width. -/
theorem leLoad_toNat (arr : List Host.Cell) (o : Nat) (w : Nat) (hw : w ≤ 4) : (leLoad arr o w).toNat =
    ((List.range w).map fun j => (cellRead arrayDefault arr (o + j)).toNat * 2 ^ (8 * j)).sum ∧ (leLoad arr o w).toNat < 2 ^ (8 * w) := by
  induction w with
  | zero => exact ⟨rfl, by simp [leLoad]⟩
  | succ w ih =>
    obtain ⟨this, hb⟩ := ih (by omega)
    generalize hx : cellRead arrayDefault arr (o + w) = x
    have hxl := x.isLt
    have hp : 2 ^ (8 * (w + 1)) ≤ 2 ^ 32 := Nat.pow_le_pow_right (by omega) (by omega)
    have hp2 : 2 ^ (8 * (w + 1)) = 256 * 2 ^ (8 * w) := by rw [show 8 * (w + 1) = 8 + 8 * w by omega, Nat.pow_add]
    have e : (leLoad arr o (w + 1)).toNat = (leLoad arr o w).toNat + x.toNat * 2 ^ (8 * w) := by
      simp only [leLoad, hx, BitVec.toNat_or, BitVec.toNat_shiftLeft, BitVec.toNat_setWidth]
      rw [Nat.mod_eq_of_lt (show x.toNat < 2 ^ 32 by omega), Nat.shiftLeft_eq, Nat.mod_eq_of_lt, Nat.or_comm, Nat.mul_comm, ← Nat.two_pow_add_eq_or_of_lt hb, Nat.add_comm, Nat.mul_comm]
      have : x.toNat * 2 ^ (8 * w) < 256 * 2 ^ (8 * w) := Nat.mul_lt_mul_of_pos_right (by omega) (Nat.two_pow_pos _)
      omega
    refine ⟨?_, ?_⟩
    · rw [List.range_succ, List.map_append, List.sum_append, ← this, e]
      simp [hx]
    · rw [e, hp2]
      have : x.toNat * 2 ^ (8 * w) ≤ 255 * 2 ^ (8 * w) := Nat.mul_le_mul_right _ (by omega)
      omega

/-- A start that answers the owed fault or a begun state. -/
theorem startsOr_of {s : State} {i : Instr} {owed : Option FaultReason} {st : FsmStep} {D : Option Descriptor} {b : State}
    (h : startInstr i s = match owed with | some f => .next (s.raiseFault f) | none => .next b)
    (hb : owed = none → b.fsm = st ∧ b.desc = D ∧ b.fault = none ∧ b.current = some i ∧
    b.trace = s.trace ∧ b.regs = s.regs ∧ b.env = s.env ∧ b.hostMem = s.hostMem ∧ b.port = s.port ∧ b.burst = s.burst) : s.startsOr i owed st D := by
  refine ⟨?_, ?_⟩
  · rintro f rfl
    rw [exec_eq, h]; exact thenRun_raiseFault s f
  · rintro rfl hb0
    obtain ⟨h1, hd, h2, h3, h4, h5, h6, h7, h8, h9⟩ := hb rfl
    refine ⟨b, ?_, h1, hd, h2, h3, h4, h5, h6, h7, h8⟩
    rw [exec_eq, h, thenRun_of_next, h9, hb0]; rfl

/-- The checks of a flash-layer command, enable and mapped mode first. -/
theorem owed_engine (s : State) (l : List (Bool × FaultReason)) : firstFault (s.engineChecks ++ l) = s.owedFlash (firstFault l) := by
  simp only [State.engineChecks, State.owedFlash, List.cons_append, List.nil_append, firstFault]
  cases crEn s.regs.cr <;> cases s.mmapActive <;> rfl

theorem hostRange_iff (b n : Word) : hostRangeBad b n = true ↔ ¬inHost b n := by
  have h32 : Config.hostAddrBits = 32 := rfl
  simp [hostRangeBad, hostRangeOk, inHost, h32]

theorem range_iff (p : Params) (a n : Word) : rangeBad p a n = true ↔ ¬inFlash p a n := by
  simp only [rangeBad, inFlash, Bool.not_eq_true', Bool.and_eq_false_iff, decide_eq_false_iff_not]; tauto

theorem owed_program (p : Params) (x n b : Word) : firstFault [(pageSizeBad p n, .size), (rangeBad p x n, .range), (hostRangeBad b n, .range),
      (pageCrossBad p x n, .pageCross)] = owedProgram p x n b := by
  simp only [firstFault, owedProgram]
  have h1 : pageSizeBad p n = true ↔ (n.toNat = 0 ∨ p.page < n.toNat) := by
    simp only [pageSizeBad, Bool.not_eq_true', Bool.and_eq_false_iff, decide_eq_false_iff_not]; omega
  have h4 : pageCrossBad p x n = true ↔ p.page < x.toNat % p.page + n.toNat := by
    simp only [pageCrossBad, Bool.not_eq_true', decide_eq_false_iff_not]; omega
  simp only [h1, range_iff, hostRange_iff, h4]

theorem owed_buffer (p : Params) (x n b : Word) : firstFault [(rangeBad p x n, .range), (hostRangeBad b n, .range)] = owedBuffer p x n b := by
  simp only [firstFault, owedBuffer, range_iff, hostRange_iff]

theorem owed_read (p : Params) (x n b : Word) : firstFault [(decide (n = 0), .size), (rangeBad p x n, .range), (hostRangeBad b n, .range)] = owedRead p x n b := by
  have : n = 0 ↔ n.toNat = 0 := ⟨fun h => by rw [h]; rfl, fun h => BitVec.eq_of_toNat_eq (by simpa using h)⟩
  simp only [firstFault, owedRead, range_iff, hostRange_iff, decide_eq_true_eq, this]

theorem owed_blank (p : Params) (x n : Word) : firstFault [(rangeBad p x n, .range)] = owedBlank p x n := by
  simp only [firstFault, owedBlank, range_iff]

theorem owed_erase (p : Params) (x : Word) : firstFault [(!decide (x.toNat < p.size), .range)] = owedErase p x := by
  simp only [firstFault, owedErase, Bool.not_eq_true', decide_eq_false_iff_not, Nat.not_lt]

/-- The guards of an engine operation. -/
theorem owed_guard (s : State) (ok : Bool) : firstFault (s.guardChecks (!ok)) = s.owedEngine ok := by
  simp only [State.guardChecks, firstFault, State.owedEngine]
  cases ok <;> cases crEn s.regs.cr <;> cases s.mmapActive <;> rfl

/-- A raw engine command starts, or faults as it owes. -/
theorem startsOr_raw {s : State} {i : Instr} (hi : s.idle = true) {D : Option Descriptor} {ops : Descriptor → List Op}
    (h : startInstr i s = match D with | none => .next (s.raiseFault .badDescriptor) | some d => s.startRaw i d (ops d)) :
    s.startsOr i (s.owedEngine (D.any descriptorOk)) .engineCommand D := by
  have hf := (idle_facts hi).2.2
  cases D with
  | none => exact startsOr_of (b := s) h (by intro h; simp [State.owedEngine] at h)
  | some d =>
    refine startsOr_of (b := (s.begin i .engineCommand [.finish .ok 0]).latch d (ops d)) ?_ (fun _ => ⟨rfl, rfl, hf, rfl, rfl, rfl, rfl, rfl, rfl, rfl⟩)
    rw [h]
    simp only [State.startRaw, owed_guard]
    rfl

/-- Programming ANDs every cell with a byte that does not depend on the array. -/
theorem programBytes_mask {p : Params} {a i : Nat} (data : List Byte) : ∃ M : Nat → Byte, ∀ arr, cellsWf arrayDefault arr = true → ∀ o,
    cellRead arrayDefault (programBytes p a i data arr) o = cellRead arrayDefault arr o &&& M o := by
  induction data generalizing i with
  | nil => exact ⟨fun _ => BitVec.allOnes 8, fun arr _ o => (BitVec.and_allOnes).symm⟩
  | cons b l ih =>
    obtain ⟨M, hM⟩ := ih (i := i + 1)
    refine ⟨fun o => (if o = a - a % p.page + (a - (a - a % p.page) + i) % p.page ∧ o < p.size then b else BitVec.allOnes 8) &&& M o, ?_⟩
    intro arr hwf o
    rw [programBytes, hM _ (programByte_wf hwf)]
    rw [← BitVec.and_assoc]
    congr 1
    simp only [programByte]
    by_cases hlt : a - a % p.page + (a - (a - a % p.page) + i) % p.page < p.size
    · rw [if_pos hlt, cellRead_cellWrite hwf]
      by_cases ho : o = a - a % p.page + (a - (a - a % p.page) + i) % p.page
      · subst ho; rw [if_pos rfl, if_pos ⟨rfl, hlt⟩]
      · rw [if_neg (Ne.symm ho), if_neg (fun h => ho h.1)]; exact (BitVec.and_allOnes).symm
    · rw [if_neg hlt, if_neg]
      · exact (BitVec.and_allOnes).symm
      · rintro ⟨rfl, h⟩; exact hlt h

/-- A bit of the replicated status byte. -/
theorem replicate_bit (v : Byte) {b : Nat} (hb : b < 32) : (replicateByte v).getLsbD b = v.getLsbD (b % 8) := by
  have : b < 8 ∨ (8 ≤ b ∧ b < 16) ∨ (16 ≤ b ∧ b < 24) ∨ 24 ≤ b := by omega
  have z : ∀ i, 8 ≤ i → v.getLsbD i = false := fun i hi => BitVec.getLsbD_of_ge _ _ hi
  have e1 : ∀ i, i < 8 → b = i + 8 ∨ b = i ∨ b = i + 16 ∨ b = i + 24 → v.getLsbD (b % 8) = v.getLsbD i := by
    intro i hi h; congr 1; omega
  simp only [replicateByte, BitVec.getLsbD_or, BitVec.getLsbD_shiftLeft, BitVec.getLsbD_setWidth]
  rcases this with h | h | h | h
  · rw [Nat.mod_eq_of_lt h]; simp [hb, h, show b < 16 by omega, show b < 24 by omega]
  · rw [show b % 8 = b - 8 by omega]
    simp [hb, z b (by omega), show ¬ b < 8 by omega, show b < 16 by omega, show b < 24 by omega, show b - 8 < 32 by omega]
  · rw [show b % 8 = b - 16 by omega]
    simp [hb, z b (by omega), z (b - 8) (by omega), show ¬ b < 16 by omega, show b < 24 by omega, show b - 16 < 32 by omega]
  · rw [show b % 8 = b - 24 by omega]
    simp [hb, z b (by omega), z (b - 8) (by omega), z (b - 16) (by omega), show ¬ b < 24 by omega, show b - 24 < 32 by omega]

/-- A bit of the sample mask. -/
theorem sampleMask_bit {n : Nat} (h1 : 1 ≤ n) (h4 : n ≤ 4) {b : Nat} (hb : b < 32) : (sampleMask n).getLsbD b = decide (b < 8 * n) := by
  have : n = 1 ∨ n = 2 ∨ n = 3 ∨ n = 4 := by omega
  rcases this with rfl | rfl | rfl | rfl
  all_goals revert b; decide

theorem none_or (m : LineMode) (P : Prop) [Decidable P] : (m == LineMode.none || decide P) = true ↔ (m ≠ .none → P) := by
  cases m <;> simp

/-- The header check says that the values fit their sizes. -/
theorem headerOk_iff (h : Header) : headerOk h = true ↔ headerFits h := by
  have h1 : decide (h.dcyc.toNat ≤ 31) = true := by have := h.dcyc.isLt; simp; omega
  unfold headerOk headerFits
  rw [h1, Bool.true_and, Bool.and_eq_true, none_or, none_or]
  rfl

end Sys2Proof.Laws
end

