-- ==== Sys2Proof/Laws/Protocols.lean ====
section
/-! SUPPORT. The protocols of a running command on a ready reference device (41_flash_transactions.md R170, R171,
42_flash_operations.md R198), and the steps in which a command ends. -/

namespace Sys2Proof.Laws

open Sys2Proof.Machine

/-! ### The parts no command touches while it runs -/

/-- `y` differs from `x` in nothing but what a command may change before it ends. -/
structure Same (x y : State) : Prop where
  params : y.params = x.params
  burst : y.burst = x.burst
  hostIn : y.hostIn = x.hostIn
  hostData : y.hostData = x.hostData
  current : y.current = x.current
  fault : y.fault = x.fault
  port : y.port = x.port
  admitted : y.admitted = x.admitted
  dcr : y.regs.dcr = x.regs.dcr

theorem Same.refl (x : State) : Same x x := ⟨rfl, rfl, rfl, rfl, rfl, rfl, rfl, rfl, rfl⟩

theorem Same.trans {x y z : State} (h : Same x y) (g : Same y z) : Same x z :=
  ⟨g.params.trans h.params, g.burst.trans h.burst, g.hostIn.trans h.hostIn, g.hostData.trans h.hostData,
    g.current.trans h.current, g.fault.trans h.fault, g.port.trans h.port, g.admitted.trans h.admitted, g.dcr.trans h.dcr⟩

theorem Kept.same {x y : State} (h : Kept x y) : Same x y :=
  ⟨h.params, h.burst, h.hostIn, h.hostData, h.current, h.fault, h.port, h.admitted, h.dcr⟩

theorem sameWork_trans {x y z : State} (h : x.SameWork y) (g : y.SameWork z) : x.SameWork z :=
  ⟨g.wAddr.trans h.wAddr, g.wBuf.trans h.wBuf, g.wRem.trans h.wRem, g.wDone.trans h.wDone, g.wN.trans h.wN⟩

theorem Kept.work {x y : State} (h : Kept x y) : x.SameWork y := ⟨h.wAddr, h.wBuf, h.wRem, h.wDone, h.wN⟩

/-- The state at another FSM step. -/
def atStep (f : FsmStep) (x : State) : State := { x with fsm := f }

theorem same_atStep (f : FsmStep) (x : State) : Same x (atStep f x) := ⟨rfl, rfl, rfl, rfl, rfl, rfl, rfl, rfl, rfl⟩

theorem rest_atStep (f : FsmStep) (x : State) : Rest x (atStep f x) := ⟨rfl, rfl, rfl, rfl⟩

theorem work_atStep (f : FsmStep) (x : State) : x.SameWork (atStep f x) := ⟨rfl, rfl, rfl, rfl, rfl⟩

theorem Live.atStep {x : State} {d : RefDev} (h : Live x d) {f : FsmStep} (hf : f ≠ .idle) : Live (atStep f x) d :=
  ⟨⟨h.ready.calm, h.ready.env, h.ready.dev, h.ready.en, h.ready.abort⟩, h.wf, h.unmapped, hf⟩

theorem runs_atStep {x : State} {d : RefDev} (h : Live x d) (f : FsmStep) (l : List Op) :
    Runs 1 (withTodo (.setFsm f :: l) x) (withTodo l (atStep f x)) := runs_setFsm h.ready.calm f l

/-! ### The budget -/

theorem budget_zero {p : Params} (h : p.wf = true) : budgetSpent p 0 = false := by
  unfold budgetSpent
  cases hb : p.waitBudget with
  | none => rfl
  | some b =>
    simp only [Params.wf, hb, Bool.and_eq_true, decide_eq_true_eq] at h
    simp only [decide_eq_false_iff_not]
    omega

/-! ### `WEN` (R170) -/

theorem latched_wren (p : Params) (h : p.wf = true) (d : RefDev) (b : Bool) :
    RefDev.latched p { d with rsten := b, fsr := d.fsr ||| p.welMask } = true := by
  have := oneBit_ne (wf_iff h).wel
  simp only [RefDev.latched, bne_iff_ne, ne_eq]
  intro h0
  apply this
  have : (d.fsr ||| p.welMask) &&& p.welMask = p.welMask := by
    ext i hi; simp only [BitVec.getElem_and, BitVec.getElem_or]; cases d.fsr[i] <;> cases p.welMask[i] <;> rfl
  rw [← this]; exact h0

theorem run_wen {x : State} {d : RefDev} (h : Live x d) (hb : d.bc = 0) (l : List Op) : ∃ k y e, k ≤ 35 ∧
    Runs k (withTodo (wenOps ++ l) x) (withTodo l y) ∧ Live y e ∧ Same x y ∧ x.SameWork y ∧ Rest x y ∧
    e.chip = { d.chip with rsten := false, fsr := d.fsr ||| x.params.welMask } ∧ e.bc = 0 ∧ e.latched x.params = true ∧
    y.trace = x.trace ++ wenEntries x.params := by
  obtain ⟨k1, y1, e1, free, hk1, r1, l1, kp1, rs1, c1, t1⟩ :=
    run_wren h (.issue .tPollWel :: .setFsm .writeEnableConfirmed :: l)
  rw [command_wren h.params free 0 (d := d.chip) hb] at c1
  have hl : e1.latched y1.params = true := by
    rw [kp1.params]
    show e1.chip.latched x.params = true
    rw [c1]; exact latched_wren x.params h.wf d.chip false
  obtain ⟨k2, y2, e2, hk2, r2, l2, kp2, rs2, c2, t2⟩ := run_pollWel l1 (.setFsm .writeEnableConfirmed :: l) hl
  have hb1 : e1.bc = 0 := by show e1.chip.bc = 0; rw [c1]; exact hb
  have c : e2.chip = { d.chip with rsten := false, fsr := d.fsr ||| x.params.welMask } := by
    rw [c2, c1, hb1]; simp only [RefDev.chip]; rw [hb]
  refine ⟨k1 + (k2 + 1), atStep .writeEnableConfirmed y2, e2, by omega, ?_, l2.atStep (by decide),
    (kp1.trans kp2).same.trans (same_atStep _ _), sameWork_trans (kp1.trans kp2).work (work_atStep _ _),
    (rs1.trans rs2).trans (rest_atStep _ _), c, ?_, ?_, ?_⟩
  · exact r1.trans (r2.trans (runs_atStep l2 _ _))
  · show e2.chip.bc = 0; rw [c]; exact hb
  · show e2.chip.latched x.params = true; rw [c]; exact latched_wren x.params h.wf d.chip false
  · show y2.trace = _
    rw [t2, t1, kp1.params, List.append_assoc]; rfl

/-! ### A mutating command (42_flash_operations.md R198) -/

/-- The steps from `WriteEnablePending` to the end of the busy poll, for the mutating transaction `i` with the descriptor
`t`, whose command changes the array of a latched chip by `f`. -/
theorem run_mutate {x : State} {d : RefDev} {i : Instr} {t : Transaction} {bytes : List Byte}
    {f : List Host.Cell → List Host.Cell} (h : Live x d) (hb : d.bc = 0)
    (hbudget : budgetSpent x.params d.busyPolls = false)
    (hs : ∀ (y : State) (e : RefDev) (m : List Op), Live y e → y.params = x.params →
      startInstr i (withTodo m y) = (withTodo m (prep i y)).startEngine (.transfer t) (writeOps t))
    (hok : descriptorOk (.transfer t) = true) (hlen : bytes.length = t.len.toNat)
    (hbuf : ∀ j (hj : j < bytes.length), bufOk x t.buf j = true ∧ bufByte x t.buf j = bytes[j])
    (heff : ∀ (free : Nat → Byte) (e : RefDev), e.bc = 0 → e.latched x.params = true →
      e.command x.params free t.hdr.instr t.hdr.addr bytes =
        { e with rsten := false, fsr := e.fsr &&& ~~~x.params.welMask, bc := e.busyPolls, array := f e.array })
    (l : List Op) :
    ∃ k y e, k ≤ 71 + d.busyPolls + 5 * bytes.length ∧ Runs k (withTodo (mutateOps i ++ l) x) (withTodo l y) ∧
      Live y e ∧ Same x y ∧ x.SameWork y ∧ Rest x y ∧
      e.chip = { d.chip with rsten := false, fsr := d.fsr &&& ~~~x.params.welMask, bc := 0, array := f d.array } ∧
      y.trace = x.trace ++ wenEntries x.params ++
        [entryOf .eWrite t.hdr .indirectWrite t.len bytes, wipEntry x.params] := by
  obtain ⟨k1, y1, e1, hk1, r1, l1, s1, w1, rs1, c1, b1, lt1, t1⟩ :=
    run_wen h hb (.setFsm .commandIssued :: .issue i :: (busyWaitOps ++ l))
  have l1' := l1.atStep (f := .commandIssued) (by decide)
  obtain ⟨k2, y2, e2, free, hk2, r2, l2, kp2, rs2, c2, t2⟩ := run_txWrite (bytes := bytes) (l := busyWaitOps ++ l) l1'
    (hs _ _ _ l1' s1.params) hok hlen (fun j hj => by
      have := hbuf j hj
      have hd : bufOk (atStep .commandIssued y1) t.buf j = bufOk x t.buf j := by
        cases t.buf <;> simp [bufOk, State.admits, atStep, s1.admitted, s1.params]
      rw [hd, bufByte_of (x := x) (y := atStep .commandIssued y1) rs1.hostMem rs1.stg rs1.cfgbuf]
      exact this)
  have hp2 : y2.params = x.params := kp2.params.trans s1.params
  have hpc : (atStep .commandIssued y1).params = x.params := s1.params
  rw [hpc, heff free e1.chip b1 lt1, c1] at c2
  have hbp : e2.bc = d.busyPolls := by show e2.chip.bc = _; rw [c2]; rfl
  have l2' := l2.atStep (f := .busyPolling) (by decide)
  obtain ⟨k3, y3, e3, hk3, r3, l3, kp3, rs3, c3, t3⟩ := run_pollWip l2' l (by
    show budgetSpent y2.params e2.bc = false
    rw [hp2, hbp]; exact hbudget)
  refine ⟨k1 + (1 + (k2 + (1 + k3))), y3, e3, by omega, ?_, l3, ?_, ?_, ?_, ?_, ?_⟩
  · refine Runs.trans ?_ ((runs_atStep l1 .commandIssued _).trans (r2.trans ((runs_atStep l2 .busyPolling _).trans r3)))
    simpa [mutateOps, busyWaitOps] using r1
  · exact s1.trans ((same_atStep _ _).trans (kp2.same.trans ((same_atStep _ _).trans kp3.same)))
  · exact sameWork_trans w1 (sameWork_trans (work_atStep _ _) (sameWork_trans kp2.work (sameWork_trans (work_atStep _ _) kp3.work)))
  · exact rs1.trans ((rest_atStep _ _).trans (rs2.trans ((rest_atStep _ _).trans rs3)))
  · rw [c3, c2]
    have : (d.chip.fsr ||| x.params.welMask) &&& ~~~x.params.welMask = d.chip.fsr &&& ~~~x.params.welMask := by
      ext i hi; simp only [BitVec.getElem_and, BitVec.getElem_or, BitVec.getElem_not]
      cases d.chip.fsr[i] <;> cases x.params.welMask[i] <;> rfl
    simp only [RefDev.chip] at this ⊢
    rw [this]
  · rw [t3]
    show y2.trace ++ _ = _
    rw [t2]
    show (y1.trace ++ _) ++ [entryOf .ePoll (statusHeader y2.params) .autoPoll 1 []] = _
    rw [t1, hp2]
    simp [wipEntry]

theorem Rest.buffers {x y : State} (h : Rest x y) : x.SameBuffers y := ⟨h.hostMem, h.stg, h.cfgbuf, h.mmapActive⟩

/-! ### The end of a command (42_flash_operations.md R191) -/

theorem runs_finish_command {x : State} (h : Calm x) (st : Status) (n : Word) (l : List Op) :
    Runs 1 (withTodo (.finish st n :: l) x) (x.endCommand st n) :=
  Runs.op rfl h.1 h.2 rfl

end Sys2Proof.Laws
end

