-- ==== Sys2Proof/Laws/Commands.lean ====
section
/-! SUPPORT. How a host command or a transaction standing alone starts on a usable block, and how it ends there
(42_flash_operations.md R190, R191). -/

namespace Sys2Proof.Laws

open Sys2Proof.Machine

theorem usable_iff {s : State} : s.usable = true ↔ s.params.wf = true ∧ s.fsm = .idle ∧ s.todo = [] ∧ s.fault = none ∧
    crEn s.regs.cr = true ∧ s.mmapActive = false ∧ crAbort s.regs.cr = false ∧ s.hostWaits = true := by
  simp [State.usable, State.idle, State.engineOn, State.faulted, and_assoc]

/-- The state in which a command or a transaction has begun, its steps left out. -/
def begun (i : Instr) (f : FsmStep) (s : State) : State := { s with current := some i, fsm := f, cfgSaved := none }

theorem begin_eq (s : State) (i : Instr) (f : FsmStep) (l : List Op) : s.begin i f l = withTodo l (begun i f s) := rfl

theorem begun_same (i : Instr) (f : FsmStep) (s : State) : (begun i f s).params = s.params ∧ (begun i f s).burst = s.burst ∧
    (begun i f s).port = s.port ∧ (begun i f s).trace = s.trace ∧ (begun i f s).env = s.env := ⟨rfl, rfl, rfl, rfl, rfl⟩

section
variable {s : State} {d : RefDev} {n : Nat} (h : s.CanRun d n)
include h

theorem canRun_live (i : Instr) {f : FsmStep} (hf : f ≠ .idle) : Live (begun i f s) d := by
  obtain ⟨h1, h2, h3, h4, h5, h6, h7, h8⟩ := usable_iff.1 h.usable
  exact ⟨⟨⟨h8, h4⟩, h.env, h.ready, h5, h7⟩, h1, h6, hf⟩

theorem canRun_wf : s.params.wf = true := (usable_iff.1 h.usable).1

theorem canRun_params : WfParams s.params := wf_iff (canRun_wf h)

theorem canRun_engineChecks (l : List (Bool × FaultReason)) : firstFault (s.engineChecks ++ l) = firstFault l := by
  obtain ⟨h1, h2, h3, h4, h5, h6, h7, h8⟩ := usable_iff.1 h.usable
  simp [State.engineChecks, firstFault, h5, h6]

theorem startCommand_ok {i : Instr} {body : State → Out} (ha : s.argsMissing i = false) :
    s.startCommand i body = body s := by
  obtain ⟨h1, h2, h3, h4, h5, h6, h7, h8⟩ := usable_iff.1 h.usable
  simp [State.startCommand, State.faulted, State.busy, h2, h4, ha]

theorem startTx_idle {i : Instr} {body : State → Out} :
    s.startTx i body = body (withTodo [.finish .ok 0] (begun i .engineCommand s)) := by
  obtain ⟨h1, h2, h3, h4, h5, h6, h7, h8⟩ := usable_iff.1 h.usable
  simp only [State.startTx, State.faulted, h2, h4]
  rfl

end

/-- A command whose run comes to its end within the burst. -/
theorem exec_over {i : Instr} {s x y : State} {l : List Op} {k : Nat} {st : Status} {c : Word}
    (hs : startInstr i s = .next (withTodo l x)) (hr : Runs k (withTodo l x) (y.endCommand st c)) (hk : k ≤ x.burst) :
    exec i s = .next (y.endCommand st c) := by
  rw [exec_eq, hs, thenRun_of_next]
  exact congrArg _ (Runs.ends hr rfl hk)

/-- A command whose steps run to its end ends there. -/
theorem exec_ends {i : Instr} {s x y : State} {l : List Op} {k : Nat} {st : Status} {c : Word}
    (hs : startInstr i s = .next (withTodo l x)) (hr : Runs k (withTodo l x) (withTodo [.finish st c] y)) (hy : Calm y)
    (hk : k + 1 ≤ x.burst) : exec i s = .next (y.endCommand st c) :=
  exec_over hs (hr.trans (runs_finish_command hy st c [])) hk

/-- What the end of a command leaves, over a state that differs from the one it began in in nothing but what a command may
change. -/
theorem ended {i : Instr} {f : FsmStep} {s y : State} (h : Same (begun i f s) y) (hf : s.fault = none) (st : Status)
    (c : Word) : s.Ended (y.endCommand st c) st c where
  fsm := rfl
  eng := rfl
  desc := rfl
  todo := rfl
  fault := h.fault.trans hf
  port := by show ({ y.port with resst := some st, rescnt := some c } : Port) = _; rw [h.port]; rfl
  params := h.params
  burst := h.burst
  hostIn := h.hostIn
  hostData := h.hostData
  admitted := h.admitted
  dcr := h.dcr

/-- The start of an engine operation whose guards pass. -/
theorem startEngine_live {x : State} {d : RefDev} {D : Descriptor} {ops l : List Op} (h : Live x d)
    (hok : descriptorOk D = true) : (withTodo l x).startEngine D ops = .next (withTodo (ops ++ l) (latched D x)) := by
  rw [startEngine_ok (x := withTodo l x) hok h.ready.en h.unmapped]
  rfl

/-- A mutating command whose transaction changes the array of a latched chip by `f` (42_flash_operations.md R198). -/
theorem mutate_ends {s : State} {d : RefDev} {i c : Instr} {n : Nat} {t : Transaction} {bytes : List Byte}
    {f : List Host.Cell → List Host.Cell} (h : s.CanRun d n) (hfree : d.bc = 0)
    (hstart : startInstr c s = .next (withTodo (mutateOps i ++ [.finish .ok 0]) (begun c .writeEnablePending s)))
    (hbudget : budgetAllows s.params d.busyPolls = true)
    (hs : ∀ (y : State) (e : RefDev) (m : List Op), Live y e → y.params = s.params →
      startInstr i (withTodo m y) = (withTodo m (prep i y)).startEngine (.transfer t) (writeOps t))
    (hok : descriptorOk (.transfer t) = true) (hlen : bytes.length = t.len.toNat)
    (hbuf : ∀ j (hj : j < bytes.length), bufOk s t.buf j = true ∧ bufByte s t.buf j = bytes[j])
    (heff : ∀ (free : Nat → Byte) (e : RefDev), e.bc = 0 → e.latched s.params = true →
      e.command s.params free t.hdr.instr t.hdr.addr bytes =
        { e with rsten := false, fsr := e.fsr &&& ~~~s.params.welMask, bc := e.busyPolls, array := f e.array })
    (hn : 72 + d.busyPolls + 5 * bytes.length ≤ n) :
    ∃ y e, exec c s = .next y ∧ s.Ended y .ok 0 ∧ s.SameBuffers y ∧ s.SameWork y ∧ y.env = .reference e ∧ e.ready = true ∧
      e.bc = 0 ∧ e.latched s.params = false ∧ e.fcfg = d.fcfg ∧ e.array = f d.array ∧ y.trace = s.trace ++ wenEntries s.params ++
        [entryOf .eWrite t.hdr .indirectWrite t.len bytes, wipEntry s.params] ∧ y.usable = true ∧
      e.busyPolls = d.busyPolls := by
  have hb : budgetSpent s.params d.busyPolls = false := by simpa [budgetAllows] using hbudget
  obtain ⟨k, y, e, hk, r, ly, sm, w, rs, ch, tr⟩ := run_mutate (x := begun c .writeEnablePending s) (f := f)
    (canRun_live h c (by decide)) hfree hb hs hok hlen hbuf heff [.finish .ok 0]
  refine ⟨_, e, exec_ends hstart r ly.ready.calm (by show k + 1 ≤ s.burst; have := h.steps; omega), ended sm (usable_iff.1 h.usable).2.2.2.1 _ _, ?_, ?_, ly.ready.env,
    ly.ready.dev, ?_, ?_, ?_, ?_, tr, ?_, ?_⟩
  · exact ⟨rs.hostMem, rs.stg, rs.cfgbuf, rs.mmapActive⟩
  · exact ⟨w.wAddr, w.wBuf, w.wRem, w.wDone, w.wN⟩
  · show e.chip.bc = 0; rw [ch]
  · show e.chip.latched _ = _
    rw [ch]
    simp only [RefDev.latched]
    show ((d.fsr &&& ~~~s.params.welMask) &&& s.params.welMask != 0) = false
    rw [BitVec.and_assoc, show ~~~s.params.welMask &&& s.params.welMask = 0#8 by rw [BitVec.and_comm]; exact BitVec.and_not_self _]
    simp
  · show e.chip.fcfg = _; rw [ch]; rfl
  · show e.chip.array = _; rw [ch]
  · exact usable_iff.2 ⟨ly.wf, rfl, rfl, ly.ready.calm.2, ly.ready.en, ly.unmapped, ly.ready.abort, ly.ready.calm.1⟩
  · show e.chip.busyPolls = _; rw [ch]; rfl

/-! ### Bytes in a row -/

theorem memBytes_get {s : State} {a n j : Nat} (hj : j < (s.memBytes a n).length) :
    (s.memBytes a n)[j] = s.memByte (a + j) := by
  simp [State.memBytes]

theorem arrayBytes_length (d : RefDev) (a n : Nat) : (d.arrayBytes a n).length = n := by simp [RefDev.arrayBytes]

/-- A quad read inside the flash answers the array's bytes (20_memory.md R77, R92). -/
theorem response_inFlash {p : Params} (hp : WfParams p) (free : Nat → Byte) {d : RefDev} (hb : d.bc = 0) (dest n : Word)
    (hs : dest.toNat + n.toNat ≤ p.size) :
    d.response p free p.opc.qread dest n.toNat = d.arrayBytes dest.toNat n.toNat := by
  rw [response_qread hp free dest hb]
  refine List.map_congr_left fun j hj => ?_
  rw [Nat.mod_eq_of_lt]
  have := List.mem_range.1 hj
  omega

/-! ### One operation as a whole command -/

/-- What a completed transaction leaves. -/
theorem transacted {i : Instr} {f : FsmStep} {s y : State} {e : RefDev} {entry : TraceEntry} (hf : s.fault = none) (kp : Kept (begun i f s) y)
    (he : y.env = .reference e) (hr : e.ready = true) (ht : y.trace = s.trace ++ [entry]) :
    s.Transacted (y.endCommand .ok 0) e entry :=
  ⟨ended kp.same hf _ _, ⟨kp.wAddr, kp.wBuf, kp.wRem, kp.wDone, kp.wN⟩, he, hr, ht⟩

/-- A transaction standing alone on an idle block starts as its engine operation does. -/
theorem startAlone {s : State} {d : RefDev} {n : Nat} (h : s.CanRun d n) (i : Instr) {D : Descriptor} {ops : List Op}
    (hs : startInstr i s = (withTodo [.finish .ok 0] (begun i .engineCommand s)).startEngine D ops) (hok : descriptorOk D = true) :
    startInstr i s = .next (withTodo (ops ++ [.finish .ok 0]) (latched D (begun i .engineCommand s))) := by
  rw [hs]; exact startEngine_live (canRun_live h i (by decide)) hok

/-- A raw command whose guards pass starts its engine operation. -/
theorem startRaw_ok {s : State} {d : RefDev} {n : Nat} (h : s.CanRun d n) (i : Instr) {D : Descriptor} {ops : List Op} (hok : descriptorOk D = true) :
    s.startRaw i D ops = .next (withTodo (ops ++ [.finish .ok 0]) (latched D (begun i .engineCommand s))) := by
  obtain ⟨h1, h2, h3, h4, h5, h6, h7, h8⟩ := usable_iff.1 h.usable
  simp [State.startRaw, State.guardChecks, firstFault, hok, h5, h6]
  rfl

/-- A write as a whole command. -/
theorem alone_write {s : State} {d : RefDev} {n : Nat} (h : s.CanRun d n) (i : Instr) {t : Transaction} {bytes : List Byte}
    (hs : startInstr i s = .next (withTodo (writeOps t ++ [.finish .ok 0]) (latched (.transfer t) (begun i .engineCommand s)))) (hok : descriptorOk (.transfer t) = true) (hlen : bytes.length = t.len.toNat)
    (hb : ∀ j (hj : j < bytes.length), bufOk s t.buf j = true ∧ bufByte s t.buf j = bytes[j])
    (hn : 15 + 5 * bytes.length ≤ n) :
    ∃ y e free, exec i s = .next y ∧ s.SameBuffers y ∧ s.Transacted y e (entryOf .eWrite t.hdr .indirectWrite t.len bytes) ∧
      e.chip = d.chip.command s.params free t.hdr.instr t.hdr.addr bytes := by
  have hl := canRun_live h i (f := .engineCommand) (by decide)
  obtain ⟨k, y, e, free, hk, r, hd, rest, -, ch, tr⟩ := run_write (hl.ready.latched (.transfer t)) rfl hok hlen hb [.finish .ok 0]
  have kp := (kept_latched (.transfer t) _).trans hd.kept
  refine ⟨_, e, free, exec_ends hs r hd.ready.calm (by have := h.steps; show k + 1 ≤ s.burst; omega), ⟨rest.hostMem, rest.stg, rest.cfgbuf, rest.mmapActive⟩,
    transacted (usable_iff.1 h.usable).2.2.2.1 kp hd.ready.env hd.ready.dev tr, ch⟩

/-- A read as a whole command. -/
theorem alone_read {s : State} {d : RefDev} {n : Nat} (h : s.CanRun d n) (i : Instr) {t : Transaction}
    (hs : startInstr i s = .next (withTodo (readOps t ++ [.finish .ok 0]) (latched (.transfer t) (prep i (begun i .engineCommand s))))) (hok : descriptorOk (.transfer t) = true)
    (hb : ∀ j, j < t.len.toNat → bufOk s t.buf j = true) (hn : 15 + 5 * t.len.toNat ≤ n) :
    ∃ y e free, exec i s = .next y ∧ s.Transacted y e (entryOf .eRead t.hdr .indirectRead t.len (d.response s.params free t.hdr.instr t.hdr.addr t.len.toNat)) ∧
      Filled s y t.buf 0 (d.response s.params free t.hdr.instr t.hdr.addr t.len.toNat) ∧ y.mmapActive = s.mmapActive ∧
      e.chip = d.chip.command s.params free t.hdr.instr t.hdr.addr [] := by
  have hl := canRun_live h i (f := .engineCommand) (by decide)
  obtain ⟨k, y, e, free, hk, r, hd, hm, -, ch, fl, tr⟩ := run_read ((hl.ready.prep i).latched (.transfer t)) rfl hok hb [.finish .ok 0]
  have kp := (kept_prep i _).trans ((kept_latched (.transfer t) _).trans hd.kept)
  refine ⟨_, e, free, exec_ends hs r hd.ready.calm (by have := h.steps; show k + 1 ≤ s.burst; omega),
    transacted (usable_iff.1 h.usable).2.2.2.1 kp hd.ready.env hd.ready.dev tr, ?_, hm, ch⟩
  cases hbuf : t.buf <;> rw [hbuf] at fl <;> exact ⟨fl.hostMem, fl.stg, fl.cfgbuf⟩

/-- A status poll standing alone on an idle block. -/
theorem alone_poll {s : State} {d : RefDev} {n : Nat} (h : s.CanRun d n) (i : Instr) {m k : Byte} (j : Nat)
    (hs : startInstr i s = .next (withTodo (pollOps (statusPoll s.params m k) ++ [.finish .ok 0]) (latched (.poll (statusPoll s.params m k)) (begun i .engineCommand s))))
    (hno : ∀ n, n < j → ((statusAt s.params d n ^^^ m) &&& k == 0) = false)
    (hyes : ((statusAt s.params d j ^^^ m) &&& k == 0) = true) (hb : budgetSpent s.params j = false) (hn : 19 + j ≤ n) :
    ∃ y e, exec i s = .next y ∧ s.SameBuffers y ∧ s.Transacted y e (entryOf .ePoll (statusHeader s.params) .autoPoll 1 []) ∧
      e.chip = { d.chip with bc := d.bc - (j + 1) } := by
  have hl := canRun_live h i (f := .engineCommand) (by decide)
  obtain ⟨c, y, e, hc, r, kp, rest, -, -, he, hchip, hrdy, -, tr⟩ := run_poll (pd := statusPoll s.params m k) j (hl.ready.latched (.poll (statusPoll s.params m k))) (ok_statusPoll _ _ _)
    (fun n hn => by rw [← hno n hn]; exact pollMatches_byte _ _ _ _)
    (by rw [← hyes]; exact pollMatches_byte _ _ _ _) hb [.finish .ok 0]
  have kp' := (kept_latched _ _).trans kp
  have hry := hrdy rfl
  exact ⟨_, e, exec_ends hs r hry.calm (by have := h.steps; show c + 1 ≤ s.burst; omega), ⟨rest.hostMem, rest.stg, rest.cfgbuf, rest.mmapActive⟩,
    transacted (usable_iff.1 h.usable).2.2.2.1 kp' he hry.dev tr, hchip⟩

end Sys2Proof.Laws
end

