-- ==== Sys2Proof/Laws/Chunks.lean ====
section
/-! SUPPORT. The chunks of `VERIFY` and `BLANK_CHECK` on a ready reference device (42_flash_operations.md R220 to R225). The
two commands are one loop here, over the pattern of `BLANK_CHECK` or none. -/

namespace Sys2Proof.Laws

open Sys2Proof.Machine

/-! ### Comparisons (R221) -/

/-- The reference byte of a comparison: the pattern, or the host's byte. -/
def refByte (x : State) (pattern : Option Byte) (j : Nat) : Byte :=
  match pattern with
  | some b => b
  | none => x.memByte (x.wBuf.toNat + j)

/-- May the sequencer read it? -/
def refOk (x : State) (pattern : Option Byte) (j : Nat) : Bool :=
  match pattern with
  | some _ => true
  | none => x.admits (x.wBuf.toNat + j)

/-- The state at index `j` of the comparison, the byte `b` in flight. -/
def comparing (j : Word) (b : Byte) (x : State) : State := { x with idx := j, tmpByte := b }

/-- The count of a mismatch: the byte's index in the whole range for `VERIFY`, 0 for `BLANK_CHECK`. -/
def mismatchCount (x : State) (pattern : Option Byte) (j : Word) : Word :=
  match pattern with
  | none => x.wDone + j
  | some _ => 0

/-- The head of the loop, on to the accesses of the next byte. -/
theorem runs_compareHead {f : Bool} {x : State} (h : Calm x) (pattern : Option Byte) (l : List Op)
    (hi : (headIdx f x).toNat < x.wN.toNat) :
    Runs 1 (withTodo (.compareLoop f pattern :: l) x)
      (withTodo (compareOps pattern ++ .compareLoop false pattern :: l) (x.nextIdx f)) := by
  refine Runs.op rfl h.1 h.2 ?_
  show Host.Outcome.next ((withTodo l x).compareLoop f pattern) = _
  have : ((withTodo l x).nextIdx f).idx.toNat < ((withTodo l x).nextIdx f).wN.toNat := hi
  simp only [State.compareLoop, if_pos this]
  rfl

/-- The accesses of one byte: on to the next, or to the mismatch. -/
theorem runs_compareByte {x : State} (h : Calm x) (pattern : Option Byte) (l : List Op) (hp : x.idx.toNat < x.params.page)
    (hr : refOk x pattern x.idx.toNat = true) :
    ∃ n, n ≤ 2 ∧ Runs n (withTodo (compareOps pattern ++ l) x)
      (withTodo (if x.stgByte x.idx.toNat = refByte x pattern x.idx.toNat then l
        else [.finish .verifyMismatch (mismatchCount x pattern x.idx)]) (comparing x.idx (x.stgByte x.idx.toNat) x)) := by
  cases pattern with
  | none =>
    have fetch : Runs 1 (withTodo (.fetchStg :: .compareHost :: l) x)
        (withTodo (.compareHost :: l) (comparing x.idx (x.stgByte x.idx.toNat) x)) := by
      refine Runs.op rfl h.1 h.2 ?_
      show State.stgRead (withTodo _ x) x.idx.toNat = _
      have : x.idx.toNat < (withTodo (.compareHost :: l) x).params.page := hp
      simp only [State.stgRead, if_pos this]
      rfl
    refine ⟨2, le_refl _, fetch.trans (Runs.op rfl h.1 h.2 ?_)⟩
    show State.compareHost (withTodo l (comparing x.idx (x.stgByte x.idx.toNat) x)) = _
    have ha : (withTodo l (comparing x.idx (x.stgByte x.idx.toNat) x)).admits (x.wBuf.toNat + x.idx.toNat) = true := hr
    have hb : (withTodo l (comparing x.idx (x.stgByte x.idx.toNat) x)).memByte (x.wBuf.toNat + x.idx.toNat) =
        refByte x none x.idx.toNat := rfl
    unfold State.compareHost
    simp only [show (withTodo l (comparing x.idx (x.stgByte x.idx.toNat) x)).wBuf.toNat +
      (withTodo l (comparing x.idx (x.stgByte x.idx.toNat) x)).idx.toNat = x.wBuf.toNat + x.idx.toNat from rfl, ha, hb, if_true]
    by_cases he : x.stgByte x.idx.toNat = refByte x none x.idx.toNat
    · rw [if_pos he, if_pos (by exact he)]
    · rw [if_neg he, if_neg (by exact he)]; rfl
  | some b =>
    refine ⟨1, by omega, Runs.op rfl h.1 h.2 ?_⟩
    show State.compareStg (withTodo l x) b = _
    have : x.idx.toNat < (withTodo l x).params.page := hp
    simp only [State.compareStg, State.stgRead, show (withTodo l x).idx = x.idx from rfl, if_pos this, andThen]
    by_cases he : x.stgByte x.idx.toNat = b
    · rw [if_pos (show x.stgByte x.idx.toNat = refByte x (some b) x.idx.toNat from he), if_pos (by exact he)]; rfl
    · rw [if_neg (show ¬ x.stgByte x.idx.toNat = refByte x (some b) x.idx.toNat from he), if_neg (by exact he)]; rfl

/-- The comparison loop from its head: on to the end of the chunk, or to the first byte that differs. -/
theorem run_compare {pattern : Option Byte} (m : Nat) {f : Bool} {x : State} (h : Calm x) (l : List Op)
    (hm : (headIdx f x).toNat + m = x.wN.toNat) (hp : x.wN.toNat ≤ x.params.page)
    (hr : ∀ j, j < x.wN.toNat → refOk x pattern j = true) :
    ((∀ j, (headIdx f x).toNat ≤ j → j < x.wN.toNat → x.stgByte j = refByte x pattern j) →
      ∃ n b, n ≤ 3 * m + 1 ∧ Runs n (withTodo (.compareLoop f pattern :: l) x) (withTodo l (comparing x.wN b x))) ∧
    ∀ k, (headIdx f x).toNat ≤ k → k < x.wN.toNat → (∀ j, (headIdx f x).toNat ≤ j → j < k → x.stgByte j = refByte x pattern j) →
      x.stgByte k ≠ refByte x pattern k →
      ∃ n b, n ≤ 3 * m ∧ Runs n (withTodo (.compareLoop f pattern :: l) x)
        (withTodo [.finish .verifyMismatch (mismatchCount x pattern (BitVec.ofNat 32 k))]
          (comparing (BitVec.ofNat 32 k) b x)) := by
  induction m generalizing f x with
  | zero =>
    have hx : headIdx f x = x.wN := BitVec.eq_of_toNat_eq (by omega)
    refine ⟨fun _ => ⟨1, x.tmpByte, by omega, ?_⟩, fun k h1 h2 => by omega⟩
    refine Runs.op rfl h.1 h.2 ?_
    show Host.Outcome.next ((withTodo l x).compareLoop f pattern) = _
    have : ¬ ((withTodo l x).nextIdx f).idx.toNat < ((withTodo l x).nextIdx f).wN.toNat := by
      show ¬ (headIdx f x).toNat < x.wN.toNat; omega
    simp only [State.compareLoop, if_neg this]
    show Host.Outcome.next (withTodo l { x with idx := headIdx f x }) = _
    rw [hx]; rfl
  | succ m ih =>
    have hlt := x.wN.isLt
    have hi : (headIdx f x).toNat < x.wN.toNat := by omega
    have head := runs_compareHead h pattern l hi
    have hcn : Calm (x.nextIdx f) := (kept_nextIdx x f).calm h
    obtain ⟨nb, hnb, byte⟩ := runs_compareByte hcn pattern (.compareLoop false pattern :: l)
      (by show (headIdx f x).toNat < x.params.page; omega) (by have := hr _ hi; cases pattern <;> exact this)
    have hst : (x.nextIdx f).stgByte (x.nextIdx f).idx.toNat = x.stgByte (headIdx f x).toNat := rfl
    have href : refByte (x.nextIdx f) pattern (x.nextIdx f).idx.toNat = refByte x pattern (headIdx f x).toNat := by
      cases pattern <;> rfl
    have hmc : mismatchCount (x.nextIdx f) pattern (x.nextIdx f).idx = mismatchCount x pattern (headIdx f x) := by
      cases pattern <;> rfl
    rw [hst, href, hmc] at byte
    have both := head.trans byte
    have hcomp : comparing (x.nextIdx f).idx (x.stgByte (headIdx f x).toNat) (x.nextIdx f) =
        comparing (headIdx f x) (x.stgByte (headIdx f x).toNat) x := rfl
    rw [hcomp] at both
    generalize hb0 : x.stgByte (headIdx f x).toNat = b0 at both
    have hnext : (headIdx false (comparing (headIdx f x) b0 x)).toNat = (headIdx f x).toNat + 1 := by
      show (headIdx f x + 1).toNat = _; bv_omega
    have hrefl : ∀ j, refByte (comparing (headIdx f x) b0 x) pattern j = refByte x pattern j := by
      intro j; cases pattern <;> rfl
    obtain ⟨ih1, ih2⟩ := ih (f := false) (x := comparing (headIdx f x) b0 x) h (by rw [hnext]; show _ = x.wN.toNat; omega) hp
      (fun j hj => by have := hr j hj; cases pattern <;> exact this)
    rw [hnext] at ih1 ih2
    refine ⟨fun hall => ?_, fun k h1 h2 hall hne => ?_⟩
    · obtain ⟨n, b, hn, r⟩ := ih1 (fun j hj1 hj2 => by rw [hrefl]; exact hall j (by omega) hj2)
      rw [if_pos (by rw [← hb0]; exact hall _ (le_refl _) hi)] at both
      exact ⟨1 + nb + n, b, by omega, both.trans r⟩
    · rcases Nat.lt_or_ge (headIdx f x).toNat k with hk | hk
      · obtain ⟨n, b, hn, r⟩ := ih2 k (by omega) h2 (fun j hj1 hj2 => by rw [hrefl]; exact hall j (by omega) hj2)
          (by rw [hrefl]; exact hne)
        rw [if_pos (by rw [← hb0]; exact hall _ (le_refl _) hk)] at both
        refine ⟨1 + nb + n, b, by omega, ?_⟩
        have := both.trans r
        cases pattern <;> exact this
      · have hk' : k = (headIdx f x).toNat := by omega
        subst hk'
        rw [if_neg (by rw [← hb0]; exact hne)] at both
        refine ⟨1 + nb, b0, by omega, ?_⟩
        rwa [BitVec.ofNat_toNat, BitVec.setWidth_eq]

/-! ### One chunk (R220) -/

/-- What a chunk leaves unchanged. -/
structure ChunkKept (x y : State) : Prop where
  same : Same x y
  hostMem : y.hostMem = x.hostMem
  cfgbuf : y.cfgbuf = x.cfgbuf
  mmapActive : y.mmapActive = x.mmapActive
  work : x.SameWork y

/-- A chunk of `wN` bytes at `wAddr`: the read into `STG`, then the comparisons. -/
theorem run_chunk {pattern : Option Byte} {x : State} {d : RefDev} (h : Live x d) (hb : d.bc = 0)
    (hmem : cellsWf stgDefault x.stg = true) (hn : x.wN ≠ 0) (hp : x.wN.toNat ≤ x.params.page)
    (hsz : x.wAddr.toNat + x.wN.toNat ≤ x.params.size) (hr : ∀ j, j < x.wN.toNat → refOk x pattern j = true)
    (l : List Op) :
    ∃ k y e, k ≤ 16 + 8 * x.wN.toNat ∧ Live y e ∧ ChunkKept x y ∧ cellsWf stgDefault y.stg = true ∧
      e.chip = { d.chip with rsten := false } ∧
      y.trace = x.trace ++ [entryOf .eRead (quadReadHeader x.params x.wAddr) .indirectRead x.wN
        (d.arrayBytes x.wAddr.toNat x.wN.toNat)] ∧
      ((∀ j, j < x.wN.toNat → d.arrayByte (x.wAddr.toNat + j) = refByte x pattern j) →
        Runs k (withTodo (.issue (.tQread x.wAddr x.wN .stg) :: .compareLoop true pattern :: l) x) (withTodo l y)) ∧
      ∀ q, q < x.wN.toNat → (∀ j, j < q → d.arrayByte (x.wAddr.toNat + j) = refByte x pattern j) →
        d.arrayByte (x.wAddr.toNat + q) ≠ refByte x pattern q →
        Runs k (withTodo (.issue (.tQread x.wAddr x.wN .stg) :: .compareLoop true pattern :: l) x)
          (withTodo [.finish .verifyMismatch (mismatchCount x pattern (BitVec.ofNat 32 q))] y) := by
  have hp' := h.params
  have hpos : 0 < x.wN.toNat := Nat.pos_of_ne_zero fun h0 => hn (BitVec.eq_of_toNat_eq h0)
  obtain ⟨k, y, e, free, hk, r, ly, kp, ch, fl, tr⟩ := run_txRead (i := .tQread x.wAddr x.wN .stg)
    (t := quadRead x.params x.wAddr x.wN .stg) (l := .compareLoop true pattern :: l) h
    (start_running h _ (.tQread x.wAddr x.wN .stg) fun s => s.startRead (quadRead s.params x.wAddr x.wN .stg))
    (ok_quadRead hp' (by omega) hn) (fun j hj => by
      have hj' : j < x.wN.toNat := hj
      show decide (j < x.params.page) = true
      exact decide_eq_true (by omega))
  have hresp : d.response x.params free (quadRead x.params x.wAddr x.wN .stg).hdr.instr
      (quadRead x.params x.wAddr x.wN .stg).hdr.addr (quadRead x.params x.wAddr x.wN .stg).len.toNat =
      d.arrayBytes x.wAddr.toNat x.wN.toNat := response_inFlash hp' free hb _ _ hsz
  rw [hresp] at fl tr
  have ch' : e.chip = { d.chip with rsten := false } := by
    rw [ch]; exact command_reads hp' free x.wAddr (d := d.chip) hb [] (.inr (.inr rfl))
  have hst : y.stg = writeCells stgDefault x.stg 0 (d.arrayBytes x.wAddr.toNat x.wN.toNat) := fl.stg
  have hstg : cellsWf stgDefault y.stg = true := by rw [hst]; exact writeCells_wf hmem
  have hbyte : ∀ j, j < x.wN.toNat → y.stgByte j = d.arrayByte (x.wAddr.toNat + j) := by
    intro j hj
    show cellRead stgDefault y.stg j = _
    rw [hst, cellRead_writeCells hmem, arrayBytes_length, if_pos ⟨by omega, by omega⟩, List.getD_eq_getElem _ _ (by
      rw [arrayBytes_length]; omega)]
    simp [RefDev.arrayBytes]
  have hadm : ∀ a, y.admits a = x.admits a := fun a => by simp only [State.admits, kp.admitted]
  have href : ∀ j, refByte y pattern j = refByte x pattern j := by
    intro j
    cases pattern with
    | some b => rfl
    | none =>
      show y.memByte (y.wBuf.toNat + j) = x.memByte (x.wBuf.toNat + j)
      rw [kp.wBuf, State.memByte, State.memByte, show y.hostMem = x.hostMem from fl.hostMem]
  have hz : (headIdx true y).toNat = 0 := rfl
  obtain ⟨m1, m2⟩ := run_compare (pattern := pattern) y.wN.toNat (f := true) (x := y) ly.ready.calm l (by rw [hz]; omega)
    (by rw [kp.wN, kp.params]; exact hp)
    (fun j hj => by
      have := hr j (by rw [← kp.wN]; exact hj)
      cases pattern with
      | some b => rfl
      | none => show y.admits (y.wBuf.toNat + j) = true; rw [hadm, kp.wBuf]; exact this)
  rw [kp.wN] at m1 m2
  have hlive : ∀ i b, Live (comparing i b y) e := fun i b =>
    ⟨⟨ly.ready.calm, ly.ready.env, ly.ready.dev, ly.ready.en, ly.ready.abort⟩, ly.wf, ly.unmapped, ly.running⟩
  have hkept : ∀ i b, ChunkKept x (comparing i b y) := fun i b =>
    ⟨⟨kp.params, kp.burst, kp.hostIn, kp.hostData, kp.current, kp.fault, kp.port, kp.admitted, kp.dcr⟩, fl.hostMem, fl.cfgbuf,
      ly.unmapped.trans h.unmapped.symm, ⟨kp.wAddr, kp.wBuf, kp.wRem, kp.wDone, kp.wN⟩⟩
  have hklen : k ≤ 15 + 5 * x.wN.toNat := hk
  by_cases hall : ∀ j, j < x.wN.toNat → d.arrayByte (x.wAddr.toNat + j) = refByte x pattern j
  · obtain ⟨n, b, hn', r3⟩ := m1 (fun j _ hj => by rw [href, hbyte j hj]; exact hall j hj)
    exact ⟨k + n, comparing x.wN b y, e, by omega, hlive _ b, hkept _ b, hstg, ch', tr, fun _ => r.trans r3,
      fun q hq _ hne => absurd (hall q hq) hne⟩
  · push Not at hall
    have hex : ∃ j, j < x.wN.toNat ∧ d.arrayByte (x.wAddr.toNat + j) ≠ refByte x pattern j := hall
    obtain ⟨hq1, hq2⟩ := Nat.find_spec hex
    have hq3 : ∀ j, j < Nat.find hex → d.arrayByte (x.wAddr.toNat + j) = refByte x pattern j := by
      intro j hj
      by_contra hne
      exact Nat.find_min hex hj ⟨by omega, hne⟩
    generalize Nat.find hex = q at *
    obtain ⟨n, b, hn', r3⟩ := m2 q (by rw [hz]; omega) hq1 (fun j _ hj => by rw [href, hbyte j (by omega)]; exact hq3 j hj)
      (by rw [href, hbyte q hq1]; exact hq2)
    have hcount : mismatchCount y pattern (BitVec.ofNat 32 q) = mismatchCount x pattern (BitVec.ofNat 32 q) := by
      cases pattern with
      | some b => rfl
      | none => show y.wDone + _ = x.wDone + _; rw [kp.wDone]
    rw [hcount] at r3
    refine ⟨k + n, comparing (BitVec.ofNat 32 q) b y, e, by omega, hlive _ b, hkept _ b, hstg, ch', tr,
      fun hfull => absurd (hfull _ hq1) hq2, fun q' hq' hbelow hne => ?_⟩
    have : q' = q := by
      rcases Nat.lt_trichotomy q' q with hlt | he | hgt
      · exact absurd (hq3 q' hlt) hne
      · exact he
      · exact absurd (hbelow _ hgt) hq2
    rw [this]
    exact r.trans r3

/-! ### The chunk loops (R222, R224) -/

/-- The head of the loop. -/
def scanOp : Option Byte → Op
  | none => .verifyLoop
  | some b => .blankLoop b

/-- The steps after a chunk. -/
def scanTail : Option Byte → List Op
  | none => verifyTail
  | some b => blankTail b

/-- The count of the end: `W_DONE` for `VERIFY`, 0 for `BLANK_CHECK`. -/
def scanCount (x : State) : Option Byte → Word
  | none => x.wDone
  | some _ => 0

/-- The working registers after a chunk. -/
def advanced (x : State) : Option Byte → State
  | none => (((x.advance .done).advance .addr).advance .buf).advance .rem
  | some _ => (x.advance .addr).advance .rem

/-- The size of a chunk. -/
theorem chunk_toNat (x : State) (hw : x.params.wf = true) : x.chunk.toNat = min x.wRem.toNat x.params.page := by
  have hp := wf_iff hw
  have h1 : x.params.page ≤ x.params.size := Nat.le_of_dvd hp.size hp.pageDvdSize
  have h2 := hp.size32
  unfold State.chunk
  split
  · omega
  · rw [BitVec.toNat_ofNat, Nat.mod_eq_of_lt (by omega)]; omega

/-- The state of a loop at its next chunk. -/
def atChunk (x : State) : State := { x with wN := x.chunk }

theorem Live.atChunk {x : State} {d : RefDev} (h : Live x d) : Live (atChunk x) d :=
  ⟨⟨h.ready.calm, h.ready.env, h.ready.dev, h.ready.en, h.ready.abort⟩, h.wf, h.unmapped, h.running⟩

theorem Live.advance {x : State} {d : RefDev} (h : Live x d) (r : WorkReg) : Live (x.advance r) d := by
  cases r <;> exact ⟨⟨h.ready.calm, h.ready.env, h.ready.dev, h.ready.en, h.ready.abort⟩, h.wf, h.unmapped, h.running⟩

theorem Live.advanced {x : State} {d : RefDev} (h : Live x d) (pattern : Option Byte) : Live (advanced x pattern) d :=
  match pattern with
  | none => (((h.advance .done).advance .addr).advance .buf).advance .rem
  | some _ => (h.advance .addr).advance .rem

theorem runs_setWork {x : State} (h : Calm x) (r : WorkReg) (v : Word) (l : List Op) :
    Runs 1 (withTodo (.setWork r v :: l) x) (withTodo l (x.setWork r v)) :=
  Runs.op rfl h.1 h.2 (by cases r <;> rfl)

theorem runs_advance {x : State} (h : Calm x) (r : WorkReg) (l : List Op) :
    Runs 1 (withTodo (.advance r :: l) x) (withTodo l (x.advance r)) := runs_op h (by cases r <;> rfl)

theorem Calm.advance {x : State} (h : Calm x) (r : WorkReg) : Calm (x.advance r) := h.of (by cases r <;> rfl) (by cases r <;> rfl)

/-- The advance after a chunk. -/
theorem runs_scanTail {x : State} (h : Calm x) (pattern : Option Byte) :
    ∃ n, n ≤ 4 ∧ Runs n (withTodo (scanTail pattern) x) (withTodo [scanOp pattern] (advanced x pattern)) := by
  cases pattern with
  | none =>
    exact ⟨4, le_refl _, (runs_advance h .done _).trans <| (runs_advance (h.advance _) .addr _).trans <|
      (runs_advance ((h.advance _).advance _) .buf _).trans (runs_advance (((h.advance _).advance _).advance _) .rem _)⟩
  | some b => exact ⟨2, by omega, (runs_advance h .addr _).trans (runs_advance (h.advance _) .rem _)⟩

/-- What a chunk loop leaves unchanged. -/
structure LoopKept (x y : State) : Prop where
  same : Same x y
  hostMem : y.hostMem = x.hostMem
  cfgbuf : y.cfgbuf = x.cfgbuf

theorem LoopKept.trans {x y z : State} (h : LoopKept x y) (g : LoopKept y z) : LoopKept x z :=
  ⟨h.same.trans g.same, g.hostMem.trans h.hostMem, g.cfgbuf.trans h.cfgbuf⟩

theorem ChunkKept.loop {x y : State} (h : ChunkKept (atChunk x) y) : LoopKept x y :=
  ⟨⟨h.same.params, h.same.burst, h.same.hostIn, h.same.hostData, h.same.current, h.same.fault, h.same.port, h.same.admitted,
    h.same.dcr⟩, h.hostMem, h.cfgbuf⟩

theorem loopKept_advance (x : State) (r : WorkReg) : LoopKept x (x.advance r) := by
  cases r <;> exact ⟨⟨rfl, rfl, rfl, rfl, rfl, rfl, rfl, rfl, rfl⟩, rfl, rfl⟩

theorem loopKept_advanced (x : State) (pattern : Option Byte) : LoopKept x (advanced x pattern) :=
  match pattern with
  | none => (loopKept_advance x .done).trans <| (loopKept_advance _ .addr).trans <| (loopKept_advance _ .buf).trans
      (loopKept_advance _ .rem)
  | some _ => (loopKept_advance x .addr).trans (loopKept_advance _ .rem)

/-- The working registers after the advance. -/
theorem advanced_work (x : State) (pattern : Option Byte) : (advanced x pattern).wAddr = x.wAddr + x.wN ∧
    (advanced x pattern).wRem = x.wRem - x.wN ∧
    (pattern = none → (advanced x pattern).wBuf = x.wBuf + x.wN ∧ (advanced x pattern).wDone = x.wDone + x.wN) ∧
    (advanced x pattern).stg = x.stg ∧ (advanced x pattern).trace = x.trace := by
  cases pattern <;> refine ⟨?_, ?_, ?_, ?_, ?_⟩ <;> simp [advanced, State.advance]

/-- The first chunk, then the rest. -/
theorem chunkEntries_succ (p : Params) (d : RefDev) (a r c : Nat) : chunkEntries p d a r (c + 1) =
    entryOf .eRead (quadReadHeader p (BitVec.ofNat 32 a)) .indirectRead (BitVec.ofNat 32 (min p.page r))
      (d.arrayBytes a (min p.page r)) :: chunkEntries p d (a + p.page) (r - p.page) c := by
  unfold chunkEntries
  rw [List.range_succ_eq_map, List.map_cons, List.map_map]
  simp only [Nat.zero_mul, Nat.add_zero, Nat.sub_zero]
  congr 1
  refine List.map_congr_left fun j _ => ?_
  simp only [Function.comp, Nat.succ_eq_add_one, Nat.add_mul, Nat.one_mul]
  rw [show a + (j * p.page + p.page) = a + p.page + j * p.page by omega, show r - (j * p.page + p.page) = r - p.page - j * p.page by omega]

theorem chunkEntries_chip {p : Params} {d e : RefDev} (h : e.array = d.array) (a r c : Nat) :
    chunkEntries p e a r c = chunkEntries p d a r c := by
  have : ∀ a n, e.arrayBytes a n = d.arrayBytes a n := fun a n => by simp [RefDev.arrayBytes, RefDev.arrayByte, h]
  simp only [chunkEntries, this]

theorem chunkCount_pos {p : Params} {r : Nat} (hp : 0 < p.page) (hr : r ≠ 0) : chunkCount p r = chunkCount p (r - p.page) + 1 := by
  unfold chunkCount
  by_cases h : p.page ≤ r
  · rw [show r + p.page - 1 = (r - p.page + p.page - 1) + p.page by omega, Nat.add_div_right _ hp]
  · rw [show r - p.page = 0 by omega, Nat.zero_add, Nat.div_eq_of_lt (by omega : p.page - 1 < p.page),
      show r + p.page - 1 = (r - 1) + p.page by omega, Nat.add_div_right _ hp, Nat.div_eq_of_lt (by omega : r - 1 < p.page)]

/-- The chunk loop from its head: to the end, or to the first byte that differs. -/
theorem run_scan (pattern : Option Byte) (r : Nat) {x : State} {d : RefDev} (h : Live x d) (hb : d.bc = 0)
    (hmem : cellsWf stgDefault x.stg = true) (hr : x.wRem.toNat = r) (hsz : x.wAddr.toNat + r ≤ x.params.size)
    (hbuf : pattern = none → r ≠ 0 → x.wBuf.toNat + r ≤ 2 ^ 32) (hadm : ∀ j, j < r → refOk x pattern j = true) :
    ∃ k y e st c, k ≤ 1 + 29 * r ∧ Runs k (withTodo [scanOp pattern] x) (y.endCommand st c) ∧ Live y e ∧
      LoopKept x y ∧ e.chip = (if r = 0 then d.chip else { d.chip with rsten := false }) ∧
      ((∀ i, i < r → d.arrayByte (x.wAddr.toNat + i) = refByte x pattern i) →
        st = .ok ∧ c = (match pattern with | none => x.wDone + x.wRem | some _ => 0) ∧
        y.trace = x.trace ++ chunkEntries x.params d x.wAddr.toNat r (chunkCount x.params r)) ∧
      ∀ q, q < r → (∀ i, i < q → d.arrayByte (x.wAddr.toNat + i) = refByte x pattern i) →
        d.arrayByte (x.wAddr.toNat + q) ≠ refByte x pattern q →
        st = .verifyMismatch ∧ c = mismatchCount x pattern (BitVec.ofNat 32 q) ∧
        y.trace = x.trace ++ chunkEntries x.params d x.wAddr.toNat r (q / x.params.page + 1) := by
  induction r using Nat.strong_induction_on generalizing x d with
  | _ r ih =>
  have hpg := h.params.page
  by_cases h0 : r = 0
  · have hz : x.wRem = 0 := BitVec.eq_of_toNat_eq (by simpa [h0] using hr)
    refine ⟨1, x, d, .ok, scanCount x pattern, by omega, ?_, h, ⟨Same.refl x, rfl, rfl⟩, by rw [if_pos h0], fun _ => ⟨rfl, ?_, ?_⟩,
      fun q hq => by omega⟩
    · cases pattern <;> exact Runs.op rfl h.ready.calm.1 h.ready.calm.2 (congrArg _ (if_pos hz))
    · cases pattern
      · show x.wDone = _; rw [hz]; simp
      · rfl
    · have : chunkCount x.params r = 0 := by rw [h0, chunkCount, Nat.zero_add]; exact Nat.div_eq_of_lt (by omega)
      rw [this]; simp [chunkEntries]
  · have hz : x.wRem ≠ 0 := fun hz => h0 (by rw [← hr, hz]; rfl)
    have hc := chunk_toNat x h.wf
    rw [hr] at hc
    have hn : (atChunk x).wN.toNat = min r x.params.page := hc
    have hlt := x.wRem.isLt
    have hs32 := h.params.size32
    have head : Runs 1 (withTodo [scanOp pattern] x)
        (withTodo (.issue (.tQread (atChunk x).wAddr (atChunk x).wN .stg) :: .compareLoop true pattern :: scanTail pattern)
          (atChunk x)) := by
      cases pattern <;> exact Runs.op rfl h.ready.calm.1 h.ready.calm.2 (congrArg _ (if_neg hz))
    have hrefC : ∀ j, refByte (atChunk x) pattern j = refByte x pattern j := fun j => by cases pattern <;> rfl
    obtain ⟨k, y, e, hk, ly, ck, hst, ch, tr, c1, c2⟩ := run_chunk (pattern := pattern) (x := atChunk x) h.atChunk hb hmem
      (fun hn0 => by rw [hn0] at hn; simp at hn; omega) (by rw [hn]; exact Nat.min_le_right _ _)
      (by rw [hn]; show x.wAddr.toNat + _ ≤ x.params.size; omega)
      (fun j hj => by have := hadm j (by rw [hn] at hj; omega); cases pattern <;> exact this) (scanTail pattern)
    rw [hn] at c1 c2 hk
    have tr' : y.trace = x.trace ++ [entryOf .eRead (quadReadHeader x.params (BitVec.ofNat 32 x.wAddr.toNat)) .indirectRead
        (BitVec.ofNat 32 (min x.params.page r)) (d.arrayBytes x.wAddr.toNat (min x.params.page r))] := by
      rw [tr, hn, Nat.min_comm r, BitVec.ofNat_toNat, BitVec.setWidth_eq]
      have : (atChunk x).wN = BitVec.ofNat 32 (min x.params.page r) := BitVec.eq_of_toNat_eq (by
        rw [hn, BitVec.toNat_ofNat, Nat.mod_eq_of_lt (by omega), Nat.min_comm])
      rw [this]; rfl
    have hpar : y.params = x.params := ck.same.params
    have har : e.array = d.array := by show e.chip.array = _; rw [ch]; rfl
    have hed : ∀ o, e.arrayByte o = d.arrayByte o := fun o => by simp [RefDev.arrayByte, har]
    by_cases hall : ∀ j, j < min r x.params.page → d.arrayByte (x.wAddr.toNat + j) = refByte x pattern j
    · have r1 := c1 (fun j hj => by rw [hrefC]; exact hall j hj)
      obtain ⟨n, hn4, r2⟩ := runs_scanTail ly.ready.calm pattern
      have wA : (advanced y pattern).wAddr.toNat = x.wAddr.toNat + min r x.params.page := by
        have : (advanced y pattern).wAddr = x.wAddr + (atChunk x).wN := by
          rw [(advanced_work y pattern).1, ck.work.wAddr, ck.work.wN]; rfl
        rw [this, BitVec.toNat_add, hn, Nat.mod_eq_of_lt (by omega)]
      have wR : (advanced y pattern).wRem = x.wRem - (atChunk x).wN := by
        rw [(advanced_work y pattern).2.1, ck.work.wRem, ck.work.wN]; rfl
      have wR' : (advanced y pattern).wRem.toNat = r - min r x.params.page := by
        rw [wR, BitVec.toNat_sub, hn, hr]; omega
      have wB : pattern = none → r - min r x.params.page ≠ 0 →
          (advanced y pattern).wBuf.toNat = x.wBuf.toNat + min r x.params.page := by
        rintro rfl hne
        rw [((advanced_work y none).2.2.1 rfl).1, ck.work.wBuf, ck.work.wN]
        show (x.wBuf + (atChunk x).wN).toNat = _
        have := hbuf rfl h0
        rw [BitVec.toNat_add, hn, Nat.mod_eq_of_lt (by omega)]
      have la := loopKept_advanced y pattern
      have hparA : (advanced y pattern).params = x.params := la.same.params.trans hpar
      have href : ∀ j, r - min r x.params.page ≠ 0 →
          refByte (advanced y pattern) pattern j = refByte x pattern (min r x.params.page + j) := by
        intro j hne
        cases pattern with
        | some b => rfl
        | none =>
          show cellRead _ (advanced y none).hostMem ((advanced y none).wBuf.toNat + j) = cellRead _ x.hostMem _
          rw [wB rfl hne, la.hostMem, ck.hostMem, Nat.add_assoc]; rfl
      obtain ⟨k2, y2, e2, st, c, hk2, r3, ly2, ck2, ch2, a1, a2⟩ := ih (r - min r x.params.page) (by omega)
        (x := advanced y pattern) (d := e) (ly.advanced pattern) (by show e.chip.bc = 0; rw [ch]; exact hb)
        (by rw [(advanced_work y pattern).2.2.2.1]; exact hst) wR' (by rw [wA, hparA]; omega)
        (fun hpn hne => by rw [wB hpn hne]; have := hbuf hpn h0; omega)
        (fun j hj => by
          have hne : r - min r x.params.page ≠ 0 := by omega
          cases pattern with
          | some b => rfl
          | none =>
            have := hadm (min r x.params.page + j) (by omega)
            show (advanced y none).admits ((advanced y none).wBuf.toNat + j) = true
            rw [wB rfl hne, Nat.add_assoc]
            simp only [State.admits, la.same.admitted, ck.same.admitted]
            exact this)
      have trA : (advanced y pattern).trace = y.trace := (advanced_work y pattern).2.2.2.2
      rw [hparA, wA, chunkEntries_chip har, trA, tr'] at a1
      simp only [hparA, wA, chunkEntries_chip har, trA, tr'] at a2
      -- a chunk's entry in front of the rest
      have cons : ∀ c', (r - min r x.params.page = 0 → c' = 0) → (x.trace ++
          [entryOf .eRead (quadReadHeader x.params (BitVec.ofNat 32 x.wAddr.toNat)) .indirectRead
            (BitVec.ofNat 32 (min x.params.page r)) (d.arrayBytes x.wAddr.toNat (min x.params.page r))]) ++
          chunkEntries x.params d (x.wAddr.toNat + min r x.params.page) (r - min r x.params.page) c' =
          x.trace ++ chunkEntries x.params d x.wAddr.toNat r (c' + 1) := by
        intro c' hc'
        rw [chunkEntries_succ, List.append_assoc]
        by_cases hlast : r - min r x.params.page = 0
        · rw [hc' hlast]; rfl
        · rw [show min r x.params.page = x.params.page by omega]; rfl
      refine ⟨1 + (k + (n + k2)), y2, e2, st, c, by omega, head.trans (r1.trans (r2.trans r3)), ly2,
        ck.loop.trans (la.trans ck2), ?_, fun hfull => ?_, fun q hq hbelow hne => ?_⟩
      · rw [ch2, if_neg h0]
        split <;> rw [ch]
      · obtain ⟨e1, e2', e3⟩ := a1 (fun i hi => by
          rw [hed, Nat.add_assoc, href i (by omega)]; exact hfull _ (by omega))
        refine ⟨e1, e2'.trans ?_, ?_⟩
        · cases pattern with
          | some b => rfl
          | none =>
            show (advanced y none).wDone + (advanced y none).wRem = x.wDone + x.wRem
            rw [((advanced_work y none).2.2.1 rfl).2, wR, ck.work.wDone, ck.work.wN]
            show x.wDone + (atChunk x).wN + (x.wRem - (atChunk x).wN) = _
            generalize (atChunk x).wN = w
            bv_omega
        · rw [e3, chunkCount_pos hpg h0, cons]
          · rw [show r - min r x.params.page = r - x.params.page by omega]
          · intro hz'
            rw [hz', chunkCount, Nat.zero_add]; exact Nat.div_eq_of_lt (by omega)
      · have hq' : min r x.params.page ≤ q := by
          by_contra hlt
          exact hne (hall q (by omega))
        have hle : min r x.params.page = x.params.page := by omega
        have hnz : r - min r x.params.page ≠ 0 := by omega
        obtain ⟨e1, e2', e3⟩ := a2 (q - min r x.params.page) (by omega) (fun i hi => by
          rw [hed, Nat.add_assoc, href i hnz]; exact hbelow _ (by omega)) (by
          rw [hed, Nat.add_assoc, href _ hnz, Nat.add_sub_cancel' hq']; exact hne)
        refine ⟨e1, e2'.trans ?_, ?_⟩
        · cases pattern with
          | some b => rfl
          | none =>
            show (advanced y none).wDone + _ = x.wDone + _
            rw [((advanced_work y none).2.2.1 rfl).2, ck.work.wDone, ck.work.wN]
            show (x.wDone + (atChunk x).wN) + _ = _
            rw [BitVec.add_assoc]
            congr 1
            apply BitVec.eq_of_toNat_eq
            rw [BitVec.toNat_add, hn, BitVec.toNat_ofNat, BitVec.toNat_ofNat]
            omega
        · rw [e3, cons _ (fun hz' => absurd hz' hnz), hle]
          have : q / x.params.page = (q - x.params.page) / x.params.page + 1 := by
            rw [← Nat.add_div_right _ hpg, Nat.sub_add_cancel (by omega)]
          rw [this]
    · push Not at hall
      have hex : ∃ j, j < min r x.params.page ∧ d.arrayByte (x.wAddr.toNat + j) ≠ refByte x pattern j := hall
      obtain ⟨hq1, hq2⟩ := Nat.find_spec hex
      have hq3 : ∀ j, j < Nat.find hex → d.arrayByte (x.wAddr.toNat + j) = refByte x pattern j := by
        intro j hj
        by_contra hne
        exact Nat.find_min hex hj ⟨by omega, hne⟩
      generalize Nat.find hex = q at *
      have r1 := c2 q hq1 (fun j hj => by rw [hrefC]; exact hq3 j hj) (by rw [hrefC]; exact hq2)
      refine ⟨1 + (k + 1), y, e, .verifyMismatch, mismatchCount x pattern (BitVec.ofNat 32 q), by omega, ?_, ly, ck.loop,
        by rw [if_neg h0, ch], fun hfull => absurd (hfull _ (by omega)) hq2, fun q' hq' hbelow hne => ?_⟩
      · have hm : mismatchCount (atChunk x) pattern (BitVec.ofNat 32 q) = mismatchCount x pattern (BitVec.ofNat 32 q) := by
          cases pattern <;> rfl
        rw [hm] at r1
        exact head.trans (r1.trans (runs_finish_command ly.ready.calm _ _ []))
      · have hqq : q' = q := by
          rcases Nat.lt_trichotomy q' q with hlt | he | hgt
          · exact absurd (hq3 q' hlt) hne
          · exact he
          · exact absurd (hbelow _ hgt) hq2
        subst hqq
        refine ⟨rfl, rfl, ?_⟩
        rw [tr', Nat.div_eq_of_lt (by omega), chunkEntries_succ]
        rfl

end Sys2Proof.Laws
end

