-- ==== Sys2Proof/Laws/Init.lean ====
section
/-! SUPPORT. The steps of `INIT` on a ready reference device (42_flash_operations.md R200 to R203). -/

namespace Sys2Proof.Laws

open Sys2Proof.Machine

/-- `INIT` up to its configuration read (R200). -/
theorem run_initHead {x : State} {d : RefDev} (h : Live x d) (hb : d.bc = 0) (l : List Op) :
    ∃ k y e, k ≤ 71 ∧ Runs k (withTodo (initOps ++ l) x) (withTodo (.qeCheck :: l) y) ∧ Live y e ∧ Same x y ∧ x.SameWork y ∧
      y.hostMem = x.hostMem ∧ y.stg = x.stg ∧ y.cfgbuf = d.fcfgReset ∧ y.mmapActive = false ∧
      e.chip = { d.chip with
        fsr := d.fsr &&& ~~~(x.params.welMask ||| x.params.wipMask), bc := 0, fcfg := d.fcfgReset, rsten := false } ∧
      y.trace = x.trace ++
        [entryOf .eWrite (plainHeader x.params.opc.rsten) .indirectWrite 0 [],
          entryOf .eWrite (plainHeader x.params.opc.rst) .indirectWrite 0 [],
          wipEntry x.params,
          entryOf .eRead { plainHeader x.params.opc.rdcr with dmode := .one } .indirectRead 1 [d.fcfgReset]] := by
  obtain ⟨k1, y1, e1, f1, hk1, r1, l1, p1, rs1, c1, t1⟩ := run_command h
    (.issue .tRst :: .setFsm .busyPolling :: .issue .tPollWip :: .setFsm .configReading :: .issue .tRdcr :: .qeCheck :: l)
    (i := .tRsten) (op := x.params.opc.rsten)
    (start_running h _ .tRsten fun s => s.startWrite (commandOnly (plainHeader s.params.opc.rsten)))
  rw [command_rsten f1 0 (d := d.chip) hb] at c1
  have b1 : e1.bc = 0 := by show e1.chip.bc = 0; rw [c1]; exact hb
  obtain ⟨k2, y2, e2, f2, hk2, r2, l2, p2, rs2, c2, t2⟩ := run_command l1
    (.setFsm .busyPolling :: .issue .tPollWip :: .setFsm .configReading :: .issue .tRdcr :: .qeCheck :: l)
    (i := .tRst) (op := y1.params.opc.rst)
    (start_running l1 _ .tRst fun s => s.startWrite (commandOnly (plainHeader s.params.opc.rst)))
  rw [command_rst l1.params f2 0 (d := e1.chip) b1, if_pos (by rw [c1]), c1, p1.params] at c2
  have l2' := l2.atStep (f := .busyPolling) (by decide)
  have b2 : e2.bc = 0 := by show e2.chip.bc = 0; rw [c2]
  obtain ⟨k3, y3, e3, hk3, r3, l3, p3, rs3, c3, t3⟩ := run_pollWip l2'
    (.setFsm .configReading :: .issue .tRdcr :: .qeCheck :: l) (by rw [b2]; exact budget_zero l2'.wf)
  have l3' := l3.atStep (f := .configReading) (by decide)
  have b3 : e3.bc = 0 := by show e3.chip.bc = 0; rw [c3]
  obtain ⟨k4, y4, e4, hk4, r4, l4, p4, m4, s4, cf4, mm4, c4, t4⟩ := run_rdcr l3' (.qeCheck :: l) b3
  have hcf : e3.fcfg = d.fcfgReset := by show e3.chip.fcfg = _; rw [c3, c2]; rfl
  have hpar : y3.params = x.params := p3.params.trans (p2.params.trans p1.params)
  refine ⟨k1 + (k2 + (1 + (k3 + (1 + k4)))), y4, e4, by rw [b2] at hk3; omega, ?_, l4, ?_, ?_, ?_, ?_, ?_, l4.unmapped, ?_, ?_⟩
  · exact r1.trans (r2.trans ((runs_atStep l2 _ _).trans (r3.trans ((runs_atStep l3 _ _).trans r4))))
  · exact p1.same.trans (p2.same.trans ((same_atStep _ _).trans (p3.same.trans ((same_atStep _ _).trans p4.same))))
  · exact sameWork_trans p1.work (sameWork_trans p2.work (sameWork_trans (work_atStep _ _) (sameWork_trans p3.work (sameWork_trans (work_atStep _ _) p4.work))))
  · rw [m4]; show y3.hostMem = _; rw [rs3.hostMem]; show y2.hostMem = _; rw [rs2.hostMem, rs1.hostMem]
  · rw [s4]; show y3.stg = _; rw [rs3.stg]; show y2.stg = _; rw [rs2.stg, rs1.stg]
  · rw [cf4, hcf]
  · rw [c4, c3, c2]; rfl
  · rw [t4]
    show y3.trace ++ _ = _
    rw [t3]
    show (y2.trace ++ [entryOf _ (statusHeader y2.params) _ _ _]) ++ _ = _
    rw [t2, t1, hcf]
    show _ ++ [entryOf _ { plainHeader y3.params.opc.rdcr with dmode := .one } _ _ _] = _
    rw [hpar, p2.params, p1.params]
    simp [wipEntry]

/-- The step that decides whether the quad-enable part runs (R203). -/
theorem runs_qeCheck {x : State} (h : Calm x) (l : List Op) :
    Runs 1 (withTodo (.qeCheck :: l) x) (if x.cfgbuf &&& x.params.qeMask ≠ 0 then x.endCommand .ok 0
      else withTodo (quadEnableOps x.params ++ [.finish .ok 0]) (atStep .writeEnablePending x)) := by
  refine Runs.op rfl h.1 h.2 ?_
  show Host.Outcome.next (State.qeCheck (withTodo l x)) = _
  show Host.Outcome.next (if x.cfgbuf &&& x.params.qeMask ≠ 0 then _ else _) = _
  split <;> rfl

end Sys2Proof.Laws
end

