-- ==== Sys2Proof/Laws/Orchestrator.lean ====
section
/-! SUPPORT. The page calls of `WRITE` on a ready reference device (43_write_orchestrator.md R230 to R233). -/

namespace Sys2Proof.Laws

open Sys2Proof.Machine

/-! ### The entries of the page calls (R233) -/

theorem pageEntries_of {x y : State} (hp : y.params = x.params) (hm : y.hostMem = x.hostMem) (a n b : Nat) :
    y.pageEntries a n b = x.pageEntries a n b := by
  simp only [State.pageEntries, State.memBytes, State.memByte, hp, hm]

theorem writeEntries_of {x y : State} (hp : y.params = x.params) (hm : y.hostMem = x.hostMem) (a n b : Nat) :
    y.writeEntries a n b = x.writeEntries a n b := by
  simp only [State.writeEntries, pageEntries_of hp hm, hp]

theorem writeEntries_zero (x : State) (a b : Nat) : x.writeEntries a 0 b = [] := by simp [State.writeEntries]

/-- The call up to the page's end, then the rest. -/
theorem writeEntries_cons (x : State) {a r b : Nat} (hp : 0 < x.params.page) (hr : x.params.page - a % x.params.page ≤ r) :
    x.writeEntries a r b = x.pageEntries a (x.params.page - a % x.params.page) b ++
      x.writeEntries (a + (x.params.page - a % x.params.page)) (r - (x.params.page - a % x.params.page))
        (b + (x.params.page - a % x.params.page)) := by
  have hmod := Nat.mod_lt a hp
  have hdm := Nat.div_add_mod a x.params.page
  generalize hpg : x.params.page = pg at *
  generalize hq : a / pg = q at *
  generalize ho : a % pg = o at *
  have hbase : q * pg = a - o := by rw [Nat.mul_comm]; omega
  have hnext : (a + (pg - o)) / pg = q + 1 := by
    rw [show a + (pg - o) = pg * (q + 1) by rw [Nat.mul_add, Nat.mul_comm pg q, hbase]; omega]
    exact Nat.mul_div_cancel_left _ hp
  have hr0 : r ≠ 0 := by omega
  have hcount : (a + r - 1) / pg - q + 1 =
      (if r - (pg - o) = 0 then 0 else (a + (pg - o) + (r - (pg - o)) - 1) / pg - (q + 1) + 1) + 1 := by
    by_cases hz : r - (pg - o) = 0
    · rw [if_pos hz, show a + r - 1 = pg * q + (pg - 1) by rw [Nat.mul_comm, hbase]; omega, Nat.mul_add_div hp,
        Nat.div_eq_of_lt (by omega : pg - 1 < pg)]
      omega
    · rw [if_neg hz, show a + (pg - o) + (r - (pg - o)) - 1 = a + r - 1 by omega]
      have : q + 1 ≤ (a + r - 1) / pg := by
        rw [Nat.le_div_iff_mul_le hp, Nat.add_mul, Nat.one_mul, hbase]; omega
      omega
  unfold State.writeEntries
  simp only [hpg, hq, hnext, if_neg hr0, hcount]
  rw [List.range_succ_eq_map, List.flatMap_cons, List.flatMap_map]
  congr 1
  · simp only [Nat.zero_mul, Nat.add_zero, Nat.zero_add, Nat.one_mul, hbase]
    rw [show max a (a - o) = a by omega, show min (a + r) (a - o + pg) = a + (pg - o) by omega, Nat.add_sub_cancel_left,
      Nat.sub_self, Nat.add_zero]
  · refine List.flatMap_congr fun j _ => ?_
    have h1 : (j + 1) * pg = j * pg + pg := by rw [Nat.add_mul, Nat.one_mul]
    have h2 : (j + 1 + 1) * pg = j * pg + pg + pg := by rw [Nat.add_mul, h1, Nat.one_mul]
    have h3 : (q + 1) * pg = a - o + pg := by rw [Nat.add_mul, Nat.one_mul, hbase]
    simp only [Nat.succ_eq_add_one, h1, h2, h3, hbase]
    rw [show max a (a - o + (j * pg + pg)) = max (a + (pg - o)) (a - o + pg + j * pg) by omega,
      show min (a + r) (a - o + (j * pg + pg + pg)) = min (a + (pg - o) + (r - (pg - o))) (a - o + pg + (j * pg + pg)) by omega]
    congr 1
    omega

/-- A range inside one page. -/
theorem writeEntries_one (x : State) {a r b : Nat} (hp : 0 < x.params.page) (hr : r ≠ 0) (h : a % x.params.page + r ≤ x.params.page) :
    x.writeEntries a r b = x.pageEntries a r b := by
  have hmod := Nat.mod_lt a hp
  have hdm := Nat.div_add_mod a x.params.page
  have hone : (a + r - 1) / x.params.page = a / x.params.page := by
    rw [show a + r - 1 = x.params.page * (a / x.params.page) + (a % x.params.page + r - 1) by omega, Nat.mul_add_div hp,
      Nat.div_eq_of_lt (by omega : a % x.params.page + r - 1 < x.params.page), Nat.add_zero]
  have hbase : a / x.params.page * x.params.page = a - a % x.params.page := by rw [Nat.mul_comm]; omega
  simp only [State.writeEntries, if_neg hr, hone, Nat.sub_self, Nat.zero_add, hbase]
  rw [List.range_one, List.flatMap_singleton]
  simp only [Nat.zero_mul, Nat.add_zero, Nat.zero_add, Nat.one_mul]
  rw [show max a (a - a % x.params.page) = a by omega, show min (a + r) (a - a % x.params.page + x.params.page) = a + r by omega,
    Nat.add_sub_cancel_left, Nat.sub_self, Nat.add_zero]

/-! ### One page call -/

/-- What page calls leave unchanged. -/
structure PagesKept (x y : State) : Prop where
  same : Same x y
  rest : Rest x y

theorem PagesKept.trans {x y z : State} (h : PagesKept x y) (g : PagesKept y z) : PagesKept x z :=
  ⟨h.same.trans g.same, h.rest.trans g.rest⟩

/-- The array holds the AND of what it held and the host's bytes over `[a, a + n)`, and what it held elsewhere
(20_memory.md R75). -/
def Programmed (x : State) (d e : RefDev) (a n b : Nat) : Prop :=
  ∀ o, e.arrayByte o = if a ≤ o ∧ o < a + n then d.arrayByte o &&& x.memByte (b + (o - a)) else d.arrayByte o

/-- One page call (R230, 42_flash_operations.md R206): its checks pass, its bytes are programmed. -/
theorem run_page {x : State} {d : RefDev} (h : Live x d) (hb : d.bc = 0) (hwf : cellsWf arrayDefault d.array = true)
    (hbudget : budgetSpent x.params d.busyPolls = false) (hn1 : 1 ≤ x.wN.toNat)
    (hsz : x.wAddr.toNat + x.wN.toNat ≤ x.params.size)
    (hpc : x.wAddr.toNat % x.params.page + x.wN.toNat ≤ x.params.page) (hsrc : x.wBuf.toNat + x.wN.toNat ≤ 2 ^ 32)
    (hadm : ∀ j, j < x.wN.toNat → x.admits (x.wBuf.toNat + j) = true) (l : List Op) :
    ∃ k y e, k ≤ 72 + d.busyPolls + 5 * x.wN.toNat ∧ Runs k (withTodo (.callPage :: l) x) (withTodo l y) ∧ Live y e ∧
      PagesKept x y ∧ x.SameWork y ∧ e.bc = 0 ∧ e.latched x.params = false ∧ e.fcfg = d.fcfg ∧
      e.busyPolls = d.busyPolls ∧ cellsWf arrayDefault e.array = true ∧
      Programmed x d e x.wAddr.toNat x.wN.toNat x.wBuf.toNat ∧
      y.trace = x.trace ++ x.pageEntries x.wAddr.toNat x.wN.toNat x.wBuf.toNat := by
  have hp := h.params
  have hd : x.wAddr.toNat < x.params.size := by omega
  have hn0 : x.wN ≠ 0 := fun h0 => by rw [h0] at hn1; simp at hn1
  have hck : firstFault (x.programChecks x.wAddr x.wN x.wBuf) = none := by
    have h1 : crEn x.regs.cr = true := h.ready.en
    have h2 : x.wN.toNat ≤ x.params.page := by omega
    simp [State.programChecks, State.engineChecks, firstFault, h1, h.unmapped, pageSizeBad, rangeBad, hostRangeBad,
      hostRangeOk, pageCrossBad, hn1, h2, hd, hsz, hpc, Config.hostAddrBits]
    exact decide_eq_true hsrc
  have call : Runs 1 (withTodo (.callPage :: l) x)
      (withTodo (mutateOps (.tQpp x.wAddr x.wN x.wBuf) ++ l) (atStep .writeEnablePending x)) := by
    refine Runs.op rfl h.ready.calm.1 h.ready.calm.2 ?_
    show Host.Outcome.next (State.callPage (withTodo l x)) = _
    have : firstFault ((withTodo l x).programChecks (withTodo l x).wAddr (withTodo l x).wN (withTodo l x).wBuf) = none := hck
    simp only [State.callPage, this]
    rfl
  have l1 := h.atStep (f := .writeEnablePending) (by decide)
  obtain ⟨k, y, e, hk, r, ly, sm, w, rs, ch, tr⟩ := run_mutate (x := atStep .writeEnablePending x)
    (i := .tQpp x.wAddr x.wN x.wBuf) (t := quadProgram x.params x.wAddr x.wN x.wBuf)
    (bytes := x.memBytes x.wBuf.toNat x.wN.toNat) (f := programBytes x.params x.wAddr.toNat 0 (x.memBytes x.wBuf.toNat x.wN.toNat))
    l1 hb hbudget (fun y e m hy hpar => by
      have hpar' : y.params = x.params := hpar
      rw [← hpar']
      exact start_running hy m (.tQpp x.wAddr x.wN x.wBuf) fun s => s.startWrite (quadProgram s.params x.wAddr x.wN x.wBuf))
    (ok_quadProgram hp hd hn0) (by simp [State.memBytes, quadProgram]) (fun j hj => by
      have hj' : j < x.wN.toNat := by simpa [State.memBytes] using hj
      exact ⟨hadm j hj', by rw [memBytes_get]; rfl⟩) (fun free e hb hl => command_qpp hp free x.wAddr hb _ hl) l
  have hlen : (x.memBytes x.wBuf.toNat x.wN.toNat).length = x.wN.toNat := by simp [State.memBytes]
  rw [hlen] at hk
  have harr : e.array = programBytes x.params x.wAddr.toNat 0 (x.memBytes x.wBuf.toNat x.wN.toNat) d.array := by
    show e.chip.array = _; rw [ch]
  refine ⟨1 + k, y, e, by omega, call.trans r, ly, ⟨(same_atStep _ _).trans sm, (rest_atStep _ _).trans rs⟩,
    sameWork_trans (work_atStep _ _) w, by show e.chip.bc = 0; rw [ch], ?_, by show e.chip.fcfg = _; rw [ch]; rfl,
    by show e.chip.busyPolls = _; rw [ch]; rfl, by rw [harr]; exact programBytes_wf hwf, ?_, ?_⟩
  · show e.chip.latched _ = _
    rw [ch]
    simp only [RefDev.latched]
    show ((d.fsr &&& ~~~x.params.welMask) &&& x.params.welMask != 0) = false
    rw [BitVec.and_assoc, BitVec.and_comm (~~~x.params.welMask), BitVec.and_not_self]
    simp
  · intro o
    simp only [RefDev.arrayByte, harr]
    rw [programBytes_read hwf (by rw [hlen]; omega) (by rw [hlen]; omega), hlen]
    simp only [Nat.add_zero]
    split
    · congr 1
      rw [List.getD_eq_getElem _ _ (by rw [hlen]; omega), memBytes_get]
    · rfl
  · rw [tr, State.pageEntries, BitVec.ofNat_toNat, BitVec.ofNat_toNat, BitVec.setWidth_eq, BitVec.setWidth_eq, List.append_assoc]
    rfl

/-- Two programs in a row are one. -/
theorem Programmed.append {x y : State} {d e f : RefDev} {a n m b : Nat} (h : Programmed x d e a n b)
    (g : Programmed y e f (a + n) m (b + n)) (hy : ∀ j, y.memByte j = x.memByte j) : Programmed x d f a (n + m) b := by
  intro o
  rw [g o, h o]
  by_cases h1 : a ≤ o ∧ o < a + n
  · rw [if_neg (by omega), if_pos h1, if_pos (by omega)]
  · by_cases h2 : a + n ≤ o ∧ o < a + n + m
    · rw [if_pos h2, if_neg h1, if_pos (by omega), hy, show b + n + (o - (a + n)) = b + (o - a) by omega]
    · rw [if_neg h2, if_neg h1, if_neg (by omega)]

/-- A step in the place of another that does the same. -/
theorem runs_as {x y z : State} {o o' : Op} {l : List Op} {k : Nat} (h : Calm x) (ho : seqOp o (withTodo l x) = .next z)
    (ho' : seqOp o' (withTodo l x) = .next z) (hk : 1 ≤ k) (hr : Runs k (withTodo (o' :: l) x) y) :
    Runs k (withTodo (o :: l) x) y := by
  intro n
  rw [← hr n]
  obtain ⟨m, rfl⟩ := Nat.exists_eq_add_of_le hk
  rw [Nat.add_assoc, Runs.op (s := withTodo (o :: l) x) rfl h.1 h.2 ho, Runs.op (s := withTodo (o' :: l) x) rfl h.1 h.2 ho']

/-- `W_N` chosen. -/
def atPage (n : Nat) (x : State) : State := { x with wN := BitVec.ofNat 32 n }

theorem Live.atPage {x : State} {d : RefDev} (h : Live x d) (n : Nat) : Live (atPage n x) d :=
  ⟨⟨h.ready.calm, h.ready.env, h.ready.dev, h.ready.en, h.ready.abort⟩, h.wf, h.unmapped, h.running⟩

/-- A page call of `n` bytes that is not the last, and the advance after it: the loop is at the rest of the range. -/
theorem run_pageNext {x : State} {d : RefDev} {n : Nat} (h : Live x d) (hb : d.bc = 0) (hwf : cellsWf arrayDefault d.array = true)
    (hbudget : budgetSpent x.params d.busyPolls = false) (hn1 : 1 ≤ n) (hrem : n ≤ x.wRem.toNat)
    (hsz : x.wAddr.toNat + x.wRem.toNat ≤ x.params.size)
    (hpc : x.wAddr.toNat % x.params.page + n ≤ x.params.page) (hsrc : x.wBuf.toNat + x.wRem.toNat ≤ 2 ^ 32)
    (hadm : ∀ j, j < x.wRem.toNat → x.admits (x.wBuf.toNat + j) = true) :
    ∃ k y e, k ≤ 76 + d.busyPolls + 5 * n ∧ Runs k (withTodo (.callPage :: orchTail) (atPage n x)) (withTodo [.orchLoop] y) ∧
      Live y e ∧ PagesKept x y ∧ e.bc = 0 ∧ e.latched x.params = false ∧ e.fcfg = d.fcfg ∧
      e.busyPolls = d.busyPolls ∧ cellsWf arrayDefault e.array = true ∧
      Programmed x d e x.wAddr.toNat n x.wBuf.toNat ∧ y.trace = x.trace ++ x.pageEntries x.wAddr.toNat n x.wBuf.toNat ∧
      y.wRem.toNat = x.wRem.toNat - n ∧ y.wAddr.toNat = x.wAddr.toNat + n ∧
      (y.wRem.toNat ≠ 0 → y.wBuf.toNat = x.wBuf.toNat + n) := by
  have hlt := x.wRem.isLt
  have hN : (atPage n x).wN.toNat = n := by
    show (BitVec.ofNat 32 n).toNat = n; rw [BitVec.toNat_ofNat, Nat.mod_eq_of_lt (by omega)]
  have lx := h.atPage n
  obtain ⟨k, y, e, hk, r, ly, pk, w, e1, e2, e3, e4, e5, e6, tr⟩ := run_page lx hb hwf hbudget (by rw [hN]; exact hn1)
    (by rw [hN]; show x.wAddr.toNat + n ≤ x.params.size; omega) (by rw [hN]; exact hpc)
    (by rw [hN]; show x.wBuf.toNat + n ≤ _; omega) (fun j hj => by rw [hN] at hj; exact hadm j (by omega)) orchTail
  rw [hN] at hk e6 tr
  have la := ((ly.advance .addr).advance .buf).advance .rem
  have adv : Runs 3 (withTodo orchTail y)
      (withTodo [.setFsm .orchestrating, .orchLoop] (((y.advance .addr).advance .buf).advance .rem)) :=
    (runs_advance ly.ready.calm .addr _).trans <| (runs_advance (ly.advance .addr).ready.calm .buf _).trans
      (runs_advance ((ly.advance .addr).advance .buf).ready.calm .rem _)
  have lk := (loopKept_advance y .addr).trans <| (loopKept_advance _ .buf).trans (loopKept_advance _ .rem)
  obtain ⟨w1, w2, w3, w4, w5, w6⟩ : (((y.advance .addr).advance .buf).advance .rem).wAddr = x.wAddr + BitVec.ofNat 32 n ∧
      (((y.advance .addr).advance .buf).advance .rem).wBuf = x.wBuf + BitVec.ofNat 32 n ∧
      (((y.advance .addr).advance .buf).advance .rem).wRem = x.wRem - BitVec.ofNat 32 n ∧
      (((y.advance .addr).advance .buf).advance .rem).trace = y.trace ∧
      (((y.advance .addr).advance .buf).advance .rem).stg = y.stg ∧
      (((y.advance .addr).advance .buf).advance .rem).mmapActive = y.mmapActive := by
    refine ⟨?_, ?_, ?_, ?_, ?_, ?_⟩ <;> simp [State.advance]
    · rw [w.wAddr, w.wN]; rfl
    · rw [w.wBuf, w.wN]; rfl
    · rw [w.wRem, w.wN]; rfl
  generalize ((y.advance .addr).advance .buf).advance .rem = z at *
  have hs := h.params.size32
  have hn32 : (BitVec.ofNat 32 n).toNat = n := hN
  refine ⟨k + (3 + 1), atStep .orchestrating z, e, by omega, r.trans (adv.trans (runs_atStep la .orchestrating _)),
    la.atStep (by decide), ⟨?_, ?_⟩, e1, e2, e3, e4, e5, e6, ?_, ?_, ?_, ?_⟩
  · have hxy : Same x y := ⟨pk.same.params, pk.same.burst, pk.same.hostIn, pk.same.hostData, pk.same.current, pk.same.fault,
      pk.same.port, pk.same.admitted, pk.same.dcr⟩
    exact hxy.trans (lk.same.trans (same_atStep _ _))
  · exact ⟨lk.hostMem.trans pk.rest.hostMem, w5.trans pk.rest.stg, lk.cfgbuf.trans pk.rest.cfgbuf, w6.trans pk.rest.mmapActive⟩
  · show z.trace = _; rw [w4, tr]; rfl
  · show z.wRem.toNat = _
    rw [w3, BitVec.toNat_sub, hn32]; omega
  · show z.wAddr.toNat = _
    rw [w1, BitVec.toNat_add, hn32, Nat.mod_eq_of_lt (by omega)]
  · intro hr
    have hr' : z.wRem.toNat ≠ 0 := hr
    rw [w3, BitVec.toNat_sub, hn32] at hr'
    show z.wBuf.toNat = _
    rw [w2, BitVec.toNat_add, hn32, Nat.mod_eq_of_lt (by omega)]

/-- What a run of page calls over `[a, a + r)` leaves. -/
structure Written (x y : State) (d e : RefDev) (a r b : Nat) : Prop where
  live : Live y e
  kept : PagesKept x y
  bc : e.bc = 0
  latched : r ≠ 0 ∨ d.latched x.params = false → e.latched x.params = false
  fcfg : e.fcfg = d.fcfg
  array : Programmed x d e a r b
  trace : y.trace = x.trace ++ x.writeEntries a r b

/-- A first page call, then the rest. -/
theorem Written.cons {x y z : State} {d e f : RefDev} {a n r b : Nat} (hp : 0 < x.params.page)
    (hn : n = x.params.page - a % x.params.page) (hr : n ≤ r)
    (pk : PagesKept x y) (e2 : e.latched x.params = false) (e3 : e.fcfg = d.fcfg)
    (e6 : Programmed x d e a n b) (tr : y.trace = x.trace ++ x.pageEntries a n b) {b' : Nat} (hb' : r - n ≠ 0 → b' = b + n)
    (g : Written y z e f (a + n) (r - n) b') : Written x z d f a r b where
  live := g.live
  kept := pk.trans g.kept
  bc := g.bc
  latched := fun _ => by rw [← pk.same.params]; exact g.latched (.inr (by rw [pk.same.params]; exact e2))
  fcfg := g.fcfg.trans e3
  array := by
    by_cases hz : r - n = 0
    · intro o
      have := g.array o
      rw [hz, if_neg (by omega)] at this
      rw [this, e6 o, show r = n by omega]
    · have g' := g.array
      rw [hb' hz] at g'
      have := e6.append g' (fun j => by simp only [State.memByte, pk.rest.hostMem])
      rwa [Nat.add_sub_cancel' hr] at this
  trace := by
    have hw : y.writeEntries (a + n) (r - n) b' = x.writeEntries (a + n) (r - n) (b + n) := by
      by_cases hz : r - n = 0
      · rw [hz, writeEntries_zero, writeEntries_zero]
      · rw [hb' hz, writeEntries_of pk.same.params pk.rest.hostMem]
    rw [g.trace, hw, tr, List.append_assoc, writeEntries_cons x (a := a) (r := r) hp (by omega), ← hn]

/-- The orchestrator's loop from its head: the rest of the range is programmed. -/
theorem run_orchLoop (r : Nat) {x : State} {d : RefDev} (h : Live x d) (hb : d.bc = 0)
    (hwf : cellsWf arrayDefault d.array = true) (hbudget : budgetSpent x.params d.busyPolls = false)
    (hr : x.wRem.toNat = r) (hsz : x.wAddr.toNat + r ≤ x.params.size)
    (hpc : x.wAddr.toNat % x.params.page + min r x.params.page ≤ x.params.page) (hsrc : r ≠ 0 → x.wBuf.toNat + r ≤ 2 ^ 32)
    (hadm : ∀ j, j < r → x.admits (x.wBuf.toNat + j) = true) :
    ∃ k y e, 1 ≤ k ∧ k ≤ 1 + r * (82 + d.busyPolls) ∧ Runs k (withTodo [.orchLoop] x) (y.endCommand .ok 0) ∧
      Written x y d e x.wAddr.toNat r x.wBuf.toNat := by
  induction r using Nat.strong_induction_on generalizing x d with
  | _ r ih =>
  have hp := h.params
  have hpg := hp.page
  have hps : x.params.page ≤ x.params.size := Nat.le_of_dvd hp.size hp.pageDvdSize
  have hs32 := hp.size32
  by_cases hfull : x.params.page ≤ r
  · have head : Runs 1 (withTodo [.orchLoop] x) (withTodo (.callPage :: orchTail) (atPage x.params.page x)) := by
      refine Runs.op rfl h.ready.calm.1 h.ready.calm.2 ?_
      exact congrArg _ (if_pos (show x.params.page ≤ x.wRem.toNat by omega))
    have hal : x.wAddr.toNat % x.params.page = 0 := by omega
    obtain ⟨k, y, e, hk, r1, ly, pk, e1, e2, e3, e4, e5, e6, tr, w1, w2, w3⟩ := run_pageNext (n := x.params.page) h hb hwf hbudget
      hpg (by omega) (by omega) (by omega) (by rw [hr]; exact hsrc (by omega)) (fun j hj => hadm j (by omega))
    have hyp : y.params = x.params := pk.same.params
    obtain ⟨k2, y2, e', -, hk2, r2, g⟩ := ih (r - x.params.page) (by omega) (x := y) (d := e) ly e1 e5
      (by rw [hyp, e4]; exact hbudget) (by omega) (by rw [w2, hyp]; omega)
      (by rw [w2, hyp, Nat.add_mod_right, hal]; omega)
      (fun hne => by rw [w3 (by omega)]; have := hsrc (by omega); omega)
      (fun j hj => by
        rw [w3 (by omega), Nat.add_assoc]
        have := hadm (x.params.page + j) (by omega)
        simpa only [State.admits, pk.same.admitted] using this)
    rw [w2] at g
    refine ⟨1 + (k + k2), y2, e', by omega, ?_, head.trans (r1.trans r2),
      Written.cons hpg (by omega) hfull pk e2 e3 e6 tr (fun hne => w3 (by omega)) g⟩
    rw [e4] at hk2
    obtain ⟨q, rfl⟩ := Nat.exists_eq_add_of_le hfull
    rw [Nat.add_sub_cancel_left] at hk2
    have : 1 + (76 + d.busyPolls + 5 * x.params.page) ≤ x.params.page * (82 + d.busyPolls) := by
      have h1 : d.busyPolls ≤ x.params.page * d.busyPolls := Nat.le_mul_of_pos_left _ hpg
      calc 1 + (76 + d.busyPolls + 5 * x.params.page) ≤ 77 * x.params.page + x.params.page * d.busyPolls + 5 * x.params.page := by omega
        _ = x.params.page * (82 + d.busyPolls) := by ring
    rw [Nat.add_mul]; omega
  · by_cases hz : x.wRem = 0
    · have h0 : r = 0 := by rw [← hr, hz]; rfl
      subst h0
      refine ⟨1, x, d, le_refl _, by omega, ?_, h, ⟨Same.refl x, Rest.refl x⟩, hb, fun hne => hne.resolve_left (not_not_intro rfl), rfl, ?_, ?_⟩
      · refine Runs.op rfl h.ready.calm.1 h.ready.calm.2 ?_
        exact congrArg _ ((if_neg (show ¬ x.params.page ≤ x.wRem.toNat by omega)).trans (if_pos hz))
      · intro o; rw [if_neg (by omega)]
      · rw [writeEntries_zero, List.append_nil]
    · have h0 : r ≠ 0 := fun h0 => hz (BitVec.eq_of_toNat_eq (by rw [hr, h0]; rfl))
      have head : Runs 1 (withTodo [.orchLoop] x) (withTodo [.callPage, .finish .ok 0] { x with wN := x.wRem }) := by
        refine Runs.op rfl h.ready.calm.1 h.ready.calm.2 ?_
        exact congrArg _ ((if_neg (show ¬ x.params.page ≤ x.wRem.toNat by omega)).trans (if_neg hz))
      have lx : Live { x with wN := x.wRem } d :=
        ⟨⟨h.ready.calm, h.ready.env, h.ready.dev, h.ready.en, h.ready.abort⟩, h.wf, h.unmapped, h.running⟩
      have hN : ({ x with wN := x.wRem } : State).wN.toNat = r := hr
      obtain ⟨k, y, e, hk, r1, ly, pk, w, e1, e2, e3, e4, e5, e6, tr⟩ := run_page lx hb hwf hbudget (by rw [hN]; omega)
        (by rw [hN]; exact hsz) (by rw [hN]; show x.wAddr.toNat % x.params.page + r ≤ x.params.page; omega)
        (by rw [hN]; exact hsrc h0) (fun j hj => hadm j (by rw [hN] at hj; exact hj)) [.finish .ok 0]
      rw [hN] at hk e6 tr
      refine ⟨1 + (k + 1), y, e, by omega, ?_, head.trans (r1.trans (runs_finish_command ly.ready.calm _ _ [])), ly,
        ⟨⟨pk.same.params, pk.same.burst, pk.same.hostIn, pk.same.hostData, pk.same.current, pk.same.fault, pk.same.port,
          pk.same.admitted, pk.same.dcr⟩, pk.rest.hostMem, pk.rest.stg, pk.rest.cfgbuf, pk.rest.mmapActive⟩, e1, fun _ => e2, e3, e6, ?_⟩
      · have : 74 + d.busyPolls + 5 * r ≤ r * (82 + d.busyPolls) := by
          have h1 : d.busyPolls ≤ r * d.busyPolls := Nat.le_mul_of_pos_left _ (by omega)
          calc 74 + d.busyPolls + 5 * r ≤ 77 * r + r * d.busyPolls + 5 * r := by omega
            _ = r * (82 + d.busyPolls) := by ring
        omega
      · rw [tr, writeEntries_one x hpg h0 (by omega)]; rfl

/-- The orchestrator from its first step (R230, R232): the whole range is programmed, under either rule unless `literal` passes
a page-crossing range whole. -/
theorem run_orchFirst {x : State} {d : RefDev} (hl : Live x d) (hbc : d.bc = 0) (hwf : cellsWf arrayDefault d.array = true)
    (hb : budgetSpent x.params d.busyPolls = false)
    (hrule : x.params.orchRule = .boundarySafe ∨ x.wAddr.toNat % x.params.page + x.wRem.toNat ≤ x.params.page ∨
      x.params.page < x.wRem.toNat)
    (hsz : x.wAddr.toNat + x.wRem.toNat ≤ x.params.size) (hsrc : x.wBuf.toNat + x.wRem.toNat ≤ 2 ^ 32)
    (hadm : ∀ j, j < x.wRem.toNat → x.admits (x.wBuf.toNat + j) = true) :
    ∃ k y e, k ≤ 1 + x.wRem.toNat * (82 + d.busyPolls) ∧ Runs k (withTodo [.orchFirst] x) (y.endCommand .ok 0) ∧
      Written x y d e x.wAddr.toNat x.wRem.toNat x.wBuf.toNat := by
  have hp := hl.params
  have hpg := hp.page
  have hmod : x.wAddr.toNat % x.params.page < x.params.page := Nat.mod_lt _ hpg
  have hcond : ((decide (x.wAddr.toNat % x.params.page ≠ 0)) && firstCond x.params x.wRem.toNat (x.wAddr.toNat % x.params.page)) = true ↔
      x.wAddr.toNat % x.params.page ≠ 0 ∧ x.params.page - x.wAddr.toNat % x.params.page < x.wRem.toNat := by
    unfold firstCond
    cases hrl : x.params.orchRule with
    | boundarySafe => simp
    | literal =>
      simp only [Bool.and_eq_true, decide_eq_true_eq]
      rcases hrule with h | h | h
      · rw [hrl] at h; cases h
      · omega
      · omega
  by_cases hfirst : x.wAddr.toNat % x.params.page ≠ 0 ∧ x.params.page - x.wAddr.toNat % x.params.page < x.wRem.toNat
  · -- the first partial page
    have head : Runs 1 (withTodo [.orchFirst] x)
        (withTodo (.callPage :: orchTail) (atPage (x.params.page - x.wAddr.toNat % x.params.page) x)) := by
      refine Runs.op rfl hl.ready.calm.1 hl.ready.calm.2 ?_
      exact congrArg _ (if_pos (hcond.2 hfirst))
    obtain ⟨k, y, e, hk, r1, ly, pk, e1, e2, e3, e4, e5, e6, tr, w1, w2, w3⟩ := run_pageNext
      (n := x.params.page - x.wAddr.toNat % x.params.page) hl hbc hwf hb (by omega) (by omega) hsz (by omega) hsrc hadm
    have hyp : y.params = x.params := pk.same.params
    have hal : y.wAddr.toNat % x.params.page = 0 := by
      rw [w2]
      have hd1 := Nat.div_add_mod x.wAddr.toNat x.params.page
      generalize x.wAddr.toNat % x.params.page = off at *
      rw [← hd1, show x.params.page * (x.wAddr.toNat / x.params.page) + off + (x.params.page - off) = x.params.page * (x.wAddr.toNat / x.params.page + 1) by
        rw [Nat.mul_add]; omega]
      exact Nat.mul_mod_right _ _
    have hw3 := w3 (by omega)
    obtain ⟨k2, y2, e', -, hk2, r2, g⟩ := run_orchLoop (x.wRem.toNat - (x.params.page - x.wAddr.toNat % x.params.page)) ly e1 e5
      (by rw [hyp, e4]; exact hb) w1 (by rw [w2, hyp]; omega) (by rw [hyp, hal]; omega) (fun _ => by rw [hw3]; omega)
      (fun j hj => by
        rw [hw3, Nat.add_assoc]
        have := hadm (x.params.page - x.wAddr.toNat % x.params.page + j) (by omega)
        simpa only [State.admits, pk.same.admitted] using this)
    rw [w2] at g
    refine ⟨1 + (k + k2), y2, e', ?_, head.trans (r1.trans r2),
      Written.cons hpg rfl (by omega) pk e2 e3 e6 tr (fun hne => w3 (by omega)) g⟩
    rw [e4] at hk2
    generalize hf : x.params.page - x.wAddr.toNat % x.params.page = f at *
    have hf1 : 1 ≤ f := by omega
    obtain ⟨q, hq⟩ := Nat.exists_eq_add_of_le (show f ≤ x.wRem.toNat by omega)
    rw [hq, Nat.add_sub_cancel_left] at hk2
    rw [hq]
    have : 1 + (76 + d.busyPolls + 5 * f) ≤ f * (82 + d.busyPolls) := by
      have h1 : d.busyPolls ≤ f * d.busyPolls := Nat.le_mul_of_pos_left _ hf1
      calc 1 + (76 + d.busyPolls + 5 * f) ≤ 77 * f + f * d.busyPolls + 5 * f := by omega
        _ = f * (82 + d.busyPolls) := by ring
    rw [Nat.add_mul]; omega
  · obtain ⟨k, y, e, h1, hk, r, g⟩ := run_orchLoop x.wRem.toNat hl hbc hwf hb rfl hsz (by omega) (fun _ => hsrc) hadm
    exact ⟨k, y, e, hk, runs_as hl.ready.calm (z := (withTodo [] x).orchLoop)
      (congrArg Host.Outcome.next (if_neg (fun hc => hfirst (hcond.1 hc)))) rfl h1 r, g⟩

end Sys2Proof.Laws
end

