-- ==== Sys2Proof/Laws/PerInstr.lean ====
section
/-! SUPPORT. A statement per instruction as syntax: the form of its words. -/

namespace Sys2Proof.Laws.WordForm

/-- An instruction has a first word. Its bits 31:8 are 0 exactly for a host command, whose word is all of it
(30_encoding.md R110); a transaction has five operand words after its CCR word (log 6). -/
def Statement (i : Instr) : Prop :=
  ∀ p : Params, ∃ w rest, encode p i = w :: rest ∧ (w.extractLsb' 8 24 = 0 ↔ Instr.code i ≠ 0) ∧
    rest.length = if Instr.code i = 0 then 5 else 0

/-- The words of a transaction have the form. -/
theorem of_tx {i : Instr} (hc : Instr.code i = 0)
    (h : ∀ p, ∃ hd fm a b c d e, hd.imode = .one ∧ encode p i = txWords (packCcr hd fm) a b c d e) : Statement i := by
  intro p
  obtain ⟨hd, fm, a, b, c, d, e, h1, h2⟩ := h p
  exact ⟨_, _, h2, iff_of_false (ccr_high h1) (not_not_intro hc), by rw [if_pos hc]; rfl⟩

theorem init : Statement .init := fun _ => ⟨_, _, rfl, by decide, rfl⟩

theorem programPage : Statement .programPage := fun _ => ⟨_, _, rfl, by decide, rfl⟩

theorem eraseSector : Statement .eraseSector := fun _ => ⟨_, _, rfl, by decide, rfl⟩

theorem eraseChip : Statement .eraseChip := fun _ => ⟨_, _, rfl, by decide, rfl⟩

theorem read : Statement .read := fun _ => ⟨_, _, rfl, by decide, rfl⟩

theorem verify : Statement .verify := fun _ => ⟨_, _, rfl, by decide, rfl⟩

theorem blankCheck : Statement .blankCheck := fun _ => ⟨_, _, rfl, by decide, rfl⟩

theorem mmap : Statement .mmap := fun _ => ⟨_, _, rfl, by decide, rfl⟩

theorem write : Statement .write := fun _ => ⟨_, _, rfl, by decide, rfl⟩

theorem eWrite : Statement .eWrite := fun _ => ⟨_, _, rfl, by decide, rfl⟩

theorem eRead : Statement .eRead := fun _ => ⟨_, _, rfl, by decide, rfl⟩

theorem ePoll : Statement .ePoll := fun _ => ⟨_, _, rfl, by decide, rfl⟩

theorem eMmap : Statement .eMmap := fun _ => ⟨_, _, rfl, by decide, rfl⟩

theorem eAbort : Statement .eAbort := fun _ => ⟨_, _, rfl, by decide, rfl⟩

theorem eDeinit : Statement .eDeinit := fun _ => ⟨_, _, rfl, by decide, rfl⟩

theorem tWren : Statement .tWren := of_tx rfl fun _ => ⟨_, _, _, _, _, _, _, rfl, rfl⟩

theorem tPollWel : Statement .tPollWel := of_tx rfl fun _ => ⟨_, _, _, _, _, _, _, rfl, rfl⟩

theorem tPollWip : Statement .tPollWip := of_tx rfl fun _ => ⟨_, _, _, _, _, _, _, rfl, rfl⟩

theorem tRsten : Statement .tRsten := of_tx rfl fun _ => ⟨_, _, _, _, _, _, _, rfl, rfl⟩

theorem tRst : Statement .tRst := of_tx rfl fun _ => ⟨_, _, _, _, _, _, _, rfl, rfl⟩

theorem tRdcr : Statement .tRdcr := of_tx rfl fun _ => ⟨_, _, _, _, _, _, _, rfl, rfl⟩

theorem tWrvcr : Statement .tWrvcr := of_tx rfl fun _ => ⟨_, _, _, _, _, _, _, rfl, rfl⟩

theorem tSe (addr : Word) : Statement (.tSe addr) :=
  of_tx rfl fun _ => ⟨_, _, _, _, _, _, _, rfl, rfl⟩

theorem tCe : Statement .tCe := of_tx rfl fun _ => ⟨_, _, _, _, _, _, _, rfl, rfl⟩

theorem tQpp (dest n src : Word) : Statement (.tQpp dest n src) :=
  of_tx rfl fun _ => ⟨_, _, _, _, _, _, _, rfl, rfl⟩

theorem tQread (dest n : Word) (buf : BufRef) : Statement (.tQread dest n buf) :=
  of_tx rfl fun _ => by cases buf <;> exact ⟨_, _, _, _, _, _, _, rfl, rfl⟩

theorem tQreadMmap : Statement .tQreadMmap := of_tx rfl fun _ => ⟨_, _, _, _, _, _, _, rfl, rfl⟩

end Sys2Proof.Laws.WordForm
end

