-- ==== Sys2Proof/Laws/Traces.lean ====
section
/-! SUPPORT. How a run's trace grows, and the rule that its remaining steps keep about erase and program entries. -/

namespace Sys2Proof.Laws

open Sys2Proof.Machine

/-- A step that needs an entry in the trace. -/
def filling : Op → Bool
  | .drWrite | .drRead | .writeLoop _ | .readLoop _ => true
  | _ => false

/-- A step that makes an entry. -/
def isEmit : Op → Bool
  | .emit _ => true
  | _ => false

/-- Every step that fills an entry comes after one that makes it. -/
def entryFirst : List Op → Bool
  | [] => true
  | o :: l => isEmit o || (!filling o && entryFirst l)

theorem entryFirst_append {P l : List Op} (h : entryFirst P = true) (hl : entryFirst l = true) : entryFirst (P ++ l) = true := by
  induction P with
  | nil => exact hl
  | cons o P ih =>
    simp only [entryFirst, List.cons_append, Bool.or_eq_true, Bool.and_eq_true] at h ⊢
    exact h.imp id fun h => ⟨h.1, ih h.2⟩

theorem plan_entryFirst (p : Params) {x : Instr} (hx : Instr.code x = 0) : entryFirst (txPlan p x).2 = true := by
  have s : ∀ op h fm n l, entryFirst (setupOps op h fm n ++ l) = true := by
    intro op h fm n l; unfold setupOps; split <;> simp [entryFirst, isEmit, filling]
  rcases plan_cases p hx with ⟨t, h⟩ | ⟨t, h, -⟩ | ⟨d, h⟩ | ⟨d, h⟩ <;> rw [h]
  · simp [writeOps, startOps, s, entryFirst, isEmit, filling]
  · simp [readOps, startOps, s, entryFirst, isEmit, filling]
  · simp [pollOps, startOps, s, entryFirst, isEmit, filling]
  · simp [mapOps, startOps, entryFirst, isEmit, filling]

theorem write_entryFirst (t : Transaction) : entryFirst (writeOps t) = true := by
  unfold writeOps setupOps; split <;> simp [startOps, entryFirst, isEmit, filling]

theorem ops_entryFirst (p : Params) {x : Instr} (hx : Instr.code x = 0) : entryFirst (txOps p x) = true := by
  by_cases hw : x = .tWrvcr
  · subst hw; rfl
  · rw [txOps_other hw]; exact plan_entryFirst p hx

theorem next_entryFirst {p : Params} {o : Op} {l l' : List Op} (h : Next p o l l') (he : entryFirst (o :: l) = true)
    (ho : isEmit o = false) : entryFirst l' = true := by
  simp only [entryFirst, ho, Bool.false_or, Bool.and_eq_true, Bool.not_eq_true'] at he
  cases h with
  | same => exact he.2
  | issue hc => exact entryFirst_append (ops_entryFirst p hc) he.2
  | config => exact entryFirst_append (write_entryFirst _) he.2
  | call => exact entryFirst_append rfl he.2
  | qeSet => unfold quadEnableOps; cases p.initWelPoll <;> cases p.initCfgBusyPoll <;> rfl
  | @compare f q => cases q <;> simpa [compareOps, entryFirst, isEmit, filling] using he.2
  | waitAgain | abortAgain | ack => simpa [entryFirst, isEmit, filling] using he.2
  | writeLoop | readLoop => simp [filling] at he
  | _ => rfl

theorem begins_entryFirst {i : Instr} {s t : State} (h : Begins s i t) : entryFirst t.todo = true := by
  have s : ∀ op h fm n l, entryFirst (setupOps op h fm n ++ l) = true := by
    intro op h fm n l; unfold setupOps; split <;> simp [entryFirst, isEmit, filling]
  cases h with
  | eWrite => exact entryFirst_append (l := [.finish .ok 0]) (by simp [writeOps, startOps, s, entryFirst, isEmit, filling]) rfl
  | eRead => exact entryFirst_append (l := [.finish .ok 0]) (by simp [readOps, startOps, s, entryFirst, isEmit, filling]) rfl
  | ePoll => exact entryFirst_append (l := [.finish .ok 0]) (by simp [pollOps, startOps, s, entryFirst, isEmit, filling]) rfl
  | eMmap => exact entryFirst_append (l := [.finish .ok 0]) (by simp [mapOps, startOps, entryFirst, isEmit, filling]) rfl
  | tx _ hc => rw [entered_todo]; exact entryFirst_append (l := [.finish .ok 0]) (ops_entryFirst _ hc) rfl
  | _ => rfl

theorem appendData_append (b : Byte) (l new : List TraceEntry) (h : new ≠ []) : appendData b (l ++ new) = l ++ appendData b new := by
  induction l with
  | nil => rfl
  | cons e l ih =>
    cases hn : l ++ new with
    | nil => simp at hn; exact absurd hn.2 h
    | cons a m => simp only [List.cons_append]; rw [← ih, hn]; rfl

theorem appendData_ne (b : Byte) {l : List TraceEntry} (h : l ≠ []) : appendData b l ≠ [] := by
  cases l with
  | nil => exact absurd rfl h
  | cons e l => cases l <;> simp [appendData]

/-- How one step moves the trace. -/
inductive TraceStep (o : Op) (s t : State) : Prop where
  | same : t.trace = s.trace → isEmit o = false → TraceStep o s t
  | emit (e : TraceEntry) : o = .emit e → t.trace = s.trace ++ [e] → TraceStep o s t
  | fill {b} : filling o = true → t.trace = appendData b s.trace → TraceStep o s t

theorem trace_step {o : Op} {s t : State} (he : Effect o s t) (h : seqOp o s = .next t) : TraceStep o s t := by
  cases o with
  | emit e => cases h; exact .emit e rfl rfl
  | drWrite => rw [seqOp_drWrite] at h; cases h; exact .fill (b := s.tmpByte) rfl (by simp [State.pushDr]; split <;> rfl)
  | drRead =>
    rw [seqOp_drRead] at h
    cases h
    cases hv : s.env with
    | envelope => exact .fill (b := Config.freeDr s.draws) rfl (by simp [State.popDr, hv])
    | reference d => exact .fill (b := d.popDr.1) rfl (by simp [State.popDr, hv])
  | _ => exact .same (he.trace rfl) rfl

/-- The trace of a run grows, and what a step says of the new part. -/
theorem exec_trace {i : Instr} {s t : State} {Q : List TraceEntry → State → Prop} (hi : s.idle = true) (h : exec i s = .next t)
    (h0 : ∀ u, startInstr i s = .next u → Q [] u)
    (hsame : ∀ (u v : State) o l new, Shape i (s.hostTarget i) u → u.todo = o :: l → may i (s.hostTarget i) o = true →
      u.params = s.params → Effect o (u.takeOp l) v → seqOp o (u.takeOp l) = .next v → isEmit o = false → Q new u → Q new v)
    (hemit : ∀ (u v : State) e l new, u.todo = .emit e :: l → u.params = s.params → seqOp (.emit e) (u.takeOp l) = .next v →
      Q new u → Q (new ++ [e]) v)
    (hfill : ∀ b new v, Q new v → Q (appendData b new) v) :
    ∃ new, t.trace = s.trace ++ new ∧ Q new t := by
  suffices H : t.params = s.params ∧ ∃ new, t.trace = s.trace ++ new ∧ Q new t ∧ (new ≠ [] ∨ entryFirst t.todo = true) by
    obtain ⟨-, new, h1, h2, -⟩ := H; exact ⟨new, h1, h2⟩
  refine exec_keeps (P := fun t => t.params = s.params ∧ ∃ new, t.trace = s.trace ++ new ∧ Q new t ∧
    (new ≠ [] ∨ entryFirst t.todo = true)) hi h ?_ ?_
  · intro u hu
    obtain ⟨b, -, -, -, -, hb⟩ := start_frame hi hu
    refine ⟨b.params, [], by simp [b.trace], h0 u hu, .inr ?_⟩
    rcases hb with ⟨-, hb⟩ | hb
    · rw [hb]; rfl
    · exact begins_entryFirst hb
  · rintro u v o l ⟨hp, new, hn, hq, hf⟩ hs hl hm - hx he ho
    refine ⟨he.params.trans hp, ?_⟩
    rw [hl] at hf
    rcases trace_step he ho with ⟨h1, h2⟩ | ⟨e, rfl, h1⟩ | ⟨h1, h2⟩
    · exact ⟨new, h1.trans hn, hsame u v o l new hs hl hm hp he ho h2 hq, hf.imp id fun hf => next_entryFirst hx hf h2⟩
    · exact ⟨new ++ [e], by rw [h1]; simp [State.takeOp, hn], hemit u v e l new hl hp ho hq, .inl (by simp)⟩
    · have hne : new ≠ [] := by
        refine hf.resolve_right ?_
        cases o <;> simp [filling] at h1 <;> simp [entryFirst, isEmit, filling]
      have hem : isEmit o = false := by cases o <;> simp [filling] at h1 <;> rfl
      refine ⟨appendData _ new, by rw [h2]; simp only [State.takeOp, hn]; exact appendData_append _ _ _ hne,
        hfill _ _ _ (hsame u v o l new hs hl hm hp he ho hem hq), .inl (appendData_ne _ hne)⟩

/-! ### Opcodes -/

/-- What a well-formed parameter set says of the write-enable rule: the latch mask is not 0, and no quiet write has the
opcode of an erase or a program, or of `T_WREN` but `T_WREN` itself. -/
structure Distinct (p : Params) : Prop where
  wel : p.welMask.setWidth 32 ≠ (0 : Word)
  quiet : ∀ o ∈ [p.opc.wren, p.opc.rsten, p.opc.rst, p.opc.wrvcr], (o == p.opc.se || o == p.opc.ce || o == p.opc.qpp) = false
  wren : ∀ o ∈ [p.opc.rsten, p.opc.rst, p.opc.wrvcr, p.opc.se, p.opc.ce, p.opc.qpp], o ≠ p.opc.wren

/-- Distinct opcodes. -/
theorem distinct_nodup {l : List Byte} (h : distinctBytes l = true) : l.Nodup := by
  induction l with
  | nil => exact List.nodup_nil
  | cons b l ih =>
    simp only [distinctBytes, Bool.and_eq_true, Bool.not_eq_true', List.contains_eq_mem, decide_eq_false_iff_not] at h
    exact List.nodup_cons.2 ⟨h.1, ih h.2⟩

theorem distinct_of_wf {p : Params} (h : p.wf = true) : Distinct p := by
  simp only [Params.wf, Bool.and_eq_true] at h
  have hw : p.welMask ≠ 0 := by
    have := h.2.2.2.2.2.2.2.2.1
    simp only [oneBit, Bool.and_eq_true, bne_iff_ne, ne_eq] at this
    exact this.1
  have hn := distinct_nodup h.2.2.2.2.2.2.2.2.2.2.2.2.2.2
  simp only [Opcodes.toList, List.nodup_cons, List.mem_cons, not_or, List.not_mem_nil, not_false_eq_true, and_true] at hn
  obtain ⟨⟨-, w1, h1, h2, h3, -, -, w2, w3⟩, -, ⟨h4, h5, h6, -⟩, ⟨-, -, -, -, g1, g2⟩, ⟨-, -, -, k1, k2⟩, ⟨-, -, m1, m2⟩, -⟩ := hn
  refine ⟨fun h => hw ?_, fun o ho => ?_, fun o ho => ?_⟩
  · have := congrArg BitVec.toNat h
    simp only [BitVec.toNat_setWidth] at this
    exact BitVec.eq_of_toNat_eq (by rw [Nat.mod_eq_of_lt (by omega)] at this; simpa using this)
  · simp only [List.mem_cons, List.not_mem_nil, or_false] at ho
    simp only [Bool.or_eq_false_iff, beq_eq_false_iff_ne, ne_eq]
    rcases ho with rfl | rfl | rfl | rfl
    · exact ⟨⟨h1, h2⟩, h3⟩
    · exact ⟨⟨fun h => g1 h.symm, fun h => k1 h.symm⟩, fun h => m1 h.symm⟩
    · exact ⟨⟨fun h => g2 h.symm, fun h => k2 h.symm⟩, fun h => m2 h.symm⟩
    · exact ⟨⟨h4, h5⟩, h6⟩
  · simp only [List.mem_cons, List.not_mem_nil, or_false] at ho
    rcases ho with rfl | rfl | rfl | rfl | rfl | rfl <;> first
      | exact fun h => w1 h.symm | exact fun h => w2 h.symm | exact fun h => w3 h.symm
      | exact fun h => h1 h.symm | exact fun h => h2 h.symm | exact fun h => h3 h.symm

/-- The entry of an operation says whether it is an erase or a program by its opcode. -/
theorem mutating_write (p : Params) (h : Header) (n : Word) (data : List Byte) :
    (entryOf .eWrite h .indirectWrite n data).mutating p = (h.instr == p.opc.se || h.instr == p.opc.ce || h.instr == p.opc.qpp) := by
  show (true && ((packCcr h .indirectWrite).extractLsb' 0 8 == p.opc.se || (packCcr h .indirectWrite).extractLsb' 0 8 == p.opc.ce ||
    (packCcr h .indirectWrite).extractLsb' 0 8 == p.opc.qpp)) = _
  rw [packCcr_instr, Bool.true_and]

theorem isWren_write {p : Params} {h : Header} (hi : h.instr ≠ p.opc.wren) (n : Word) (data : List Byte) :
    (entryOf .eWrite h .indirectWrite n data).isWren p = false := by
  refine (Bool.true_and _).trans (beq_eq_false_iff_ne.2 fun he => hi ?_)
  have := congrArg (BitVec.extractLsb' 0 8) he
  rwa [show (entryOf .eWrite h .indirectWrite n data).ccr = packCcr h .indirectWrite from rfl, packCcr_instr, packCcr_instr] at this

/-! ### The plan of the remaining steps -/

section Plan

variable (p : Params) (ph : WritePhase) (a k : Word)

theorem plan_emit (e : TraceEntry) (l : List Op) :
    guardPlan p ph a k (.emit e :: l) =
      ((!e.mutating p || ph == .confirmed) && guardPlan p (ph.emit p a k e) a k l) := rfl

/-- An entry of a read or of a mapping starts over. -/
theorem plan_other {e : TraceEntry} (h : e.op = .eRead ∨ e.op = .eMmap) (l : List Op) :
    guardPlan p ph a k (.emit e :: l) = guardPlan p .off a k l := by
  have h1 : e.mutating p = false := by rcases h with h | h <;> simp [TraceEntry.mutating, h]
  have h2 : e.isWren p = false := by rcases h with h | h <;> simp [TraceEntry.isWren, h]
  have h3 : e.isStatusPoll p = false := by rcases h with h | h <;> simp [TraceEntry.isStatusPoll, h]
  rw [plan_emit, h1, WritePhase.emit, if_neg (by simp [h2]), if_neg (by simp [h3])]; rfl

theorem plan_setup (op : EngineOp) (h : Header) (fm : FrameMode) (n : Word) (l : List Op) :
    guardPlan p ph a k (setupOps op h fm n ++ l) = guardPlan p ph a k (.emit (entryOf op h fm n []) :: l) := by
  unfold setupOps entryOf; split <;> rfl

theorem plan_write (t : Transaction) (l : List Op) :
    guardPlan p ph a k (writeOps t ++ l) = guardPlan p ph a k (.emit (entryOf .eWrite t.hdr .indirectWrite t.len []) :: l) := by
  simp only [writeOps, startOps, List.append_assoc, List.cons_append, List.nil_append]
  exact plan_setup ..

theorem plan_read (t : Transaction) (l : List Op) : guardPlan p ph a k (readOps t ++ l) = guardPlan p .off a k l := by
  simp only [readOps, startOps, List.append_assoc, List.cons_append, List.nil_append]
  refine (plan_setup ..).trans ?_
  rw [plan_other _ _ _ _ (.inl rfl)]; rfl

theorem plan_poll (d : PollDescriptor) (l : List Op) :
    guardPlan p ph a k (pollOps d ++ l) =
      guardPlan p (if ph.emit p d.matchVal d.mask (entryOf .ePoll d.hdr .autoPoll (BitVec.ofNat 32 d.sample) []) = .polled
        then .confirmed else ph.emit p d.matchVal d.mask (entryOf .ePoll d.hdr .autoPoll (BitVec.ofNat 32 d.sample) []))
        d.matchVal d.mask l := by
  simp only [pollOps, startOps, List.append_assoc, List.cons_append, List.nil_append]
  exact plan_setup ..

theorem plan_map (d : MemoryMapDescriptor) (l : List Op) : guardPlan p ph a k (mapOps d ++ l) = guardPlan p .off a k l := by
  simp only [mapOps, startOps, List.cons_append, List.nil_append]
  exact plan_other p ph a k (e := mapEntry d) (.inr rfl) _

/-- The entry of a write that is neither an erase nor a program nor a `T_WREN`. -/
theorem plan_quiet {h : Header} (n : Word) (l : List Op) (hm : (h.instr == p.opc.se || h.instr == p.opc.ce || h.instr == p.opc.qpp) = false)
    (hw : h.instr ≠ p.opc.wren) :
    guardPlan p ph a k (.emit (entryOf .eWrite h .indirectWrite n []) :: l) = guardPlan p .off a k l := by
  have e1 : (entryOf .eWrite h .indirectWrite n []).mutating p = false := (mutating_write ..).trans hm
  have e2 : ph.emit p a k (entryOf .eWrite h .indirectWrite n []) = .off := by
    rw [WritePhase.emit, if_neg (by rw [isWren_write hw]; simp), if_neg (by rintro ⟨-, h, -⟩; cases h)]
  show ((!(entryOf .eWrite h .indirectWrite n []).mutating p || _) && guardPlan p (ph.emit p a k _) a k l) = _
  rw [e1, e2]; rfl

/-- The entry of an erase or a program. -/
theorem plan_mutating {h : Header} (n : Word) (l : List Op) (hm : (h.instr == p.opc.se || h.instr == p.opc.ce || h.instr == p.opc.qpp) = true)
    (hw : h.instr ≠ p.opc.wren) :
    guardPlan p ph a k (.emit (entryOf .eWrite h .indirectWrite n []) :: l) = (ph == .confirmed && guardPlan p .off a k l) := by
  have e1 : (entryOf .eWrite h .indirectWrite n []).mutating p = true := (mutating_write ..).trans hm
  have e2 : ph.emit p a k (entryOf .eWrite h .indirectWrite n []) = .off := by
    rw [WritePhase.emit, if_neg (by rw [isWren_write hw]; simp), if_neg (by rintro ⟨-, h, -⟩; cases h)]
  show ((!(entryOf .eWrite h .indirectWrite n []).mutating p || _) && guardPlan p (ph.emit p a k _) a k l) = _
  rw [e1, e2]; rfl

/-- The plan of a transaction's steps is that of its issue. -/
theorem plan_ops {p : Params} (hp : Distinct p) (ph : WritePhase) (a k : Word) {x : Instr} (hx : Instr.code x = 0) (l : List Op) :
    guardPlan p ph a k (txOps p x ++ l) = guardPlan p ph a k (.issue x :: l) := by
  have poll : ∀ (m q : Word), (entryOf .ePoll (statusHeader p) .autoPoll 1 []).isStatusPoll p = true ∧
      (entryOf .ePoll (statusHeader p) .autoPoll 1 []).isWren p = false := fun m q =>
    ⟨(Bool.true_and _).trans (beq_self_eq_true _), rfl⟩
  cases x with
  | tWren =>
    refine (plan_write ..).trans ?_
    have e1 : (entryOf .eWrite (plainHeader p.opc.wren) .indirectWrite 0 []).mutating p = false :=
      (mutating_write ..).trans (hp.quiet _ (by simp [plainHeader]))
    have e2 : ph.emit p a k (entryOf .eWrite (plainHeader p.opc.wren) .indirectWrite 0 []) = .enabled :=
      if_pos ((Bool.true_and _).trans (beq_self_eq_true _))
    show ((!(entryOf .eWrite (plainHeader p.opc.wren) .indirectWrite 0 []).mutating p || _) &&
      guardPlan p (ph.emit p a k (entryOf .eWrite (plainHeader p.opc.wren) .indirectWrite 0 [])) a k l) = _
    rw [e1, e2]; rfl
  | tPollWel =>
    refine (plan_poll ..).trans ?_
    have e : ph.emit p (p.welMask.setWidth 32) (p.welMask.setWidth 32) (entryOf .ePoll (statusHeader p) .autoPoll 1 []) =
        if ph = .enabled then .polled else .off := by
      simp only [WritePhase.emit, (poll 0 0).1, (poll 0 0).2, and_true, Bool.false_eq_true, if_false]
    show guardPlan p (if ph.emit p (p.welMask.setWidth 32) (p.welMask.setWidth 32) (entryOf .ePoll (statusHeader p) .autoPoll 1 []) = _
      then _ else ph.emit p (p.welMask.setWidth 32) (p.welMask.setWidth 32) (entryOf .ePoll (statusHeader p) .autoPoll 1 [])) _ _ l = _
    rw [e]
    cases ph <;> rfl
  | tPollWip =>
    refine (plan_poll ..).trans ?_
    have e : ph.emit p 0 (p.wipMask.setWidth 32) (entryOf .ePoll (statusHeader p) .autoPoll 1 []) = .off := by
      rw [WritePhase.emit, if_neg (by rw [(poll 0 0).2]; simp), if_neg (fun h => hp.wel h.2.2.1.symm)]
    show guardPlan p (if ph.emit p 0 (p.wipMask.setWidth 32) (entryOf .ePoll (statusHeader p) .autoPoll 1 []) = _
      then _ else ph.emit p 0 (p.wipMask.setWidth 32) (entryOf .ePoll (statusHeader p) .autoPoll 1 [])) _ _ l = _
    rw [e]; rfl
  | tQreadMmap => exact plan_map ..
  | tRdcr | tQread => exact plan_read ..
  | tRsten => exact (plan_write ..).trans (plan_quiet _ _ _ _ _ _ (hp.quiet _ (by simp [commandOnly, plainHeader])) (hp.wren _ (by simp [commandOnly, plainHeader])))
  | tRst => exact (plan_write ..).trans (plan_quiet _ _ _ _ _ _ (hp.quiet _ (by simp [commandOnly, plainHeader])) (hp.wren _ (by simp [commandOnly, plainHeader])))
  | tWrvcr => rfl
  | tSe => exact (plan_write ..).trans (plan_mutating _ _ _ _ _ _ (by simp [commandOnly, sectorEraseHeader, plainHeader]) (hp.wren _ (by simp [commandOnly, sectorEraseHeader, plainHeader])))
  | tCe => exact (plan_write ..).trans (plan_mutating _ _ _ _ _ _ (by simp [commandOnly, plainHeader]) (hp.wren _ (by simp [commandOnly, plainHeader])))
  | tQpp => exact (plan_write ..).trans (plan_mutating _ _ _ _ _ _ (by simp [quadProgram, quadProgramHeader, plainHeader]) (hp.wren _ (by simp [quadProgram, quadProgramHeader, plainHeader])))
  | _ => exact absurd hx (by decide)

theorem plan_config {p : Params} (hp : Distinct p) (ph : WritePhase) (a k : Word) (l : List Op) :
    guardPlan p ph a k (writeOps (configWrite p) ++ l) = guardPlan p .off a k l :=
  (plan_write ..).trans (plan_quiet _ _ _ _ _ _ (hp.quiet _ (by simp [configWrite, plainHeader])) (hp.wren _ (by simp [configWrite, plainHeader])))

end Plan

/-- A mutating command's steps keep the rule from any phase on. -/
theorem plan_mutate (p : Params) (ph : WritePhase) (a k : Word) {x : Instr} (hx : mutates x = true) (l : List Op) :
    guardPlan p ph a k (mutateOps x ++ l) = guardPlan p .off 0 (p.wipMask.setWidth 32) l := by
  cases x with
  | tSe | tCe | tQpp => rfl
  | _ => cases hx

/-! ### The phase after a step -/

/-- The phase after the sequencer step `o` of `s`. -/
def phaseOf (s : State) (ph : WritePhase) : Op → WritePhase
  | .emit e => ph.emit s.params s.regs.psmar s.regs.psmkr e
  | .wait .statusMatch _ =>
    if ph = .polled ∧ sampleError s.readSr.1 = none ∧ srSmf s.readSr.1 = true then .confirmed else ph
  | _ => ph

theorem after_eq {s : State} {o : Op} {l : List Op} (hl : s.todo = o :: l) (hd : hostDue s = false) (ph : WritePhase) :
    ph.after s = phaseOf s ph o := by
  rw [WritePhase.after, if_neg (by simp [hd]), hl]
  cases o with
  | wait c k => cases c <;> rfl
  | _ => rfl

theorem plan_done {p : Params} {ph : WritePhase} {a k : Word} {l : List Op} (h : l = []) : guardPlan p ph a k l = true := by
  subst h; rfl

/-- Every step keeps the plan of the remaining ones. -/
theorem plan_step {s t : State} {o : Op} {l : List Op} {ph : WritePhase} (hp : Distinct s.params)
    (hx : ∀ x, o = .issue x → Instr.code x = 0 ∧ (s.takeOp l).fault = none ∧ (s.takeOp l).fsm ≠ .idle)
    (ho : seqOp o (s.takeOp l) = .next t) (hg : guardPlan s.params ph s.regs.psmar s.regs.psmkr (o :: l) = true) :
    guardPlan t.params (phaseOf s ph o) t.regs.psmar t.regs.psmkr t.todo = true := by
  have hn : Next s.params o l t.todo := next_of_seqOp (s := s.takeOp l) hx ho
  have he := effect_of_seqOp hx ho
  have hpar : t.params = s.params := he.params
  have ha : (∀ v, o ≠ .writeReg .psmar v) → t.regs.psmar = s.regs.psmar := fun h => he.reg .psmar h
  have hk : (∀ v, o ≠ .writeReg .psmkr v) → t.regs.psmkr = s.regs.psmkr := fun h => he.reg .psmkr h
  rw [hpar]
  cases o with
  | wait c n =>
    rw [ha (by simp), hk (by simp)]
    have hv : (s.takeOp l).readSr.1 = s.readSr.1 := by cases hs : s.env <;> simp [State.readSr, State.takeOp, hs]
    rw [seqOp, waitSample_eq, Host.Outcome.next.injEq] at ho
    subst ho
    simp only [State.onWait, hv]
    cases hse : sampleError s.readSr.1 with
    | some st => rfl
    | none =>
      simp only
      cases hc : c.holds s.readSr.1 with
      | true =>
        simp only [if_true]
        rw [readSr_todo]
        cases c with
        | statusMatch =>
          have hsm : srSmf s.readSr.1 = true := hc
          simp only [phaseOf, hse, hsm, and_true]
          exact hg
        | _ => exact hg
      | false =>
        simp only [Bool.false_eq_true, if_false, State.sampleAgain]
        split
        · rfl
        · have hph : phaseOf s ph (.wait c n) = ph := by
            cases c with
            | statusMatch =>
              have hsm : srSmf s.readSr.1 = false := hc
              simp [phaseOf, hsm]
            | _ => rfl
          rw [hph, readSr_todo]
          cases c <;> exact hg
  | emit e =>
    cases ho
    rw [plan_emit, Bool.and_eq_true] at hg
    exact hg.2
  | writeReg w v =>
    have h1 : t.todo = l := by generalize t.todo = l' at hn; cases hn; rfl
    rw [h1]
    rw [seqOp_writeReg] at ho
    cases ho
    cases w <;> (simp only [writeReg_regs, Regs.write]; exact hg)
  | issue x =>
    rw [ha (by simp), hk (by simp)]
    generalize t.todo = l' at hn ⊢
    cases hn with
    | same h => cases h
    | faultIssue => rfl
    | issue hc =>
      rw [plan_ops hp _ _ _ hc]; exact hg
  | configWrite =>
    rw [ha (by simp), hk (by simp)]
    generalize t.todo = l' at hn ⊢
    cases hn with
    | same h => cases h
    | faultConfig => rfl
    | config => rw [plan_config hp]; exact hg
  | callPage =>
    rw [ha (by simp), hk (by simp)]
    generalize t.todo = l' at hn ⊢
    cases hn with
    | same h => cases h
    | faultCall => rfl
    | call => rw [plan_mutate _ _ _ _ rfl]; exact hg
  | qeCheck =>
    generalize t.todo = l' at hn ⊢
    cases hn with
    | same h => cases h
    | qeDone => rfl
    | qeSet => unfold quadEnableOps; cases s.params.initWelPoll <;> cases s.params.initCfgBusyPoll <;> rfl
  | compareLoop f q =>
    rw [ha (by simp), hk (by simp)]
    generalize t.todo = l' at hn ⊢
    cases hn with
    | same => exact hg
    | compare => cases q <;> exact hg
  | _ =>
    rw [ha (by simp), hk (by simp)]
    generalize t.todo = l' at hn ⊢
    cases hn <;> first | rfl | exact hg | (rename_i h; cases h)

/-- The rule holds where a command of the FSM begins. -/
theorem begins_plan {i : Instr} {s t : State} (hi : fsmCommand i = true) (h : Begins s i t) :
    guardPlan s.params .off t.regs.psmar t.regs.psmkr t.todo = true := by
  cases h with
  | init => rfl
  | programPage => exact plan_mutate _ _ _ _ rfl _
  | eraseSector => exact plan_mutate _ _ _ _ rfl _
  | eraseChip => exact plan_mutate _ _ _ _ rfl _
  | read | mmap | verify | blankCheck | write => rfl
  | tx _ hc => exfalso; cases i <;> simp [fsmCommand] at hi <;> simp [Instr.code] at hc
  | _ => cases hi

/-! ### What the phase says of the trace -/

theorem appendData_snoc (b : Byte) (l : List TraceEntry) (e : TraceEntry) :
    appendData b (l ++ [e]) = l ++ [{ e with data := e.data ++ [b] }] := appendData_append b l [e] (by simp)

theorem shows_fill {p : Params} {tr : List TraceEntry} {ph : WritePhase} (b : Byte) (h : ph.shows p tr) :
    ph.shows p (appendData b tr) := by
  cases ph with
  | off => trivial
  | enabled =>
    obtain ⟨l, w, rfl, hw⟩ := h
    exact ⟨l, _, appendData_snoc .., hw⟩
  | polled | confirmed =>
    obtain ⟨l, w, q, rfl, hw, hq⟩ := h
    exact ⟨l, w, { q with data := q.data ++ [b] }, by rw [List.append_cons, appendData_snoc]; simp, hw, hq⟩

theorem shows_emit {p : Params} {tr : List TraceEntry} {ph : WritePhase} (a k : Word) (e : TraceEntry) (h : ph.shows p tr) :
    (ph.emit p a k e).shows p (tr ++ [e]) := by
  unfold WritePhase.emit
  split
  · rename_i hw; exact ⟨tr, e, rfl, hw⟩
  · split
    · rename_i hc
      obtain ⟨rfl, hq, -⟩ := hc
      obtain ⟨l, w, rfl, hw⟩ := h
      exact ⟨l, w, e, by simp, hw, hq⟩
    · trivial

theorem shows_phase {p : Params} {tr : List TraceEntry} {ph : WritePhase} {s : State} {o : Op} (ho : isEmit o = false)
    (h : ph.shows p tr) : (phaseOf s ph o).shows p tr := by
  cases o with
  | emit e => cases ho
  | wait c k =>
    cases c with
    | statusMatch =>
      simp only [phaseOf]
      split
      · rename_i hc; obtain ⟨rfl, -⟩ := hc; exact h
      · exact h
    | _ => exact h
  | _ => exact h

/-- One step keeps the write-enable invariant. -/
theorem guarded_step {s t : State} {o : Op} {l : List Op} {ph : WritePhase} (hp : Distinct s.params)
    (hx : ∀ x, o = .issue x → Instr.code x = 0 ∧ (s.takeOp l).fault = none ∧ (s.takeOp l).fsm ≠ .idle)
    (hl : s.todo = o :: l) (ho : seqOp o (s.takeOp l) = .next t) (hg : s.Guarded ph) : t.Guarded (phaseOf s ph o) := by
  have he := effect_of_seqOp hx ho
  have hpar : t.params = s.params := he.params
  refine ⟨?_, plan_step hp hx ho (by rw [← hl]; exact hg.plan)⟩
  rw [hpar]
  rcases trace_step he ho with ⟨h1, h2⟩ | ⟨e, rfl, h1⟩ | ⟨h1, h2⟩
  · rw [h1]; exact shows_phase h2 hg.shows
  · rw [h1]; exact shows_emit _ _ e hg.shows
  · rw [h2]; exact shows_fill _ (shows_phase (by cases o <;> simp [filling] at h1 <;> rfl) hg.shows)

/-! ### The whole trace -/

/-- The last two entries of a list that comes after `a` and `b`, the last first. -/
def lastTwo : Option TraceEntry → Option TraceEntry → List TraceEntry → Option TraceEntry × Option TraceEntry
  | b, a, [] => (b, a)
  | b, _, e :: l => lastTwo (some e) b l

theorem lastTwo_snoc (b a : Option TraceEntry) (l : List TraceEntry) (e : TraceEntry) :
    lastTwo b a (l ++ [e]) = (some e, (lastTwo b a l).1) := by
  induction l generalizing b a with
  | nil => rfl
  | cons x l ih => simp only [List.cons_append, lastTwo, ih]

theorem guardedFrom_snoc (p : Params) (b a : Option TraceEntry) (l : List TraceEntry) (e : TraceEntry) :
    guardedFrom p b a (l ++ [e]) = (guardedFrom p b a l && (!e.mutating p ||
      ((lastTwo b a l).1.any (TraceEntry.isStatusPoll p) && (lastTwo b a l).2.any (TraceEntry.isWren p)))) := by
  induction l generalizing b a with
  | nil => simp [guardedFrom, lastTwo]
  | cons x l ih => simp only [List.cons_append, guardedFrom, lastTwo, ih, Bool.and_assoc]

theorem guarded_emit {p : Params} {l : List TraceEntry} {ph : WritePhase} {e : TraceEntry} (h : guardedTrace p l = true)
    (hs : ph.shows p l) (hm : e.mutating p = true → ph = .confirmed) : guardedTrace p (l ++ [e]) = true := by
  rw [guardedTrace, guardedFrom_snoc, Bool.and_eq_true]
  refine ⟨h, ?_⟩
  cases hme : e.mutating p with
  | false => rfl
  | true =>
    rw [hm hme] at hs
    obtain ⟨l, w, q, rfl, hw, hq⟩ := hs
    rw [List.append_cons, lastTwo_snoc, lastTwo_snoc]
    simp [hw, hq]

theorem guarded_fill {p : Params} {l : List TraceEntry} (b : Byte) (h : guardedTrace p l = true) :
    guardedTrace p (appendData b l) = true := by
  rcases List.eq_nil_or_concat l with rfl | ⟨l, e, rfl⟩
  · rfl
  · rw [List.concat_eq_append] at h ⊢
    rw [appendData_snoc, guardedTrace, guardedFrom_snoc]
    rwa [guardedTrace, guardedFrom_snoc] at h

end Sys2Proof.Laws
end

