-- ==== Sys2Proof/Tests/Slice0.lean ====
section
/-! SUPPORT. The model's own tests: ill-formed terms that are refused, words written out from the spec's encodings, small
vectors of 95_test_vectors.md, and for every statement with hypotheses a state that meets them. -/

namespace Sys2Proof.Tests

open Sys2Proof Sys2Proof.Machine Sys2Proof.Laws

set_option Elab.async false

/-! ### Helpers -/

/-- The outcome is a next state, and `f` holds of it. -/
def after (o : Out) (f : State → Bool) : Bool :=
  match o with
  | .next t => f t
  | .fault _ | .refused _ => false

theorem of_after {o : Out} {f : State → Bool} (h : after o f = true) : ∃ t, o = .next t ∧ f t = true := by
  cases o with
  | next t => exact ⟨t, rfl, h⟩
  | fault r => cases h
  | refused r => cases h

/-- A machine under TC0 as 95_test_vectors.md section 1 launches it, on a device, with bytes of host memory and argument
registers, whose one step goes to the command's end. -/
def machine (d : RefDev) (mem : List Host.Cell) (args : List Word) : State :=
  { State.reset with
    burst := 400
    env := .reference d
    hostMem := mem
    port := { Port.reset with
      arg0 := args[0]?, arg1 := args[1]?, arg2 := args[2]?, arg3 := args[3]?, arg4 := args[4]?, arg5 := args[5]? } }

/-- The device of a machine. -/
def dev (s : State) : RefDev :=
  match s.env with
  | .reference d => d
  | .envelope => RefDev.reset

/-- A fresh chip, and one with the write-enable latch set. -/
def chip : RefDev := RefDev.reset
def latched : RefDev := { RefDev.reset with fsr := 0x02 }

/-- Host buffers of 95_test_vectors.md. -/
def H : Word := 0x24000000
def H2 : Word := 0x24000200

/-- The command ended with a status code and a count. -/
def ended (s : State) (st : Status) (n : Word) : Bool := s.port.resst == some st && s.port.rescnt == some n

/-- The block faulted with a reason. -/
def faultedWith (s : State) (f : FaultReason) : Bool := s.fault == some f && s.hstat.getLsbD 2

/-- The CCR words of the trace. -/
def ccrs (s : State) : List Word := s.trace.map (·.ccr)

theorem canRun_of {s : State} {d : RefDev} {n : Nat}
    (h : (s.usable && s.memoryWf && decide (s.env = .reference d) && d.ready && decide (n ≤ s.burst)) = true) :
    s.CanRun d n := by
  simp only [Bool.and_eq_true, decide_eq_true_eq] at h
  exact ⟨h.1.1.1.1, h.1.1.1.2, h.1.1.2, h.1.2, h.2⟩

/-! ### Ill-formed terms (WellFormed.lean, Parameters.lean), a term for each check -/

theorem test_wf_se : (Instr.tSe 0x7FFFFF).wf Config.tc0 = true ∧ (Instr.tSe 0x800000).wf Config.tc0 = false := by decide

theorem test_wf_qpp_size : (Instr.tQpp 0 0 H).wf Config.tc0 = false ∧ (Instr.tQpp 0 0x100 H).wf Config.tc0 = true ∧
    (Instr.tQpp 0 0x101 H).wf Config.tc0 = false := by decide

theorem test_wf_qpp_range : (Instr.tQpp 0x7FFFFF 1 H).wf Config.tc0 = true ∧
    (Instr.tQpp 0x7FFFFF 2 H).wf Config.tc0 = false := by decide

theorem test_wf_qpp_page : (Instr.tQpp 0x1FE 2 H).wf Config.tc0 = true ∧
    (Instr.tQpp 0x1FF 2 H).wf Config.tc0 = false := by decide

theorem test_wf_qpp_host : (Instr.tQpp 0 0x10 0xFFFFFFF0).wf Config.tc0 = true ∧
    (Instr.tQpp 0 0x10 0xFFFFFFF1).wf Config.tc0 = false := by decide

theorem test_wf_qread_host : (Instr.tQread 0 0 (.host H)).wf Config.tc0 = false ∧
    (Instr.tQread 0x7FFFF0 0x11 (.host H)).wf Config.tc0 = false ∧
    (Instr.tQread 0x7FFFF0 0x10 (.host 0xFFFFFFF1)).wf Config.tc0 = false ∧
    (Instr.tQread 0x7FFFF0 0x10 (.host 0xFFFFFFF0)).wf Config.tc0 = true := by decide

theorem test_wf_qread_stg : (Instr.tQread 0 0 .stg).wf Config.tc0 = false ∧
    (Instr.tQread 0x7FFFF0 0x11 .stg).wf Config.tc0 = false ∧ (Instr.tQread 0 0x101 .stg).wf Config.tc0 = false ∧
    (Instr.tQread 0 0x100 .stg).wf Config.tc0 = true ∧ (Instr.tQread 0 1 .cfgbuf).wf Config.tc0 = false := by decide

/-- 00_scope.md R9, an ill-formed set for each check; the second is X1 of 95_test_vectors.md. -/
theorem test_wf_geometry : Config.tc0.wf = true ∧ { Config.tc0 with sector := 0x10080 }.wf = false ∧
    { Config.tc0 with page := 0 }.wf = false ∧ { Config.tc0 with size := 0x810001 }.wf = false ∧
    { Config.tc0 with size := 0 }.wf = false ∧ { Config.tc0 with sector := 0 }.wf = false ∧
    { Config.tc0 with size := 2 ^ 32, addrBits := .bits32 }.wf = false ∧ { Config.tc0 with addrBits := .bits16 }.wf = false := by
  decide

theorem test_wf_masks : { Config.tc0 with welMask := 0 }.wf = false ∧ { Config.tc0 with wipMask := 3 }.wf = false ∧
    { Config.tc0 with qeMask := 0x81 }.wf = false ∧ { Config.tc0 with welMask := 1 }.wf = false := by decide

theorem test_wf_others : { Config.tc0 with readDummy := 32 }.wf = false ∧ { Config.tc0 with waitBudget := some 0 }.wf = false ∧
    { Config.tc0 with waitBudget := some 1 }.wf = true ∧ { Config.tc0 with maxClock := 0 }.wf = false ∧
    { Config.tc0 with opc := { Config.tc0Opcodes with rst := 0x06 } }.wf = false := by decide

/-! ### Decoding: the words of opcode_table.json (30_encoding.md R111, R115), written out bit by bit -/

/-- R111: the codes 0x01 to 0x09 and 0x10 to 0x15. -/
theorem test_decode_commands :
    [0x01, 0x02, 0x03, 0x04, 0x05, 0x06, 0x07, 0x08, 0x09, 0x10, 0x11, 0x12, 0x13, 0x14, 0x15].map (decodeTableWord 32) =
      [some .init, some .programPage, some .eraseSector, some .eraseChip, some .read, some .verify, some .blankCheck,
        some .mmap, some .write, some .eWrite, some .eRead, some .ePoll, some .eMmap, some .eAbort, some .eDeinit] := by
  decide

/-- V-ENC1: opcode, IMODE 01, and the phases of each row. -/
theorem test_decode_transactions :
    [0b00000000000000000000000100000110, 0b00001001000000000000000100000101, 0b00000000000000000000000101100110,
      0b00000000000000000000000110011001, 0b00000101000000000000000100110101, 0b00000001000000000000000100110001,
      0b00000000000000000000000111000111, 0b00001111000100001110110111101011].map (decodeTableWord 32) =
      [some .tWren, some .tPollWip, some .tRsten, some .tRst, some .tRdcr, some .tWrvcr, some .tCe, some .tQreadMmap] := by
  decide

/-- V-ENC1, with the operand words zero: one byte, address 0. -/
theorem test_decode_operands :
    decodeTableWord 32 0b00000000000000000010010111011000 = some (.tSe 0) ∧
    decodeTableWord 32 0b00000011000000000010010100110010 = some (.tQpp 0 1 0) ∧
    decodeTableWord 32 0b00000111000100001110110111101011 = some (.tQread 0 1 (.host 0)) := by decide

/-- The latch poll's image has the latch mask in its PSMAR word (41_flash_transactions.md R161, log 6). -/
theorem test_decode_poll_wel : decodeTableWord 128 (0x09000105 + 2 * 2 ^ 96) = some .tPollWel := by decide

/-- V-ENC3: 0x0A is no code, bits 31:8 must be 0; and words of no transaction. -/
theorem test_decode_refused : decodeCmdr 0x0A = none ∧ decodeCmdr 0x0F = none ∧ decodeCmdr 0x16 = none ∧ decodeCmdr 0 = none ∧
    decodeCmdr 0x101 = none ∧ decodeTableWord 32 0x00000107 = none ∧ decodeTableWord 32 0x00800106 = none := by decide

/-- Refusals have names. -/
theorem test_decode_names :
    decode Config.tc0 [] = .error .empty ∧ decode Config.tc0 [0x0A] = .error .illegalCommand ∧
    decode Config.tc0 [0x106, 0] = .error .missingOperands ∧
    decode Config.tc0 [0x107, 0, 0, 0, 0, 0] = .error .unknownCcr ∧
    decode Config.tc0 [0x09000105, 0, 0, 3, 0, 0] = .error .badPollMatch ∧
    decode Config.tc0 [0x03002532, 0, 0, 0, 1, 0] = .error .badBuffer ∧
    decode Config.tc0 [0x0710EDEB, 0, 0, 0, 2, 0] = .error .badBuffer := ⟨rfl, rfl, rfl, rfl, rfl, rfl, rfl⟩

/-- V-ENC4: the raw operands. -/
theorem test_hdr_poll : (decodeHdr 0x01000105 0 0).map (fun h => (h, packCcr h .autoPoll)) =
    some (statusHeader Config.tc0, 0x09000105) := by decide

theorem test_pcfg : (decodePcfg 0x000F0010 (plainHeader 0x05) 0 0).map
    (fun d => (d.interval, d.pmm, d.apms, d.sample)) = some (0x10, true, true, 4) := by decide

theorem test_mcfg : (decodeMcfg 0x00010020 (plainHeader 0xEB)).map (fun d => (d.period, d.tcen)) = some (0x20, true) ∧
    decodeMcfg 0x00020000 (plainHeader 0xEB) = none := by decide

/-! ### Vectors, one step each -/

/-- V-FO1: seven transactions, 16 samples, the quad-enable bit set, `CR = 0x01400001`. -/
theorem test_init : after (exec .init (machine chip [] [])) (fun t =>
    ccrs t == [0x166, 0x199, 0x09000105, 0x05000135, 0x106, 0x09000105, 0x01000131] && (dev t).ns == 16 &&
    (dev t).fcfg == 0x02 && (dev t).fsr == 0 && ended t .ok 0 && t.regs.cr == 0x01400001) = true := by decide +kernel

/-- V-FO2. -/
theorem test_init_quad : after (exec .init (machine { chip with fcfg := 0x02, fcfgReset := 0x02 } [] [])) (fun t =>
    ccrs t == [0x166, 0x199, 0x09000105, 0x05000135] && ended t .ok 0) = true := by decide +kernel

/-- P1's page program: 14 samples with two busy polls, the trace, the bytes. -/
theorem test_program_page : after (exec .programPage (machine { chip with busyPolls := 2 }
      [(0x24000000, 0x11), (0x24000001, 0x22), (0x24000002, 0x33), (0x24000003, 0x44)] [0x10000, 4, H])) (fun t =>
    ccrs t == [0x106, 0x09000105, 0x03002532, 0x09000105] && (dev t).ns == 14 &&
    (dev t).arrayBytes 0x10000 5 == [0x11, 0x22, 0x33, 0x44, 0xFF] && ended t .ok 0) = true := by decide +kernel

/-- V-FO13: `PROGRAM_PAGE 0x1FF, 2, H` faults, and nothing is emitted. -/
theorem test_program_page_cross : after (exec .programPage (machine chip [] [0x1FF, 2, H])) (fun t =>
    faultedWith t .pageCross && t.hstat == 4 && t.trace.isEmpty && t.port.resst.isNone) = true := by decide +kernel

/-- V-FO7: the sector of 0x1FFFF is erased, its neighbours are not. -/
theorem test_erase_sector : after (exec .eraseSector (machine
      { chip with array := [(0xFFFF, 1), (0x10000, 2), (0x1FFFF, 3), (0x20000, 4)] } [] [0x1FFFF])) (fun t =>
    ccrs t == [0x106, 0x09000105, 0x25D8, 0x09000105] && (dev t).array == [(0xFFFF, 1), (0x20000, 4)] &&
    t.trace.map (·.ar) == [some 0, some 0, some 0x1FFFF, some 0] && ended t .ok 0) = true := by decide +kernel

/-- V-FO13: an offset past the array. -/
theorem test_erase_sector_range : after (exec .eraseSector (machine chip [] [0x800000])) (fun t =>
    faultedWith t .range) = true := by decide +kernel

/-- V-FO8: the busy poll takes six samples with five busy polls. -/
theorem test_erase_chip : after (exec .eraseChip (machine { chip with busyPolls := 5, array := [(0, 0), (0x7FFFFF, 1)] } [] []))
    (fun t => ccrs t == [0x106, 0x09000105, 0x1C7, 0x09000105] && (dev t).ns == 4 + 2 + 1 + 6 && (dev t).array.isEmpty) = true := by
  decide +kernel

/-- V-FO9: the last bytes of the array; `DLR = 0x0F`. -/
theorem test_read : after (exec .read (machine { chip with array := [(0x7FFFF0, 1), (0x7FFFFF, 2)] } [] [0x7FFFF0, 0x10, H]))
    (fun t => t.trace.map (fun e => (e.ccr, e.ar, e.abr, e.dlr)) == [(0x0710EDEB, some 0x7FFFF0, 0xFF, some 0x0F)] &&
      t.memByte 0x24000000 == 1 && t.memByte 0x24000001 == 0xFF && t.memByte 0x2400000F == 2 && t.memByte 0x24000010 == 0) = true := by
  decide +kernel

/-- V-FO13. -/
theorem test_read_size : after (exec .read (machine chip [] [0, 0, H])) (fun t => faultedWith t .size) = true := by decide +kernel

/-- V-FO11: they differ at 0xF only. -/
theorem test_verify_mismatch : after (exec .verify (machine { chip with array := [(0xF, 1)] }
      ((List.range 16).map fun i => (0x24000000 + i, 0xFF)) [0, 0x10, H])) (fun t => ended t .verifyMismatch 0xF) = true := by
  decide +kernel

/-- V-FO11: size 0, and equal bytes. -/
theorem test_verify_equal : after (exec .verify (machine chip [] [0, 0, H])) (fun t => ended t .ok 0 && t.trace.isEmpty) &&
    after (exec .verify (machine chip [(0x24000000, 0xFF), (0x24000001, 0xFF)] [0x80, 2, H])) (fun t =>
      ended t .ok 2 && t.trace.map (fun e => (e.ar, e.dlr)) == [(some 0x80, some 1)]) = true := by decide +kernel

/-- V-FO12: erased bytes against 0x00. -/
theorem test_blank_check : after (exec .blankCheck (machine chip [] [0, 0x10, 0x00])) (fun t => ended t .verifyMismatch 0) &&
    after (exec .blankCheck (machine chip [] [0, 4, 0xFF])) (fun t => ended t .ok 0) = true := by decide +kernel

/-- V-FO12: a pattern past 8 bits. -/
theorem test_blank_check_pattern : after (exec .blankCheck (machine chip [] [0, 0x10, 0x1FF])) (fun t =>
    faultedWith t .illegalCommand) = true := by decide +kernel

/-- V-FO14. -/
theorem test_mmap : after (exec .mmap (machine chip [] [])) (fun t =>
    t.hstat == 2 && ended t .ok 0 && ccrs t == [0x0F10EDEB] && t.regs.lptr == 0 && t.regs.abr == 0xFF &&
    t.regs.cr == 0x01000001) = true := by decide +kernel

/-- V-FO13: `MMAP` twice. -/
theorem test_mmap_twice : after (exec .mmap { machine chip [] [] with mmapActive := true }) (fun t =>
    faultedWith t .mmapActive && t.hstat == 6) = true := by decide +kernel

/-- Section 8, `WRITE 0x0FF, 3`: a page's last byte, then the rest. -/
theorem test_write : after (exec .write (machine chip [(0x24000000, 1), (0x24000001, 2), (0x24000002, 3)] [0xFF, 3, H]))
    (fun t => (t.trace.filter (·.ccr == 0x03002532)).map (fun e => (e.ar, e.dlr)) == [(some 0xFF, some 0), (some 0x100, some 1)] &&
      t.trace.length == 8 && (dev t).arrayBytes 0xFF 3 == [1, 2, 3] && ended t .ok 0) = true := by decide +kernel

/-- Section 8 under `literal`: `WRITE 0x0F0, 0x020` faults. -/
theorem test_write_literal : after (exec .write { machine chip [] [0xF0, 0x20, H] with
      params := { Config.tc0 with orchRule := .literal } }) (fun t =>
    faultedWith t .pageCross && t.trace.isEmpty) = true := by decide +kernel

/-- V-ENG2, as the raw command. -/
theorem test_e_write : after (exec .eWrite (machine latched [(0x24000000, 0xA5), (0x24000001, 0x5A)]
      [0x03002532, 0x100, 0, 2, H])) (fun t =>
    (dev t).arrayBytes 0x100 2 == [0xA5, 0x5A] && (dev t).fsr == 0 && (dev t).ns == 4 && t.regs.fcr == 2 && ended t .ok 0) = true := by
  decide +kernel

/-- V-ENC4, V-ENG15: a set reserved bit, a length without data; before the enable is looked at. -/
theorem test_e_write_bad : ([[0x00800106, 0, 0, 0, H], [0x08000106, 0, 0, 0, H], [0x00000106, 0, 0, 2, H],
      [0x000025D8, 0x1000000, 0, 0, H]].all fun args =>
    after (exec .eWrite { machine chip [] args with regs := { Regs.reset with cr := 0x01000000 } }) (fun t =>
      faultedWith t .badDescriptor)) = true := by decide +kernel

/-- V-ENG4, as the raw command. -/
theorem test_e_read : after (exec .eRead (machine
      { chip with array := [(0x10000, 0x11), (0x10001, 0x22), (0x10002, 0x33), (0x10003, 0x44)] } []
      [0x0310EDEB, 0x10000, 0xFF, 4, H2])) (fun t =>
    t.memBytes 0x24000200 4 == [0x11, 0x22, 0x33, 0x44] && (dev t).ns == 6 && ended t .ok 0) = true := by decide +kernel

/-- V-ERR5: an error between two bytes; the first two are stored, and the count is 0. -/
theorem test_e_read_error : after (exec .eRead (machine
      { chip with array := [(0x10000, 0x11), (0x10001, 0x22), (0x10002, 0x33)], inject := [⟨4, true, false⟩] } []
      [0x0310EDEB, 0x10000, 0xFF, 4, H2])) (fun t =>
    t.memBytes 0x24000200 4 == [0x11, 0x22, 0, 0] && ended t .hardwareError 0 && t.regs.fcr == 1 && !(dev t).tef &&
    (dev t).tcf) = true := by decide +kernel

/-- V-ENG8: OR mode. -/
theorem test_e_poll : after (exec .ePoll (machine latched [] [0x01000105, 0, 0, 0x00030010, 0x03, 0x03])) (fun t =>
    ended t .ok 0 && (dev t).ns == 2 && t.regs.cr == 0x01C00001 && t.regs.pir == 0x10) = true := by decide +kernel

/-- V-ENG7: a poll that never matches, with a budget of three. -/
theorem test_e_poll_exhausted : after (exec .ePoll { machine chip [] [0x01000105, 0, 0, 0x00020010, 0x02, 0x02] with
      params := { Config.tc0 with waitBudget := some 3 } }) (fun t =>
    ended t .exhausted 0 && (dev t).ns == 4 && t.regs.sr == 0x20 && t.hstat == 0) = true := by decide +kernel

/-- V-ENC4: the entry as an `E_MMAP`; ARG1 is not read. -/
theorem test_e_mmap : after (exec .eMmap { machine chip [] [] with
      port := { Port.reset with arg0 := some 0x0310EDEB, arg2 := some 0xFF, arg3 := some 0 } }) (fun t =>
    ccrs t == [0x0F10EDEB] && t.hstat == 2 && ended t .ok 0) = true := by decide +kernel

/-- V-ENG12: nothing in progress; two samples. -/
theorem test_e_abort : after (exec .eAbort (machine chip [] [])) (fun t =>
    (dev t).ns == 2 && t.regs.fcr == 2 && t.regs.cr == 0x01000001 && ended t .ok 0) = true := by decide +kernel

/-- V-ERR6: TEF in the abort wait. -/
theorem test_e_abort_error : after (exec .eAbort { machine { chip with inject := [⟨1, true, false⟩] } [] [] with
      mmapActive := true }) (fun t =>
    ended t .hardwareError 0 && t.regs.fcr == 1 && !t.mmapActive && (dev t).tcf) = true := by decide +kernel

/-- V-ENG14. -/
theorem test_e_deinit : after (exec .eDeinit { machine chip [] [] with mmapActive := true }) (fun t =>
    t.regs.cr == 0x01000000 && t.hstat == 0 && ended t .ok 0) = true := by decide +kernel

/-- V-FT1, V-ENG1; and V-FT17, a busy chip. -/
theorem test_t_wren : after (exec .tWren (machine chip [] [])) (fun t =>
      (dev t).fsr == 2 && (dev t).ns == 2 && t.regs.fcr == 2 && t.trace.map (·.dlr) == [none]) &&
    after (exec .tWren (machine { chip with bc := 3 } [] [])) (fun t => (dev t).fsr == 0) = true := by decide +kernel

/-- V-FT2, V-ENG5. -/
theorem test_t_poll_wel : after (exec .tPollWel (machine latched [] [])) (fun t =>
    t.regs.psmar == 2 && t.regs.psmkr == 2 && t.regs.pir == 0x10 && t.regs.cr == 0x01400001 && t.regs.dlr == 0 &&
    t.regs.ccr == 0x09000105 && ended t .ok 0) = true := by decide +kernel

/-- V-ENG6: two busy polls, three evaluations. -/
theorem test_t_poll_wip : after (exec .tPollWip (machine { chip with bc := 2 } [] [])) (fun t =>
    t.regs.psmar == 0 && t.regs.psmkr == 1 && (dev t).ns == 4 && (dev t).bc == 0) = true := by decide +kernel

/-- V-FT4. -/
theorem test_t_rsten : after (exec .tRsten (machine chip [] [])) (fun t => (dev t).rsten && ccrs t == [0x166]) = true := by
  decide +kernel

/-- V-FT5 and V-FT6. -/
theorem test_t_rst : after (exec .tRst (machine { latched with rsten := true, fcfg := 2 } [] [])) (fun t =>
      (dev t).fsr == 0 && (dev t).fcfg == 0 && !(dev t).rsten) &&
    after (exec .tRst (machine latched [] [])) (fun t => (dev t).fsr == 2) = true := by decide +kernel

/-- V-FT5b: a busy chip ignores the reset. -/
theorem test_t_rst_busy : after (exec .tRst (machine { latched with rsten := true, bc := 7 } [] [])) (fun t =>
    (dev t).fsr == 2 && (dev t).bc == 7) = true := by decide +kernel

/-- V-FT7; and R166: TEF in the end-of-transfer wait, after the byte was taken, leaves CFGBUF as it was. -/
theorem test_t_rdcr : after (exec .tRdcr (machine { chip with fcfg := 0x40 } [] [])) (fun t => t.cfgbuf == 0x40) &&
    after (exec .tRdcr { machine { chip with fcfg := 0x40, inject := [⟨3, true, false⟩] } [] [] with cfgbuf := 0x15 }) (fun t =>
      ended t .hardwareError 0 && t.cfgbuf == 0x15) = true := by
  decide +kernel

/-- V-FT8: bit 6 is kept; and V-FT9, no latch. -/
theorem test_t_wrvcr : after (exec .tWrvcr { machine latched [] [] with cfgbuf := 0x40 }) (fun t =>
      (dev t).fcfg == 0x42 && (dev t).fsr == 0 && t.regs.dr == 0x42) &&
    after (exec .tWrvcr (machine chip [] [])) (fun t => (dev t).fcfg == 0 && t.regs.dr == 0x02) = true := by decide +kernel

/-- V-FT10 and V-FT11. -/
theorem test_t_se : after (exec (.tSe 0x12345) (machine { latched with array := [(0x10000, 1)], busyPolls := 3 } [] [])) (fun t =>
      (dev t).array.isEmpty && (dev t).fsr == 0 && (dev t).bc == 3 && t.regs.ar == 0x12345) &&
    after (exec (.tSe 0x12345) (machine { chip with array := [(0x10000, 1)] } [] [])) (fun t =>
      (dev t).array == [(0x10000, 1)]) = true := by decide +kernel

/-- V-FT12. -/
theorem test_t_ce : after (exec .tCe (machine { latched with array := [(0, 1), (0x7FFFFF, 2)] } [] [])) (fun t =>
    (dev t).array.isEmpty && ccrs t == [0x1C7]) = true := by decide +kernel

/-- V-FT14: the AND. -/
theorem test_t_qpp : after (exec (.tQpp 0x100 1 H) (machine { latched with array := [(0x100, 0xA5)] } [(0x24000000, 0x0F)] []))
    (fun t => (dev t).arrayByte 0x100 == 0x05 && t.regs.dlr == 0) = true := by decide +kernel

/-- V-FT15, and the same into the staging buffer. -/
theorem test_t_qread : after (exec (.tQread 0x100 2 (.host H2)) (machine { chip with array := [(0x100, 0xA5), (0x101, 0x5A)] } [] []))
      (fun t => t.memBytes 0x24000200 2 == [0xA5, 0x5A] && t.regs.dlr == 1 && t.regs.ccr == 0x0710EDEB) &&
    after (exec (.tQread 0x100 2 .stg) (machine { chip with array := [(0x100, 0xA5), (0x101, 0x5A)] } [] []))
      (fun t => t.stg == [(0, 0xA5), (1, 0x5A)]) = true := by decide +kernel

/-- V-FT16. -/
theorem test_t_qread_mmap : after (exec .tQreadMmap (machine chip [] [])) (fun t =>
    t.mmapActive && t.regs.ccr == 0x0F10EDEB && (dev t).cur == .mapped) = true := by decide +kernel

/-- V-ERR1, V-ERR2: an error in the idle wait, and in the end-of-transfer wait, which leaves TCF. -/
theorem test_wait_errors : after (exec .tWren (machine { chip with inject := [⟨1, true, false⟩] } [] [])) (fun t =>
      ended t .hardwareError 0 && t.trace.isEmpty && t.regs.fcr == 1) &&
    after (exec .tWren (machine { chip with inject := [⟨2, false, true⟩] } [] [])) (fun t =>
      ended t .timeoutError 0 && t.regs.fcr == 0x10 && (dev t).tcf) = true := by decide +kernel

/-- V-ENG10: a mapped window; `LOAD32 0` is a load at 0x90000000 (P4). An address below the window is outside it (log 22). -/
theorem test_window : after (hostAction (.windowLoad 0x90000000 4) { machine { chip with
      array := [(0, 0xDE), (1, 0xAD), (2, 0xBE), (3, 0xEF)], cur := .mapped } [] [] with mmapActive := true }) (fun t =>
    t.hostData == some 0xEFBEADDE) &&
    after (hostAction (.windowLoad 0x907FFFFE 4) { machine { chip with cur := .mapped } [] [] with mmapActive := true }) (fun t =>
      faultedWith t .windowAccess) &&
    after (hostAction (.windowLoad 0x8FFFFFFF 4) { machine { chip with cur := .mapped } [] [] with mmapActive := true }) (fun t =>
      faultedWith t .windowAccess) = true := by decide +kernel

/-- V-P1: at launch; a read of RESST faults. -/
theorem test_port_launch : after (step { State.reset with hostIn := [⟨none, .portRead 0x24⟩] }) (fun t => t.hostData == some 0) &&
    after (step { State.reset with hostIn := [⟨none, .portRead 0x1C⟩] }) (fun t => faultedWith t .unwritten) &&
    after (step { State.reset with hostIn := [⟨none, .portWrite 0 0x02⟩] }) (fun t => faultedWith t .unwritten) = true := by
  decide +kernel

/-- V-P4, V-P5. -/
theorem test_port_faults : after (hostAction (.portRead 0x28) (machine chip [] [])) (fun t => faultedWith t .illegalCommand) &&
    after (hostAction (.portWrite 0x1C 0) (machine chip [] [])) (fun t => faultedWith t .illegalCommand) &&
    after (hostAction (.portWrite 0 0x0A) { machine chip [] [] with fsm := .reading }) (fun t => faultedWith t .reentry) = true := by
  decide +kernel

/-- P3's first command: the failed latch poll emits no mutating transaction. -/
theorem test_latch_poll_fails : after (exec .programPage (machine { chip with fcfg := 2, inject := [⟨4, true, false⟩] }
      [(0x24000000, 0x5A)] [0, 1, H])) (fun t =>
    ccrs t == [0x106, 0x09000105] && ended t .hardwareError 0 && (dev t).array.isEmpty && (dev t).smf) = true := by decide +kernel

/-- The instruction of a table word is the first one after reset. -/
theorem test_first_step : after (step (State.reset.withFetchWord 32 0x08)) (fun t => t.current == some .mmap) &&
    after (step (State.reset.withFetchWord 32 0x01000131)) (fun t => t.current == some .tWrvcr && t.fsm == .engineCommand) = true := by
  decide +kernel

/-! ### Witnesses: for every statement with hypotheses, what meets them all -/

/-- Evaluates a closed instance of the premises of a completed command. -/
theorem witness_can_run (d : RefDev) (n : Nat) (args : List Word)
    (h : (decide (n ≤ 400) && cellsWf arrayDefault d.array && d.array.all (fun c => decide (c.1 < 0x800000)) && d.ready) = true) :
    (machine d [] args).CanRun d n := by
  simp only [Bool.and_eq_true, decide_eq_true_eq] at h
  obtain ⟨⟨⟨h1, h2⟩, h3⟩, h4⟩ := h
  refine ⟨(show (machine d [] args).usable = (machine chip [] []).usable from rfl).trans (by decide), ?_, rfl, h4, h1⟩
  show (true && _) = true
  rw [Bool.true_and]
  show (_ && _) = true
  rw [h2, Bool.true_and]
  exact h3

theorem witness_InitSetsQuadEnable : (machine chip [] []).CanRun chip 180 ∧ chip.bc = 0 ∧
    chip.fcfgReset &&& (machine chip [] []).params.qeMask = 0 := ⟨witness_can_run _ _ _ rfl, rfl, rfl⟩

theorem witness_InitSkipsQuadEnable : ∃ d : RefDev, (machine d [] []).CanRun d 180 ∧ d.bc = 0 ∧
    d.fcfgReset &&& (machine d [] []).params.qeMask ≠ 0 :=
  ⟨{ chip with fcfgReset := 0x02 }, witness_can_run _ _ _ rfl, rfl, by decide⟩

/-- The last byte of a page, and two busy polls. -/
theorem witness_ProgramPageCompletes : ∃ (s : State) (d : RefDev) (dest n src : Word),
    s.CanRun d (80 + d.busyPolls + 5 * n.toNat) ∧ d.bc = 0 ∧ budgetAllows s.params d.busyPolls = true ∧
    s.port.arg0 = some dest ∧ s.port.arg1 = some n ∧ s.port.arg2 = some src ∧ 1 ≤ n.toNat ∧ n.toNat ≤ s.params.page ∧
    dest.toNat + n.toNat ≤ s.params.size ∧ dest.toNat % s.params.page + n.toNat ≤ s.params.page ∧
    src.toNat + n.toNat ≤ 2 ^ 32 ∧ s.admitsAll src.toNat n.toNat = true :=
  ⟨machine { chip with busyPolls := 2 } [] [0x7FFFFF, 1, 0xFFFFFFFF], { chip with busyPolls := 2 }, 0x7FFFFF, 1, 0xFFFFFFFF,
    witness_can_run _ _ _ rfl, rfl, rfl, rfl, rfl, rfl, by decide, by decide, by decide, by decide, by decide, by decide⟩

/-- The last offset of the array. -/
theorem witness_EraseSectorCompletes : ∃ (s : State) (d : RefDev) (addr : Word), s.CanRun d (80 + d.busyPolls) ∧ d.bc = 0 ∧
    budgetAllows s.params d.busyPolls = true ∧ s.port.arg0 = some addr ∧ addr.toNat < s.params.size :=
  ⟨machine chip [] [0x7FFFFF], chip, 0x7FFFFF, witness_can_run _ _ _ rfl, rfl, rfl, rfl, by decide⟩

theorem witness_EraseChipCompletes : ∃ (s : State) (d : RefDev), s.CanRun d (80 + d.busyPolls) ∧ d.bc = 0 ∧
    budgetAllows s.params d.busyPolls = true :=
  ⟨machine { chip with busyPolls := 5 } [] [], { chip with busyPolls := 5 }, witness_can_run _ _ _ rfl, rfl, rfl⟩

/-- The last byte of the array into the last byte of host memory. -/
theorem witness_ReadCompletes : ∃ (s : State) (d : RefDev) (dest n buf : Word), s.CanRun d (20 + 5 * n.toNat) ∧ d.bc = 0 ∧
    s.port.arg0 = some dest ∧ s.port.arg1 = some n ∧ s.port.arg2 = some buf ∧ 1 ≤ n.toNat ∧
    dest.toNat + n.toNat ≤ s.params.size ∧ buf.toNat + n.toNat ≤ 2 ^ 32 ∧ s.admitsAll buf.toNat n.toNat = true :=
  ⟨machine chip [] [0x7FFFFF, 1, 0xFFFFFFFF], chip, 0x7FFFFF, 1, 0xFFFFFFFF, witness_can_run _ _ _ rfl, rfl, rfl, rfl, rfl,
    by decide, by decide, by decide, by decide⟩

/-- The premises of a verify, for size 0 and at the end of the array. -/
theorem witness_VerifyCompletes : ∀ n ∈ [(0 : Word), 1, 2], ∃ (s : State) (d : RefDev) (dest src : Word),
    s.CanRun d (6 + 30 * n.toNat) ∧ d.bc = 0 ∧ s.port.arg0 = some dest ∧ s.port.arg1 = some n ∧ s.port.arg2 = some src ∧
    dest.toNat < s.params.size ∧ dest.toNat + n.toNat ≤ s.params.size ∧ src.toNat + n.toNat ≤ 2 ^ 32 ∧
    s.admitsAll src.toNat n.toNat = true := by
  intro n hn
  simp only [List.mem_cons, List.not_mem_nil, or_false] at hn
  rcases hn with rfl | rfl | rfl <;>
    exact ⟨machine chip [] [0x7FFFFE, _, H], chip, 0x7FFFFE, H, witness_can_run _ _ _ rfl, rfl, rfl, rfl, rfl, by decide,
      by decide, by decide, by decide⟩

/-- Both clauses of a verify: bytes that all match, and a first difference at the last index. -/
theorem witness_VerifyClauses :
    (∀ i, i < 2 → chip.arrayByte (0x7FFFFE + i) =
      (machine chip [(0x24000000, 0xFF), (0x24000001, 0xFF)] []).memByte (0x24000000 + i)) ∧
    (∀ i, i < 1 → chip.arrayByte (0x7FFFFE + i) = (machine chip [(0x24000000, 0xFF)] []).memByte (0x24000000 + i)) ∧
    chip.arrayByte (0x7FFFFE + 1) ≠ (machine chip [(0x24000000, 0xFF)] []).memByte (0x24000000 + 1) := by decide

theorem witness_BlankCheckCompletes : ∀ n ∈ [(0 : Word), 2], ∃ (s : State) (d : RefDev) (dest pattern : Word),
    s.CanRun d (6 + 30 * n.toNat) ∧ d.bc = 0 ∧ s.port.arg0 = some dest ∧ s.port.arg1 = some n ∧
    s.port.arg2 = some pattern ∧ pattern.toNat < 256 ∧ dest.toNat < s.params.size ∧
    dest.toNat + n.toNat ≤ s.params.size := by
  intro n hn
  simp only [List.mem_cons, List.not_mem_nil, or_false] at hn
  rcases hn with rfl | rfl <;>
    exact ⟨machine chip [] [0x7FFFFE, _, 0xFF], chip, 0x7FFFFE, 0xFF, witness_can_run _ _ _ rfl, rfl, rfl, rfl, rfl,
      by decide, by decide, by decide⟩

/-- Both clauses of a blank check's trace: bytes that are all the pattern, and a first difference at the last index. -/
theorem witness_BlankClauses : (∀ i, i < 2 → chip.arrayByte (0x7FFFFE + i) = (0xFF : Word).setWidth 8) ∧
    (∀ i, i < 1 → ({ chip with array := [(0x7FFFFF, 0)] } : RefDev).arrayByte (0x7FFFFE + i) = (0xFF : Word).setWidth 8) ∧
    ({ chip with array := [(0x7FFFFF, 0)] } : RefDev).arrayByte (0x7FFFFE + 1) ≠ (0xFF : Word).setWidth 8 := by decide

theorem witness_MmapCompletes : (machine chip [] []).CanRun chip 20 := witness_can_run _ _ _ rfl

/-- A range across a page boundary, and the empty one. -/
theorem witness_WriteCompletes : ∀ n ∈ [(0 : Word), 2], ∃ (s : State) (d : RefDev) (dest src : Word),
    s.CanRun d (4 + n.toNat * (82 + d.busyPolls)) ∧ d.bc = 0 ∧ budgetAllows s.params d.busyPolls = true ∧
    (s.params.orchRule = .boundarySafe ∨ dest.toNat % s.params.page + n.toNat ≤ s.params.page ∨ s.params.page < n.toNat) ∧
    s.port.arg0 = some dest ∧ s.port.arg1 = some n ∧ s.port.arg2 = some src ∧
    dest.toNat < s.params.size ∧ dest.toNat + n.toNat ≤ s.params.size ∧ src.toNat + n.toNat ≤ 2 ^ 32 ∧
    s.admitsAll src.toNat n.toNat = true := by
  intro n hn
  simp only [List.mem_cons, List.not_mem_nil, or_false] at hn
  rcases hn with rfl | rfl <;>
    exact ⟨machine chip [] [0xFF, _, H], chip, 0xFF, H, witness_can_run _ _ _ rfl, rfl, rfl, .inl rfl, rfl, rfl, rfl,
      by decide, by decide, by decide, by decide⟩

/-- Under `literal`: a range that ends with its page, and one of a page and a byte from inside a page. -/
theorem witness_WriteLiteral : ∀ q ∈ [((0xF0 : Word), (0x10 : Word)), (0xF0, 0x101)], ∃ (s : State) (d : RefDev) (src : Word),
    s.CanRun d (4 + q.2.toNat * (82 + d.busyPolls)) ∧ d.bc = 0 ∧ budgetAllows s.params d.busyPolls = true ∧
    s.params.orchRule = .literal ∧ (q.1.toNat % s.params.page + q.2.toNat ≤ s.params.page ∨ s.params.page < q.2.toNat) ∧
    s.port.arg0 = some q.1 ∧ s.port.arg1 = some q.2 ∧ s.port.arg2 = some src ∧ q.1.toNat < s.params.size ∧
    q.1.toNat + q.2.toNat ≤ s.params.size ∧ src.toNat + q.2.toNat ≤ 2 ^ 32 ∧ s.admitsAll src.toNat q.2.toNat = true := by
  intro q hq
  simp only [List.mem_cons, List.not_mem_nil, or_false] at hq
  rcases hq with rfl | rfl <;>
    exact ⟨{ machine chip [] [0xF0, _, H] with params := { Config.tc0 with orchRule := .literal }, burst := 30000 }, chip, H,
      canRun_of (by decide +kernel), rfl, by decide, rfl, by decide, rfl, rfl, rfl, by decide, by decide, by decide,
      by decide +kernel⟩

/-- A configuration write of one byte, and a command without data. -/
theorem witness_RawWriteCompletes : ∀ p ∈ [((0x01000131 : Word), (1 : Word)), (0x00000106, 0)],
    ∃ (s : State) (d : RefDev) (addr alt buf : Word) (h : Header), s.CanRun d (20 + 5 * p.2.toNat) ∧
    s.port.arg0 = some p.1 ∧ s.port.arg1 = some addr ∧ s.port.arg2 = some alt ∧ s.port.arg3 = some p.2 ∧
    s.port.arg4 = some buf ∧ decodeHdr p.1 addr alt = some h ∧
    descriptorOk (.transfer { hdr := h, len := p.2, buf := .host buf }) = true ∧
    s.admitsAll buf.toNat p.2.toNat = true := by
  intro p hp
  simp only [List.mem_cons, List.not_mem_nil, or_false] at hp
  rcases hp with rfl | rfl
  · exact ⟨machine chip [] [0x01000131, 0, 0, 1, H], chip, 0, 0, H, { plainHeader 0x31 with dmode := .one },
      witness_can_run _ _ _ rfl, rfl, rfl, rfl, rfl, rfl, by decide, by decide, by decide⟩
  · exact ⟨machine chip [] [0x00000106, 0, 0, 0, H], chip, 0, 0, H, plainHeader 0x06, witness_can_run _ _ _ rfl,
      rfl, rfl, rfl, rfl, rfl, by decide, by decide, by decide⟩

theorem witness_RawReadCompletes : ∃ (s : State) (d : RefDev) (hdr addr alt n buf : Word) (h : Header),
    s.CanRun d (20 + 5 * n.toNat) ∧ s.port.arg0 = some hdr ∧ s.port.arg1 = some addr ∧ s.port.arg2 = some alt ∧
    s.port.arg3 = some n ∧ s.port.arg4 = some buf ∧ decodeHdr hdr addr alt = some h ∧
    descriptorOk (.transfer { hdr := h, len := n, buf := .host buf }) = true ∧ s.admitsAll buf.toNat n.toNat = true :=
  ⟨machine chip [] [0x0310EDEB, 0x10000, 0xFF, 4, H], chip, 0x0310EDEB, 0x10000, 0xFF, 4, H,
    quadReadHeader Config.tc0 0x10000, witness_can_run _ _ _ rfl, rfl, rfl, rfl, rfl, rfl, by decide, by decide, by decide⟩

/-- A busy poll that matches at its second evaluation. -/
theorem witness_RawPollCompletes : ∃ (s : State) (d : RefDev) (hdr addr alt pcfg m k : Word) (h : Header)
    (pd : PollDescriptor) (j : Nat),
    s.CanRun d (24 + j) ∧ s.port.arg0 = some hdr ∧ s.port.arg1 = some addr ∧ s.port.arg2 = some alt ∧
    s.port.arg3 = some pcfg ∧ s.port.arg4 = some m ∧ s.port.arg5 = some k ∧ decodeHdr hdr addr alt = some h ∧
    decodePcfg pcfg h m k = some pd ∧ descriptorOk (.poll pd) = true ∧
    (∀ i, i < j → pollMatches { s.regs with psmar := m, psmkr := k } pd.pmm pd.sample
      (RefDev.status s.params { d with bc := d.bc - i }) = false) ∧
    pollMatches { s.regs with psmar := m, psmkr := k } pd.pmm pd.sample
      (RefDev.status s.params { d with bc := d.bc - j }) = true ∧
    budgetAllows s.params j = true :=
  ⟨machine { chip with bc := 1 } [] [0x01000105, 0, 0, 0x00020010, 0, 1], { chip with bc := 1 }, 0x01000105, 0, 0, 0x00020010,
    0, 1, statusHeader Config.tc0, statusPoll Config.tc0 0 1, 1, witness_can_run _ _ _ rfl, rfl, rfl, rfl, rfl, rfl, rfl,
    by decide, by decide, by decide, by decide, by decide, rfl⟩

theorem witness_RawMmapCompletes : ∃ (s : State) (d : RefDev) (hdr alt mcfg : Word) (h : Header) (m : MemoryMapDescriptor),
    s.CanRun d 20 ∧ s.port.arg0 = some hdr ∧ s.port.arg2 = some alt ∧ s.port.arg3 = some mcfg ∧
    decodeHdr hdr 0 alt = some h ∧ decodeMcfg mcfg h = some m ∧ descriptorOk (.map m) = true :=
  ⟨machine chip [] [0x0310EDEB, 0, 0xFF, 0], chip, 0x0310EDEB, 0xFF, 0, quadReadHeader Config.tc0 0, quadReadMap Config.tc0,
    witness_can_run _ _ _ rfl, rfl, rfl, rfl, by decide, by decide, by decide⟩

/-- A poll left running, a mapped device, a stale flag and a queue that was not emptied. -/
theorem witness_AbortCompletes : ∀ d ∈ [{ chip with cur := .poll false false 1 }, { chip with cur := .mapped },
      { chip with cur := .read [1, 2], tcf := true, smf := true }],
    let s := { machine d [] [] with mmapActive := d.cur == Cur.mapped }
    s.params.wf = true ∧ s.idle = true ∧ crEn s.regs.cr = true ∧ s.hostWaits = true ∧ s.env = .reference d ∧
    d.quiet = true ∧ d.tef = false ∧ d.tof = false ∧ budgetAllows s.params 1 = true ∧ 9 ≤ s.burst := by
  intro d hd
  simp only [List.mem_cons, List.not_mem_nil, or_false] at hd
  rcases hd with rfl | rfl | rfl <;> exact ⟨rfl, rfl, rfl, rfl, rfl, rfl, rfl, rfl, rfl, by decide⟩

theorem witness_DeinitCompletes : ∃ s : State, s.params.wf = true ∧ s.idle = true ∧ s.hostWaits = true ∧ 4 ≤ s.burst ∧
    s.env = .envelope ∧ s.mmapActive = true :=
  ⟨{ machine chip [] [] with env := .envelope, mmapActive := true }, rfl, rfl, rfl, by decide, rfl, rfl⟩

/-- With the reset-enable latch set, and clear. -/
theorem witness_LatchTransactionsComplete : ∀ r : Bool,
    (machine { chip with rsten := r } [] []).CanRun { chip with rsten := r } 20 ∧ ({ chip with rsten := r } : RefDev).bc = 0 := by
  intro r; cases r <;> exact ⟨witness_can_run _ _ _ rfl, rfl⟩

theorem witness_PollTransactionsComplete : ∃ d : RefDev, (machine d [] []).CanRun d (20 + d.bc) ∧
    budgetAllows (machine d [] []).params d.bc = true ∧ d.latched (machine d [] []).params = true ∧ d.bc = 2 :=
  ⟨{ latched with bc := 2 }, witness_can_run _ _ _ rfl, rfl, by decide, rfl⟩

theorem witness_ConfigReadCompletes : (machine chip [] []).CanRun chip 24 ∧ chip.bc = 0 := ⟨witness_can_run _ _ _ rfl, rfl⟩

/-- A `T_RDCR` that has ended with an error: in the last wait, after the byte was taken, and at a guard. -/
theorem witness_ConfigReadFails : (∃ s t : State, s.idle = true ∧ exec .tRdcr s = .next t ∧ t.todo = [] ∧
      t.port.resst = some .hardwareError ∧ t.regs.dr = 0x40) ∧
    ∃ s t : State, s.idle = true ∧ exec .tRdcr s = .next t ∧ t.todo = [] ∧ t.fault ≠ none := by
  have h1 : after (exec .tRdcr (machine { chip with fcfg := 0x40, inject := [⟨3, true, false⟩] } [] [])) (fun t =>
      t.todo.isEmpty && t.port.resst == some .hardwareError && t.regs.dr == 0x40) = true := by decide +kernel
  have h2 : after (exec .tRdcr { machine chip [] [] with mmapActive := true }) (fun t =>
      t.todo.isEmpty && t.fault == some .mmapActive) = true := by decide +kernel
  obtain ⟨t, ht, h⟩ := of_after h1
  obtain ⟨u, hu, g⟩ := of_after h2
  simp only [Bool.and_eq_true, beq_iff_eq, List.isEmpty_iff] at h g
  exact ⟨⟨_, t, rfl, ht, h.1.1, h.1.2, h.2⟩, _, u, rfl, hu, g.1, by rw [g.2]; intro h; cases h⟩

/-- With the latch set, and clear. -/
theorem witness_ConfigWriteCompletes : ∀ d ∈ [chip, latched], (machine d [] []).CanRun d 24 ∧ d.bc = 0 ∧
    d.latched Config.tc0 = decide (d = latched) := by
  intro d hd
  simp only [List.mem_cons, List.not_mem_nil, or_false] at hd
  rcases hd with rfl | rfl <;> exact ⟨witness_can_run _ _ _ rfl, rfl, by decide⟩

theorem witness_EraseTransactionsComplete : ∀ d ∈ [chip, latched], (machine d [] []).CanRun d 20 ∧ d.bc = 0 ∧
    (Instr.tSe 0x7FFFFF).wf (machine d [] []).params = true ∧ d.latched Config.tc0 = decide (d = latched) := by
  intro d hd
  simp only [List.mem_cons, List.not_mem_nil, or_false] at hd
  rcases hd with rfl | rfl <;> exact ⟨witness_can_run _ _ _ rfl, rfl, by decide, by decide⟩

theorem witness_PageProgramTransactionCompletes : ∀ d ∈ [chip, latched], (machine d [] []).CanRun d (20 + 5 * 2) ∧ d.bc = 0 ∧
    (Instr.tQpp 0x1FE 2 H).wf (machine d [] []).params = true ∧ (machine d [] []).admitsAll H.toNat 2 = true ∧
    d.latched Config.tc0 = decide (d = latched) := by
  intro d hd
  simp only [List.mem_cons, List.not_mem_nil, or_false] at hd
  rcases hd with rfl | rfl <;> exact ⟨witness_can_run _ _ _ rfl, rfl, by decide, by decide, by decide⟩

theorem witness_QuadReadTransactionCompletes : (machine chip [] []).CanRun chip (20 + 5 * 2) ∧ chip.bc = 0 ∧
    (Instr.tQread 0x7FFFFE 2 (.host 0xFFFFFFFE)).wf (machine chip [] []).params = true ∧
    (machine chip [] []).admitsAll 0xFFFFFFFE 2 = true ∧
    (Instr.tQread 0x7FFFFE 2 .stg).wf (machine chip [] []).params = true :=
  ⟨witness_can_run _ _ _ rfl, rfl, by decide, by decide, by decide⟩

theorem witness_MapTransactionCompletes : (machine chip [] []).CanRun chip 20 := witness_can_run _ _ _ rfl

theorem witness_EncodeDecode : Config.tc0.wf = true ∧ (Instr.tQpp 0x1FE 2 H).wf Config.tc0 = true ∧
    (Instr.tQread 0 0x100 .stg).wf Config.tc0 = true ∧ Instr.tPollWel.wf Config.tc0 = true ∧
    Instr.eDeinit.wf Config.tc0 = true := by decide

theorem witness_RawOperandWords : (decodeHdr 0x01000105 0 0).isSome = true ∧ decodeHdr 0x00800106 0 0 = none ∧
    decodeHdr 0x20000106 0 0 = none ∧ decodeHdr 0x04000106 0 0 = none ∧ decodeHdr 0x08000106 0 0 = none ∧
    (1 ≤ ({ statusPoll Config.tc0 0 1 with sample := 4 } : PollDescriptor).sample ∧
      ({ statusPoll Config.tc0 0 1 with sample := 4 } : PollDescriptor).sample ≤ 4) := by decide

/-- The codes next to the table's, and a pattern of 256. -/
theorem witness_IllegalCommandWords : (machine chip [] [0, 0, 0x100]).idle = true ∧ decodeCmdr 0x0A = none ∧
    (machine chip [] [0, 0, 0x100]).port.arg2 = some 0x100 ∧ 256 ≤ (0x100 : Word).toNat := by decide

/-- A flash range at the end of the array, and an address below it. -/
theorem witness_DescriptorChecks : Config.tc0.wf = true ∧ (0x7FFFFF : Word).toNat < Config.tc0.size ∧
    inFlash Config.tc0 0x7FFFF0 0x10 ∧ (0x10 : Word) ≠ 0 := by decide

theorem witness_StepRunsCommand : ∃ (s : State) (w : Word) (l : List HostEvent) (i : Instr), s.params.wf = true ∧ s.idle = true ∧
    s.hostIn = { after := none, act := .portWrite 0 w } :: l ∧ decode s.params [w] = .ok (i, []) ∧
    decodeTableWord 32 0x08 = some i ∧ Instr.code i ≠ 0 :=
  ⟨{ machine chip [] [] with hostIn := [⟨none, .portWrite 0 0x08⟩] }, 0x08, [], .mmap, rfl, rfl, rfl, rfl, by decide, by decide⟩

theorem witness_StepRunsTransaction : ∃ (s u : State) (i : Instr) (o : Op) (l : List Op),
    s.params.wf = true ∧ s.fault = none ∧ hostDue s = false ∧ s.todo = .issue i :: l ∧
    u.params.wf = true ∧ u.fault = none ∧ hostDue u = false ∧ u.todo = o :: l ∧ (∀ i, o ≠ .issue i) ∧
    decodeTableWord 32 0x106 = some i ∧ Instr.code i = 0 :=
  ⟨{ machine chip [] [] with fsm := .resetIssued, todo := [.issue .tWren] },
    { machine chip [] [] with fsm := .resetIssued, todo := [.readCr] }, .tWren, .readCr, [],
    rfl, rfl, rfl, rfl, rfl, rfl, rfl, rfl, (fun _ h => by cases h), by decide, rfl⟩

theorem witness_BurstIsSteps : ∃ s t : State, s.params.wf = true ∧ s.burst = 7 ∧ seqStep s = some t :=
  ⟨{ State.reset with burst := 7, fsm := .engineCommand, todo := [.finish .ok 0] },
    { State.reset with burst := 7, port := { Port.reset with resst := some .ok, rescnt := some 0 } }, rfl, rfl, rfl⟩

/-- A step that is stuck (a byte of host memory that the launch memory does not admit), and an instruction that starts, and
one that has no step, with no burst. -/
theorem witness_BurstStuck : (∃ s : State, s.params.wf = true ∧ seqTurn s = true ∧ seqStep s = none) ∧
    (∃ (i : Instr) (s t : State), exec i { s with burst := 0 } = .next t ∧ s.burst = 7) ∧
    ∃ (i : Instr) (s : State) (f : Fault), exec i { s with burst := 0 } = .fault f :=
  ⟨⟨{ State.reset with fsm := .comparing, admitted := [], todo := [.compareHost] }, rfl, rfl, rfl⟩,
    ⟨.eDeinit, { State.reset with burst := 7 }, _, rfl, rfl⟩,
    ⟨.eDeinit, { State.reset with fault := some .size, fsm := .faulted }, .blockFaulted, rfl⟩⟩

theorem witness_IllFormedRefused : ({ State.reset with params := { Config.tc0 with page := 0 } } : State).params.wf = false := by
  decide

/-- Port offsets next to the ones that exist. -/
theorem witness_ResetLaunch : (0x1C : Word) ∈ [(0x04 : Word), 0x08, 0x0C, 0x10, 0x14, 0x18, 0x1C, 0x20] := by decide

theorem witness_StepKeepsInvariant : ∃ s t : State, s.Inv ∧ step s = .next t :=
  ⟨State.reset, State.reset, ⟨rfl, rfl, rfl, rfl, fun _ => ⟨rfl, rfl⟩, rfl, ⟨rfl, rfl⟩, rfl, rfl, .inl rfl⟩, rfl⟩

theorem witness_FaultedBlock : ∃ s t : State, s.Inv ∧ s.fault ≠ none ∧ s.fsm = .faulted ∧ step s = .next t :=
  ⟨{ State.reset with fault := some .size, fsm := .faulted, hostIn := [⟨none, .portRead 0x24⟩] },
    { State.reset with fault := some .size, fsm := .faulted, hostData := some 4 },
    ⟨rfl, rfl, rfl, rfl, (fun h => by cases h), rfl, ⟨rfl, rfl⟩, rfl, rfl, .inl rfl⟩, (fun h => by cases h), rfl, rfl⟩

theorem witness_HstatAndReentry : ∃ s : State, s.fault = none ∧ s.fsm ≠ .idle ∧ s.fsm ≠ .faulted ∧
    (0x18 : Word) ∈ [(0x00 : Word), 0x04, 0x08, 0x0C, 0x10, 0x14, 0x18] :=
  ⟨{ State.reset with fsm := .resetIssued }, rfl, (fun h => by cases h), (fun h => by cases h), by decide⟩

/-- Offsets that are not registers, and a read-only one for the write. -/
theorem witness_PortRegisters : State.reset.idle = true ∧ State.reset.fault = none ∧
    (0x1C : Word) ∉ [(0x00 : Word), 0x04, 0x08, 0x0C, 0x10, 0x14, 0x18] ∧
    (0x28 : Word) ∉ [(0x00 : Word), 0x04, 0x08, 0x0C, 0x10, 0x14, 0x18, 0x1C, 0x20, 0x24] ∧
    (0x02 : Word) ∉ [(0x00 : Word), 0x04, 0x08, 0x0C, 0x10, 0x14, 0x18, 0x1C, 0x20, 0x24] ∧
    (machine chip [] [7]).port.arg 0 = some 7 ∧ (machine chip [] [7]).port.arg 1 = none := by decide

/-- The last word of the window is inside it, one byte later is not, and neither is the byte before its first; width 3 is
none. -/
theorem witness_WindowAccesses : ∃ (s : State) (d : RefDev), s.idle = true ∧ s.mmapActive = true ∧ s.env = .reference d ∧
    d.cur = .mapped ∧ 4 ∈ [1, 2, 4] ∧ (0x907FFFFC : Word).toNat = s.params.memBase.toNat + 0x7FFFFC ∧
    0x7FFFFC + 4 ≤ s.params.size ∧ s.fault = none ∧ (0x8FFFFFFF : Word).toNat < s.params.memBase.toNat ∧
    s.params.memBase.toNat + s.params.size < (0x907FFFFD : Word).toNat + 4 ∧ 3 ∉ [1, 2, 4] :=
  ⟨{ machine { chip with cur := .mapped } [] [] with mmapActive := true }, { chip with cur := .mapped }, rfl, rfl, rfl, rfl,
    by decide, by decide, by decide, rfl, by decide, by decide, by decide⟩

/-- Mapped under the envelope. -/
theorem witness_WindowEnvelope : ∃ s : State, s.idle = true ∧ s.mmapActive = true ∧ s.env = .envelope ∧ 2 ∈ [1, 2, 4] ∧
    (0x907FFFFE : Word).toNat = s.params.memBase.toNat + 0x7FFFFE ∧ 0x7FFFFE + 2 ≤ s.params.size :=
  ⟨{ machine chip [] [] with env := .envelope, mmapActive := true }, rfl, rfl, rfl, by decide, by decide, by decide⟩

/-- One operand missing at a time; and the first missing beside a pattern past 8 bits. -/
theorem witness_UnwrittenOperands : (machine chip [] []).idle = true ∧ (machine chip [] []).port.arg0 = none ∧
    (machine chip [] [0]).port.arg1 = none ∧ (machine chip [] [0, 0]).port.arg2 = none ∧
    (machine chip [] [0, 0, 0]).port.arg3 = none ∧ (machine chip [] [0, 0, 0, 0]).port.arg4 = none ∧
    (machine chip [] [0, 0, 0, 0, 0]).port.arg5 = none ∧
    (({ machine chip [] [] with port := { Port.reset with arg2 := some 0x1FF } } : State).idle = true ∧
      ({ Port.reset with arg2 := some 0x1FF } : Port).arg0 = none ∧ 256 ≤ (0x1FF : Word).toNat) := by decide

/-- Registers that no check reads may be unwritten: none for `INIT`, `ARG0` alone for `ERASE_SECTOR` (V-P1). -/
theorem witness_FlashCommandsUnwritten : (machine chip [] []).idle = true ∧ (machine chip [] []).port.arg0 = none ∧
    (machine chip [] [0x10000]).idle = true ∧ (machine chip [] [0x10000]).port.arg0 = some 0x10000 ∧
    (machine chip [] [0x10000]).port.arg1 = none := by decide

/-- V-FO13: the operands at which each check passes and fails, `Size` before `Range` before `PageCross`. -/
theorem witness_FlashCommandChecks : (machine chip [] [0x1FE, 2, H]).idle = true ∧
    (machine chip [] [0x1FE, 2, H]).port.arg0 = some 0x1FE ∧ (machine chip [] [0x1FE, 2, H]).port.arg1 = some 2 ∧
    (machine chip [] [0x1FE, 2, H]).port.arg2 = some H ∧
    owedProgram Config.tc0 0x1FE 2 H = none ∧ owedProgram Config.tc0 0x1FF 2 H = some .pageCross ∧
    owedProgram Config.tc0 0 0 H = some .size ∧ owedProgram Config.tc0 0 0x101 H = some .size ∧
    owedProgram Config.tc0 0x800000 0x101 H = some .size ∧ owedProgram Config.tc0 0x7FFFFF 2 H = some .range ∧
    owedProgram Config.tc0 0 0x10 0xFFFFFFF8 = some .range ∧ owedErase Config.tc0 0x800000 = some .range ∧
    owedErase Config.tc0 0x7FFFFF = none ∧ owedRead Config.tc0 0 0 H = some .size ∧
    owedRead Config.tc0 0x7FFFFF 2 H = some .range ∧ owedBuffer Config.tc0 0x800000 0 H = some .range ∧
    owedBuffer Config.tc0 0x7FFF00 0x101 H = some .range ∧ owedBlank Config.tc0 0 0 = none ∧ (0xFF : Word).toNat < 256 ∧
    (machine chip [] []).owedFlash none = none ∧
    { machine chip [] [] with regs := { Regs.reset with cr := 0 } }.owedFlash none = some .engineDisabled ∧
    { machine chip [] [] with mmapActive := true }.owedFlash none = some .mmapActive := by decide

/-- V-ENG15: every answer of the guards. -/
theorem witness_EngineCommandGuards : (machine chip [] [0, 0, 0, 0, 0, 0]).idle = true ∧
    (machine chip [] [0, 0, 0, 0, 0]).port.arg4 = some 0 ∧ (machine chip [] [0, 0, 0, 0, 0]).port.arg5 = none ∧
    (machine chip [] [0, 0, 0, 0, 0, 0]).port.arg5 = some 0 ∧ (machine chip [] []).owedEngine true = none ∧
    { machine chip [] [] with regs := { Regs.reset with cr := 0 } }.owedEngine false = some .badDescriptor ∧
    { machine chip [] [] with regs := { Regs.reset with cr := 0 } }.owedEngine true = some .engineDisabled ∧
    { machine chip [] [] with mmapActive := true }.owedEngine true = some .mmapActive := by decide

theorem witness_MappedOrDisabledExcludes : ∀ p ∈ [(Instr.init, ([] : List Word)), (.eraseSector, [0x10000]), (.tCe, []), (.tWrvcr, []),
      (.tQpp 0x1FE 2 H, [])], ∃ s : State, s.params.wf = true ∧ s.idle = true ∧ s.mmapActive = true ∧
    (∀ k, k ∈ argsOf p.1 → (s.port.arg k).isSome) ∧ p.1.wf s.params = true ∧ p.1 ≠ .eDeinit ∧ p.1 ≠ .eAbort ∧
    s.port.arg 1 = none ∧ 1 ≤ s.burst ∧ s.hostWaits = true := by
  intro p hp
  refine ⟨{ machine chip [] p.2 with mmapActive := true }, ?_⟩
  simp only [List.mem_cons, List.not_mem_nil, or_false] at hp
  rcases hp with rfl | rfl | rfl | rfl | rfl <;> decide

/-- `E_ABORT` with the engine disabled. -/
theorem witness_DisabledAbort : ∃ s : State, s.params.wf = true ∧ s.idle = true ∧ crEn s.regs.cr = false ∧
    (∀ k, k ∈ argsOf .eAbort → (s.port.arg k).isSome) ∧ Instr.eAbort.wf s.params = true :=
  ⟨{ machine chip [] [] with regs := { Regs.reset with cr := 0 } }, rfl, rfl, rfl, by decide, rfl⟩

/-- Section 8: `WRITE 0x0F0, 0x020` and a whole page at 0xF0, under `literal`. -/
theorem witness_LiteralWriteFaults : ∀ n ∈ [(0x11 : Word), 0x100], ∃ (s : State) (dest src : Word), s.params.wf = true ∧
    s.idle = true ∧ s.engineOn = true ∧ s.hostWaits = true ∧ 5 ≤ s.burst ∧ s.params.orchRule = .literal ∧
    s.port.arg0 = some dest ∧ s.port.arg1 = some n ∧ s.port.arg2 = some src ∧ inFlash s.params dest n ∧ inHost src n ∧
    s.params.page - dest.toNat % s.params.page < n.toNat ∧ n.toNat ≤ s.params.page := by
  intro n hn
  simp only [List.mem_cons, List.not_mem_nil, or_false] at hn
  rcases hn with rfl | rfl <;>
    exact ⟨{ machine chip [] [0xF0, _, H] with params := { Config.tc0 with orchRule := .literal } }, 0xF0, H, rfl, rfl, rfl, rfl,
      by decide, rfl, rfl, rfl, rfl, by decide, by decide, by decide, by decide⟩

/-- A wait whose next sample shows TEF, one that shows TOF, and the abort wait. -/
theorem witness_WaitReportsErrors : ∀ p ∈ [(Op.wait .busyClear 0, true, false), (.wait .fifo 0, false, true), (.abortWait 3, true, true)],
    ∃ (s : State) (l : List Op), s.params.wf = true ∧ s.fault = none ∧ s.hostWaits = true ∧ 2 ≤ s.burst ∧
    s.todo = p.1 :: l ∧ ((∃ c k, p.1 = .wait c k) ∨ ∃ k, p.1 = .abortWait k) ∧
    (srTef s.readSr.1 = true ∨ srTof s.readSr.1 = true) ∧ srTef s.readSr.1 = p.2.1 ∧ srTof s.readSr.1 = p.2.2 := by
  intro p hp
  simp only [List.mem_cons, List.not_mem_nil, or_false] at hp
  rcases hp with rfl | rfl | rfl
  · exact ⟨{ machine { chip with tef := true } [] [] with fsm := .reading, todo := [.wait .busyClear 0] }, [], rfl, rfl, rfl,
      by decide, rfl, .inl ⟨_, _, rfl⟩, by decide, by decide, by decide⟩
  · exact ⟨{ machine { chip with tof := true } [] [] with fsm := .reading, todo := [.wait .fifo 0] }, [], rfl, rfl, rfl,
      by decide, rfl, .inl ⟨_, _, rfl⟩, by decide, by decide, by decide⟩
  · exact ⟨{ machine { chip with tef := true, tof := true } [] [] with fsm := .engineCommand, todo := [.abortWait 3] }, [], rfl,
      rfl, rfl, by decide, rfl, .inr ⟨_, rfl⟩, by decide, by decide, by decide⟩

theorem witness_WaitExhausts : ∃ (s : State) (c : WaitCond) (k b : Nat) (l : List Op), s.params.wf = true ∧ s.fault = none ∧
    s.hostWaits = true ∧ 1 ≤ s.burst ∧ s.todo = .wait c k :: l ∧ srTef s.readSr.1 = false ∧ srTof s.readSr.1 = false ∧
    c.holds s.readSr.1 = false ∧ s.params.waitBudget = some b ∧ b ≤ k + 1 :=
  ⟨{ machine chip [] [] with
      params := { Config.tc0 with waitBudget := some 3 }, fsm := .reading, todo := [.wait .statusMatch 2] },
    .statusMatch, 2, 3, [], rfl, rfl, rfl, by decide, rfl, by decide, by decide, by decide, rfl, by decide⟩

/-- The abort wait at its last sample: an auto-poll that keeps BUSY at 1 and shows no flag, and a stale SMF. -/
theorem witness_AbortWaitExhausts : ∀ d ∈ [{ chip with cur := .poll false false 1 }, { chip with smf := true }],
    let s := { machine d [] [] with
      params := { Config.tc0 with waitBudget := some 3 }, fsm := .engineCommand, todo := [.abortWait 2],
      regs := { Regs.reset with cr := 0x01000001, psmar := 1, psmkr := 1 } }
    s.params.wf = true ∧ s.fault = none ∧ s.hostWaits = true ∧ 2 ≤ s.burst ∧ srTef s.readSr.1 = false ∧
    srTof s.readSr.1 = false ∧ (srBusy s.readSr.1 = true ∨ srTcf s.readSr.1 = true ∨ srSmf s.readSr.1 = true) ∧
    s.params.waitBudget = some 3 := by
  intro d hd
  simp only [List.mem_cons, List.not_mem_nil, or_false] at hd
  rcases hd with rfl | rfl <;> exact ⟨rfl, rfl, rfl, by decide, by decide, by decide, by decide, rfl⟩

theorem witness_IdleWaitHangs : ∃ (s : State) (d : RefDev) (k : Nat) (l : List Op), s.fault = none ∧ s.hostWaits = true ∧
    s.busy = true ∧ s.params.waitBudget = none ∧ s.env = .reference d ∧ d.quiet = true ∧ d.tef = false ∧ d.tof = false ∧
    d.cur = .poll false false 1 ∧ s.todo = .wait .busyClear k :: l :=
  ⟨{ machine { chip with cur := .poll false false 1 } [] [] with fsm := .reading, todo := [.wait .busyClear 0] },
    { chip with cur := .poll false false 1 }, 0, [], rfl, rfl, rfl, rfl, rfl, rfl, rfl, rfl, rfl, rfl⟩

/-- Samples of one and of four bytes, a match and none in each mode (V-ENG8). -/
theorem witness_PollMatching :
    pollMatches { Regs.reset with psmar := 0x02, psmkr := 0x02 } false 1 0x02 = true ∧
    pollMatches { Regs.reset with psmar := 0x02, psmkr := 0x02 } false 1 0x00 = false ∧
    pollMatches { Regs.reset with psmar := 0x03, psmkr := 0x03 } true 4 0x02 = true ∧
    pollMatches { Regs.reset with psmar := 0x03, psmkr := 0x03 } true 4 0x00 = false := by decide

/-- The frames: instructions of every kind that answer a next state on an idle block, without a model fault. -/
theorem witness_frames : ∀ p ∈ [(Instr.programPage, [0, 1, H]), (.verify, [0, 1, H]), (.eRead, [0x0310EDEB, 0, 0, 1, H]),
      (.eMmap, [0x0310EDEB, 0, 0, 1]), (.eAbort, []), (.eDeinit, []), (.tWrvcr, []), (.tQread 0 1 .stg, [])],
    ∃ s t : State, s.idle = true ∧ exec p.1 s = .next t ∧ t.fault = none := by
  intro p hp
  have h : (after (exec p.1 (machine chip [] p.2)) fun t => t.fault == none) = true →
      ∃ s t : State, s.idle = true ∧ exec p.1 s = .next t ∧ t.fault = none := by
    intro h
    obtain ⟨t, ht, hf⟩ := of_after h
    exact ⟨_, t, rfl, ht, by simpa using hf⟩
  apply h
  clear h
  revert p
  decide +kernel

/-- The hypotheses of the write-enable rule, with a trace that holds a mutating entry. -/
theorem witness_WriteEnableGuard : ∃ s t : State, s.params.wf = true ∧ s.idle = true ∧ fsmCommand .eraseChip = true ∧
    exec .eraseChip s = .next t ∧ t.trace.any (TraceEntry.mutating s.params) = true := by
  have h : (after (exec .eraseChip (machine chip [] [])) fun t => t.trace.any (TraceEntry.mutating Config.tc0)) = true := by
    decide +kernel
  obtain ⟨t, ht, hm⟩ := of_after h
  exact ⟨machine chip [] [], t, rfl, rfl, rfl, ht, hm⟩

/-- The three clauses of the step-by-step rule: a command that starts, a step with steps left that keeps the invariant, and a
mutating entry in phase `confirmed`. -/
theorem witness_WriteEnableConfirmed :
    (∃ s t : State, s.params.wf = true ∧ s.idle = true ∧ s.burst = 0 ∧ fsmCommand .eraseChip = true ∧
      exec .eraseChip s = .next t) ∧
    (∃ s t : State, s.burst = 0 ∧ s.todo ≠ [] ∧ s.Guarded .off ∧ step s = .next t ∧ s.Inv) ∧
    ∃ (s : State) (e : TraceEntry) (l : List Op), s.Guarded .confirmed ∧ s.todo = .emit e :: l ∧
      e.mutating s.params = true := by
  refine ⟨⟨State.reset, _, rfl, rfl, rfl, rfl, rfl⟩,
    ⟨{ State.reset with fsm := .writeEnablePending, todo := mutateOps .tCe ++ [.finish .ok 0] }, _, rfl, (fun h => by cases h),
      ⟨trivial, by decide⟩, rfl,
      ⟨rfl, rfl, rfl, rfl, (fun h => by cases h), rfl, ⟨rfl, rfl⟩, rfl, rfl, .inr rfl⟩⟩,
    { State.reset with
      fsm := .commandIssued
      trace := [entryOf .eWrite (plainHeader 0x06) .indirectWrite 0 [], entryOf .ePoll (statusHeader Config.tc0) .autoPoll 1 []]
      todo := [.emit (entryOf .eWrite (plainHeader 0xC7) .indirectWrite 0 [])] }, _, [], ⟨?_, by decide⟩, rfl, by decide⟩
  exact ⟨[], _, _, rfl, by decide, by decide⟩

/-- R41: the addresses of the first and the last register; R49: an 8-bit access of `DR` keeps bits 31:8 (log 17). -/
theorem test_register_map : (regAddr Config.tc0 .cr, regAddr Config.tc0 .lptr) = (Config.tc0.regBase.toNat, Config.tc0.regBase.toNat + 0x30) ∧
    ({ machine chip [] [] with regs := { Regs.reset with dr := 0xFFFFFFFF } }.busWrite8 (regAddr Config.tc0 .dr)).regs.dr =
      0xFFFFFF00 := by decide

/-- R42: PMM is bit 23 and APMS bit 22 of `CR`, EN is bit 0, and every other bit of the launch value 0x01000001 is kept. -/
theorem test_cr_write :
    [CrEdit.poll true true, .poll true false, .disable].map (fun e => ({ machine chip [] [] with tmpCr := 0x01000001 }.busWrite
      (regAddr Config.tc0 .cr) (e.apply 0x01000001)).regs.cr) = [0x01C00001, 0x01800001, 0x01000000] := by decide

theorem witness_ProgramClearsBits : Config.tc0.wf = true ∧ cellsWf arrayDefault [(0x100, 0xA5)] = true ∧
    programBytes Config.tc0 0x100 0 [0x0F] [(0x100, 0xA5)] = [(0x100, 0x05)] := by decide

/-- X2: offset 0x10000, two bytes. -/
theorem witness_RoundTrip : ∃ (s : State) (d : RefDev) (dest n src dst : Word),
    s.CanRun d (80 + d.busyPolls + 5 * n.toNat) ∧ d.bc = 0 ∧ budgetAllows s.params d.busyPolls = true ∧ 1 ≤ n.toNat ∧
    n.toNat ≤ s.params.page ∧ dest.toNat + n.toNat ≤ s.params.size ∧ dest.toNat % s.params.page + n.toNat ≤ s.params.page ∧
    inHost src n ∧ inHost dst n ∧ s.admitsAll src.toNat n.toNat = true ∧ s.admitsAll dst.toNat n.toNat = true :=
  ⟨machine chip [] [], chip, 0x10000, 2, H, H2, witness_can_run _ _ _ rfl, rfl, rfl, by decide, by decide, by decide,
    by decide, by decide, by decide, by decide, by decide⟩

/-- The last bytes of a sector. -/
theorem witness_BlankAfterErase : ∃ (s : State) (d : RefDev) (addr dest n : Word),
    s.CanRun d (80 + d.busyPolls + 30 * n.toNat) ∧ d.bc = 0 ∧ budgetAllows s.params d.busyPolls = true ∧
    addr.toNat < s.params.size ∧ dest.toNat < s.params.size ∧
    addr.toNat / s.params.sector * s.params.sector ≤ dest.toNat ∧
    dest.toNat + n.toNat ≤ addr.toNat / s.params.sector * s.params.sector + s.params.sector :=
  ⟨machine chip [] [], chip, 0x10000, 0x1FFFE, 2, witness_can_run _ _ _ rfl, rfl, rfl, by decide, by decide, by decide,
    by decide⟩

end Sys2Proof.Tests
end

