-- ==== Sys2Proof/Proofs/ParameterChecks.lean ====
section
/-! The checks of a parameter set (00_scope.md R9) as propositions, and the refusal of a set that fails one. -/

namespace Sys2Proof.Laws

open Sys2Proof.Machine

/-- "Exactly one bit set" (R9 item 5): the byte is one of the eight powers of two. -/
theorem oneBit_iff {m : Byte} : oneBit m = true ↔ ∃ k, k < 8 ∧ m = 1 <<< k := by
  constructor
  · intro h
    obtain ⟨k, rfl⟩ := oneBit_pow h
    exact ⟨k, k.isLt, rfl⟩
  · rintro ⟨k, hk, rfl⟩
    have pow_oneBit : ∀ k : Fin 8, oneBit (1 <<< k.val) = true := by decide
    exact pow_oneBit ⟨k, hk⟩

/-- "Pairwise distinct" (R9 item 8). -/
theorem distinctBytes_iff_nodup {l : List Byte} : distinctBytes l = true ↔ l.Nodup := by
  refine ⟨distinct_nodup, fun h => ?_⟩
  induction h with
  | nil => rfl
  | cons hb _ ih => simpa [distinctBytes, ih] using fun hmem => hb _ hmem rfl

/-- `wf_iff` made an equivalence: what `WfParams` leaves out of the check is items 6 and 7 of R9. -/
theorem wf_iff_wfParams {p : Params} : p.wf = true ↔
    WfParams p ∧ (∀ b, p.waitBudget = some b → 1 ≤ b) ∧ 0 < p.maxClock := by
  constructor
  · intro h
    have hp := wf_iff h
    simp only [Params.wf, Bool.and_eq_true] at h
    obtain ⟨-, -, -, -, -, -, -, -, -, -, -, -, hbudget, hclock, -⟩ := h
    refine ⟨hp, fun b hb => ?_, of_decide_eq_true hclock⟩
    rw [hb] at hbudget
    exact of_decide_eq_true hbudget
  · rintro ⟨hp, hbudget, hclock⟩
    simp only [Params.wf, hp.size, hp.page, hp.sector, hp.sizeSector, hp.sectorPage, hp.size32, hp.addrBits, hp.dummy,
      hp.wel, hp.wip, hp.qe, hp.opcodes, hclock, bne_iff_ne.2 hp.welWip, decide_true, Bool.true_and, Bool.and_true]
    cases hb : p.waitBudget with
    | none => rfl
    | some b => exact decide_eq_true (hbudget b hb)

/-- A set that fails a check has no step, whatever the rest of the state (log 3). -/
theorem step_of_wf_false {s : State} (h : s.params.wf = false) : step s = .refused .illFormedParameters := by
  simp [step, h]

/-- Settles O35: `WfParams` lists the checks of R9 but items 6 and 7, and its Boolean masks and opcodes say what R9 says. -/
theorem illFormedRefused : Obligations.IllFormedRefused := by
  refine ⟨fun s => step_of_wf_false, fun p => ?_⟩
  rw [wf_iff_wfParams]
  constructor
  · rintro ⟨hp, hbudget, hclock⟩
    exact ⟨⟨hp.size, hp.page, hp.sector, hp.size32⟩, ⟨hp.sizeSector, hp.sectorPage⟩, hp.addrBits, hp.dummy,
      ⟨oneBit_iff.1 hp.wel, oneBit_iff.1 hp.wip, oneBit_iff.1 hp.qe, hp.welWip⟩, hbudget, hclock,
      distinctBytes_iff_nodup.1 hp.opcodes⟩
  · rintro ⟨⟨size, page, sector, size32⟩, ⟨sizeSector, sectorPage⟩, addrBits, dummy, ⟨wel, wip, qe, welWip⟩, hbudget,
      hclock, opcodes⟩
    exact ⟨⟨size, page, sector, sizeSector, sectorPage, size32, addrBits, dummy, oneBit_iff.2 wel, oneBit_iff.2 wip,
      oneBit_iff.2 qe, welWip, distinctBytes_iff_nodup.2 opcodes⟩, hbudget, hclock⟩

end Sys2Proof.Laws
end

