-- ==== Sys2Proof/Proofs/StepCases.lean ====
section
/-! What a step of the machine can be: a host action, a sequencer step, or a wait of the idle block (10_state.md R26); and
what a host action can do (R34 to R40, 20_memory.md R62, R64). -/

namespace Sys2Proof.Laws

open Sys2Proof.Machine

/-! ### Host actions -/

/-- `HostStep s t`: a host action leads from `s` to `t`. -/
inductive HostStep (s : State) : State → Prop where
  | faulted (f : FaultReason) : HostStep s (s.raiseFault f)
  | command {i : Instr} {t : State} : s.fault = none → s.busy = false → exec i s = .next t → HostStep s t
  | operand (k : Fin 6) (v : Word) : HostStep s { s with port := s.port.setArg k v }
  | answered (d : Option Word) (n : Nat) : HostStep s { s with hostData := d, draws := n }
  | stored {a : Nat} {b : Byte} {t : State} : s.memWrite a b = .next t → HostStep s t

theorem cmdrWrite_next {s t : State} {v : Word} (hf : s.fault = none) (h : cmdrWrite v s = .next t) : HostStep s t := by
  unfold cmdrWrite at h
  split at h
  · cases h; exact .faulted _
  · rename_i hb
    split at h
    · cases h; exact .faulted _
    · exact .command hf (by simpa using hb) h

theorem portWrite_next {s t : State} {off v : Word} (h : portWrite off v s = .next t) : HostStep s t := by
  unfold portWrite at h
  split at h
  · cases h
  · rename_i hf
    split at h
    · exact cmdrWrite_next (by simpa [State.faulted] using hf) h
    · split at h <;> cases h
      · exact .faulted _
      · exact .operand _ v
    all_goals cases h; exact .faulted _

theorem readValue_hostStep (s : State) (v : Option Word) : HostStep s (s.readValue v) := by
  cases v with
  | none => exact .faulted _
  | some w => exact .answered (some w) s.draws

theorem portRead_next {s t : State} {off : Word} (h : portRead off s = .next t) : HostStep s t := by
  unfold portRead at h
  split at h <;> cases h
  · exact .answered none s.draws
  · exact readValue_hostStep s _
  · exact readValue_hostStep s _
  · exact readValue_hostStep s _
  · exact readValue_hostStep s _
  · exact .faulted _

theorem hostAction_next {a : HostAction} {s t : State} (h : hostAction a s = .next t) : HostStep s t := by
  cases a with
  | portWrite off v => exact portWrite_next h
  | portRead off => exact portRead_next h
  | windowLoad a w =>
    simp only [hostAction, windowLoad] at h
    split at h
    · cases h
    · split at h <;> cases h
      · exact .answered _ _
      · exact .faulted _
  | windowStore a w v =>
    simp only [hostAction, windowStore] at h
    split at h <;> cases h
    exact .faulted _
  | memWrite a b =>
    simp only [hostAction, hostMemWrite] at h
    split at h
    · cases h
    · exact .stored h

/-! ### Steps -/

/-- When the host is not due the step at the head of the list is taken, a transaction's too: `exec` is its start. -/
theorem step_sequencer {s : State} {o : Op} {l : List Op} (hp : s.params.wf = true) (hf : s.fault = none)
    (hd : hostDue s = false) (hl : s.todo = o :: l) : step s = thenRun (seqOp o (s.takeOp l)) := by
  simp only [step, hp, if_true, agentStep, hd, State.faulted, hf, hl, Option.isSome_none, Bool.false_eq_true, if_false]
  cases o with
  | issue i => exact exec_eq i _
  | _ => rfl

/-- The host's next action is taken when it is due. -/
theorem step_host {s : State} {e : HostEvent} {l : List HostEvent} (hp : s.params.wf = true) (hd : hostDue s = true)
    (hi : s.hostIn = e :: l) : step s = hostAction e.act { s with hostIn := l } := by
  simp only [step, hp, if_true, agentStep, hd, hi]

/-- `StepCase s t`: whose step it is that leads from `s` to `t`. -/
inductive StepCase (s t : State) : Prop where
  | waits : t = s → StepCase s t
  | host {e : HostEvent} {l : List HostEvent} :
      s.hostIn = e :: l → HostStep { s with hostIn := l } t → StepCase s t
  | sequencer {o : Op} {l : List Op} :
      s.fault = none → s.todo = o :: l → thenRun (seqOp o (s.takeOp l)) = .next t → StepCase s t

theorem step_next {s t : State} (h : step s = .next t) : StepCase s t := by
  have hp : s.params.wf = true := by
    by_contra hp
    rw [step, if_neg hp] at h
    cases h
  cases hd : hostDue s with
  | true =>
    cases hi : s.hostIn with
    | nil => rw [hostDue, hi] at hd; cases hd
    | cons e l => rw [step_host hp hd hi] at h; exact .host hi (hostAction_next h)
  | false =>
    cases hf : s.fault with
    | some f =>
      simp only [step, hp, if_true, agentStep, hd, State.faulted, hf, Option.isSome_some, Bool.false_eq_true, if_false] at h
      cases h
    | none =>
      cases hl : s.todo with
      | nil =>
        simp only [step, hp, if_true, agentStep, hd, State.faulted, hf, hl, Option.isSome_none, Bool.false_eq_true,
          if_false] at h
        exact .waits (Host.Outcome.next.inj h).symm
      | cons o l => rw [step_sequencer hp hf hd hl] at h; exact .sequencer hf hl h

end Sys2Proof.Laws
end

