-- ==== Sys2Proof/Proofs/StepInvariant.lean ====
section
/-! Every step of the machine keeps the invariant, and what no step changes (10_state.md R21, R26, R32). -/

namespace Sys2Proof.Laws

open Sys2Proof.Machine

/-- What no step changes, no host action changes. -/
theorem HostStep.fixed {s t : State} (h : HostStep s t) : Fixed s t := by
  cases h with
  | faulted f => exact ⟨rfl, rfl, rfl, rfl⟩
  | command _ _ hx => exact fixed_exec hx
  | operand k v => exact ⟨rfl, rfl, rfl, rfl⟩
  | answered d n => exact ⟨rfl, rfl, rfl, rfl⟩
  | stored hm =>
    unfold State.memWrite at hm
    split at hm <;> cases hm
    exact ⟨rfl, rfl, rfl, rfl⟩

theorem inv_setArg {s : State} (h : s.Inv) (k : Fin 6) (v : Word) : State.Inv { s with port := s.port.setArg k v } :=
  ⟨h.params, h.memory, h.faulted, h.busy, h.between, by simpa using h.results, h.cr, h.reserved, h.lawful, h.closing⟩

theorem inv_answer {s : State} (h : s.Inv) (d : Option Word) (n : Nat) : State.Inv { s with hostData := d, draws := n } :=
  ⟨h.params, h.memory, h.faulted, h.busy, h.between, h.results, h.cr, h.reserved, h.lawful, h.closing⟩

theorem inv_memWrite {s t : State} {a : Nat} {b : Byte} (h : s.Inv) (hm : s.memWrite a b = .next t) : t.Inv := by
  have hw := memoryWf_memWrite h.memory hm
  unfold State.memWrite at hm
  split at hm <;> cases hm
  exact ⟨h.params, hw, h.faulted, h.busy, h.between, h.results, h.cr, h.reserved, h.lawful, h.closing⟩

/-- Every host action keeps the invariant: one on a busy block starts no command. -/
theorem HostStep.inv {s t : State} (h : HostStep s t) (hs : s.Inv) : t.Inv := by
  cases h with
  | faulted f => exact inv_fault (Core.of_inv hs) f
  | command hf hb hx => exact inv_exec hs (inv_idle hs hf hb) hx
  | operand k v => exact inv_setArg hs k v
  | answered d n => exact inv_answer hs d n
  | stored hm => exact inv_memWrite hs hm

theorem inv_step {s t : State} (hs : s.Inv) (h : step s = .next t) : t.Inv := by
  cases step_next h with
  | waits ht => rw [ht]; exact hs
  | host _ ha => exact ha.inv (inv_hostIn hs _)
  | sequencer hf hl ho =>
    obtain ⟨u, hu, rfl⟩ := thenRun_next ho
    exact inv_run _ (inv_seqOp hs hf hl hu)

theorem fixed_step {s t : State} (h : step s = .next t) : Fixed s t := by
  cases step_next h with
  | waits ht => rw [ht]; exact Fixed.refl s
  | host _ ha => exact ⟨ha.fixed.params, ha.fixed.dcr, ha.fixed.admitted, ha.fixed.burst⟩
  | sequencer _ _ ho => exact fixed_take (fixed_thenRun ho fun _ hu => fixed_seqOp hu)

/-- Settles O38: whichever agent's step it is, the host's (`HostStep`) or the sequencer's (`inv_seqOp`, `inv_run`). -/
theorem stepKeepsInvariant : Obligations.StepKeepsInvariant := fun _ _ h =>
  have fixed := fixed_step h
  ⟨fun hs => inv_step hs h, fixed.params, fixed.dcr, fixed.admitted, fixed.burst⟩

end Sys2Proof.Laws
end

