-- ==== Sys2Proof/Proofs/SequencerSteps.lean ====
section
/-! The sequencer's next step (10_state.md R26), and a burst as a row of such steps (log 1). -/

namespace Sys2Proof.Laws

open Sys2Proof.Machine

/-! ### The step at the head -/

/-- A transaction that stands at the head of the list while the host has nothing to do is the next step. -/
theorem step_placeTx {s : State} (i : Instr) (hp : s.params.wf = true) (hf : s.fault = none) :
    step (s.placeTx i) = exec i { s with hostIn := [] } := by
  rw [step_sequencer (s := s.placeTx i) (o := .issue i) (l := s.todo) hp hf rfl rfl, exec_eq]
  rfl

/-- Settles O33: `step_sequencer` at a transaction and at any other step, and `step_placeTx`. -/
theorem stepRunsTransaction : Obligations.StepRunsTransaction := by
  refine ⟨?_, ?_, ?_⟩
  · intro s i l hp hf hd hl
    rw [step_sequencer hp hf hd hl, exec_eq]
    rfl
  · intro s o l hp hf hd hl _
    exact step_sequencer hp hf hd hl
  · intro s nbits w i hp hf hw hc
    rw [← step_placeTx i hp hf, State.withFetchWord, State.placeWord, hw]
    simp only [hc, if_true]

/-! ### No sequencer step is refused -/

/-- The outcome is no refusal. -/
def answers : Out → Bool
  | .refused _ => false
  | _ => true

theorem answers_if {c : Prop} [Decidable c] {a b : Out} (ha : answers a = true) (hb : answers b = true) :
    answers (if c then a else b) = true := by
  split
  · exact ha
  · exact hb

theorem answers_engine (s : State) (D : Descriptor) (ops : List Op) : answers (s.startEngine D ops) = true := by
  unfold State.startEngine
  split <;> rfl

theorem answers_raw (s : State) (i : Instr) (D : Descriptor) (ops : List Op) : answers (s.startRaw i D ops) = true := by
  unfold State.startRaw
  split <;> rfl

theorem answers_flash (s t : State) (l : List (Bool × FaultReason)) : answers (s.startFlash l t) = true := by
  unfold State.startFlash
  split <;> rfl

theorem answers_command (s : State) (i : Instr) {body : State → Out} (h : ∀ u, answers (body u) = true) :
    answers (s.startCommand i body) = true :=
  answers_if rfl (answers_if rfl (answers_if rfl (h s)))

theorem answers_tx (s : State) (i : Instr) {body : State → Out} (h : ∀ u, answers (body u) = true) :
    answers (s.startTx i body) = true :=
  answers_if rfl (answers_if (h _) (h s))

theorem answers_start (i : Instr) (s : State) : answers (startInstr i s) = true := by
  cases i with
  | init | programPage | eraseSector | eraseChip | read | verify | blankCheck | mmap | write =>
    simp only [startInstr, startInit, startProgramPage, startEraseSector, startEraseChip, startReadCommand, startVerify,
      startBlankCheck, startMmap, startWriteCommand]
    exact answers_command s _ fun _ => answers_flash _ _ _
  | eWrite | eRead | ePoll | eMmap =>
    simp only [startInstr, startEWrite, startERead, startEPoll, startEMmap]
    refine answers_command s _ fun u => ?_
    split
    · rfl
    · exact answers_raw _ _ _ _
  | eAbort =>
    simp only [startInstr, startEAbort]
    refine answers_command s _ fun u => ?_
    split <;> rfl
  | eDeinit =>
    simp only [startInstr, startEDeinit]
    exact answers_command s _ fun _ => rfl
  | tWrvcr =>
    simp only [startInstr, startTWrvcr]
    exact answers_tx s _ fun _ => rfl
  | tWren | tPollWel | tPollWip | tRsten | tRst | tRdcr | tSe | tCe | tQpp | tQread | tQreadMmap =>
    simp only [startInstr, startTWren, startTPollWel, startTPollWip, startTRsten, startTRst, startTRdcr, startTSe, startTCe,
      startTQpp, startTQread, startTQreadMmap]
    exact answers_tx s _ fun _ => answers_engine _ _ _

theorem answers_bufRead (s : State) (b : BufRef) (k : Nat) : answers (s.bufRead b k) = true := by
  cases b with
  | cfgbuf => rfl
  | host a => exact answers_if rfl rfl
  | stg => exact answers_if rfl rfl

theorem answers_bufWrite (s : State) (b : BufRef) (k : Nat) : answers (s.bufWrite b k) = true := by
  cases b with
  | cfgbuf => rfl
  | host a => exact answers_if rfl rfl
  | stg => exact answers_if rfl rfl

theorem answers_compareStg (s : State) (b : Byte) : answers (s.compareStg b) = true := by
  unfold State.compareStg State.stgRead
  split <;> rfl

/-- A sequencer step answers a next state or is stuck. -/
theorem answers_seqOp (o : Op) (s : State) : answers (seqOp o s) = true := by
  cases o with
  | issue i => exact answers_start i s
  | configWrite => exact answers_engine _ _ _
  | bufRead => exact answers_bufRead _ _ _
  | bufWrite => exact answers_bufWrite _ _ _
  | fetchStg => exact answers_if rfl rfl
  | compareHost => exact answers_if rfl rfl
  | compareStg b => exact answers_compareStg s b
  | _ => rfl

/-! ### Bursts -/

/-- It is the sequencer's turn: it has a step, and neither a fault nor the host comes first. -/
theorem seqTurn_iff {s : State} : seqTurn s = true ↔ s.todo ≠ [] ∧ s.fault = none ∧ hostDue s = false := by
  simp [seqTurn, State.faulted, and_assoc]

/-- The step of the machine at burst 0 is the step at the head of the list alone. -/
theorem step_withBurst_zero {s : State} {o : Op} {l : List Op} (hp : s.params.wf = true) (ht : seqTurn s = true)
    (hl : s.todo = o :: l) : step (withBurst 0 s) = outBurst 0 (seqOp o (s.takeOp l)) := by
  obtain ⟨-, hf, hd⟩ := seqTurn_iff.1 ht
  have h : step (withBurst 0 s) = thenRun (seqOp o (withBurst 0 (s.takeOp l))) :=
    step_sequencer (s := withBurst 0 s) hp hf hd hl
  rw [h, burst_seqOp]
  cases seqOp o (s.takeOp l) <;> rfl

/-- A sequencer step there is: it is the sequencer's turn, and the step at the head is not stuck. -/
theorem seqStep_iff {s t : State} :
    seqStep s = some t ↔ seqTurn s = true ∧ ∃ o l, s.todo = o :: l ∧ seqOp o (s.takeOp l) = .next t := by
  constructor
  · intro h
    unfold seqStep at h
    split at h
    · rename_i ht
      split at h
      · cases h
      · rename_i o l hl
        split at h
        · rename_i ho
          cases h
          exact ⟨ht, o, l, hl, ho⟩
        · cases h
    · cases h
  · rintro ⟨ht, o, l, hl, ho⟩
    simp [seqStep, ht, hl, ho]

/-- A run of `n` is `n` single steps, each left out once there is none. -/
theorem runSeq_eq_iterate (n : Nat) (s : State) : runSeq n s = (fun x => (seqStep x).getD x)^[n] s := by
  induction n generalizing s with
  | zero => rfl
  | succ n ih =>
    rw [Function.iterate_succ_apply, runSeq]
    cases h : seqStep s with
    | some t => exact ih t
    | none => exact (Function.iterate_fixed (by simp [h]) n).symm

/-- An instruction at burst 0 is its start. -/
theorem exec_withBurst_zero (i : Instr) (s : State) : exec i (withBurst 0 s) = outBurst 0 (startInstr i s) := by
  rw [exec_eq, burst_start]
  cases startInstr i s <;> rfl

/-- An instruction at any burst is the instruction at burst 0, followed by a run. -/
theorem exec_of_withBurst_zero {i : Instr} {s t : State} (h : exec i (withBurst 0 s) = .next t) :
    exec i s = .next (runSeq s.burst (withBurst s.burst t)) := by
  rw [exec_withBurst_zero] at h
  obtain ⟨u, hu, ht⟩ := andThen_next h
  cases ht
  have hb : u.burst = s.burst := (fixed_start hu).burst
  rw [exec_eq, hu, thenRun_of_next, withBurst_withBurst, ← hb, withBurst_self]

theorem exec_fault_of_withBurst_zero {i : Instr} {s : State} {f : Fault} (h : exec i (withBurst 0 s) = .fault f) :
    exec i s = .fault f := by
  rw [exec_withBurst_zero] at h
  rw [exec_eq]
  cases hs : startInstr i s with
  | next u => rw [hs] at h; cases h
  | fault r => rw [hs] at h; exact h
  | refused r => rw [hs] at h; cases h

/-- Settles O34: a sequencer step does not look at the burst (`burst_seqOp`), and a run is an iterate. -/
theorem burstIsSteps : Obligations.BurstIsSteps := by
  refine ⟨?_, ?_, runSeq_eq_iterate, fun i s =>
    ⟨fun t h => exec_of_withBurst_zero h, fun f h => exec_fault_of_withBurst_zero h⟩⟩
  · intro s t hp h
    obtain ⟨ht, o, l, hl, ho⟩ := seqStep_iff.1 h
    exact (step_withBurst_zero hp ht hl).trans (by rw [ho]; rfl)
  · intro s hp ht h
    obtain ⟨o, l, hl⟩ := List.exists_cons_of_ne_nil (seqTurn_iff.1 ht).1
    have ha := answers_seqOp o (s.takeOp l)
    cases ho : seqOp o (s.takeOp l) with
    | next u => rw [seqStep_iff.2 ⟨ht, o, l, hl, ho⟩] at h; cases h
    | fault r => exact ⟨r, (step_withBurst_zero hp ht hl).trans (by rw [ho]; rfl)⟩
    | refused r => rw [ho] at ha; cases ha

end Sys2Proof.Laws
end

