-- ==== Sys2Proof/Proofs/CommandPort.lean ====
section
/-! The command port (10_state.md R34 to R40): which register stands at an offset, what a host access of each does, and
how a command starts by a write of `CMDR` (42_flash_operations.md R190). -/

namespace Sys2Proof.Laws

open Sys2Proof.Machine

/-! ### The offsets (R34) -/

theorem portReg_arg (k : Fin 6) : portReg (BitVec.ofNat 32 (4 * k.val + 4)) = some (.arg k) := by
  revert k; decide

/-- The offsets a host write may name: `CMDR`'s and the argument registers'. -/
theorem portReg_writable {off : Word} (h : off ∈ [(0x00 : Word), 0x04, 0x08, 0x0C, 0x10, 0x14, 0x18]) :
    portReg off = some .cmdr ∨ ∃ k, portReg off = some (.arg k) := by
  simp only [List.mem_cons, List.not_mem_nil, or_false] at h
  rcases h with rfl | h
  · exact .inl rfl
  · right
    rcases h with rfl | rfl | rfl | rfl | rfl | rfl
    exacts [⟨0, rfl⟩, ⟨1, rfl⟩, ⟨2, rfl⟩, ⟨3, rfl⟩, ⟨4, rfl⟩, ⟨5, rfl⟩]

/-- At every other offset a result register, `HSTAT`, or nothing stands. -/
theorem portReg_unwritable {off : Word} (h : off ∉ [(0x00 : Word), 0x04, 0x08, 0x0C, 0x10, 0x14, 0x18]) :
    portReg off = some .resst ∨ portReg off = some .rescnt ∨ portReg off = some .hstat ∨ portReg off = none := by
  simp only [List.mem_cons, List.not_mem_nil, or_false, not_or] at h
  obtain ⟨h0, h1, h2, h3, h4, h5, h6⟩ := h
  simp only [portReg, h0, h1, h2, h3, h4, h5, h6, if_false]
  split
  · exact .inl rfl
  · split
    · exact .inr (.inl rfl)
    · split
      · exact .inr (.inr (.inl rfl))
      · exact .inr (.inr (.inr rfl))

theorem portReg_none {off : Word} (h : off ∉ [(0x00 : Word), 0x04, 0x08, 0x0C, 0x10, 0x14, 0x18, 0x1C, 0x20, 0x24]) :
    portReg off = none := by
  simp only [List.mem_cons, List.not_mem_nil, or_false, not_or] at h
  obtain ⟨h0, h1, h2, h3, h4, h5, h6, h7, h8, h9⟩ := h
  simp only [portReg, h0, h1, h2, h3, h4, h5, h6, h7, h8, h9, if_false]

/-! ### Host writes -/

theorem portWrite_arg {s : State} {off : Word} {k : Fin 6} (v : Word) (hf : s.fault = none) (hb : s.busy = false)
    (ho : portReg off = some (.arg k)) : portWrite off v s = .next { s with port := s.port.setArg k v } := by
  simp [portWrite, State.faulted, hf, ho, hb]

theorem portWrite_busy {s : State} {off : Word} (v : Word) (hf : s.fault = none) (hb : s.busy = true)
    (ho : portReg off = some .cmdr ∨ ∃ k, portReg off = some (.arg k)) :
    portWrite off v s = .next (s.raiseFault .reentry) := by
  rcases ho with ho | ⟨k, ho⟩
  · simp [portWrite, State.faulted, hf, ho, cmdrWrite, hb]
  · simp [portWrite, State.faulted, hf, ho, hb]

theorem portWrite_illegal {s : State} {off : Word} (v : Word) (hf : s.fault = none)
    (ho : portReg off = some .resst ∨ portReg off = some .rescnt ∨ portReg off = some .hstat ∨ portReg off = none) :
    portWrite off v s = .next (s.raiseFault .illegalCommand) := by
  rcases ho with ho | ho | ho | ho <;> simp [portWrite, State.faulted, hf, ho]

/-! ### Host reads -/

theorem portRead_arg (s : State) {off : Word} {k : Fin 6} (ho : portReg off = some (.arg k)) :
    portRead off s = .next (s.readValue (s.port.arg k)) := by
  simp [portRead, ho]

theorem portRead_illegal (s : State) {off : Word} (ho : portReg off = none) :
    portRead off s = .next (s.raiseFault .illegalCommand) := by
  simp [portRead, ho]

/-- Settles O41: the offsets' registers (`portReg_arg`, `portReg_unwritable`, `portReg_none`), then the access of each. -/
theorem portRegisters : Obligations.PortRegisters := by
  refine ⟨?_, ?_, ?_, ?_, ?_⟩
  · intro s k v hi
    exact ⟨_, portWrite_arg v (idle_facts hi).2.2 (idle_not_busy hi) (portReg_arg k), arg_setArg_same _ k v,
      fun _ hj => arg_setArg_other _ v hj, setArg_resst _ k v, setArg_rescnt _ k v, rfl⟩
  · intro s k
    have hr := portRead_arg s (portReg_arg k)
    exact ⟨fun v hv => by rw [hostAction, hr, hv]; rfl, fun _ hn => by rw [hostAction, hr, hn]; rfl⟩
  · intro s
    have hst : portRead 0x1C s = .next (s.readValue s.port.resstWord) := rfl
    have hcnt : portRead 0x20 s = .next (s.readValue s.port.rescnt) := rfl
    refine ⟨fun st h => ⟨st.code, ?_, ?_⟩, fun _ h => ?_, fun v h => ?_, fun _ h => ?_⟩
    · rw [hostAction, hst, Port.resstWord, h]; rfl
    · cases st <;> rfl
    · rw [hostAction, hst, Port.resstWord, h]; rfl
    · rw [hostAction, hcnt, h]; rfl
    · rw [hostAction, hcnt, h]; rfl
  · intro s off v hf ho
    exact portWrite_illegal v hf (portReg_unwritable ho)
  · intro s off _ ho
    exact portRead_illegal s (portReg_none ho)

/-! ### `HSTAT` (R39) -/

theorem getLsbD_hstat (s : State) (b : Nat) : s.hstat.getLsbD b =
    (decide (b = 0) && s.busy || decide (b = 1) && s.mmapActive || decide (b = 2) && s.faulted) := by
  by_cases h : b < 3
  · have : b = 0 ∨ b = 1 ∨ b = 2 := by omega
    rcases this with rfl | rfl | rfl <;> simp [State.hstat, getElem_bit]
  · have h0 : b ≠ 0 := by omega
    have h1 : b ≠ 1 := by omega
    have h2 : b ≠ 2 := by omega
    have h3 : b - 1 ≠ 0 := by omega
    have h4 : b - 2 ≠ 0 := by omega
    simp [State.hstat, h0, h1, h2, h3, h4]

theorem busy_iff (s : State) : s.busy = true ↔ s.fsm ≠ .idle ∧ s.fsm ≠ .faulted := by
  simp [State.busy]

theorem faulted_iff (s : State) : s.faulted = true ↔ s.fault ≠ none := by
  simp [State.faulted, Option.isSome_iff_ne_none]

/-- Settles O40: `HSTAT` bit by bit (`getLsbD_hstat`), and a write to any writable register of a busy block. -/
theorem hstatAndReentry : Obligations.HstatAndReentry := by
  refine ⟨fun s => ⟨s.hstat, rfl, ?_, ?_, ?_, ?_⟩, ?_⟩
  · rw [getLsbD_hstat, ← busy_iff]; simp
  · rw [getLsbD_hstat]; simp
  · rw [getLsbD_hstat, ← faulted_iff]; simp
  · intro b hb
    have h0 : b ≠ 0 := by omega
    have h1 : b ≠ 1 := by omega
    have h2 : b ≠ 2 := by omega
    simp [getLsbD_hstat, h0, h1, h2]
  · intro s off v hf hi hr ho
    exact portWrite_busy v hf ((busy_iff s).2 ⟨hi, hr⟩) (portReg_writable ho)

/-! ### `CMDR` (R35) -/

theorem cmdrWrite_decoded {s : State} {w : Word} {i : Instr} (hb : s.busy = false) (hw : decodeCmdr w = some i) :
    cmdrWrite w s = exec i s := by
  simp [cmdrWrite, hb, hw]

/-- The write of a command word to `CMDR` of an idle block runs the command in that step. -/
theorem step_cmdr {s : State} {w : Word} {a : Option Nat} {l : List HostEvent} {i : Instr} (hp : s.params.wf = true)
    (hi : s.idle = true) (hin : s.hostIn = { after := a, act := .portWrite 0 w } :: l) (hw : decodeCmdr w = some i) :
    step s = exec i { s with hostIn := l } := by
  obtain ⟨-, ht, hf⟩ := idle_facts hi
  have hd : hostDue s = true := by simp [hostDue, hin, ht]
  have hb : State.busy { s with hostIn := l } = false := idle_not_busy hi
  rw [step_host hp hd hin]
  simp only [hostAction, portWrite, State.faulted, hf, Option.isSome_none, Bool.false_eq_true, if_false]
  exact cmdrWrite_decoded hb hw

/-- A command placed on an idle block runs in the next step, with every argument register written. -/
theorem step_placeCommand {s : State} {w : Word} {i : Instr} (a0 a1 a2 a3 a4 a5 : Word) (hp : s.params.wf = true)
    (hi : s.idle = true) (hw : decodeCmdr w = some i) :
    ∃ p : Port, (∀ k, (p.arg k).isSome) ∧ p.resst = s.port.resst ∧ p.rescnt = s.port.rescnt ∧
      step (s.placeCommand w a0 a1 a2 a3 a4 a5) = exec i { s with port := p } := by
  refine ⟨(s.placeCommand w a0 a1 a2 a3 a4 a5).port, fun k => ?_, rfl, rfl,
    step_cmdr (s := s.placeCommand w a0 a1 a2 a3 a4 a5) hp hi rfl hw⟩
  fin_cases k <;> rfl

/-- What the decoder reads is a command word or a transaction (log 6). -/
theorem decode_command {p : Params} {w : Word} {ws rest : List Word} {i : Instr}
    (h : decode p (w :: ws) = .ok (i, rest)) (hc : ws = [] ∨ Instr.code i ≠ 0) : decodeCmdr w = some i := by
  unfold decode at h
  by_cases hw : w.extractLsb' 8 24 = 0
  · simp only [hw, if_true] at h
    simp only [decodeCmdr, hw, ne_eq, not_true_eq_false, if_false]
    cases hk : commandOfCode (w.extractLsb' 0 8) with
    | none => rw [hk] at h; cases h
    | some j => rw [hk] at h; cases h; rfl
  · simp only [hw, if_false] at h
    split at h
    · split at h
      · rename_i hx
        cases h
        rcases hc with hc | hc
        · cases hc
        · exact absurd (decodeTx_code hx) hc
      · cases h
    · cases h

/-- The first word of a table word that is a host command is its command word. -/
theorem decodeTableWord_command {nbits w : Nat} {i : Instr} (h : decodeTableWord nbits w = some i)
    (hc : Instr.code i ≠ 0) : decodeCmdr ((tableWords nbits w).getD 0 0) = some i := by
  unfold decodeTableWord at h
  split at h
  · rename_i hd
    cases h
    exact decode_command hd (.inr hc)
  · cases h

/-- Settles O32: `step_cmdr`, for a word the host writes and for one that `withFetchWord` places. -/
theorem stepRunsCommand : Obligations.StepRunsCommand := by
  refine ⟨?_, ?_⟩
  · intro s w a l i hp hi hin hd
    exact step_cmdr hp hi hin (decode_command hd (.inl rfl))
  · intro s nbits w i hp hi hw hc
    rw [State.withFetchWord, State.placeWord, hw]
    simp only [hc, if_false]
    exact step_placeCommand _ _ _ _ _ _ hp hi (decodeTableWord_command hw hc)

end Sys2Proof.Laws
end

