-- ==== Sys2Proof/Proofs/RegisterSpace.lean ====
section
/-! The peripheral register space (10_state.md R41): the thirteen offsets, and what a 32-bit write does. -/

namespace Sys2Proof.Laws

open Sys2Proof.Machine

/-- The thirteen offsets from `P_QSPI_REG_BASE`. -/
theorem periphReg_eq (k : Nat) : periphReg k =
    if k = 0x00 then some .cr
    else if k = 0x04 then some .dcr
    else if k = 0x08 then some .sr
    else if k = 0x0C then some .fcr
    else if k = 0x10 then some .dlr
    else if k = 0x14 then some .ccr
    else if k = 0x18 then some .ar
    else if k = 0x1C then some .abr
    else if k = 0x20 then some .dr
    else if k = 0x24 then some .psmkr
    else if k = 0x28 then some .psmar
    else if k = 0x2C then some .pir
    else if k = 0x30 then some .lptr
    else none := by
  have find_cons : ∀ (r : PeriphReg) (rs : List PeriphReg), (r :: rs).find? (fun r => r.offset == k) =
      if k = r.offset then some r else rs.find? fun r => r.offset == k := by
    intro r rs
    by_cases h : r.offset = k
    · simp [h]
    · rw [List.find?_cons_of_neg (by simpa using h), if_neg (Ne.symm h)]
  simp only [periphReg, find_cons, List.find?_nil]
  rfl

/-- `RegWrite(CR, v)` (20_memory.md R92): under the reference device ABORT reads 0 from the write on (log 18). -/
theorem putCr_regs (s : State) (v : Word) :
    (s.putCr v).regs = { s.regs with cr := if s.env = .envelope then v else setBit v 1 false } := by
  cases h : s.env <;> simp [State.putCr, h]

/-- Settles O51: the offsets (`periphReg_eq`), and each write as a write of the register at its address. -/
theorem registerMap : Obligations.RegisterMap := by
  refine ⟨?_, ?_, ?_⟩
  · intro p a
    unfold regAt
    by_cases h : p.regBase.toNat ≤ a
    · obtain ⟨k, rfl⟩ := Nat.exists_eq_add_of_le h
      simp only [Nat.le_add_right, if_true, Nat.add_sub_cancel_left, periphReg_eq, Nat.add_eq_left, Nat.add_left_cancel_iff]
    · have below : ∀ c, a ≠ p.regBase.toNat + c := fun c => by omega
      simp only [h, below, show a ≠ p.regBase.toNat from below 0, if_false]
  · intro s w v
    refine ⟨_, _, regAt_regAddr s.params w.reg, rfl, rfl, ?_⟩
    rw [busWrite_reg, writeReg_regs]
    cases w <;> rfl
  · intro s e
    refine ⟨_, e.apply s.tmpCr, _, regAt_regAddr s.params .cr, rfl, rfl, ?_, ?_⟩
    · cases e <;> rfl
    · rw [busWrite_cr, putCr_regs]

end Sys2Proof.Laws
end

