-- ==== Sys2Proof/Proofs/InstructionFrames.lean ====
section
/-! What an instruction leaves unchanged of the block's own state and of the peripheral registers, under every environment
and for every burst (10_state.md R27 to R42, R53): the ground is `exec_keeps`, with the steps an instruction may come to. -/

namespace Sys2Proof.Laws

open Sys2Proof.Machine

/-! ### The block's own state -/

theorem may_working {i : Instr} {g : Option (Nat × Nat)} {o : Op} (hm : may i g o = true) (hw : works i = false) :
    working o = false := by
  cases o with
  | setWork | advance | verifyLoop | blankLoop | orchFirst | orchLoop => simp [may, hw] at hm
  | _ => rfl

theorem work_step {i : Instr} {g : Option (Nat × Nat)} {u v : State} {o : Op} {l : List Op} (hm : may i g o = true)
    (he : Effect o (u.takeOp l) v) (hw : works i = false) : u.SameWork v := by
  have h := he.work (may_working hm hw)
  exact ⟨h.wAddr, h.wBuf, h.wRem, h.wDone, h.wN⟩

/-- The buffer that a running command's next step stores to is one that its instruction may store to. -/
theorem bufMay_of_bufWrite {i : Instr} {g : Option (Nat × Nat)} {u : State} {l : List Op} (hs : Shape i g u)
    (hl : u.todo = .bufWrite :: l) : bufMay i g u = true :=
  hs.buf (by simp [hl, storing])

/-- `CFGBUF` is kept by every step of an instruction that does not configure. -/
theorem cfgbuf_step {i : Instr} {g : Option (Nat × Nat)} {u v : State} {o : Op} {l : List Op} (hs : Shape i g u)
    (hl : u.todo = o :: l) (hm : may i g o = true) (he : Effect o (u.takeOp l) v) (hc : configures i = false) :
    v.cfgbuf = u.cfgbuf := by
  refine he.cfgbuf ?_ ?_ fun _ _ => hs.saved (by simp [hl]) hc
  · rintro rfl hb
    have := bufMay_of_bufWrite hs hl
    simp only [bufMay, show u.latchedBuf = .cfgbuf from hb, hc, Bool.false_eq_true] at this
  · rintro rfl
    simp [may, mayIssue, hc, show configures .tWrvcr = true from rfl] at hm

/-- The staging buffer is kept by every step of an instruction that does not stage. -/
theorem stg_step {i : Instr} {g : Option (Nat × Nat)} {u v : State} {o : Op} {l : List Op} (hs : Shape i g u)
    (hl : u.todo = o :: l) (he : Effect o (u.takeOp l) v) (hc : stages i = false) : v.stg = u.stg := by
  refine he.stg ?_
  rintro rfl hb
  have := bufMay_of_bufWrite hs hl
  simp only [bufMay, show u.latchedBuf = .stg from hb, hc, Bool.false_eq_true] at this

theorem mmapActive_step {i : Instr} {g : Option (Nat × Nat)} {u v : State} {o : Op} {l : List Op}
    (hm : may i g o = true) (he : Effect o (u.takeOp l) v) (hc : (maps i || stops i) = false) :
    v.mmapActive = u.mmapActive := by
  refine he.mmapActive ?_
  rintro b rfl
  rw [may, hc] at hm
  cases hm

/-- What an instruction `i` that began in `s` has left of the block's own state in `t`. -/
structure BlockKept (i : Instr) (s t : State) : Prop where
  arg : ∀ k, t.port.arg k = s.port.arg k
  results : t.fsm ≠ .idle → t.port.resst = s.port.resst ∧ t.port.rescnt = s.port.rescnt
  hostData : t.hostData = s.hostData
  cfgbuf : configures i = false → t.cfgbuf = s.cfgbuf
  stg : stages i = false → t.stg = s.stg
  work : works i = false → s.SameWork t
  mmapActive : (maps i || stops i) = false → t.mmapActive = s.mmapActive

theorem start_blockKept {i : Instr} {s t : State} (hi : s.idle = true) (h : startInstr i s = .next t) :
    BlockKept i s t := by
  obtain ⟨b, -, -, hcfg, hwork, -⟩ := start_frame hi h
  exact ⟨fun k => by rw [b.port], fun _ => by rw [b.port]; exact ⟨rfl, rfl⟩, b.hostData, hcfg, fun _ => b.stg,
    fun _ => hwork, fun _ => b.mmapActive⟩

/-- The results are written by a step that ends the command, and such a step leaves `fsm` Idle. -/
theorem results_step {i : Instr} {g : Option (Nat × Nat)} {u v : State} {o : Op} {l : List Op} (hs : Shape i g u)
    (hl : u.todo = o :: l) (he : Effect o (u.takeOp l) v) (hv : v.fsm ≠ .idle) : u.fsm ≠ .idle ∧ v.port = u.port := by
  refine ⟨(hs.running (by simp [hl])).1, ?_⟩
  rcases he.ends with ⟨h, -⟩ | ⟨-, h⟩
  · exact h
  · exact absurd h.fsm hv

theorem exec_blockKept {i : Instr} {s t : State} (hi : s.idle = true) (h : exec i s = .next t) : BlockKept i s t := by
  refine exec_keeps hi h (fun u hu => start_blockKept hi hu) ?_
  intro u v o l k hs hl hm _ _ he _
  refine ⟨fun j => (he.arg j).trans (k.arg j), fun hv => ?_, he.hostData.trans k.hostData,
    fun hc => (cfgbuf_step hs hl hm he hc).trans (k.cfgbuf hc), fun hc => (stg_step hs hl he hc).trans (k.stg hc),
    fun hc => sameWork_trans (k.work hc) (work_step hm he hc),
    fun hc => (mmapActive_step hm he hc).trans (k.mmapActive hc)⟩
  obtain ⟨hu, hp⟩ := results_step hs hl he hv
  rw [hp]
  exact k.results hu

theorem exec_trace_grows {i : Instr} {s t : State} (hi : s.idle = true) (h : exec i s = .next t) :
    ∃ new, t.trace = s.trace ++ new := by
  obtain ⟨new, hn, -⟩ := exec_trace (Q := fun _ _ => True) hi h (fun _ _ => trivial)
    (fun _ _ _ _ _ _ _ _ _ _ _ _ _ => trivial) (fun _ _ _ _ _ _ _ _ _ => trivial) (fun _ _ _ _ => trivial)
  exact ⟨new, hn⟩

/-- Settles O54: `exec_blockKept`, and the trace by `exec_trace`. -/
theorem blockFrame : Obligations.BlockFrame := by
  intro i s t hi h
  have k := exec_blockKept hi h
  refine ⟨k.arg, k.results, exec_trace_grows hi h, k.hostData, k.cfgbuf, k.stg, k.work, fun hm ha hd => ?_⟩
  exact k.mmapActive (by simp [hm, stops, ha, hd])

/-! ### The peripheral registers -/

/-- The registers written whole that an instruction may write. -/
def writes (i : Instr) : WholeReg → Bool
  | .fcr => true
  | .dlr | .ar => !maps i && !stops i
  | .ccr | .abr => !stops i
  | .psmkr | .psmar | .pir => polls i
  | .lptr => maps i

theorem may_writeReg (i : Instr) (g : Option (Nat × Nat)) (w : WholeReg) (v : Word) :
    may i g (.writeReg w v) = writes i w := by
  cases w <;> rfl

/-- The edits of `CR` that an instruction may make (10_state.md R42). -/
def edits (i : Instr) : CrEdit → Bool
  | .poll _ _ => polls i
  | .tcen _ => maps i
  | .abort => i == .eAbort
  | .disable => i == .eDeinit

theorem may_writeCr (i : Instr) (g : Option (Nat × Nat)) (e : CrEdit) : may i g (.writeCr e) = edits i e := by
  cases e <;> rfl

/-- What an instruction `i` that began in `s` has left of the peripheral registers in `t`, and of the trace where it runs no
engine operation. -/
structure RegsKept (i : Instr) (s t : State) : Prop where
  dcr : t.regs.dcr = s.regs.dcr
  whole : ∀ w, writes i w = false → regOf t.regs w = regOf s.regs w
  crBit : ∀ b, (∀ e, edits i e = true → b ∉ crFields e) → t.regs.cr.getLsbD b = s.regs.cr.getLsbD b
  cr : (∀ e, edits i e = false) → t.regs.cr = s.regs.cr
  dr : (maps i || stops i) = true → t.regs.dr = s.regs.dr
  trace : stops i = true → t.trace = s.trace

theorem start_regsKept {i : Instr} {s t : State} (hi : s.idle = true) (h : startInstr i s = .next t) : RegsKept i s t := by
  obtain ⟨b, -⟩ := start_frame hi h
  constructor <;> simp [b.regs, b.trace]

theorem exec_regsKept {i : Instr} {s t : State} (hi : s.idle = true) (h : exec i s = .next t) : RegsKept i s t := by
  refine exec_keeps hi h (fun u hu => start_regsKept hi hu) ?_
  intro u v o l k hs hl hm _ _ he ho
  refine ⟨he.dcr.trans k.dcr, fun w hw => ?_, fun b hb => ?_, fun hc => ?_, fun hc => ?_, fun hc => ?_⟩
  · refine (he.reg w ?_).trans (k.whole w hw)
    rintro x rfl
    rw [may_writeReg, hw] at hm
    cases hm
  · refine (cr_step hs hl he ho ?_).trans (k.crBit b hb)
    rintro e rfl
    exact hb e (by rwa [may_writeCr] at hm)
  · refine (he.cr ?_).trans (k.cr hc)
    rintro e rfl
    rw [may_writeCr, hc] at hm
    cases hm
  · have moves_no_byte : ∀ x, may i (s.hostTarget i) x = (!maps i && !stops i) → o ≠ x := by
      rintro x hx rfl
      rw [hx, ← Bool.not_or, hc] at hm
      cases hm
    exact (he.dr (moves_no_byte _ rfl) (moves_no_byte _ rfl)).trans (k.dr hc)
  · refine (he.trace ?_).trans (k.trace hc)
    cases o with
    | emit | drWrite | drRead => simp [may, hc] at hm
    | _ => rfl

/-- PMM and APMS are written by polls alone. -/
theorem poll_fields {i : Instr} {e : CrEdit} (he : edits i e = true) (hp : polls i = false) :
    22 ∉ crFields e ∧ 23 ∉ crFields e := by
  cases e with
  | poll pmm apms => rw [edits, hp] at he; cases he
  | tcen | abort | disable => simp [crFields]

/-- TCEN is written by mapping alone. -/
theorem tcen_field {i : Instr} {e : CrEdit} (he : edits i e = true) (hm : maps i = false) : 3 ∉ crFields e := by
  cases e with
  | tcen b => rw [edits, hm] at he; cases he
  | poll | abort | disable => simp [crFields]

/-- EN is written by `E_DEINIT` alone. -/
theorem enable_field {i : Instr} {e : CrEdit} (he : edits i e = true) (hd : i ≠ .eDeinit) : 0 ∉ crFields e := by
  cases e with
  | disable => exact absurd (beq_iff_eq.1 he) hd
  | poll | tcen | abort => simp [crFields]

/-- The bits of `CR` that no instruction changes: every one but the five named. -/
theorem not_mem_crFields {b : Nat} (h0 : b ≠ 0) (h1 : b ≠ 1) (h3 : b ≠ 3) (h22 : b ≠ 22) (h23 : b ≠ 23) (e : CrEdit) :
    b ∉ crFields e := by
  cases e <;> simp [crFields, *]

/-- Settles O55: `exec_regsKept`, where each register and each field of `CR` is read off `writes` and `edits`. -/
theorem registerFrame : Obligations.RegisterFrame := by
  intro i s t hi h
  have k := exec_regsKept hi h
  refine ⟨k.dcr, fun hp => ?_, fun hm => ?_, fun hd => ?_, fun b h0 h1 h3 h22 h23 => ?_, fun hp hm ha hd => ?_, fun hc => ?_,
    fun hc => ?_⟩
  · exact ⟨k.whole .psmar hp, k.whole .psmkr hp, k.whole .pir hp, k.crBit 22 fun _ he => (poll_fields he hp).1,
      k.crBit 23 fun _ he => (poll_fields he hp).2⟩
  · exact ⟨k.whole .lptr hm, k.crBit 3 fun _ he => tcen_field he hm⟩
  · exact k.crBit 0 fun _ he => enable_field he hd
  · exact k.crBit b fun e _ => not_mem_crFields h0 h1 h3 h22 h23 e
  · refine k.cr fun e => ?_
    cases e <;> simp [edits, hp, hm, ha, hd]
  · have hms : (maps i || stops i) = true := by simpa [stops] using hc
    have unframed : (!maps i && !stops i) = false := by rw [← Bool.not_or, hms]; rfl
    exact ⟨k.whole .dlr unframed, k.whole .ar unframed, k.dr hms⟩
  · have hs : stops i = true := by simpa [stops] using hc
    have unframed : (!stops i) = false := by rw [hs]; rfl
    exact ⟨k.whole .ccr unframed, k.whole .abr unframed, k.trace hs⟩

end Sys2Proof.Laws
end

