-- ==== Sys2Proof/Proofs/MemoryWindow.lean ====
section
/-! The memory-mapped window (20_memory.md R64, R67, R80): which loads it answers, and with what. -/

namespace Sys2Proof.Laws

open Sys2Proof.Machine

/-- The loads that the window answers (R64, log 22). -/
theorem windowOk_iff {s : State} {a : Word} {w : Nat} : s.windowOk a w = true ↔
    s.mmapActive = true ∧ s.fsm = .idle ∧ w ∈ [1, 2, 4] ∧ s.params.memBase.toNat ≤ a.toNat ∧
      a.toNat + w ≤ s.params.memBase.toNat + s.params.size := by
  simp only [State.windowOk, State.inWindow, Bool.and_eq_true, Bool.or_eq_true, beq_iff_eq,
    decide_eq_true_eq, List.mem_cons, List.not_mem_nil, or_false, and_assoc, or_assoc]
  refine and_congr_right fun _ => and_congr_right fun _ => and_congr_right fun _ => and_congr_right fun h => ?_
  rw [State.windowOffset]
  omega

theorem windowLoad_answers {s : State} {a : Word} {w : Nat} (hf : s.fault = none) (h : s.windowOk a w = true) :
    hostAction (.windowLoad a w) s = .next { s with hostData := some (s.windowValue a w), draws := s.draws + 1 } := by
  simp [hostAction, windowLoad, not_faulted hf, h]

theorem windowLoad_faults {s : State} {a : Word} {w : Nat} (hf : s.fault = none) (h : s.windowOk a w = false) :
    hostAction (.windowLoad a w) s = .next (s.raiseFault .windowAccess) := by
  simp [hostAction, windowLoad, not_faulted hf, h]

theorem windowStore_faults {s : State} (a : Word) (w : Nat) (v : Word) (hf : s.fault = none) :
    hostAction (.windowStore a w v) s = .next (s.raiseFault .windowAccess) := by
  simp [hostAction, windowStore, not_faulted hf]

/-- A load inside the flash of an idle, mapped block is answered. -/
theorem windowLoad_inFlash {s : State} {a : Word} {o w : Nat} (hi : s.idle = true) (hm : s.mmapActive = true)
    (hw : w ∈ [1, 2, 4]) (ha : a.toNat = s.params.memBase.toNat + o) (ho : o + w ≤ s.params.size) :
    hostAction (.windowLoad a w) s = .next { s with hostData := some (s.windowValue a w), draws := s.draws + 1 } := by
  obtain ⟨hidle, -, hf⟩ := idle_facts hi
  exact windowLoad_answers hf (windowOk_iff.2 ⟨hm, hidle, hw, by omega, by omega⟩)

theorem windowOffset_of {s : State} {a : Word} {o : Nat} (ha : a.toNat = s.params.memBase.toNat + o) :
    s.windowOffset a = o := by
  simp [State.windowOffset, ha]

/-- While the reference device is mapped a load is the array's bytes, little-endian (R67). -/
theorem windowValue_mapped {s : State} {d : RefDev} {a : Word} {o w : Nat} (he : s.env = .reference d)
    (hc : d.cur = .mapped) (hw : w ≤ 4) (ha : a.toNat = s.params.memBase.toNat + o) :
    (s.windowValue a w).toNat = ((List.range w).map fun j => (d.arrayByte (o + j)).toNat * 2 ^ (8 * j)).sum := by
  simp only [State.windowValue, he, hc, if_true, windowOffset_of ha]
  exact (leLoad_toNat d.array o w hw).1

/-- A word cut to `w` bytes. -/
theorem and_sampleMask_lt (v : Word) {w : Nat} (hw : w ∈ [1, 2, 4]) : (v &&& sampleMask w).toNat < 2 ^ (8 * w) := by
  have mask_lt : ∀ w ∈ [1, 2, 4], (sampleMask w).toNat < 2 ^ (8 * w) := by decide
  rw [BitVec.toNat_and]
  exact Nat.and_lt_two_pow _ (mask_lt w hw)

/-- Under the envelope a load has some value of its width (R80 item 4). -/
theorem windowValue_envelope_lt {s : State} (a : Word) {w : Nat} (he : s.env = .envelope) (hw : w ∈ [1, 2, 4]) :
    (s.windowValue a w).toNat < 2 ^ (8 * w) := by
  simp only [State.windowValue, he]
  exact and_sampleMask_lt _ hw

/-- Settles O42: `windowOk_iff` divides the loads into those the window answers and those that fault. -/
theorem windowAccesses : Obligations.WindowAccesses := by
  refine ⟨?_, ?_, ?_⟩
  · intro s d a o w hi hm he hc hw ha ho
    have width_le : ∀ w ∈ [1, 2, 4], w ≤ 4 := by decide
    exact ⟨_, windowLoad_inFlash hi hm hw ha ho, windowValue_mapped he hc (width_le w hw) ha⟩
  · intro s a o w hi hm he hw ha ho
    exact ⟨_, windowLoad_inFlash hi hm hw ha ho, windowValue_envelope_lt a he hw⟩
  · intro s a v w hf
    refine ⟨fun hbad => windowLoad_faults hf ?_, windowStore_faults a w v hf⟩
    rw [Bool.eq_false_iff, ne_eq, windowOk_iff]
    rintro ⟨hm, hidle, hw, hlow, hhigh⟩
    rcases hbad with h | h | h | h | h
    · rw [hm] at h; cases h
    · exact h hidle
    · omega
    · omega
    · exact h hw

end Sys2Proof.Laws
end

