-- ==== Sys2Proof/Proofs/PollMatch.lean ====
section
/-! When an auto-poll evaluation matches (20_memory.md R90), bit by bit. -/

namespace Sys2Proof.Laws

open Sys2Proof.Machine

theorem word_and_eq_zero {x y : Word} :
    x &&& y = 0 ↔ ∀ b, b < 32 → ¬(x.getLsbD b = true ∧ y.getLsbD b = true) := by
  constructor
  · intro h b _
    rw [← Bool.and_eq_true, ← BitVec.getLsbD_and, h]
    simp
  · exact fun h => mask_zero fun b hb hy => by simpa [hy] using h b hb

/-- The masked bits among the low `8 * sample`. -/
theorem pollMask_bit {r : Regs} {sample b : Nat} (h1 : 1 ≤ sample) (h4 : sample ≤ 4) (hb : b < 32) :
    (r.psmkr &&& sampleMask sample).getLsbD b = true ↔ r.psmkr.getLsbD b = true ∧ b < 8 * sample := by
  rw [BitVec.getLsbD_and, sampleMask_bit h1 h4 hb, Bool.and_eq_true, decide_eq_true_eq]

/-- A bit of the status bytes differs from PSMAR's. -/
theorem pollDiff_bit {r : Regs} {v : Byte} {b : Nat} (hb : b < 32) :
    (replicateByte v ^^^ r.psmar).getLsbD b = true ↔ r.psmar.getLsbD b ≠ v.getLsbD (b % 8) := by
  rw [BitVec.getLsbD_xor, replicate_bit v hb, Bool.xor_iff_ne, ne_comm]

theorem pollSame_bit {r : Regs} {v : Byte} {b : Nat} (hb : b < 32) :
    (~~~(replicateByte v ^^^ r.psmar)).getLsbD b = true ↔ r.psmar.getLsbD b = v.getLsbD (b % 8) := by
  rw [BitVec.getLsbD_not, decide_eq_true hb, Bool.true_and, Bool.not_eq_true', ← Bool.not_eq_true, pollDiff_bit hb,
    not_not]

theorem pollMatches_and {r : Regs} {sample : Nat} {v : Byte} : pollMatches r false sample v = true ↔
    (replicateByte v ^^^ r.psmar) &&& (r.psmkr &&& sampleMask sample) = 0 := by
  simp [pollMatches]

theorem pollMatches_or {r : Regs} {sample : Nat} {v : Byte} : pollMatches r true sample v = true ↔
    ¬ ~~~(replicateByte v ^^^ r.psmar) &&& (r.psmkr &&& sampleMask sample) = 0 := by
  simp [pollMatches]

/-- Settles O52: AND mode matches when no masked bit differs, OR mode when it is not so that no masked bit equals. -/
theorem pollMatching : Obligations.PollMatching := by
  intro r sample v h1 h4
  have wide : ∀ {b}, b < 8 * sample → b < 32 := fun h => by omega
  refine ⟨?_, ?_⟩
  · rw [pollMatches_and, word_and_eq_zero]
    constructor
    · intro h b hb hmask
      by_contra hne
      exact h b (wide hb) ⟨(pollDiff_bit (wide hb)).2 hne, (pollMask_bit h1 h4 (wide hb)).2 ⟨hmask, hb⟩⟩
    · rintro h b hb ⟨hdiff, hmask⟩
      obtain ⟨hmask, hlow⟩ := (pollMask_bit h1 h4 hb).1 hmask
      exact (pollDiff_bit hb).1 hdiff (h b hlow hmask)
  · rw [pollMatches_or, word_and_eq_zero]
    push Not
    constructor
    · rintro ⟨b, hb, hsame, hmask⟩
      obtain ⟨hmask, hlow⟩ := (pollMask_bit h1 h4 hb).1 hmask
      exact ⟨b, hlow, hmask, (pollSame_bit hb).1 hsame⟩
    · rintro ⟨b, hb, hmask, hsame⟩
      exact ⟨b, wide hb, (pollSame_bit (wide hb)).2 hsame, (pollMask_bit h1 h4 (wide hb)).2 ⟨hmask, hb⟩⟩

end Sys2Proof.Laws
end

