-- ==== Sys2Proof/Proofs/HostMemory.lean ====
section
/-! The bytes of host memory that an instruction may write (20_memory.md R62, 42_flash_operations.md R192, 40_engine.md
R136): those of the range its operands name. -/

namespace Sys2Proof.Laws

open Sys2Proof.Machine

/-- A running command's store into host memory goes to a byte of the command's range. -/
theorem hostStore_inTarget {i : Instr} {g : Option (Nat × Nat)} {u : State} {l : List Op} {a : Word} (hs : Shape i g u)
    (hl : u.todo = .bufWrite :: l) (hb : u.latchedBuf = .host a) :
    g = some (a.toNat, u.latchedLen) ∧ u.idx.toNat < u.latchedLen := by
  have target := bufMay_of_bufWrite hs hl
  simp only [bufMay, hb, beq_iff_eq] at target
  exact ⟨target, hs.bound (by simp [hl, isBufWrite])⟩

theorem memByte_step {i : Instr} {g : Option (Nat × Nat)} {u v : State} {o : Op} {l : List Op} {a : Nat}
    (hs : Shape i g u) (hl : u.todo = o :: l) (he : Effect o (u.takeOp l) v)
    (ha : ∀ b n, g = some (b, n) → ¬(b ≤ a ∧ a < b + n)) : v.memByte a = u.memByte a := by
  refine he.hostMem a ?_
  rintro rfl b hb rfl
  obtain ⟨target, bound⟩ := hostStore_inTarget hs hl hb
  exact ha _ _ target ⟨Nat.le_add_right _ _, Nat.add_lt_add_left bound _⟩

/-- Settles O53: a start writes no host memory, and `memByte_step` for every step of the run. -/
theorem hostMemoryFrame : Obligations.HostMemoryFrame := by
  intro i s t hi h a ha
  refine exec_keeps (P := fun u => u.memByte a = s.memByte a) hi h (fun u hu => ?_) ?_
  · exact memByte_eq (start_frame hi hu).1.hostMem a
  · intro u v o l kept hs hl _ _ _ he _
    exact (memByte_step hs hl he ha).trans kept

end Sys2Proof.Laws
end

