-- ==== Sys2Proof/Proofs/Programming.lean ====
section
/-! Programming only clears bits (20_memory.md R70, R75, R91). -/

namespace Sys2Proof.Laws

open Sys2Proof.Machine

/-- Settles O58: a program ANDs every byte with a mask that does not depend on the array (`programBytes_mask`). -/
theorem programClearsBits : Obligations.ProgramClearsBits := by
  rintro p a data array _ o - hwf rfl
  obtain ⟨mask, programmed⟩ := programBytes_mask (p := p) (a := a) (i := 0) data
  refine ⟨?_, ?_⟩
  · rw [programmed array hwf, BitVec.and_comm, ← BitVec.and_assoc, BitVec.and_comm (~~~_), BitVec.and_not_self]
    exact BitVec.zero_and
  · rw [programmed _ (programBytes_wf hwf), programmed array hwf, BitVec.and_assoc, BitVec.and_self]

end Sys2Proof.Laws
end

