-- ==== Sys2Proof/Proofs/FlashCommandRuns.lean ====
section
/-! `ERASE_SECTOR`, `PROGRAM_PAGE` and `READ` on a ready reference device, from their start to their end
(42_flash_operations.md R206, R210, R216). -/

namespace Sys2Proof.Laws

open Sys2Proof.Machine

theorem startFlash_ok {s t : State} {l : List (Bool × FaultReason)} (h : firstFault l = none) :
    s.startFlash l t = .next t := by
  simp only [State.startFlash, h]

/-- A command with the operands `dest`, size and buffer finds them in ARG0 to ARG2 (30_encoding.md R112). -/
theorem operands_written {i : Instr} {s : State} {x y z : Word} (hi : argsOf i = [0, 1, 2]) (h0 : s.port.arg0 = some x)
    (h1 : s.port.arg1 = some y) (h2 : s.port.arg2 = some z) :
    s.argsMissing i = false ∧ s.arg 0 = x ∧ s.arg 1 = y ∧ s.arg 2 = z := by
  simp [State.argsMissing, hi, State.arg, Port.arg, h0, h1, h2]

theorem admits_of_admitsAll {s : State} {a n j : Nat} (h : s.admitsAll a n = true) (hj : j < n) :
    s.admits (a + j) = true :=
  List.all_eq_true.1 h j (List.mem_range.2 hj)

section
variable {s : State} {d : RefDev} {k : Nat} (h : s.CanRun d k)
include h

/-! ### The starts, once their checks pass -/

theorem startInstr_eraseSector {addr : Word} (h0 : s.port.arg0 = some addr) (ha : addr.toNat < s.params.size) :
    startInstr .eraseSector s =
      .next (withTodo (mutateOps (.tSe addr) ++ [.finish .ok 0]) (begun .eraseSector .writeEnablePending s)) := by
  have written : s.argsMissing .eraseSector = false := by simp [State.argsMissing, argsOf, Port.arg, h0]
  have operand : s.arg 0 = addr := by simp [State.arg, Port.arg, h0]
  have passed : firstFault (s.eraseChecks addr) = none := by
    rw [State.eraseChecks, canRun_engineChecks h, owed_erase, owedErase, if_neg (by omega)]
  rw [startInstr, startEraseSector, startCommand_ok h written, operand, startFlash_ok passed, begin_eq]

theorem startInstr_programPage {dest n src : Word} (h0 : s.port.arg0 = some dest) (h1 : s.port.arg1 = some n)
    (h2 : s.port.arg2 = some src) (hn : 1 ≤ n.toNat) (hsize : dest.toNat + n.toNat ≤ s.params.size)
    (hpage : dest.toNat % s.params.page + n.toNat ≤ s.params.page) (hsrc : inHost src n) :
    startInstr .programPage s =
      .next (withTodo (mutateOps (.tQpp dest n src) ++ [.finish .ok 0]) (begun .programPage .writeEnablePending s)) := by
  obtain ⟨written, e0, e1, e2⟩ := operands_written (i := .programPage) rfl h0 h1 h2
  have passed : firstFault (s.programChecks dest n src) = none := by
    rw [State.programChecks, canRun_engineChecks h, owed_program, owedProgram, if_neg (by omega),
      if_neg (not_not_intro ⟨by omega, hsize⟩), if_neg (not_not_intro hsrc), if_neg (by omega)]
  rw [startInstr, startProgramPage, startCommand_ok h written, e0, e1, e2, startFlash_ok passed, begin_eq]

theorem startInstr_read {dest n buf : Word} (h0 : s.port.arg0 = some dest) (h1 : s.port.arg1 = some n)
    (h2 : s.port.arg2 = some buf) (hn : 1 ≤ n.toNat) (hsize : dest.toNat + n.toNat ≤ s.params.size)
    (hbuf : inHost buf n) : startInstr .read s =
      .next (withTodo [.issue (.tQread dest n (.host buf)), .finish .ok 0] (begun .read .reading s)) := by
  obtain ⟨written, e0, e1, e2⟩ := operands_written (i := .read) rfl h0 h1 h2
  have passed : firstFault (s.readChecks dest n buf) = none := by
    rw [State.readChecks, canRun_engineChecks h, owed_read, owedRead, if_neg (by omega),
      if_neg (not_not_intro ⟨by omega, hsize⟩), if_neg (not_not_intro hbuf)]
  rw [startInstr, startReadCommand, startCommand_ok h written, e0, e1, e2, startFlash_ok passed, begin_eq]

/-! ### The runs -/

/-- What a mutating command that changes the array by `f`, with the trace entry `x` of its transaction, has left in `t` of
the state `s` and in `e` of the device `d` (42_flash_operations.md R198). -/
structure Mutated (s t : State) (d e : RefDev) (f : List Host.Cell → List Host.Cell) (x : TraceEntry) : Prop where
  ended : s.Ended t .ok 0
  buffers : s.SameBuffers t
  work : s.SameWork t
  env : t.env = .reference e
  ready : e.ready = true
  free : e.bc = 0
  unlatched : e.latched s.params = false
  fcfg : e.fcfg = d.fcfg
  busyPolls : e.busyPolls = d.busyPolls
  array : e.array = f d.array
  trace : t.trace = s.trace ++ wenEntries s.params ++ [x, wipEntry s.params]
  usable : t.usable = true

/-- The array after the erase of the sector of `a` (R211). -/
def sectorErased (p : Params) (a : Nat) : List Host.Cell → List Host.Cell :=
  cellClear fun o => decide (o / p.sector = a / p.sector)

theorem eraseSector_ends {addr : Word} (hb : d.bc = 0) (hbudget : budgetAllows s.params d.busyPolls = true)
    (h0 : s.port.arg0 = some addr) (ha : addr.toNat < s.params.size) (hk : 72 + d.busyPolls ≤ k) :
    ∃ t e, exec .eraseSector s = .next t ∧ Mutated s t d e (sectorErased s.params addr.toNat)
      (entryOf .eWrite (sectorEraseHeader s.params addr) .indirectWrite 0 []) := by
  have hp := canRun_params h
  obtain ⟨t, e, hx, ended, buffers, work, env, ready, free, unlatched, fcfg, array, trace, usable, busyPolls⟩ :=
    mutate_ends (i := .tSe addr) (t := commandOnly (sectorEraseHeader s.params addr)) (bytes := []) h hb
      (startInstr_eraseSector h h0 ha) hbudget
      (fun y e m hy hpar => by
        rw [← hpar]
        exact start_running hy m (.tSe addr) fun s => s.startWrite (commandOnly (sectorEraseHeader s.params addr)))
      (ok_sectorErase hp ha) rfl (fun _ hj => absurd hj (Nat.not_lt_zero _))
      (fun free e he hl => command_se hp free addr he [] hl) (by simpa using hk)
  exact ⟨t, e, hx, ended, buffers, work, env, ready, free, unlatched, fcfg, busyPolls, array, trace, usable⟩

theorem programPage_ends {dest n src : Word} (hb : d.bc = 0) (hbudget : budgetAllows s.params d.busyPolls = true)
    (h0 : s.port.arg0 = some dest) (h1 : s.port.arg1 = some n) (h2 : s.port.arg2 = some src) (hn : 1 ≤ n.toNat)
    (hsize : dest.toNat + n.toNat ≤ s.params.size) (hpage : dest.toNat % s.params.page + n.toNat ≤ s.params.page)
    (hsrc : inHost src n) (hadm : s.admitsAll src.toNat n.toNat = true) (hk : 72 + d.busyPolls + 5 * n.toNat ≤ k) :
    ∃ t e, exec .programPage s = .next t ∧
      Mutated s t d e (programBytes s.params dest.toNat 0 (s.memBytes src.toNat n.toNat))
        (entryOf .eWrite (quadProgramHeader s.params dest) .indirectWrite n (s.memBytes src.toNat n.toNat)) := by
  have hp := canRun_params h
  have hn0 : n ≠ 0 := by rintro rfl; simp at hn
  have bytes_length : (s.memBytes src.toNat n.toNat).length = n.toNat := by simp [State.memBytes]
  obtain ⟨t, e, hx, ended, buffers, work, env, ready, free, unlatched, fcfg, array, trace, usable, busyPolls⟩ :=
    mutate_ends (i := .tQpp dest n src) (t := quadProgram s.params dest n src)
      (bytes := s.memBytes src.toNat n.toNat) h hb (startInstr_programPage h h0 h1 h2 hn hsize hpage hsrc) hbudget
      (fun y e m hy hpar => by
        rw [← hpar]
        exact start_running hy m (.tQpp dest n src) fun s => s.startWrite (quadProgram s.params dest n src))
      (ok_quadProgram hp (by omega) hn0) bytes_length
      (fun j hj => ⟨admits_of_admitsAll hadm (by omega), (memBytes_get hj).symm⟩)
      (fun free e he hl => command_qpp hp free dest he _ hl) (by omega)
  exact ⟨t, e, hx, ended, buffers, work, env, ready, free, unlatched, fcfg, busyPolls, array, trace, usable⟩

/-- What a `READ` of `n` bytes from `dest` into host memory at `buf` has left in `t` of the state `s` and in `e` of the
device `d` (42_flash_operations.md R217). -/
structure Fetched (s t : State) (d e : RefDev) (dest n buf : Word) : Prop where
  ended : s.Ended t .ok 0
  work : s.SameWork t
  env : t.env = .reference e
  ready : e.ready = true
  chip : e.chip = { d.chip with rsten := false }
  hostMem : t.hostMem = writeCells hostDefault s.hostMem buf.toNat (d.arrayBytes dest.toNat n.toNat)
  stg : t.stg = s.stg
  cfgbuf : t.cfgbuf = s.cfgbuf
  unmapped : t.mmapActive = false
  trace : t.trace = s.trace ++
    [entryOf .eRead (quadReadHeader s.params dest) .indirectRead n (d.arrayBytes dest.toNat n.toNat)]

theorem read_ends {dest n buf : Word} (hb : d.bc = 0) (h0 : s.port.arg0 = some dest) (h1 : s.port.arg1 = some n)
    (h2 : s.port.arg2 = some buf) (hn : 1 ≤ n.toNat) (hsize : dest.toNat + n.toNat ≤ s.params.size)
    (hbuf : inHost buf n) (hadm : s.admitsAll buf.toNat n.toNat = true) (hk : 16 + 5 * n.toNat ≤ k) :
    ∃ t e, exec .read s = .next t ∧ Fetched s t d e dest n buf := by
  have hp := canRun_params h
  have hn0 : n ≠ 0 := by rintro rfl; simp at hn
  have live := canRun_live h .read (f := .reading) (by decide)
  obtain ⟨c, y, e, free, hc, run, ly, kept, chip, filled, trace⟩ := run_txRead (i := .tQread dest n (.host buf))
    (t := quadRead s.params dest n (.host buf)) (l := [.finish .ok 0]) live
    (start_running live _ (.tQread dest n (.host buf)) fun s => s.startRead (quadRead s.params dest n (.host buf)))
    (ok_quadRead hp (by omega) hn0) (fun j hj => admits_of_admitsAll hadm hj)
  have response : d.response s.params free s.params.opc.qread dest n.toNat = d.arrayBytes dest.toNat n.toNat :=
    response_inFlash hp free hb dest n hsize
  have hc' : c + 1 ≤ s.burst := by
    have := h.steps
    have hc : c ≤ 15 + 5 * n.toNat := hc
    omega
  refine ⟨_, e, exec_ends (startInstr_read h h0 h1 h2 hn hsize hbuf) run ly.ready.calm hc',
    ended kept.same (usable_iff.1 h.usable).2.2.2.1 _ _, ⟨kept.wAddr, kept.wBuf, kept.wRem, kept.wDone, kept.wN⟩,
    ly.ready.env, ly.ready.dev, chip.trans (command_reads hp free dest (d := d.chip) hb [] (.inr (.inr rfl))), ?_,
    filled.stg, filled.cfgbuf, ly.unmapped, ?_⟩
  · rw [← response]; exact filled.hostMem
  · rw [← response]; exact trace

end

end Sys2Proof.Laws
end

