-- ==== Sys2Proof/Proofs/RoundTrip.lean ====
section
/-! Erase, program, read (20_memory.md R78): the bytes that come back are the ones that were programmed. -/

namespace Sys2Proof.Laws

open Sys2Proof.Machine

/-! ### One command after another -/

/-- The premises of a run do not speak of the command port. -/
theorem canRun_port {s : State} {d : RefDev} {k : Nat} (h : s.CanRun d k) (p : Port) :
    ({ s with port := p } : State).CanRun d k :=
  ⟨h.usable, h.memory, h.env, h.ready, h.steps⟩

/-- A mutating command leaves a block that takes the next one. -/
theorem Mutated.canRun {s t : State} {d e : RefDev} {f : List Host.Cell → List Host.Cell} {x : TraceEntry} {i : Instr}
    {k : Nat} (m : Mutated s t d e f x) (h : s.CanRun d k) (hx : exec i s = .next t) : t.CanRun e k :=
  ⟨m.usable, memoryWf_exec h.memory hx, m.env, m.ready, m.ended.burst ▸ h.steps⟩

theorem Mutated.memByte {s t : State} {d e : RefDev} {f : List Host.Cell → List Host.Cell} {x : TraceEntry}
    (m : Mutated s t d e f x) (a : Nat) : t.memByte a = s.memByte a :=
  memByte_eq m.buffers.hostMem a

theorem ended_resst {s t : State} {st : Status} {c : Word} (h : s.Ended t st c) : t.port.resst = some st := by
  rw [h.port]

theorem admitsAll_of {s t : State} (h : t.admitted = s.admitted) (a n : Nat) : t.admitsAll a n = s.admitsAll a n := by
  simp only [State.admitsAll, State.admits, h]

theorem canRun_arrayWf {s : State} {d : RefDev} {k : Nat} (h : s.CanRun d k) : cellsWf arrayDefault d.array = true := by
  have hw := envWf_of h.memory
  rw [h.env] at hw
  simp only [envWf, arrayWf, Bool.and_eq_true] at hw
  exact hw.1

theorem canRun_hostWf {s : State} {d : RefDev} {k : Nat} (h : s.CanRun d k) : cellsWf hostDefault s.hostMem = true :=
  ((memoryWf_iff s).1 h.memory).1.1

/-! ### The bytes -/

/-- What lies in one page lies in one sector (10_state.md R55). -/
theorem sector_of_page {p : Params} (hp : WfParams p) {a i : Nat} (h : a % p.page + i < p.page) :
    (a + i) / p.sector = a / p.sector := by
  have same_page : (a + i) / p.page = a / p.page := by
    rw [Nat.add_div hp.page, Nat.div_eq_of_lt (a := i) (by omega), Nat.mod_eq_of_lt (a := i) (by omega),
      if_neg (by omega)]
    rfl
  obtain ⟨q, hq⟩ := Nat.dvd_of_mod_eq_zero hp.sectorPage
  rw [hq, ← Nat.div_div_eq_div_mul, ← Nat.div_div_eq_div_mul, same_page]

/-- The bytes of the sector read as erased (R211). -/
theorem arrayByte_erased {p : Params} {d e : RefDev} {a o : Nat} (he : e.array = sectorErased p a d.array)
    (ho : o / p.sector = a / p.sector) : e.arrayByte o = 0xFF := by
  rw [RefDev.arrayByte, he, sectorErased, cellRead_cellClear, if_pos (decide_eq_true ho)]
  rfl

/-- A program within one page ANDs byte `i` of its data into offset `a + i` (R75). -/
theorem arrayByte_programmed {p : Params} {s : State} {d e : RefDev} {a n src i : Nat}
    (he : e.array = programBytes p a 0 (s.memBytes src n) d.array) (hwf : cellsWf arrayDefault d.array = true)
    (hpage : a % p.page + n ≤ p.page) (hsize : a + n ≤ p.size) (hi : i < n) :
    e.arrayByte (a + i) = d.arrayByte (a + i) &&& s.memByte (src + i) := by
  have bytes_length : (s.memBytes src n).length = n := by simp [State.memBytes]
  rw [RefDev.arrayByte, he, programBytes_read hwf (by omega) (by omega), if_pos (by omega), Nat.add_zero,
    Nat.add_sub_cancel_left, List.getD_eq_getElem _ _ (by omega), memBytes_get]
  rfl

/-- A read stores byte `i` of the array's range at `buf + i` (R217). -/
theorem Fetched.memByte {s t : State} {d e : RefDev} {dest n buf : Word} {i : Nat} (f : Fetched s t d e dest n buf)
    (hwf : cellsWf hostDefault s.hostMem = true) (hi : i < n.toNat) :
    t.memByte (buf.toNat + i) = d.arrayByte (dest.toNat + i) := by
  have bytes_length := arrayBytes_length d dest.toNat n.toNat
  rw [State.memByte, f.hostMem, cellRead_writeCells hwf, if_pos (by omega), Nat.add_sub_cancel_left,
    List.getD_eq_getElem _ _ (by omega)]
  simp [RefDev.arrayBytes]

/-- Settles O59: the three commands in a row (`eraseSector_ends`, `programPage_ends`, `read_ends`); each byte of the range
is 0xFF after the erase, so the program leaves the first buffer's byte. -/
theorem roundTrip : Obligations.RoundTrip := by
  intro s d dest n src dst h hb hbudget hn _ hsize hpage hsrc hdst hasrc hadst
  have hp := canRun_params h
  have h1 := canRun_port h { s.port with arg0 := some dest }
  obtain ⟨t1, e1, x1, erased⟩ := eraseSector_ends h1 hb hbudget rfl (show dest.toNat < s.params.size by omega) (by omega)
  have params1 : t1.params = s.params := erased.ended.params
  have polls1 : e1.busyPolls = d.busyPolls := erased.busyPolls
  have h2 := canRun_port (erased.canRun h1 x1) { t1.port with arg0 := some dest, arg1 := some n, arg2 := some src }
  obtain ⟨t2, e2, x2, programmed⟩ := programPage_ends h2 erased.free (by rw [params1, polls1]; exact hbudget) rfl rfl rfl
    hn (by rw [params1]; exact hsize) (by rw [params1]; exact hpage) hsrc
    ((admitsAll_of erased.ended.admitted _ _).trans hasrc) (by omega)
  have params2 : t2.params = s.params := programmed.ended.params.trans params1
  have admitted2 : t2.admitted = s.admitted := programmed.ended.admitted.trans erased.ended.admitted
  have h3 := canRun_port (programmed.canRun h2 x2) { t2.port with arg0 := some dest, arg1 := some n, arg2 := some dst }
  obtain ⟨t3, e3, x3, fetched⟩ := read_ends h3 programmed.free rfl rfl rfl hn (by rw [params2]; exact hsize) hdst
    ((admitsAll_of admitted2 _ _).trans hadst) (by omega)
  refine ⟨t1, t2, t3, x1, ended_resst erased.ended, x2, ended_resst programmed.ended, x3, ended_resst fetched.ended,
    fun i hi => ?_⟩
  have erased_byte : e1.arrayByte (dest.toNat + i) = 0xFF :=
    arrayByte_erased erased.array (sector_of_page hp (by omega))
  calc t3.memByte (dst.toNat + i) = e2.arrayByte (dest.toNat + i) := fetched.memByte (canRun_hostWf h3) hi
    _ = e1.arrayByte (dest.toNat + i) &&& t1.memByte (src.toNat + i) :=
      arrayByte_programmed programmed.array (canRun_arrayWf h2) (by rw [params1]; exact hpage)
        (by rw [params1]; exact hsize) hi
    _ = t1.memByte (src.toNat + i) := by rw [erased_byte]; exact BitVec.allOnes_and
    _ = s.memByte (src.toNat + i) := erased.memByte _

end Sys2Proof.Laws
end

