-- ==== Sys2Proof/Proofs/CommandWords.lean ====
section
/-! Command words (30_encoding.md R110, R111) and the words that are none (R116). -/

namespace Sys2Proof.Laws

open Sys2Proof.Machine

/-- The bits of a word from `k` on are zero exactly when its value has at most `k` bits. -/
theorem highBits_zero_iff (w : Word) (k : Nat) (hk : k ≤ 32) : w.extractLsb' k (32 - k) = 0 ↔ w.toNat < 2 ^ k := by
  have hw : w.toNat / 2 ^ k < 2 ^ (32 - k) :=
    Nat.div_lt_of_lt_mul (by rw [← Nat.pow_add, Nat.add_sub_cancel' hk]; exact w.isLt)
  rw [← BitVec.toNat_inj, BitVec.extractLsb'_toNat, Nat.shiftRight_eq_div_pow, Nat.mod_eq_of_lt hw, BitVec.ofNat_eq_ofNat,
    BitVec.toNat_zero, Nat.div_eq_zero_iff_lt (Nat.two_pow_pos k)]

/-! ### Words that are commands (R110, R111) -/

theorem commandOfCode_code {i : Instr} (hc : Instr.code i ≠ 0) : commandOfCode (Instr.code i) = some i := by
  cases i with
  | init | programPage | eraseSector | eraseChip | read | verify | blankCheck | mmap | write => rfl
  | eWrite | eRead | ePoll | eMmap | eAbort | eDeinit => rfl
  | tWren | tPollWel | tPollWip | tRsten | tRst | tRdcr | tWrvcr | tSe _ | tCe => exact absurd rfl hc
  | tQpp _ _ _ | tQread _ _ _ | tQreadMmap => exact absurd rfl hc

/-- A byte in bits 7:0 of a word, with bits 31:8 zero, has the form `HOSTCMD` (R110). -/
theorem commandWord_fields (c : Byte) :
    (c.setWidth 32).extractLsb' 8 24 = 0 ∧ (c.setWidth 32).extractLsb' 0 8 = c := by
  constructor
  · refine (highBits_zero_iff _ 8 (by decide)).2 ?_
    rw [BitVec.toNat_setWidth]
    exact (Nat.mod_le _ _).trans_lt c.isLt
  · rw [← BitVec.setWidth_eq_extractLsb' (by decide), BitVec.setWidth_setWidth_of_le _ (by decide), BitVec.setWidth_eq]

/-- The word of a command's code names the command. -/
theorem decodeCmdr_code {i : Instr} (hc : Instr.code i ≠ 0) : decodeCmdr ((Instr.code i).setWidth 32) = some i := by
  obtain ⟨high, low⟩ := commandWord_fields (Instr.code i)
  rw [decodeCmdr, if_neg (not_not_intro high), low, commandOfCode_code hc]

/-- Settles O29: the table's words are those of `Instr.code` (`decodeCmdr_code`). -/
theorem commandCodes : Obligations.CommandCodes :=
  ⟨decodeCmdr_code (i := .init) (by decide), decodeCmdr_code (i := .programPage) (by decide),
    decodeCmdr_code (i := .eraseSector) (by decide), decodeCmdr_code (i := .eraseChip) (by decide),
    decodeCmdr_code (i := .read) (by decide), decodeCmdr_code (i := .verify) (by decide),
    decodeCmdr_code (i := .blankCheck) (by decide), decodeCmdr_code (i := .mmap) (by decide),
    decodeCmdr_code (i := .write) (by decide), decodeCmdr_code (i := .eWrite) (by decide),
    decodeCmdr_code (i := .eRead) (by decide), decodeCmdr_code (i := .ePoll) (by decide),
    decodeCmdr_code (i := .eMmap) (by decide), decodeCmdr_code (i := .eAbort) (by decide),
    decodeCmdr_code (i := .eDeinit) (by decide)⟩

/-! ### Words that are no command (R116) -/

theorem commandOfCode_none_iff : ∀ c : Byte, commandOfCode c = none ↔
    ¬((1 ≤ c.toNat ∧ c.toNat ≤ 9) ∨ (0x10 ≤ c.toNat ∧ c.toNat ≤ 0x15)) := by decide

theorem decodeCmdr_none_iff (w : Word) : decodeCmdr w = none ↔
    ¬((1 ≤ w.toNat ∧ w.toNat ≤ 9) ∨ (0x10 ≤ w.toNat ∧ w.toNat ≤ 0x15)) := by
  have high := highBits_zero_iff w 8 (by decide)
  by_cases hw : w.toNat < 2 ^ 8
  · have low : (w.extractLsb' 0 8).toNat = w.toNat := by
      rw [BitVec.extractLsb'_toNat, Nat.shiftRight_zero, Nat.mod_eq_of_lt hw]
    rw [decodeCmdr, if_neg (not_not_intro (high.2 hw)), commandOfCode_none_iff, low]
  · rw [decodeCmdr, if_pos (mt high.1 hw)]
    exact iff_of_true rfl (by omega)

theorem cmdrWrite_illegal {s : State} {w : Word} (hb : s.busy = false) (hw : decodeCmdr w = none) :
    cmdrWrite w s = .next (s.raiseFault .illegalCommand) := by
  simp [cmdrWrite, hb, hw]

/-- A host write at `CMDR`'s offset of a block that is not faulted is a write of `CMDR`. -/
theorem portWrite_cmdr {s : State} (w : Word) (hf : s.fault = none) : portWrite 0 w s = cmdrWrite w s :=
  if_neg (by simp [not_faulted hf])

/-- On an idle block with its operands written, a pattern past 8 bits is what `BLANK_CHECK` faults with first. -/
theorem exec_blankCheck_badPattern {s : State} (hi : s.idle = true) (hargs : s.argsMissing .blankCheck = false)
    (hbad : badPattern (s.arg 2) = true) : exec .blankCheck s = .next (s.raiseFault .illegalCommand) := by
  have start : startInstr .blankCheck s = .next (s.raiseFault .illegalCommand) := by
    rw [startInstr, startBlankCheck, startCommand_idle hi, hargs, hbad]
    rfl
  rw [exec_eq, start, thenRun_raiseFault]

/-- Settles O30: the words `decodeCmdr` refuses, then the fault where the command port and `BLANK_CHECK` meet one. -/
theorem illegalCommandWords : Obligations.IllegalCommandWords := by
  refine ⟨decodeCmdr_none_iff, fun s w hi hw => ?_, fun s dest n pattern hi h0 h1 h2 hbad => ?_⟩
  · exact (portWrite_cmdr w (idle_facts hi).2.2).trans (cmdrWrite_illegal (idle_not_busy hi) hw)
  · obtain ⟨hargs, -, -, harg2⟩ := operands_written (i := .blankCheck) rfl h0 h1 h2
    exact exec_blankCheck_badPattern hi hargs ((badPattern_iff _).2 (harg2 ▸ hbad))

end Sys2Proof.Laws
end

