-- ==== Sys2Proof/Proofs/PackedWords.lean ====
section
/-! The packed operand words of 30_encoding.md, field by field: `PackCCR` (R103) with its inverse `HDR`, `PCFG` and `MCFG`
(R113). A packed word is a disjunction of fields at disjoint places; `extract_field` and `extract_beside` read it. -/

namespace Sys2Proof.Laws

open Sys2Proof.Machine

/-! ### A field of a word -/

/-- What is packed at bit `j` is read back there. -/
theorem extract_field {n : Nat} (x : BitVec n) (j : Nat) (h : j + n ≤ 32) :
    (x.setWidth 32 <<< j).extractLsb' j n = x := by
  refine BitVec.eq_of_getLsbD_eq fun i hi => ?_
  rw [BitVec.getLsbD_extractLsb', BitVec.getLsbD_shiftLeft, BitVec.getLsbD_setWidth, Nat.add_sub_cancel_left]
  simp [hi, show j + i < 32 by omega, show i < 32 by omega]

/-- What is packed beside the bits read does not show in them. -/
theorem extract_beside {n : Nat} (x : BitVec n) (j k m : Nat) (h : k + m ≤ j ∨ j + n ≤ k) :
    (x.setWidth 32 <<< j).extractLsb' k m = 0#m := by
  refine BitVec.eq_of_getLsbD_eq fun i hi => ?_
  rw [BitVec.getLsbD_extractLsb', BitVec.getLsbD_shiftLeft, BitVec.getLsbD_setWidth]
  rcases h with h | h
  · simp [show k + i < j by omega]
  · simp [BitVec.getLsbD_of_ge x (k + i - j) (by omega)]

/-- What is packed from bit 0 on is at bit 0. -/
theorem setWidth_eq_shiftLeft_zero {n : Nat} (x : BitVec n) : x.setWidth 32 = x.setWidth 32 <<< 0 :=
  (BitVec.shiftLeft_zero _).symm

/-- A flag is a field of one bit. -/
theorem bit_eq_setWidth (b : Bool) : bit b = (BitVec.ofBool b).setWidth 32 := by cases b <;> rfl

/-- A bit of a word, as a field of one bit. -/
theorem extract_one (w : Word) (k : Nat) : w.extractLsb' k 1 = BitVec.ofBool (w.getLsbD k) := by
  refine BitVec.eq_of_getLsbD_eq fun i hi => ?_
  obtain rfl : i = 0 := by omega
  simp

theorem getLsbD_eq_of_extract {w : Word} {k : Nat} {b : Bool} (h : w.extractLsb' k 1 = BitVec.ofBool b) :
    w.getLsbD k = b := by
  have := congrArg (fun v => v.getLsbD 0) ((extract_one w k).symm.trans h)
  simpa using this

/-! ### `PackCCR` (R103) -/

/-- Settles O27: every bit range of the packed word shows the one field packed there. -/
theorem packCcrFields : Obligations.PackCcrFields := by
  intro h fm
  refine ⟨packCcr_instr h fm, ?_, ?_, ?_, ?_, ?_, ?_, getLsbD_eq_of_extract ?_, packCcr_dmode h fm, packCcr_fmode h fm,
    getLsbD_eq_of_extract ?_, getLsbD_eq_of_extract ?_, getLsbD_eq_of_extract ?_, getLsbD_eq_of_extract ?_⟩
  all_goals
    rw [packCcr, setWidth_eq_shiftLeft_zero h.instr]
    simp (disch := omega) only [BitVec.extractLsb'_or, bit_eq_setWidth, extract_field, extract_beside, BitVec.or_zero,
      BitVec.zero_or, BitVec.ofBool_false, BitVec.ofNat_eq_ofNat]

/-- The places of the fields of a CCR word, the reserved bits 23 and 29 among them: first bit and width. -/
def ccrLayout : List (Nat × Nat) :=
  [(0, 8), (8, 2), (10, 2), (12, 2), (14, 2), (16, 2), (18, 5), (23, 1), (24, 2), (26, 2), (28, 1), (29, 1), (30, 1), (31, 1)]

/-- The fields are the whole word. -/
theorem eq_of_ccr_fields {v w : Word} (h : ∀ f ∈ ccrLayout, v.extractLsb' f.1 f.2 = w.extractLsb' f.1 f.2) : v = w := by
  have cover : ∀ i : Fin 32, ∃ f ∈ ccrLayout, f.1 ≤ i.val ∧ i.val < f.1 + f.2 := by decide
  refine BitVec.eq_of_getLsbD_eq fun i hi => ?_
  obtain ⟨f, hf, hlo, hhi⟩ := cover ⟨i, hi⟩
  have hbit := congrArg (fun x => x.getLsbD (i - f.1)) (h f hf)
  have hin : i - f.1 < f.2 := Nat.sub_lt_left_of_lt_add hlo hhi
  simpa only [BitVec.getLsbD_extractLsb', hin, decide_true, Bool.true_and, Nat.add_sub_cancel' hlo] using hbit

/-! ### `HDR` (R113) -/

theorem lineMode_ofCode_code (m : LineMode) : LineMode.ofCode m.code = m := by cases m <;> rfl

theorem addrSize_ofCode_code (a : AddrSize) : AddrSize.ofCode a.code = a := by cases a <;> rfl

theorem lineMode_code_ofCode : ∀ c : BitVec 2, (LineMode.ofCode c).code = c := by decide

theorem addrSize_code_ofCode : ∀ c : BitVec 2, (AddrSize.ofCode c).code = c := by decide

/-- Bits 27:26 of a word are the code of indirect-write exactly when both are clear. -/
theorem extract_frameMode_zero_iff (w : Word) :
    w.extractLsb' 26 2 = FrameMode.indirectWrite.code ↔ w.getLsbD 26 = false ∧ w.getLsbD 27 = false := by
  have zero (i : Nat) : FrameMode.indirectWrite.code.getLsbD i = false := BitVec.getLsbD_zero
  constructor
  · intro h
    have hbit (i : Nat) (hi : i < 2) : w.getLsbD (26 + i) = false := by
      simpa only [BitVec.getLsbD_extractLsb', hi, decide_true, Bool.true_and, zero] using congrArg (fun c => c.getLsbD i) h
    exact ⟨hbit 0 (by decide), hbit 1 (by decide)⟩
  · rintro ⟨h26, h27⟩
    refine BitVec.eq_of_getLsbD_eq fun i hi => ?_
    have : i = 0 ∨ i = 1 := by omega
    rcases this with rfl | rfl <;> simp only [BitVec.getLsbD_extractLsb', zero, h26, h27, Bool.and_false]

theorem decodeHdr_none_iff (w a b : Word) : decodeHdr w a b = none ↔
    (w.getLsbD 23 = true ∨ w.getLsbD 26 = true ∨ w.getLsbD 27 = true ∨ w.getLsbD 29 = true) := by
  simp only [decodeHdr, ite_eq_left_iff, reduceCtorEq, imp_false, not_not, Bool.or_eq_true]
  tauto

theorem decodeHdr_packCcr (h : Header) : decodeHdr (packCcr h .indirectWrite) h.addr h.alt = some h := by
  obtain ⟨instr, imode, admode, adsize, abmode, absize, dcyc, bit23, dmode, fmode, sioo, bit29, dhhc, ddrm⟩ :=
    packCcrFields h .indirectWrite
  obtain ⟨bit26, bit27⟩ := (extract_frameMode_zero_iff _).1 fmode
  simp only [decodeHdr, instr, imode, admode, adsize, abmode, absize, dcyc, bit23, dmode, bit26, bit27, sioo, bit29, dhhc,
    ddrm, lineMode_ofCode_code, addrSize_ofCode_code, Bool.or_self, Bool.false_eq_true, if_false]

/-- A word that decodes has its reserved bits clear, and every other field is the header's. -/
theorem packCcr_of_decodeHdr {w a b : Word} {h : Header} (hw : decodeHdr w a b = some h) :
    packCcr h .indirectWrite = w ∧ h.addr = a ∧ h.alt = b := by
  have hnone := mt (decodeHdr_none_iff w a b).2 (by rw [hw]; exact Option.some_ne_none h)
  simp only [not_or, Bool.not_eq_true] at hnone
  obtain ⟨bit23, bit26, bit27, bit29⟩ := hnone
  simp only [decodeHdr, bit23, bit26, bit27, bit29, Bool.or_self, Bool.false_eq_true, if_false, Option.some_inj] at hw
  obtain ⟨instr, imode, admode, adsize, abmode, absize, dcyc, res23, dmode, fmode, sioo, res29, dhhc, ddrm⟩ :=
    packCcrFields h .indirectWrite
  subst hw
  have frame := fmode.trans ((extract_frameMode_zero_iff w).2 ⟨bit26, bit27⟩).symm
  refine ⟨eq_of_ccr_fields ?_, rfl, rfl⟩
  simp only [ccrLayout, List.forall_mem_cons, extract_one, instr, imode, admode, adsize, abmode, absize, dcyc, dmode, frame,
    sioo, dhhc, ddrm, res23, res29, bit23, bit29, lineMode_code_ofCode, addrSize_code_ofCode, true_and]
  exact List.forall_mem_nil _

/-! ### `PCFG` and `MCFG` (R113) -/

theorem decodePcfg_none_iff (w : Word) (h : Header) (m k : Word) : decodePcfg w h m k = none ↔ 2 ^ 20 ≤ w.toNat := by
  rw [← Nat.not_lt, ← highBits_zero_iff w 20 (by decide)]
  simp [decodePcfg]

theorem decodeMcfg_none_iff (w : Word) (h : Header) : decodeMcfg w h = none ↔ 2 ^ 17 ≤ w.toNat := by
  rw [← Nat.not_lt, ← highBits_zero_iff w 17 (by decide)]
  simp [decodeMcfg]

theorem decodeMcfg_packed (d : MemoryMapDescriptor) :
    decodeMcfg (d.period.setWidth 32 ||| (bit d.tcen <<< 16)) d.hdr = some d := by
  rw [setWidth_eq_shiftLeft_zero d.period, bit_eq_setWidth]
  generalize hw : (d.period.setWidth 32 <<< 0 ||| (BitVec.ofBool d.tcen).setWidth 32 <<< 16 : Word) = w
  obtain ⟨period, tcen, high⟩ : w.extractLsb' 0 16 = d.period ∧ w.extractLsb' 16 1 = BitVec.ofBool d.tcen ∧
      w.extractLsb' 17 15 = 0 := by
    simp (disch := omega) only [← hw, BitVec.extractLsb'_or, extract_field, extract_beside, BitVec.or_zero, BitVec.zero_or,
      BitVec.ofNat_eq_ofNat, and_self]
  rw [decodeMcfg, if_neg (not_not_intro high), getLsbD_eq_of_extract tcen, period]

theorem decodePcfg_packed (d : PollDescriptor) (h1 : 1 ≤ d.sample) (h4 : d.sample ≤ 4) :
    decodePcfg (d.interval.setWidth 32 ||| (bit d.pmm <<< 16) ||| (bit d.apms <<< 17) |||
      (BitVec.ofNat 32 (d.sample - 1) <<< 18)) d.hdr d.matchVal d.mask = some d := by
  have two_bits : BitVec.ofNat 32 (d.sample - 1) = (BitVec.ofNat 2 (d.sample - 1)).setWidth 32 :=
    (BitVec.setWidth_ofNat_of_le_of_lt (by decide) (by omega)).symm
  rw [setWidth_eq_shiftLeft_zero d.interval, bit_eq_setWidth, bit_eq_setWidth, two_bits]
  generalize hw : (d.interval.setWidth 32 <<< 0 ||| (BitVec.ofBool d.pmm).setWidth 32 <<< 16 |||
    (BitVec.ofBool d.apms).setWidth 32 <<< 17 ||| (BitVec.ofNat 2 (d.sample - 1)).setWidth 32 <<< 18 : Word) = w
  obtain ⟨interval, pmm, apms, sample, high⟩ : w.extractLsb' 0 16 = d.interval ∧
      w.extractLsb' 16 1 = BitVec.ofBool d.pmm ∧ w.extractLsb' 17 1 = BitVec.ofBool d.apms ∧
      w.extractLsb' 18 2 = BitVec.ofNat 2 (d.sample - 1) ∧ w.extractLsb' 20 12 = 0 := by
    simp (disch := omega) only [← hw, BitVec.extractLsb'_or, extract_field, extract_beside, BitVec.or_zero, BitVec.zero_or,
      BitVec.ofNat_eq_ofNat, and_self]
  have restored : (BitVec.ofNat 2 (d.sample - 1)).toNat + 1 = d.sample := by
    rw [BitVec.toNat_ofNat, Nat.mod_eq_of_lt (by omega), Nat.sub_add_cancel h1]
  rw [decodePcfg, if_neg (not_not_intro high), getLsbD_eq_of_extract pmm, getLsbD_eq_of_extract apms, interval, sample,
    restored]

/-- Settles O28: a decoder and a refusal for each of the three words. -/
theorem rawOperandWords : Obligations.RawOperandWords :=
  ⟨decodeHdr_packCcr, fun _ _ _ _ => packCcr_of_decodeHdr, decodeHdr_none_iff, decodePcfg_packed, decodePcfg_none_iff,
    decodeMcfg_packed, decodeMcfg_none_iff⟩

end Sys2Proof.Laws
end

