-- ==== Sys2Proof/Proofs/EncodeDecode.lean ====
section
/-! The decoder undoes the encoder (30_encoding.md R110, R111, R114): host commands by their codes, transactions by the
table that `decodeTx` searches for the CCR word. -/

namespace Sys2Proof.Laws

open Sys2Proof.Machine

/-! ### Host commands (R110, R111) -/

/-- A command's word is decoded to the command, and the words after it are left. -/
theorem decode_code (p : Params) {i : Instr} (rest : List Word) (hc : Instr.code i ≠ 0) :
    decode p ((Instr.code i).setWidth 32 :: rest) = .ok (i, rest) := by
  obtain ⟨high, low⟩ := commandWord_fields (Instr.code i)
  simp only [decode, high, if_true, low, commandOfCode_code hc]

/-! ### The table of the transactions (R114) -/

/-- A row of the table: the header and the frame mode whose packing is the row's CCR word, and what the operand words
after that word decode to. -/
structure TxRow where
  hdr : Header
  fm : FrameMode
  answer : TxWords → Except DecodeError Instr

/-- What the first row with the CCR word `w` answers. -/
def firstRow (w : Word) (o : TxWords) : List TxRow → Except DecodeError Instr
  | [] => .error .unknownCcr
  | r :: rows => if w = packCcr r.hdr r.fm then r.answer o else firstRow w o rows

/-- The eleven CCR words of the twelve transactions, in the order `decodeTx` compares them. -/
def txRows (p : Params) : List TxRow :=
  [⟨plainHeader p.opc.wren, .indirectWrite, fun _ => .ok .tWren⟩,
    ⟨statusHeader p, .autoPoll, fun o =>
      if o.psmar = p.welMask.setWidth 32 then .ok .tPollWel else if o.psmar = 0 then .ok .tPollWip
      else .error .badPollMatch⟩,
    ⟨plainHeader p.opc.rsten, .indirectWrite, fun _ => .ok .tRsten⟩,
    ⟨plainHeader p.opc.rst, .indirectWrite, fun _ => .ok .tRst⟩,
    ⟨{ plainHeader p.opc.rdcr with dmode := .one }, .indirectRead, fun _ => .ok .tRdcr⟩,
    ⟨{ plainHeader p.opc.wrvcr with dmode := .one }, .indirectWrite, fun _ => .ok .tWrvcr⟩,
    ⟨sectorEraseHeader p 0, .indirectWrite, fun o => .ok (.tSe o.ar)⟩,
    ⟨plainHeader p.opc.ce, .indirectWrite, fun _ => .ok .tCe⟩,
    ⟨quadProgramHeader p 0, .indirectWrite, fun o =>
      if o.bufKind = 0 then .ok (.tQpp o.ar (o.dlr + 1) o.bufAddr) else .error .badBuffer⟩,
    ⟨quadReadHeader p 0, .indirectRead, fun o =>
      if o.bufKind = 0 then .ok (.tQread o.ar (o.dlr + 1) (.host o.bufAddr))
      else if o.bufKind = 1 then .ok (.tQread o.ar (o.dlr + 1) .stg)
      else .error .badBuffer⟩,
    ⟨quadReadHeader p 0, .memoryMapped, fun _ => .ok .tQreadMmap⟩]

theorem decodeTx_eq_firstRow (p : Params) (w : Word) (o : TxWords) : decodeTx p w o = firstRow w o (txRows p) := rfl

/-- Two rows differ in their opcodes, or else in their frame modes. -/
def TxRow.Differs (r r' : TxRow) : Prop := r'.hdr.instr ≠ r.hdr.instr ∨ r'.fm.code ≠ r.fm.code

theorem TxRow.Differs.ccr_ne {r r' : TxRow} (h : r.Differs r') : packCcr r'.hdr r'.fm ≠ packCcr r.hdr r.fm :=
  h.elim Laws.ccr_ne ccr_ne_fm

/-- In a list of rows that differ, a row's CCR word finds that row. -/
theorem firstRow_of_mem {rows : List TxRow} (hd : rows.Pairwise TxRow.Differs) {r : TxRow} (hr : r ∈ rows) (o : TxWords) :
    firstRow (packCcr r.hdr r.fm) o rows = r.answer o := by
  induction rows with
  | nil => cases hr
  | cons r' rows ih =>
    obtain ⟨hhead, htail⟩ := List.pairwise_cons.1 hd
    rcases List.mem_cons.1 hr with rfl | hmem
    · exact if_pos rfl
    · rw [firstRow, if_neg (hhead r hmem).ccr_ne, ih htail hmem]

/-- The opcodes of R9 item 8 keep the rows apart; the two rows of `OPC_QREAD` differ in their frame modes. -/
theorem txRows_differ {p : Params} (hp : WfParams p) : (txRows p).Pairwise TxRow.Differs := by
  have hne : p.opc.toList.Pairwise fun a b => a ≠ b ∧ b ≠ a := hp.pairwise.imp fun h => ⟨h, h.symm⟩
  simp only [Opcodes.toList, List.pairwise_cons, List.mem_cons, List.not_mem_nil, or_false, forall_eq_or_imp, forall_eq] at hne
  simp [txRows, TxRow.Differs, plainHeader, statusHeader, sectorEraseHeader, quadProgramHeader, quadReadHeader,
    FrameMode.code, hne]

/-- The words of row `k` of the table are decoded by the row. -/
theorem decode_row {p : Params} (hp : WfParams p) (k : Nat) {r : TxRow} (hr : (txRows p)[k]? = some r)
    (hi : r.hdr.imode = .one) {a b c d e : Word} {i : Instr} (ha : r.answer ⟨a, b, c, d, e⟩ = .ok i) (rest : List Word) :
    decode p (txWords (packCcr r.hdr r.fm) a b c d e ++ rest) = .ok (i, rest) := by
  rw [decode_tx hi, decodeTx_eq_firstRow, firstRow_of_mem (txRows_differ hp) (List.mem_of_getElem? hr), ha]

/-- Settles O25: a host command by its code, a transaction by its row of the table. The latch mask is not 0, so the two
status polls, which share a row, are told apart. -/
theorem encodeDecode : Obligations.EncodeDecode := by
  intro p i rest hwf hi
  have hp := wf_iff hwf
  cases i with
  | init | programPage | eraseSector | eraseChip | read | verify | blankCheck | mmap | write =>
    exact decode_code p rest (by decide)
  | eWrite | eRead | ePoll | eMmap | eAbort | eDeinit => exact decode_code p rest (by decide)
  | tWren => exact decode_row hp 0 rfl rfl rfl rest
  | tPollWel => exact decode_row hp 1 rfl rfl (if_pos rfl) rest
  | tPollWip => exact decode_row hp 1 rfl rfl ((if_neg (distinct_of_wf hwf).wel.symm).trans (if_pos rfl)) rest
  | tRsten => exact decode_row hp 2 rfl rfl rfl rest
  | tRst => exact decode_row hp 3 rfl rfl rfl rest
  | tRdcr => exact decode_row hp 4 rfl rfl rfl rest
  | tWrvcr => exact decode_row hp 5 rfl rfl rfl rest
  | tSe addr => exact decode_row hp 6 rfl rfl rfl rest
  | tCe => exact decode_row hp 7 rfl rfl rfl rest
  | tQpp dest n src =>
    refine decode_row hp 8 rfl rfl ((if_pos rfl).trans ?_) rest
    rw [BitVec.sub_add_cancel]
  | tQread dest n buf =>
    cases buf with
    | host a =>
      refine decode_row hp 9 rfl rfl ((if_pos rfl).trans ?_) rest
      rw [BitVec.sub_add_cancel]
    | stg =>
      refine decode_row hp 9 rfl rfl ((if_neg (show (1 : Word) ≠ 0 by decide)).trans ((if_pos rfl).trans ?_)) rest
      rw [BitVec.sub_add_cancel]
    | cfgbuf => cases hi
  | tQreadMmap => exact decode_row hp 10 rfl rfl rfl rest

/-! ### The words of the test configuration (R115) -/

theorem decode_tc0 {i : Instr} {ws : List Word} (hi : i.wf Config.tc0 = true) (hw : encode Config.tc0 i = ws) :
    decode Config.tc0 ws = .ok (i, []) := by
  rw [← hw, ← List.append_nil (encode Config.tc0 i)]
  exact encodeDecode Config.tc0 i [] (by decide) hi

/-- Settles O26: the words are what the instructions encode to. -/
theorem transactionWords : Obligations.TransactionWords :=
  ⟨decode_tc0 rfl rfl, decode_tc0 rfl rfl, decode_tc0 rfl rfl, decode_tc0 rfl rfl, decode_tc0 rfl rfl, decode_tc0 rfl rfl,
    decode_tc0 rfl rfl, decode_tc0 (by decide) rfl, decode_tc0 rfl rfl, decode_tc0 (by decide) rfl,
    decode_tc0 (by decide) rfl, decode_tc0 (by decide) rfl, decode_tc0 rfl rfl, decode_tc0 rfl rfl, decode_tc0 rfl rfl⟩

end Sys2Proof.Laws
end

