-- ==== Sys2Proof/Proofs/DescriptorChecks.lean ====
section
/-! Which descriptors are well formed (30_encoding.md R109), and that those of the twelve transactions are (R114). -/

namespace Sys2Proof.Laws

open Sys2Proof.Machine

theorem descriptorOk_transfer_iff (t : Transaction) :
    descriptorOk (.transfer t) = true ↔ headerFits t.hdr ∧ (t.len ≠ 0 ↔ t.hdr.dmode ≠ .none) := by
  rw [descriptorOk, Bool.and_eq_true, headerOk_iff, beq_iff_eq, decide_eq_decide]

theorem descriptorOk_poll_iff (d : PollDescriptor) :
    descriptorOk (.poll d) = true ↔ headerFits d.hdr ∧ d.hdr.dmode ≠ .none ∧ 1 ≤ d.sample ∧ d.sample ≤ 4 := by
  simp only [descriptorOk, Bool.and_eq_true, headerOk_iff, decide_eq_true_eq, and_assoc]

theorem descriptorOk_map_iff (d : MemoryMapDescriptor) :
    descriptorOk (.map d) = true ↔ headerFits d.hdr ∧ d.hdr.dmode ≠ .none := by
  rw [descriptorOk, Bool.and_eq_true, headerOk_iff, decide_eq_true_eq]

/-- Settles O31: the three checks, and the lemma of each descriptor the FSM builds. -/
theorem descriptorChecks : Obligations.DescriptorChecks := by
  refine ⟨descriptorOk_transfer_iff, descriptorOk_poll_iff, descriptorOk_map_iff, fun p addr dest n src b op m k hwf => ?_⟩
  have hp := wf_iff hwf
  obtain ⟨hread, hwrite⟩ := ok_config p
  exact ⟨ok_plain op, ok_statusPoll p m k, hread, hwrite, ok_sectorErase hp,
    fun hin hn => ⟨ok_quadProgram hp hin.1 hn, ok_quadRead hp hin.1 hn⟩, ok_quadReadMap hp⟩

end Sys2Proof.Laws
end

