-- ==== Sys2Proof/Proofs/RawStarts.lean ====
section
/-! How a raw engine command starts: its descriptor is read off the argument registers (30_encoding.md R113), the guards of
40_engine.md R130 come in their order, and its engine operation follows. -/

namespace Sys2Proof.Laws

open Sys2Proof.Machine

/-! ### Descriptors -/

/-- The raw engine commands that latch a descriptor (10_state.md R31). -/
def rawCommands : List Instr := [.eWrite, .eRead, .ePoll, .eMmap]

/-- The descriptor that a raw command's argument registers give; `none` when a reserved bit is set (R109 item 6). -/
def rawDescriptor (s : State) : Instr → Option Descriptor
  | .eWrite | .eRead => s.rawTransfer.map .transfer
  | .ePoll => s.rawPoll.map .poll
  | .eMmap => s.rawMap.map .map
  | _ => none

/-- The steps of a raw command's engine operation on a descriptor (R134 to R138). -/
def rawOps (i : Instr) : Descriptor → List Op
  | .transfer t => if i = .eRead then readOps t else writeOps t
  | .poll d => pollOps d
  | .map d => mapOps d

theorem argsMissing_eq_false {s : State} {i : Instr} (h : ∀ k ∈ argsOf i, (s.port.arg k).isSome) :
    s.argsMissing i = false := by
  rw [State.argsMissing, List.any_eq_false]
  intro k hk
  simp [Option.isNone_eq_false_iff.2 (h k hk)]

/-- `E_WRITE` and `E_READ` find HDR, addr, alt, len and buf in ARG0 to ARG4. -/
theorem rawDescriptor_transfer {s : State} {i : Instr} (hi : i = .eWrite ∨ i = .eRead) {x0 x1 x2 x3 x4 : Word}
    (h0 : s.port.arg0 = some x0) (h1 : s.port.arg1 = some x1) (h2 : s.port.arg2 = some x2) (h3 : s.port.arg3 = some x3)
    (h4 : s.port.arg4 = some x4) : s.argsMissing i = false ∧
      rawDescriptor s i = (decodeHdr x0 x1 x2).map fun h => .transfer { hdr := h, len := x3, buf := .host x4 } := by
  rcases hi with rfl | rfl <;>
    exact ⟨argsMissing_eq_false (by simp [argsOf, Port.arg, h0, h1, h2, h3, h4]),
      by simp [rawDescriptor, State.rawTransfer, State.arg, Port.arg, h0, h1, h2, h3, h4, Function.comp_def]⟩

/-- `E_POLL` finds HDR, addr, alt, PCFG, match and mask in ARG0 to ARG5. -/
theorem rawDescriptor_poll {s : State} {x0 x1 x2 x3 x4 x5 : Word} (h0 : s.port.arg0 = some x0)
    (h1 : s.port.arg1 = some x1) (h2 : s.port.arg2 = some x2) (h3 : s.port.arg3 = some x3) (h4 : s.port.arg4 = some x4)
    (h5 : s.port.arg5 = some x5) : s.argsMissing .ePoll = false ∧
      rawDescriptor s .ePoll = (decodeHdr x0 x1 x2).bind fun h => (decodePcfg x3 h x4 x5).map .poll :=
  ⟨argsMissing_eq_false (by simp [argsOf, Port.arg, h0, h1, h2, h3, h4, h5]),
    by simp [rawDescriptor, State.rawPoll, State.arg, Port.arg, h0, h1, h2, h3, h4, h5, Option.map_bind]⟩

/-- `E_MMAP` finds HDR, alt and MCFG in ARG0, ARG2 and ARG3, and takes 0 for the address (log 36). -/
theorem rawDescriptor_map {s : State} {x0 x2 x3 : Word} (h0 : s.port.arg0 = some x0) (h2 : s.port.arg2 = some x2)
    (h3 : s.port.arg3 = some x3) : s.argsMissing .eMmap = false ∧
      rawDescriptor s .eMmap = (decodeHdr x0 0 x2).bind fun h => (decodeMcfg x3 h).map .map :=
  ⟨argsMissing_eq_false (by simp [argsOf, Port.arg, h0, h2, h3]),
    by simp [rawDescriptor, State.rawMap, State.arg, Port.arg, h0, h2, h3, Option.map_bind]⟩

/-! ### Starts -/

/-- A raw command with its operands written: a reserved bit set is no descriptor; else the guards, then the operation. -/
theorem startInstr_raw {s : State} {i : Instr} (hr : i ∈ rawCommands) (hi : s.idle = true) (ha : s.argsMissing i = false) :
    startInstr i s = match rawDescriptor s i with
      | none => .next (s.raiseFault .badDescriptor)
      | some D => s.startRaw i D (rawOps i D) := by
  simp only [rawCommands, List.mem_cons, List.not_mem_nil, or_false] at hr
  rcases hr with rfl | rfl | rfl | rfl
  · rw [startInstr, startEWrite, startCommand_idle hi, ha, rawDescriptor]
    cases s.rawTransfer <;> rfl
  · rw [startInstr, startERead, startCommand_idle hi, ha, rawDescriptor]
    cases s.rawTransfer <;> rfl
  · rw [startInstr, startEPoll, startCommand_idle hi, ha, rawDescriptor]
    cases s.rawPoll <;> rfl
  · rw [startInstr, startEMmap, startCommand_idle hi, ha, rawDescriptor]
    cases s.rawMap <;> rfl

/-- It owes the faults of R130 on its descriptor, and starts with that descriptor in the latch where it owes none. -/
theorem startsOr_rawDescriptor {s : State} {i : Instr} (hr : i ∈ rawCommands) (hi : s.idle = true)
    (ha : s.argsMissing i = false) :
    s.startsOr i (s.owedEngine ((rawDescriptor s i).any descriptorOk)) .engineCommand (rawDescriptor s i) :=
  startsOr_raw hi (startInstr_raw hr hi ha)

theorem startsOr_eAbort {s : State} (hi : s.idle = true) :
    s.startsOr .eAbort (if crEn s.regs.cr = false then some .engineDisabled else none) .engineCommand s.desc := by
  refine startsOr_of (b := s.begin .eAbort .engineCommand (abortOps ++ [.finish .ok 0])) ?_
    fun _ => ⟨rfl, rfl, (idle_facts hi).2.2, rfl, rfl, rfl, rfl, rfl, rfl, rfl⟩
  rw [startInstr, startEAbort, startCommand_idle hi]
  cases crEn s.regs.cr <;> rfl

theorem startsOr_eDeinit {s : State} (hi : s.idle = true) : s.startsOr .eDeinit none .engineCommand s.desc := by
  refine startsOr_of (b := s.begin .eDeinit .engineCommand (deinitOps ++ [.finish .ok 0])) ?_
    fun _ => ⟨rfl, rfl, (idle_facts hi).2.2, rfl, rfl, rfl, rfl, rfl, rfl, rfl⟩
  rw [startInstr, startEDeinit, startCommand_idle hi]
  rfl

/-- Settles O45: `startsOr_rawDescriptor` with the descriptor that the argument registers give, and the two commands that
latch none. -/
theorem engineCommandGuards : Obligations.EngineCommandGuards := by
  intro s hi
  refine ⟨startsOr_eAbort hi, startsOr_eDeinit hi, fun x0 x2 x3 h0 h2 h3 => ⟨?_, fun x1 x4 h1 h4 => ⟨?_, fun x5 h5 => ?_⟩⟩⟩
  · rintro _ rfl
    obtain ⟨written, operands⟩ := rawDescriptor_map h0 h2 h3
    exact operands ▸ startsOr_rawDescriptor (by decide) hi written
  · rintro _ rfl
    obtain ⟨writtenW, operandsW⟩ := rawDescriptor_transfer (i := .eWrite) (.inl rfl) h0 h1 h2 h3 h4
    obtain ⟨writtenR, operandsR⟩ := rawDescriptor_transfer (i := .eRead) (.inr rfl) h0 h1 h2 h3 h4
    exact ⟨operandsW ▸ startsOr_rawDescriptor (by decide) hi writtenW,
      operandsR ▸ startsOr_rawDescriptor (by decide) hi writtenR⟩
  · rintro _ rfl
    obtain ⟨written, operands⟩ := rawDescriptor_poll h0 h1 h2 h3 h4 h5
    exact operands ▸ startsOr_rawDescriptor (by decide) hi written

end Sys2Proof.Laws
end

