-- ==== Sys2Proof/Proofs/MappedOrDisabled.lean ====
section
/-! Memory-mapped mode and a disabled engine exclude every instruction but `E_ABORT` and `E_DEINIT` (40_engine.md R130, R139,
42_flash_operations.md R193, 70_reset_and_hazards.md R286). -/

namespace Sys2Proof.Laws

open Sys2Proof.Machine

/-- Memory-mapped mode is on, or the engine is disabled. -/
def Excludes (s : State) : Prop := s.mmapActive = true ∨ crEn s.regs.cr = false

/-! ### A failing check -/

theorem firstFault_of_mem {l : List (Bool × FaultReason)} {f : FaultReason} (h : (true, f) ∈ l) :
    ∃ g, firstFault l = some g := by
  induction l with
  | nil => exact absurd h List.not_mem_nil
  | cons c l ih =>
    obtain ⟨bad, g⟩ := c
    cases bad with
    | true => exact ⟨g, rfl⟩
    | false => exact ih (by simpa using h)

theorem Excludes.check {s : State} (h : Excludes s) : ∃ f, (true, f) ∈ s.engineChecks := by
  rcases h with h | h <;> simp [State.engineChecks, h]

theorem startFlash_faults {s t : State} {l : List (Bool × FaultReason)} {f : FaultReason} (h : (true, f) ∈ l) :
    ∃ g, s.startFlash l t = .next (s.raiseFault g) := by
  obtain ⟨g, hg⟩ := firstFault_of_mem h
  exact ⟨g, by rw [State.startFlash, hg]⟩

/-- The guards of R130 are the descriptor's and then those of every flash-layer command. -/
theorem Excludes.guard {s : State} (h : Excludes s) (bad : Bool) : ∃ g, firstFault (s.guardChecks bad) = some g := by
  obtain ⟨f, hf⟩ := h.check
  exact firstFault_of_mem (List.mem_cons_of_mem (bad, .badDescriptor) hf)

theorem startRaw_faults {s : State} (h : Excludes s) (i : Instr) (D : Descriptor) (ops : List Op) :
    ∃ g, s.startRaw i D ops = .next (s.raiseFault g) := by
  obtain ⟨g, hg⟩ := h.guard (!descriptorOk D)
  exact ⟨g, by rw [State.startRaw, hg]⟩

theorem startEngine_faults {s : State} (h : Excludes s) (D : Descriptor) (ops : List Op) :
    ∃ g, s.startEngine D ops = .next (s.raiseFault g) := by
  obtain ⟨g, hg⟩ := h.guard (!descriptorOk D)
  exact ⟨g, by rw [State.startEngine, hg]⟩

/-! ### Starts -/

theorem exec_of_start_faults {s u : State} {i : Instr} {f : FaultReason} (h : startInstr i s = .next (u.raiseFault f)) :
    exec i s = .next (u.raiseFault f) := by
  rw [exec_eq, h, thenRun_raiseFault]

/-- A host command with its operands written faults where it starts. -/
theorem command_faults {s : State} {i : Instr} (hc : Instr.code i ≠ 0) (hi : s.idle = true) (h : Excludes s)
    (ha : s.argsMissing i = false) (hd : i ≠ .eDeinit) (hab : i = .eAbort → crEn s.regs.cr = false) :
    ∃ f, startInstr i s = .next (s.raiseFault f) := by
  obtain ⟨f, hf⟩ := h.check
  have flash : ∀ {t : State} {l : List (Bool × FaultReason)}, (true, f) ∈ l →
      ∃ g, (if s.argsMissing i then .next (s.raiseFault .unwritten) else s.startFlash l t) = .next (s.raiseFault g) :=
    fun hl => by rw [ha]; exact startFlash_faults hl
  have raw (hr : i ∈ rawCommands) : ∃ g, startInstr i s = .next (s.raiseFault g) := by
    rw [startInstr_raw hr hi ha]
    cases rawDescriptor s i with
    | none => exact ⟨_, rfl⟩
    | some D => exact startRaw_faults h i D _
  cases i with
  | eWrite | eRead | ePoll | eMmap => exact raw (by decide)
  | init => rw [startInstr, startInit, startCommand_idle hi]; exact flash hf
  | eraseChip => rw [startInstr, startEraseChip, startCommand_idle hi]; exact flash hf
  | mmap => rw [startInstr, startMmap, startCommand_idle hi]; exact flash hf
  | programPage => rw [startInstr, startProgramPage, startCommand_idle hi]; exact flash (List.mem_append_left _ hf)
  | eraseSector => rw [startInstr, startEraseSector, startCommand_idle hi]; exact flash (List.mem_append_left _ hf)
  | read => rw [startInstr, startReadCommand, startCommand_idle hi]; exact flash (List.mem_append_left _ hf)
  | verify => rw [startInstr, startVerify, startCommand_idle hi]; exact flash (List.mem_append_left _ hf)
  | write => rw [startInstr, startWriteCommand, startCommand_idle hi]; exact flash (List.mem_append_left _ hf)
  | blankCheck =>
    rw [startInstr, startBlankCheck, startCommand_idle hi]
    exact flash (List.mem_cons_of_mem _ (List.mem_append_left _ hf))
  | eAbort =>
    rw [startInstr, startEAbort, startCommand_idle hi, ha, hab rfl]
    exact ⟨_, rfl⟩
  | eDeinit => exact absurd rfl hd
  | _ => exact absurd rfl hc

/-- A transaction standing alone faults at the guards of its engine operation. -/
theorem transaction_faults {s : State} {i : Instr} (hc : Instr.code i = 0) (hw : i ≠ .tWrvcr) (hi : s.idle = true)
    (h : Excludes s) : ∃ f, startInstr i s = .next ((prep i (s.begin i .engineCommand [.finish .ok 0])).raiseFault f) := by
  obtain ⟨idle, -, unfaulted⟩ := idle_facts hi
  rw [startInstr_tx hc hw unfaulted, if_pos idle]
  exact startEngine_faults (s := prep i (s.begin i .engineCommand [.finish .ok 0])) h _ _

/-- `T_WRVCR` comes to the guards in its second step, with the quad-enable bit in `CFGBUF` (log 33). -/
theorem wrvcr_faults {s : State} (hi : s.idle = true) (hw : s.hostWaits = true) (hb : 1 ≤ s.burst) (h : Excludes s) :
    ∃ f, exec .tWrvcr s = .next (State.raiseFault
      { s.begin .tWrvcr .engineCommand [.finish .ok 0] with cfgbuf := s.cfgbuf ||| s.params.qeMask } f) := by
  obtain ⟨idle, -, unfaulted⟩ := idle_facts hi
  obtain ⟨f, hf⟩ := startEngine_faults
    (s := { s.begin .tWrvcr .engineCommand [.finish .ok 0] with cfgbuf := s.cfgbuf ||| s.params.qeMask }) h
    (.transfer (configWrite s.params)) (writeOps (configWrite s.params))
  have run : Runs 1 (quadEnabled (s.begin .tWrvcr .engineCommand [.finish .ok 0])) _ := Runs.op rfl hw unfaulted hf
  rw [exec_eq, startInstr_wrvcr unfaulted, if_pos idle, thenRun_of_next]
  exact ⟨f, congrArg _ (run.ends rfl hb)⟩

/-- Settles O46: a host command faults as it stands, a transaction once it has begun, a `T_WRVCR` one step later. -/
theorem mappedOrDisabledExcludes : Obligations.MappedOrDisabledExcludes := by
  intro s i _ hi h written _ hd hab hwr
  by_cases hw : i = .tWrvcr
  · subst hw
    obtain ⟨hb, hwaits⟩ := hwr rfl
    obtain ⟨f, hx⟩ := wrvcr_faults hi hwaits hb h
    exact ⟨_, f, hx, rfl, rfl, rfl, rfl, rfl, rfl, rfl, rfl, rfl, rfl, rfl⟩
  · rw [if_neg hw]
    by_cases hc : Instr.code i = 0
    · obtain ⟨f, hs⟩ := transaction_faults hc hw hi h
      exact ⟨_, f, exec_of_start_faults hs, rfl, rfl, rfl, rfl, rfl, rfl, rfl, rfl, rfl, rfl, rfl⟩
    · obtain ⟨f, hs⟩ := command_faults hc hi h (argsMissing_eq_false written) hd hab
      exact ⟨_, f, exec_of_start_faults hs, rfl, rfl, rfl, rfl, rfl, rfl, rfl, rfl, rfl, rfl, rfl⟩

end Sys2Proof.Laws
end

