-- ==== Sys2Proof/Proofs/WaitEnds.lean ====
section
/-! How a wait loop and the abort wait end a command: an error flag in a sample, or the wait budget spent (40_engine.md R133,
R141, 60_exceptions.md R243, R246, R251), under every environment. -/

namespace Sys2Proof.Laws

open Sys2Proof.Machine

/-! ### What a sample says -/

theorem sampleError_some {v : Word} (h : srTef v = true ∨ srTof v = true) :
    sampleError v = some (if srTef v then .hardwareError else .timeoutError) := by
  cases ht : srTef v with
  | true => simp [sampleError, ht]
  | false => simp [sampleError, ht, h.resolve_left (by simp [ht])]

theorem sampleError_none {v : Word} (h1 : srTef v = false) (h2 : srTof v = false) : sampleError v = none := by
  simp [sampleError, h1, h2]

theorem abortClear_ne_zero_iff (v : Word) : abortClear v ≠ 0 ↔ srTcf v = true ∨ srSmf v = true := by
  rw [abortClear]
  cases srTcf v <;> cases srSmf v <;> decide

theorem budgetSpent_of {p : Params} {b k : Nat} (hp : p.waitBudget = some b) (hk : b ≤ k) : budgetSpent p k = true := by
  simp [budgetSpent, hp, hk]

/-! ### The step of the loop -/

section
variable {x : State} {o : Op} (l : List Op)

/-- An error in the sample: its flags are to be cleared, and the status raised; whatever the loop waits for. -/
theorem seqOp_wait_failed (ho : (∃ c k, o = .wait c k) ∨ ∃ k, o = .abortWait k) {st : Status}
    (he : sampleError x.readSr.1 = some st) : seqOp o (withTodo l x) =
      .next (withTodo [.writeReg .fcr (errorClear x.readSr.1), .raise st] (sampled x)) := by
  rcases ho with ⟨c, k, rfl⟩ | ⟨k, rfl⟩
  · simp only [seqOp, waitSample_eq, readSr_withTodo, State.onWait, he]
    rfl
  · simp only [seqOp, abortSample_eq, readSr_withTodo, State.onAbortWait, he]
    rfl

variable {k : Nat} (hb : budgetSpent x.params (k + 1) = true)
include hb

theorem sampleAgain_spent (o : Op) : (withTodo l (sampled x)).sampleAgain o (k + 1) =
    withTodo [.raise .exhausted] (sampled x) := by
  have spent : budgetSpent (withTodo l (sampled x)).params (k + 1) = true := by
    rw [← hb]; simp [withTodo, sampled]
  rw [State.sampleAgain, spent]
  rfl

variable (he : sampleError x.readSr.1 = none)
include he

/-- The budget is spent in a wait loop. -/
theorem seqOp_wait_spent {c : WaitCond} (hc : c.holds x.readSr.1 = false) : seqOp (.wait c k) (withTodo l x) =
    .next (withTodo [.raise .exhausted] (sampled x)) := by
  rw [← sampleAgain_spent l hb (.wait c (k + 1))]
  simp only [seqOp, waitSample_eq, readSr_withTodo, State.onWait, he, hc, Bool.false_eq_true, if_false]
  rfl

/-- The budget is spent in the abort wait by a sample that shows TCF or SMF: it is acknowledged first (log 38). -/
theorem seqOp_abortWait_spent_ack (hc : abortClear x.readSr.1 ≠ 0) : seqOp (.abortWait k) (withTodo l x) =
    .next (withTodo [.writeReg .fcr (abortClear x.readSr.1), .raise .exhausted] (sampled x)) := by
  have again := sampleAgain_spent l hb (.abortWait (k + 1))
  simp only [seqOp, abortSample_eq, readSr_withTodo, State.onAbortWait, he, hc, ne_eq, not_false_eq_true, if_true]
  rw [show withTodo l x.readSr.2 = withTodo l (sampled x) from rfl, again]
  rfl

/-- It is spent by one that shows BUSY alone. -/
theorem seqOp_abortWait_spent_busy (hc : abortClear x.readSr.1 = 0) (hbusy : srBusy x.readSr.1 = true) :
    seqOp (.abortWait k) (withTodo l x) = .next (withTodo [.raise .exhausted] (sampled x)) := by
  rw [← sampleAgain_spent l hb (.abortWait (k + 1))]
  simp only [seqOp, abortSample_eq, readSr_withTodo, State.onAbortWait, he, hc, hbusy, ne_eq, not_true_eq_false, if_false,
    if_true]
  rfl

end

/-! ### The end of the command (R243) -/

theorem raisedCount_eq (x : State) : x.raisedCount = if x.current = some .verify then x.wDone else 0 := by
  unfold State.raisedCount
  split
  · rename_i h; rw [if_pos h]
  · rename_i h; rw [if_neg h]

/-- What a command that raises a status in `t` has left of the state `s` in which its last sample was taken. -/
structure Raised (s t : State) (st : Status) : Prop where
  ended : s.Ended t st (if s.current = some .verify then s.wDone else 0)
  hostMem : t.hostMem = s.hostMem
  stg : t.stg = s.stg
  cfgbuf : t.cfgbuf = s.cfgSaved.getD s.cfgbuf
  mmapActive : t.mmapActive = s.mmapActive
  work : s.SameWork t
  trace : t.trace = s.trace

/-- The clauses together, with what is known of the registers. -/
theorem Raised.and {s t : State} {st : Status} (h : Raised s t st) {regs : Prop} (hregs : regs) :
    s.Ended t st (if s.current = some .verify then s.wDone else 0) ∧ t.hostMem = s.hostMem ∧ t.stg = s.stg ∧
      t.cfgbuf = s.cfgSaved.getD s.cfgbuf ∧ t.mmapActive = s.mmapActive ∧ s.SameWork t ∧ t.trace = s.trace ∧ regs :=
  ⟨h.ended, h.hostMem, h.stg, h.cfgbuf, h.mmapActive, h.work, h.trace, hregs⟩

theorem raiseStatus_raised {s y : State} (hf : s.fault = none) (kept : Kept s y) (rest : Rest s y)
    (hsaved : y.cfgSaved = s.cfgSaved) (ht : y.trace = s.trace) (st : Status) : Raised s (y.raiseStatus st) st where
  ended := {
    fsm := rfl, eng := rfl, desc := rfl, todo := rfl
    fault := kept.fault.trans hf
    port := by rw [← kept.current, ← kept.wDone, ← raisedCount_eq, ← kept.port]; rfl
    params := kept.params
    burst := kept.burst
    hostIn := kept.hostIn
    hostData := kept.hostData
    admitted := kept.admitted
    dcr := kept.dcr }
  hostMem := rest.hostMem
  stg := rest.stg
  cfgbuf := by rw [← hsaved, ← rest.cfgbuf]; rfl
  mmapActive := rest.mmapActive
  work := ⟨kept.wAddr, kept.wBuf, kept.wRem, kept.wDone, kept.wN⟩
  trace := ht

theorem runs_raise {x : State} (h : Calm x) (st : Status) (l : List Op) :
    Runs 1 (withTodo (.raise st :: l) x) (x.raiseStatus st) :=
  Runs.op rfl h.1 h.2 rfl

section
variable {s : State} {o : Op} {l : List Op} (hp : s.params.wf = true) (calm : Calm s) (hl : s.todo = o :: l)
include hp calm hl

/-- The step of a loop that samples `SR` and lays out `m`, and the burst after it. -/
theorem step_sampled {t : State} {m : List Op} {n : Nat} (ho : seqOp o (withTodo l s) = .next (withTodo m (sampled s)))
    (run : Runs n (withTodo m (sampled s)) t) (ht : t.todo = []) (hn : n ≤ s.burst) : step s = .next t := by
  have hd : hostDue s = false := hostDue_waits calm.1 calm.2 (by simp [hl])
  rw [step_sequencer hp calm.2 hd hl, takeOp_waits calm.1]
  show thenRun (seqOp o (withTodo l s)) = _
  rw [ho, thenRun_of_next]
  exact congrArg _ (run.ends ht (hn.trans_eq (readSr_burst s).symm))

/-- A status raised right after the sample: no register is written. -/
theorem step_raises {st : Status} (ho : seqOp o (withTodo l s) = .next (withTodo [.raise st] (sampled s)))
    (hb : 1 ≤ s.burst) : ∃ t, step s = .next t ∧ Raised s t st ∧ t.regs = { s.regs with sr := s.readSr.1 } :=
  ⟨_, step_sampled hp calm hl ho (runs_raise calm.sampled st []) rfl hb,
    raiseStatus_raised calm.2 (kept_sampled s) (rest_sampled s) (readSr_cfgSaved s) (readSr_trace s) st, readSr_regs s⟩

/-- A status raised once the flags that the sample showed are cleared. -/
theorem step_clears_raises {st : Status} {v : Word}
    (ho : seqOp o (withTodo l s) = .next (withTodo [.writeReg .fcr v, .raise st] (sampled s))) (hb : 2 ≤ s.burst) :
    ∃ t, step s = .next t ∧ Raised s t st ∧ t.regs = { s.regs with sr := t.regs.sr, fcr := v } := by
  have cleared := kept_writeReg (sampled s) .fcr v
  refine ⟨_, step_sampled hp calm hl ho
    ((runs_writeReg calm.sampled .fcr v _).trans (runs_raise (cleared.calm calm.sampled) st [])) rfl hb,
    raiseStatus_raised calm.2 ((kept_sampled s).trans cleared) ((rest_sampled s).trans (rest_writeReg _ .fcr v))
      (by simp [sampled]) (by simp [sampled]) st, ?_⟩
  show ((sampled s).writeReg .fcr v).regs = { s.regs with sr := ((sampled s).writeReg .fcr v).regs.sr, fcr := v }
  rw [writeReg_regs, sampled, readSr_regs]
  rfl

end

/-! ### The obligations -/

/-- Settles O48: whatever the loop waits for, its error flags are looked at first (`seqOp_wait_failed`). -/
theorem waitReportsErrors : Obligations.WaitReportsErrors := by
  intro s o l hp hf hw hb hl ho herr
  obtain ⟨t, hx, raised, regs⟩ :=
    step_clears_raises hp ⟨hw, hf⟩ hl (seqOp_wait_failed l ho (sampleError_some herr)) hb
  exact ⟨t, hx, raised.and regs⟩

/-- Settles O49: a wait loop has nothing to acknowledge; the abort wait has when its last sample shows TCF or SMF. -/
theorem waitExhausts : Obligations.WaitExhausts := by
  intro s k b l hp hf hw h1 h2 hbudget hk
  have calm : Calm s := ⟨hw, hf⟩
  have noError := sampleError_none h1 h2
  have spent := budgetSpent_of hbudget hk
  refine ⟨fun c hb hl hc => ?_, fun hb hl hflags => ?_⟩
  · obtain ⟨t, hx, raised, regs⟩ := step_raises hp calm hl (seqOp_wait_spent l spent noError hc) hb
    exact ⟨t, hx, raised.and regs⟩
  · by_cases hack : srTcf s.readSr.1 = true ∨ srSmf s.readSr.1 = true
    · obtain ⟨t, hx, raised, regs⟩ := step_clears_raises hp calm hl
        (seqOp_abortWait_spent_ack l spent noError ((abortClear_ne_zero_iff _).2 hack)) hb
      rw [if_pos hack]
      exact ⟨t, hx, raised.and regs⟩
    · have nothing : abortClear s.readSr.1 = 0 := not_not.1 (mt (abortClear_ne_zero_iff _).1 hack)
      obtain ⟨t, hx, raised, regs⟩ := step_raises hp calm hl
        (seqOp_abortWait_spent_busy l spent noError nothing (hflags.resolve_right hack)) (by omega)
      rw [if_neg hack]
      exact ⟨t, hx, raised.and (by rw [regs])⟩

end Sys2Proof.Laws
end

