-- ==== Sys2Proof/Proofs/AbortAndDisable.lean ====
section
/-! `E_ABORT` on the reference device and `E_DEINIT` under any environment, from their start to their end (40_engine.md R140
to R142). -/

namespace Sys2Proof.Laws

open Sys2Proof.Machine

/-! ### `E_ABORT` (R140, R141) -/

/-- The one guard of `E_ABORT` is the enable: it starts in memory-mapped mode too. -/
theorem startInstr_eAbort {s : State} (hi : s.idle = true) (hen : crEn s.regs.cr = true) : startInstr .eAbort s =
    .next (withTodo (abortOps ++ [.finish .ok 0]) (begun .eAbort .engineCommand s)) := by
  rw [startInstr, startEAbort, startCommand_idle hi, hen]
  rfl

/-- `CR` after an abort: ABORT reads 0 (20_memory.md R92), every other bit as before. -/
theorem getLsbD_crAfter_abort (cr : Word) {b : Nat} (hb : b ≠ 1) : (crAfter .abort cr).getLsbD b = cr.getLsbD b := by
  rw [crAfter, getLsbD_setBit _ _ _ _ (by decide), if_neg hb, apply_bits .abort cr (by simpa [crFields] using hb)]

/-- Settles O15: `run_abort` from the state in which the command has begun. -/
theorem abortCompletes : Obligations.AbortCompletes := by
  intro s d _ hi hen hw henv hq htef htof hbudget hburst
  obtain ⟨-, -, unfaulted⟩ := idle_facts hi
  have calm : Calm (begun .eAbort .engineCommand s) := ⟨hw, unfaulted⟩
  have budget : budgetSpent s.params 1 = false := by simpa [budgetAllows] using hbudget
  obtain ⟨y, e, run, kept, hostMem, stg, cfgbuf, unmapped, trace, cr, env, ready, cur, chip⟩ :=
    run_abort calm henv hq htef htof hen budget [.finish .ok 0]
  refine ⟨_, e, exec_ends (startInstr_eAbort hi hen) run (kept.calm calm) hburst, ended kept.same unfaulted _ _,
    ⟨kept.wAddr, kept.wBuf, kept.wRem, kept.wDone, kept.wN⟩, env, ready, cur, chip, hostMem, stg, cfgbuf, unmapped, trace,
    ?_, fun b hb => ?_⟩
  · show crAbort y.regs.cr = false
    rw [cr, crAbort_crAfter]
  · show y.regs.cr.getLsbD b = _
    rw [cr, getLsbD_crAfter_abort _ hb]
    rfl

/-! ### `E_DEINIT` (R142) -/

theorem startInstr_eDeinit {s : State} (hi : s.idle = true) : startInstr .eDeinit s =
    .next (withTodo (deinitOps ++ [.finish .ok 0]) (begun .eDeinit .engineCommand s)) := by
  rw [startInstr, startEDeinit, startCommand_idle hi]
  rfl

/-- `CR` as it is read holds every bit but ABORT as it was last written (20_memory.md R80 item 3). -/
theorem getLsbD_readCr (s : State) {b : Nat} (hb : b ≠ 1) : s.readCr.tmpCr.getLsbD b = s.regs.cr.getLsbD b := by
  unfold State.readCr
  split
  · dsimp only
    split
    · rw [getLsbD_setBit _ _ _ _ (by decide), if_neg hb]
    · rfl
  · rfl

/-- The state after `CR.EN` is cleared and the mode is left. -/
def disabled (x : State) : State := { x.readCr.writeCr .disable with mmapActive := false }

theorem kept_disabled (x : State) : Kept x (disabled x) :=
  (kept_readCr x).trans ((kept_writeCr x.readCr .disable).trans (by constructor <;> rfl))

theorem disabled_buffers (x : State) : (disabled x).hostMem = x.hostMem ∧ (disabled x).stg = x.stg ∧
    (disabled x).cfgbuf = x.cfgbuf ∧ (disabled x).trace = x.trace := by
  simp [disabled]

/-- The registers then; under the reference device ABORT reads 0 too (log 18). -/
theorem disabled_regs (x : State) : (disabled x).regs = { x.regs with
    cr := if x.readCr.env = .envelope then CrEdit.disable.apply x.readCr.tmpCr
      else setBit (CrEdit.disable.apply x.readCr.tmpCr) 1 false } := by
  rw [← readCr_regs x]
  exact putCr_regs x.readCr _

theorem disabled_otherRegs (x : State) : (disabled x).regs = { x.regs with cr := (disabled x).regs.cr } := by
  rw [disabled_regs]

theorem getLsbD_disabled_cr (x : State) {b : Nat} (h0 : b ≠ 0) (h1 : b ≠ 1) :
    (disabled x).regs.cr.getLsbD b = x.regs.cr.getLsbD b :=
  (writeCr_bits (seqOp_writeCr x.readCr .disable) (by simp [crFields, h0, h1])).trans (getLsbD_readCr x h1)

theorem crEn_disabled (x : State) : crEn (disabled x).regs.cr = false := by
  have cleared : (CrEdit.disable.apply x.readCr.tmpCr).getLsbD 0 = false := getLsbD_setBit _ 0 0 false (by decide)
  rw [crEn, disabled_regs]
  dsimp only
  split
  · exact cleared
  · rw [getLsbD_setBit _ _ _ _ (by decide), if_neg (by decide), cleared]

theorem runs_deinit {x : State} (h : Calm x) (l : List Op) :
    Runs 3 (withTodo (deinitOps ++ l) x) (withTodo l (disabled x)) :=
  have read := (kept_readCr x).calm h
  (runs_readCr h _).trans <| (runs_writeCr read .disable _).trans
    (runs_setMmap ((kept_writeCr x.readCr .disable).calm read) false l)

/-- Settles O16: the three steps of R142, and what each leaves of `CR`. -/
theorem deinitCompletes : Obligations.DeinitCompletes := by
  intro s _ hi hw hburst
  obtain ⟨-, -, unfaulted⟩ := idle_facts hi
  have calm : Calm (begun .eDeinit .engineCommand s) := ⟨hw, unfaulted⟩
  have kept := kept_disabled (begun .eDeinit .engineCommand s)
  obtain ⟨hostMem, stg, cfgbuf, trace⟩ := disabled_buffers (begun .eDeinit .engineCommand s)
  exact ⟨_, exec_ends (startInstr_eDeinit hi) (runs_deinit calm _) (kept.calm calm) hburst, ended kept.same unfaulted _ _,
    ⟨kept.wAddr, kept.wBuf, kept.wRem, kept.wDone, kept.wN⟩, hostMem, stg, cfgbuf, rfl, trace, disabled_otherRegs _,
    crEn_disabled _, fun _ h0 h1 => getLsbD_disabled_cr _ h0 h1⟩

end Sys2Proof.Laws
end

