-- ==== Sys2Proof/Proofs/RawCommandRuns.lean ====
section
/-! `E_WRITE`, `E_READ`, `E_POLL` and `E_MMAP` from the host port on a ready reference device, from their start to their end
(40_engine.md R131 to R138). -/

namespace Sys2Proof.Laws

open Sys2Proof.Machine

/-! ### The start -/

/-- A raw command on a usable block with a well-formed descriptor starts its engine operation. -/
theorem startInstr_raw_ok {s : State} {d : RefDev} {n : Nat} {i : Instr} {D : Descriptor} (h : s.CanRun d n)
    (hr : i ∈ rawCommands) (ha : s.argsMissing i = false) (hD : rawDescriptor s i = some D)
    (hok : descriptorOk D = true) :
    startInstr i s = .next (withTodo (rawOps i D ++ [.finish .ok 0]) (latched D (begun i .engineCommand s))) := by
  obtain ⟨-, idle, todo, unfaulted, -⟩ := usable_iff.1 h.usable
  have hi : s.idle = true := by simp [State.idle, idle, todo, State.faulted, unfaulted]
  rw [startInstr_raw hr hi ha, hD]
  exact startRaw_ok h i hok

/-! ### `E_WRITE` and `E_READ` (R134, R136) -/

/-- Settles O11: the buffer's bytes are what `run_write` takes (`alone_write`). -/
theorem rawWriteCompletes : Obligations.RawWriteCompletes := by
  intro s d hdr addr alt n buf hd h h0 h1 h2 h3 h4 decoded ok admitted
  obtain ⟨written, operands⟩ := rawDescriptor_transfer (i := .eWrite) (.inl rfl) h0 h1 h2 h3 h4
  obtain ⟨-, rfl, -⟩ := packCcr_of_decodeHdr decoded
  have bytes_length : (s.memBytes buf.toNat n.toNat).length = n.toNat := by simp [State.memBytes]
  obtain ⟨t, e, free, hx, buffers, transacted, chip⟩ := alone_write h .eWrite
    (startInstr_raw_ok h (by decide) written (by rw [operands, decoded]; rfl) ok) ok bytes_length
    (fun j hj => ⟨admits_of_admitsAll admitted (by omega), (memBytes_get hj).symm⟩) (by omega)
  exact ⟨t, e, free, hx, buffers, transacted, chip⟩

/-- A response byte, by its number. -/
theorem response_getD (p : Params) (free : Nat → Byte) (op : Byte) (a : Word) (n j : Nat) (d : RefDev) (hj : j < n) :
    (d.response p free op a n).getD j 0 = d.responseByte p free op a j := by
  simp [RefDev.response, hj]

/-- Settles O12: the response fills the host buffer (`alone_read`), byte by byte. -/
theorem rawReadCompletes : Obligations.RawReadCompletes := by
  intro s d hdr addr alt n buf hd h h0 h1 h2 h3 h4 decoded ok admitted
  obtain ⟨written, operands⟩ := rawDescriptor_transfer (i := .eRead) (.inr rfl) h0 h1 h2 h3 h4
  obtain ⟨-, rfl, -⟩ := packCcr_of_decodeHdr decoded
  obtain ⟨t, e, free, hx, transacted, filled, mapped, chip⟩ := alone_read h .eRead
    (startInstr_raw_ok h (by decide) written (by rw [operands, decoded]; rfl) ok) ok
    (fun j hj => admits_of_admitsAll admitted hj) (Nat.add_le_add_right (by decide) _)
  obtain ⟨-, -, -, -, -, unmapped, -⟩ := usable_iff.1 h.usable
  refine ⟨t, e, free, hx, transacted, fun a => ?_, filled.stg, filled.cfgbuf, mapped.trans unmapped, chip⟩
  have hmem : t.hostMem = writeCells hostDefault s.hostMem buf.toNat
    (d.response s.params free hd.instr hd.addr n.toNat) := filled.hostMem
  have response_length : (d.response s.params free hd.instr hd.addr n.toNat).length = n.toNat := by
    simp [RefDev.response]
  rw [State.memByte, hmem, cellRead_writeCells (canRun_hostWf h), response_length]
  split
  · exact response_getD _ _ _ _ _ _ _ (by omega)
  · rfl

/-! ### `E_POLL` (R137) -/

/-- `CR` after a poll: PMM and APMS are the descriptor's. -/
theorem getLsbD_crAfter_poll (pmm apms : Bool) {cr : Word} (hab : crAbort cr = false) (b : Nat) :
    (crAfter (.poll pmm apms) cr).getLsbD b = if b = 22 then apms else if b = 23 then pmm else cr.getLsbD b := by
  simp only [crAfter, CrEdit.apply, getLsbD_setBit _ _ _ _ (show 1 < 32 by decide),
    getLsbD_setBit _ _ _ _ (show 22 < 32 by decide), getLsbD_setBit _ _ _ _ (show 23 < 32 by decide)]
  by_cases h1 : b = 1
  · subst h1; exact hab.symm
  · rw [if_neg h1]

/-- `PCFG` decodes to a poll of the operands it is given. -/
theorem decodePcfg_operands {w m k : Word} {h : Header} {pd : PollDescriptor} (hw : decodePcfg w h m k = some pd) :
    pd.hdr = h ∧ pd.matchVal = m ∧ pd.mask = k := by
  unfold decodePcfg at hw
  split at hw <;> cases hw
  exact ⟨rfl, rfl, rfl⟩

/-- Settles O13: `run_anyPoll`, with auto-stop and without. -/
theorem rawPollCompletes : Obligations.RawPollCompletes := by
  intro s d hdr addr alt pcfg m k hd pd j h h0 h1 h2 h3 h4 h5 decoded poll ok hno hyes hbudget
  obtain ⟨written, operands⟩ := rawDescriptor_poll h0 h1 h2 h3 h4 h5
  obtain ⟨rfl, rfl, rfl⟩ := decodePcfg_operands poll
  obtain ⟨-, -, -, unfaulted, -, -, noAbort, -⟩ := usable_iff.1 h.usable
  have live := canRun_live h .ePoll (f := .engineCommand) (by decide)
  have budget : budgetSpent s.params j = false := by simpa [budgetAllows] using hbudget
  obtain ⟨c, y, e, hc, run, polled, rest, -, -, env, chip, -, cr, trace, smf, busy⟩ :=
    run_anyPoll j (live.ready.latched (.poll pd)) ok hno hyes budget [.finish .ok 0]
  have hburst : c + 1 ≤ s.burst := by have := h.steps; omega
  have kept := (kept_latched (.poll pd) _).trans polled
  have descriptor : rawDescriptor s .ePoll = some (.poll pd) := by
    rw [operands, decoded]; exact congrArg (Option.map Descriptor.poll) poll
  have start := startInstr_raw_ok h (by decide) written descriptor ok
  have bits (b : Nat) :
      y.regs.cr.getLsbD b = if b = 22 then pd.apms else if b = 23 then pd.pmm else s.regs.cr.getLsbD b := by
    rw [cr]; exact getLsbD_crAfter_poll _ _ noAbort b
  exact ⟨_, e, exec_ends start run (kept.calm live.ready.calm) hburst, ended kept.same unfaulted _ _,
    ⟨rest.hostMem, rest.stg, rest.cfgbuf, rest.mmapActive⟩, ⟨kept.wAddr, kept.wBuf, kept.wRem, kept.wDone, kept.wN⟩, env,
    chip, smf, busy, bits 23, bits 22, fun b h22 h23 => (bits b).trans (by rw [if_neg h22, if_neg h23]), trace⟩

/-! ### `E_MMAP` (R138) -/

/-- `CR` after a mapping: TCEN is the descriptor's. -/
theorem getLsbD_crAfter_tcen (tcen : Bool) {cr : Word} (hab : crAbort cr = false) (b : Nat) :
    (crAfter (.tcen tcen) cr).getLsbD b = if b = 3 then tcen else cr.getLsbD b := by
  simp only [crAfter, CrEdit.apply, getLsbD_setBit _ _ _ _ (show 1 < 32 by decide),
    getLsbD_setBit _ _ _ _ (show 3 < 32 by decide)]
  by_cases h1 : b = 1
  · subst h1; exact hab.symm
  · rw [if_neg h1]

theorem decodeMcfg_hdr {w : Word} {h : Header} {m : MemoryMapDescriptor} (hw : decodeMcfg w h = some m) : m.hdr = h := by
  unfold decodeMcfg at hw
  split at hw <;> cases hw
  rfl

/-- Settles O14: `run_map`; the mapped device shows no flag. -/
theorem rawMmapCompletes : Obligations.RawMmapCompletes := by
  intro s d hdr alt mcfg hd m h h0 h2 h3 decoded map ok
  obtain ⟨written, operands⟩ := rawDescriptor_map h0 h2 h3
  obtain rfl := decodeMcfg_hdr map
  obtain ⟨-, -, rfl⟩ := packCcr_of_decodeHdr decoded
  obtain ⟨-, -, -, unfaulted, -, -, noAbort, -⟩ := usable_iff.1 h.usable
  have live := canRun_live h .eMmap (f := .engineCommand) (by decide)
  obtain ⟨y, run, entered, hostMem, stg, cfgbuf, mapped, -, -, env, cr, lptr, abr, ccr, dlr, ar, trace⟩ :=
    run_map (m := m) (live.ready.latched (.map m)) [.finish .ok 0]
  have hburst : 12 + 1 ≤ s.burst := by have := h.steps; omega
  have kept := (kept_latched (.map m) _).trans entered
  have descriptor : rawDescriptor s .eMmap = some (.map m) := by
    rw [operands, decoded]; exact congrArg (Option.map Descriptor.map) map
  have start := startInstr_raw_ok h (by decide) written descriptor ok
  have bits (b : Nat) : y.regs.cr.getLsbD b = if b = 3 then m.tcen else s.regs.cr.getLsbD b := by
    rw [cr]; exact getLsbD_crAfter_tcen _ noAbort b
  have ready : RefDev.ready { d with ns := d.ns + 1, cur := .mapped } = true := by
    obtain ⟨quiet, tef, tof, tcf, smf, -⟩ := ready_iff.1 h.ready
    exact ready_iff.2 ⟨quiet_counted quiet, tef, tof, tcf, smf, rfl⟩
  exact ⟨_, _, exec_ends start run (kept.calm live.ready.calm) hburst, transacted unfaulted kept env ready trace, hostMem,
    stg, cfgbuf, mapped, rfl, rfl, lptr, abr, ccr, dlr, ar, bits 3, fun b h3 => (bits b).trans (if_neg h3)⟩

end Sys2Proof.Laws
end

