-- ==== Sys2Proof/Proofs/WriteEnable.lean ====
section
/-! The write-enable rule (41_flash_transactions.md R175), as an invariant of the machine's steps and as a property of the
trace of one command: the ground is `plan_step` and what a phase shows of the trace. -/

namespace Sys2Proof.Laws

open Sys2Proof.Machine

/-! ### The steps of the machine -/

/-- At burst 0 an outcome is followed by no sequencer step (log 1). -/
theorem next_of_thenRun {o : Out} {s t : State} (h : thenRun o = .next t) (hb : s.burst = 0)
    (ho : ∀ u, o = .next u → Fixed s u) : o = .next t := by
  obtain ⟨u, hu, rfl⟩ := thenRun_next h
  rw [hu, (ho u hu).burst, hb, runSeq]

/-- A fault leaves no step and the trace as it is. -/
theorem guarded_raiseFault {s : State} {ph : WritePhase} (h : ph.shows s.params s.trace) (f : FaultReason) :
    (s.raiseFault f).Guarded ph :=
  ⟨h, plan_done rfl⟩

/-- A host action on a busy block keeps the phase: it starts no command. -/
theorem HostStep.guarded {s t : State} {ph : WritePhase} (h : HostStep s t) (hb : s.busy = true) (hg : s.Guarded ph) :
    t.Guarded ph := by
  cases h with
  | faulted f => exact guarded_raiseFault hg.shows f
  | command _ idle => rw [hb] at idle; cases idle
  | operand k v => exact ⟨hg.shows, hg.plan⟩
  | answered d n => exact ⟨hg.shows, hg.plan⟩
  | stored hm =>
    unfold State.memWrite at hm
    split at hm <;> cases hm
    exact ⟨hg.shows, hg.plan⟩

/-- A block with a step left to do is busy and not faulted (10_state.md R26, R32). -/
theorem inv_busy {s : State} (h : s.Inv) (ht : s.todo ≠ []) : s.busy = true ∧ s.fault = none := by
  have unfaulted : s.faulted = false := by rw [h.faulted]; simp [(inv_running h ht).2]
  exact ⟨by rw [h.busy]; simp [ht], by simpa [State.faulted] using unfaulted⟩

/-- A sequencer step of a state with the invariant: a host command in the place of a transaction faults (42_flash_operations.md
R190), and every other step is one of a running command. -/
theorem guarded_seqOp {s t : State} {o : Op} {l : List Op} {ph : WritePhase} (hs : s.Inv) (hl : s.todo = o :: l)
    (ho : seqOp o (s.takeOp l) = .next t) (hg : s.Guarded ph) : t.Guarded (phaseOf s ph o) := by
  obtain ⟨busy, unfaulted⟩ := inv_busy hs (by simp [hl])
  by_cases hx : ∃ x, o = .issue x ∧ Instr.code x ≠ 0
  · obtain ⟨x, rfl, hc⟩ := hx
    have refused : seqOp (.issue x) (s.takeOp l) = .next ((s.takeOp l).raiseFault .reentry) :=
      startInstr_busy hc unfaulted busy
    cases refused.symm.trans ho
    exact guarded_raiseFault (s := s.takeOp l) hg.shows .reentry
  · refine guarded_step (distinct_of_wf hs.params) (fun x e => ⟨?_, unfaulted, (inv_running hs (by simp [hl])).1⟩) hl ho hg
    exact not_not.1 fun hc => hx ⟨x, e, hc⟩

/-- Every step of a running block leads to the phase it says, the host's included. -/
theorem guarded_machineStep {s t : State} {ph : WritePhase} (hs : s.Inv) (hb : s.burst = 0) (ht : s.todo ≠ [])
    (hg : s.Guarded ph) (h : step s = .next t) : t.Guarded (ph.after s) := by
  obtain ⟨busy, unfaulted⟩ := inv_busy hs ht
  cases hd : hostDue s with
  | true =>
    rw [WritePhase.after, if_pos hd]
    cases hi : s.hostIn with
    | nil => rw [hostDue, hi] at hd; cases hd
    | cons e rest =>
      rw [step_host hs.params hd hi] at h
      exact (hostAction_next h).guarded (s := { s with hostIn := rest }) busy ⟨hg.shows, hg.plan⟩
  | false =>
    obtain ⟨o, l, hl⟩ := List.exists_cons_of_ne_nil ht
    rw [step_sequencer hs.params unfaulted hd hl] at h
    rw [after_eq hl hd]
    exact guarded_seqOp hs hl (next_of_thenRun h hb fun u hu => fixed_take (fixed_seqOp hu)) hg

/-- An FSM command starts with nothing of the protocol done. -/
theorem start_guarded {i : Instr} {s t : State} (hi : s.idle = true) (hc : fsmCommand i = true)
    (h : startInstr i s = .next t) : t.Guarded .off := by
  refine ⟨trivial, ?_⟩
  obtain ⟨began, -, -, -, -, ⟨-, done⟩ | hb⟩ := start_frame hi h
  · exact plan_done done
  · rw [began.params]; exact begins_plan hc hb

/-- Settles O57: the start (`start_guarded`), the step (`guarded_machineStep`), and what phase `confirmed` shows. -/
theorem writeEnableConfirmed : Obligations.WriteEnableConfirmed := by
  refine ⟨fun i s t _ hi hb hc h => ?_, fun s t ph hs hb ht hg h => guarded_machineStep hs hb ht hg h,
    fun s ph e l hg hl hm => ?_⟩
  · rw [exec_eq] at h
    exact start_guarded hi hc (next_of_thenRun h hb fun u hu => fixed_start hu)
  · have plan := hg.plan
    rw [hl, plan_emit, hm, Bool.and_eq_true] at plan
    obtain rfl : ph = .confirmed := by simpa using plan.1
    exact ⟨rfl, hg.shows⟩

/-! ### The trace of one command -/

/-- A transaction at the head of a running command's steps is one of the twelve, on a block that runs. -/
theorem issue_of_shape {i : Instr} {g : Option (Nat × Nat)} {s : State} {o : Op} {l : List Op} (h : Shape i g s)
    (hl : s.todo = o :: l) (x : Instr) (hx : o = .issue x) :
    Instr.code x = 0 ∧ (s.takeOp l).fault = none ∧ (s.takeOp l).fsm ≠ .idle := by
  subst hx
  obtain ⟨running, unfaulted⟩ := h.running (by simp [hl])
  have allowed := h.all
  simp only [hl, List.all_cons, may, mayIssue, Bool.and_eq_true, beq_iff_eq] at allowed
  obtain ⟨⟨⟨⟨⟨⟨⟨code, -⟩, -⟩, -⟩, -⟩, -⟩, -⟩, -⟩ := allowed
  exact ⟨code, unfaulted, running⟩

/-- The trace `new` that a command has added where it stands in `u` keeps the rule, and in some phase of the protocol its
last entries and the remaining steps do. -/
def GuardedSoFar (p : Params) (new : List TraceEntry) (u : State) : Prop :=
  u.params = p ∧ guardedTrace p new = true ∧
    ∃ ph : WritePhase, ph.shows p new ∧ guardPlan p ph u.regs.psmar u.regs.psmkr u.todo = true

theorem GuardedSoFar.start {i : Instr} {s u : State} (hi : s.idle = true) (hc : fsmCommand i = true)
    (h : startInstr i s = .next u) : GuardedSoFar s.params [] u := by
  have params := (fixed_start h).params
  exact ⟨params, rfl, .off, trivial, params ▸ (start_guarded hi hc h).plan⟩

theorem GuardedSoFar.same {i : Instr} {g : Option (Nat × Nat)} {p : Params} {new : List TraceEntry} {u v : State} {o : Op}
    {l : List Op} (hp : p.wf = true) (hs : Shape i g u) (hl : u.todo = o :: l) (ho : seqOp o (u.takeOp l) = .next v)
    (hem : isEmit o = false) (h : GuardedSoFar p new u) : GuardedSoFar p new v := by
  obtain ⟨rfl, guarded, ph, shows, plan⟩ := h
  have params : v.params = u.params := (fixed_take (fixed_seqOp ho)).params
  have next := plan_step (distinct_of_wf hp) (issue_of_shape hs hl) ho (hl ▸ plan)
  exact ⟨params, guarded, phaseOf u ph o, shows_phase hem shows, params ▸ next⟩

theorem GuardedSoFar.emit {p : Params} {new : List TraceEntry} {u v : State} {e : TraceEntry} {l : List Op}
    (hl : u.todo = .emit e :: l) (ho : seqOp (.emit e) (u.takeOp l) = .next v) (h : GuardedSoFar p new u) :
    GuardedSoFar p (new ++ [e]) v := by
  obtain ⟨rfl, guarded, ph, shows, plan⟩ := h
  cases ho
  rw [hl, plan_emit, Bool.and_eq_true] at plan
  obtain ⟨confirmed, next⟩ := plan
  refine ⟨rfl, guarded_emit guarded shows fun hm => ?_, _, shows_emit _ _ e shows, next⟩
  simpa [hm] using confirmed

theorem GuardedSoFar.fill {p : Params} {new : List TraceEntry} {u : State} (b : Byte) (h : GuardedSoFar p new u) :
    GuardedSoFar p (appendData b new) u := by
  obtain ⟨params, guarded, ph, shows, plan⟩ := h
  exact ⟨params, guarded_fill b guarded, ph, shows_fill b shows, plan⟩

/-- Settles O56: `GuardedSoFar` holds at the start and every step keeps it (`exec_trace`). -/
theorem writeEnableGuard : Obligations.WriteEnableGuard := by
  intro i s t hp hi hc h
  obtain ⟨new, grows, -, guarded, -⟩ := exec_trace (Q := GuardedSoFar s.params) hi h
    (fun u hu => .start hi hc hu)
    (fun u v o l new hs hl _ _ _ ho hem hq => hq.same hp hs hl ho hem)
    (fun u v e l new hl _ ho hq => hq.emit hl ho)
    (fun b new v hq => hq.fill b)
  exact ⟨new, grows, guarded⟩

end Sys2Proof.Laws
end

