-- ==== Sys2Proof/Proofs/TransactionsAlone.lean ====
section
/-! The twelve flash transactions standing alone on a ready block (log 6), from their start to their end
(41_flash_transactions.md R160 to R174, 20_memory.md R87 to R92). -/

namespace Sys2Proof.Laws

open Sys2Proof.Machine

/-! ### The start -/

/-- A transaction standing alone whose guards pass has latched its descriptor, and its engine steps are ahead. -/
theorem startInstr_alone {s : State} {d : RefDev} {n : Nat} (h : s.CanRun d n) {i : Instr} (hc : Instr.code i = 0)
    (hw : i ≠ .tWrvcr) (hok : descriptorOk (txPlan s.params i).1 = true) : startInstr i s =
      .next (withTodo ((txPlan s.params i).2 ++ [.finish .ok 0])
        (latched (txPlan s.params i).1 (prep i (begun i .engineCommand s)))) := by
  obtain ⟨-, idle, -, unfaulted, enabled, unmapped, -⟩ := usable_iff.1 h.usable
  rw [startInstr_tx hc hw unfaulted, if_pos idle, begin_eq]
  exact startEngine_ok (x := withTodo [.finish .ok 0] (prep i (begun i .engineCommand s))) hok enabled unmapped

/-! ### Transactions with no data (R160, R163, R164, R168, R169) -/

/-- A transaction that sends a command with no data: the chip executes it. -/
theorem commandOnly_completes {s : State} {d : RefDev} {n : Nat} (h : s.CanRun d n) {i : Instr} {hd : Header}
    (hc : Instr.code i = 0) (hw : i ≠ .tWrvcr) (hr : i ≠ .tRdcr)
    (plan : txPlan s.params i = (.transfer (commandOnly hd), writeOps (commandOnly hd)))
    (hok : descriptorOk (.transfer (commandOnly hd)) = true) (hn : 15 ≤ n) :
    ∃ t e free, exec i s = .next t ∧ s.SameBuffers t ∧ s.Transacted t e (entryOf .eWrite hd .indirectWrite 0 []) ∧
      e.chip = d.chip.command s.params free hd.instr hd.addr [] := by
  have start := startInstr_alone h hc hw (by rw [plan]; exact hok)
  rw [plan, prep_other hr] at start
  exact alone_write h i (t := commandOnly hd) (bytes := []) start hok rfl (fun _ hj => absurd hj (Nat.not_lt_zero _)) hn

/-- Settles O17: `commandOnly_completes`, and what each command does to the chip (20_memory.md R88). -/
theorem latchTransactionsComplete : Obligations.LatchTransactionsComplete := by
  intro s d h hb
  have hp := canRun_params h
  have hn : 15 ≤ 20 := by decide
  refine ⟨?_, ?_, ?_⟩
  · obtain ⟨t, e, free, hx, buffers, done, chip⟩ :=
      commandOnly_completes h (i := .tWren) rfl (by decide) (by decide) rfl (ok_plain _) hn
    exact ⟨t, e, hx, buffers, done, chip.trans (command_wren hp free 0 (d := d.chip) hb [])⟩
  · obtain ⟨t, e, free, hx, buffers, done, chip⟩ :=
      commandOnly_completes h (i := .tRsten) rfl (by decide) (by decide) rfl (ok_plain _) hn
    exact ⟨t, e, hx, buffers, done, chip.trans (command_rsten free 0 (d := d.chip) hb [])⟩
  · obtain ⟨t, e, free, hx, buffers, done, chip⟩ :=
      commandOnly_completes h (i := .tRst) rfl (by decide) (by decide) rfl (ok_plain _) hn
    refine ⟨t, e, hx, buffers, done, chip.trans ((command_rst hp free 0 (d := d.chip) hb []).trans ?_)⟩
    simp only [RefDev.chip, hb]

/-! ### Status polls (R161, R162) -/

/-- Settles O18: the evaluation at which each poll matches is `welPoll_matches`' first, and `wipPoll_matches`' one more than
the countdown. -/
theorem pollTransactionsComplete : Obligations.PollTransactionsComplete := by
  intro s d h hbudget
  have hp := canRun_params h
  refine ⟨fun latched => ?_, ?_⟩
  · exact alone_poll h .tPollWel (m := s.params.welMask) (k := s.params.welMask) 0
      (startInstr_alone h (i := .tPollWel) rfl (by decide) (ok_statusPoll _ _ _))
      (fun _ hj => absurd hj (Nat.not_lt_zero _)) (welPoll_matches hp latched 0) (budget_zero (canRun_wf h)) (by omega)
  · obtain ⟨t, e, hx, buffers, done, chip⟩ := alone_poll h .tPollWip (m := 0) (k := s.params.wipMask) d.bc
      (startInstr_alone h (i := .tPollWip) rfl (by decide) (ok_statusPoll _ _ _))
      (fun j hj => by rw [wipPoll_matches hp]; exact decide_eq_false (by omega))
      (by rw [wipPoll_matches hp]; exact decide_eq_true le_rfl) (by simpa [budgetAllows] using hbudget) (by omega)
    exact ⟨t, e, hx, buffers, done, chip.trans (by rw [show d.bc - (d.bc + 1) = 0 by omega])⟩

/-! ### Array commands (R168, R169, R172) -/

/-- What an erase or a program that changes the array by `f` does to a chip that is not busy (20_memory.md R91). -/
theorem arrayCommand_effect {p : Params} (hp : WfParams p) {d e : RefDev} {free : Nat → Byte} {op : Byte} {a : Word}
    {data : List Byte} {f : List Host.Cell → List Host.Cell} (hb : d.bc = 0)
    (hop : op = p.opc.se ∨ op = p.opc.ce ∨ op = p.opc.qpp) (chip : e.chip = d.chip.command p free op a data)
    (heff : d.chip.latched p = true → d.chip.command p free op a data =
      { d.chip with rsten := false, fsr := d.fsr &&& ~~~p.welMask, bc := d.busyPolls, array := f d.array }) :
    e.fcfg = d.fcfg ∧ (d.latched p = true → e.latched p = false ∧ e.bc = d.busyPolls ∧ e.array = f d.array) ∧
      (d.latched p = false → e.fsr = d.fsr ∧ e.bc = 0 ∧ e.array = d.array) := by
  cases hl : d.latched p with
  | true =>
    have after := chip.trans (heff hl)
    refine ⟨(congrArg RefDev.fcfg after :), fun _ => ⟨?_, (congrArg RefDev.bc after :), (congrArg RefDev.array after :)⟩,
      fun h => by cases h⟩
    exact (congrArg (RefDev.latched p) after).trans (unlatch d.fsr p.welMask)
  | false =>
    have after := chip.trans (command_array_unlatched hp free a (d := d.chip) hb hl data hop)
    exact ⟨(congrArg RefDev.fcfg after :), (fun h => by cases h), fun _ =>
      ⟨(congrArg RefDev.fsr after :), (congrArg RefDev.bc after :).trans hb, (congrArg RefDev.array after :)⟩⟩

/-- An erased byte reads 0xFF, every other byte as before. -/
theorem arrayByte_cellClear {d e : RefDev} {q : Nat → Prop} [DecidablePred q]
    (h : e.array = cellClear (fun o => decide (q o)) d.array) (o : Nat) :
    e.arrayByte o = if q o then 0xFF else d.arrayByte o := by
  simp only [RefDev.arrayByte, h, cellRead_cellClear, decide_eq_true_eq]
  rfl

/-- An erase standing alone, whose command clears the cells of `q` on a latched chip. -/
theorem erase_completes {s : State} {d : RefDev} {i : Instr} {hd : Header} {q : Nat → Prop} [DecidablePred q]
    (h : s.CanRun d 20) (hb : d.bc = 0) (hc : Instr.code i = 0) (hw : i ≠ .tWrvcr) (hr : i ≠ .tRdcr)
    (plan : txPlan s.params i = (.transfer (commandOnly hd), writeOps (commandOnly hd)))
    (hok : descriptorOk (.transfer (commandOnly hd)) = true)
    (hop : hd.instr = s.params.opc.se ∨ hd.instr = s.params.opc.ce ∨ hd.instr = s.params.opc.qpp)
    (heff : ∀ free, d.chip.latched s.params = true → d.chip.command s.params free hd.instr hd.addr [] =
      { d.chip with
        rsten := false, fsr := d.fsr &&& ~~~s.params.welMask, bc := d.busyPolls
        array := cellClear (fun o => decide (q o)) d.array }) :
    ∃ t e, exec i s = .next t ∧ s.SameBuffers t ∧ s.Transacted t e (entryOf .eWrite hd .indirectWrite 0 []) ∧
      e.fcfg = d.fcfg ∧
      (d.latched s.params = true → e.latched s.params = false ∧ e.bc = d.busyPolls ∧
        ∀ o, e.arrayByte o = if q o then 0xFF else d.arrayByte o) ∧
      (d.latched s.params = false → e.fsr = d.fsr ∧ e.bc = 0 ∧ e.array = d.array) := by
  obtain ⟨t, e, free, hx, buffers, done, chip⟩ := commandOnly_completes h hc hw hr plan hok (by decide)
  obtain ⟨fcfg, erased, unlatched⟩ := arrayCommand_effect (canRun_params h) hb hop chip (heff free)
  refine ⟨t, e, hx, buffers, done, fcfg, fun hl => ?_, unlatched⟩
  obtain ⟨clear, busy, array⟩ := erased hl
  exact ⟨clear, busy, arrayByte_cellClear array⟩

/-- Settles O21: `erase_completes` with the cells that each command clears. -/
theorem eraseTransactionsComplete : Obligations.EraseTransactionsComplete := by
  intro s d addr h hb hwf
  have hp := canRun_params h
  exact ⟨erase_completes h hb (i := .tSe addr) rfl (by simp) (by simp) rfl (ok_sectorErase hp (of_decide_eq_true hwf))
      (.inl rfl) fun free hl => command_se hp free addr (d := d.chip) hb [] hl,
    erase_completes h hb (i := .tCe) rfl (by decide) (by decide) rfl (ok_plain _)
      (.inr (.inl rfl)) fun free hl => command_ce hp free 0 (d := d.chip) hb [] hl⟩

/-- The operand ranges of `T_QPP` (R172). -/
theorem wf_tQpp {p : Params} {dest n src : Word} (h : (Instr.tQpp dest n src).wf p = true) :
    1 ≤ n.toNat ∧ dest.toNat + n.toNat ≤ p.size ∧ dest.toNat % p.page + n.toNat ≤ p.page := by
  simp only [Instr.wf, Bool.and_eq_true, decide_eq_true_eq] at h
  obtain ⟨⟨⟨⟨pos, -⟩, size⟩, page⟩, -⟩ := h
  exact ⟨pos, size, page⟩

/-- A program within one page ANDs the host's bytes into its range, and into no other byte (20_memory.md R75). -/
theorem programmed_of_array {p : Params} {s : State} {d e : RefDev} {a n src : Nat}
    (he : e.array = programBytes p a 0 (s.memBytes src n) d.array) (hwf : cellsWf arrayDefault d.array = true)
    (hpage : a % p.page + n ≤ p.page) (hsize : a + n ≤ p.size) : Programmed s d e a n src := by
  intro o
  have bytes_length : (s.memBytes src n).length = n := by simp [State.memBytes]
  rw [RefDev.arrayByte, he, programBytes_read hwf (by omega) (by omega), bytes_length, Nat.add_zero]
  refine if_ctx_congr Iff.rfl (fun ho => ?_) fun _ => rfl
  rw [List.getD_eq_getElem _ _ (by omega), memBytes_get]
  rfl

/-- Settles O22: the host's bytes go to the chip (`alone_write`), which ANDs them into its page if it is latched. -/
theorem pageProgramTransactionCompletes : Obligations.PageProgramTransactionCompletes := by
  intro s d dest n src h hb hwf admitted
  have hp := canRun_params h
  obtain ⟨pos, size, page⟩ := wf_tQpp hwf
  have nonzero : n ≠ 0 := by rintro rfl; simp at pos
  have bytes_length : (s.memBytes src.toNat n.toNat).length = n.toNat := by simp [State.memBytes]
  have hok : descriptorOk (.transfer (quadProgram s.params dest n src)) = true := ok_quadProgram hp (by omega) nonzero
  obtain ⟨t, e, free, hx, buffers, done, chip⟩ := alone_write h (.tQpp dest n src) (t := quadProgram s.params dest n src)
    (startInstr_alone h rfl (by simp) hok) hok bytes_length
    (fun j hj => ⟨admits_of_admitsAll admitted (by omega), (memBytes_get hj).symm⟩) (by omega)
  obtain ⟨fcfg, programmed, unlatched⟩ := arrayCommand_effect hp hb (.inr (.inr rfl)) chip fun hl =>
    command_qpp hp free dest (d := d.chip) hb _ hl
  refine ⟨t, e, hx, buffers, done, fcfg, fun hl => ?_, unlatched⟩
  obtain ⟨clear, busy, array⟩ := programmed hl
  exact ⟨clear, busy, programmed_of_array array (canRun_arrayWf h) page size⟩

/-! ### Quad reads (R173) -/

/-- Bytes of the array stored one after another. -/
theorem cellRead_arrayBytes {dflt : Byte} {m : List Host.Cell} (h : cellsWf dflt m = true) (d : RefDev) (x n a o : Nat) :
    cellRead dflt (writeCells dflt m a (d.arrayBytes x n)) o =
      if a ≤ o ∧ o < a + n then d.arrayByte (x + (o - a)) else cellRead dflt m o := by
  rw [cellRead_writeCells h, arrayBytes_length]
  refine if_ctx_congr Iff.rfl (fun ho => ?_) fun _ => rfl
  rw [List.getD_eq_getElem _ _ (by rw [arrayBytes_length]; omega)]
  simp [RefDev.arrayBytes]

/-- A `T_QREAD` inside the flash fills its buffer with the array's bytes. -/
theorem quadRead_completes {s : State} {d : RefDev} {dest n : Word} {b : BufRef} (h : s.CanRun d (20 + 5 * n.toNat))
    (hb : d.bc = 0) (pos : 1 ≤ n.toNat) (size : dest.toNat + n.toNat ≤ s.params.size)
    (hbuf : ∀ j, j < n.toNat → bufOk s b j = true) : ∃ t e, exec (.tQread dest n b) s = .next t ∧
      s.Transacted t e (entryOf .eRead (quadReadHeader s.params dest) .indirectRead n (d.arrayBytes dest.toNat n.toNat)) ∧
      e.chip = { d.chip with rsten := false } ∧ Filled s t b 0 (d.arrayBytes dest.toNat n.toNat) ∧
      t.mmapActive = false := by
  have hp := canRun_params h
  have nonzero : n ≠ 0 := by rintro rfl; simp at pos
  have hok : descriptorOk (.transfer (quadRead s.params dest n b)) = true := ok_quadRead hp (by omega) nonzero
  obtain ⟨t, e, free, hx, done, filled, mapped, chip⟩ := alone_read h (.tQread dest n b) (t := quadRead s.params dest n b)
    (startInstr_alone h rfl (by simp) hok) hok hbuf (Nat.add_le_add_right (by decide) _)
  have response : d.response s.params free s.params.opc.qread dest n.toNat = d.arrayBytes dest.toNat n.toNat :=
    response_inFlash hp free hb dest n size
  obtain ⟨-, -, -, -, -, unmapped, -⟩ := usable_iff.1 h.usable
  exact ⟨t, e, hx, response ▸ done, chip.trans (command_reads hp free dest (d := d.chip) hb [] (.inr (.inr rfl))),
    response ▸ filled, mapped.trans unmapped⟩

/-- Settles O23: `quadRead_completes` into host memory and into the staging buffer. -/
theorem quadReadTransactionCompletes : Obligations.QuadReadTransactionCompletes := by
  intro s d dest n h hb
  refine ⟨fun buf hwf admitted => ?_, fun hwf => ?_⟩
  · simp only [Instr.wf, Bool.and_eq_true, decide_eq_true_eq] at hwf
    obtain ⟨⟨pos, size⟩, -⟩ := hwf
    obtain ⟨t, e, hx, done, chip, filled, unmapped⟩ := quadRead_completes h hb pos size (b := .host buf)
      fun j hj => admits_of_admitsAll admitted hj
    refine ⟨t, e, hx, done, chip, fun a => ?_, filled.stg, filled.cfgbuf, unmapped⟩
    rw [State.memByte, filled.hostMem]
    exact cellRead_arrayBytes (canRun_hostWf h) d dest.toNat n.toNat buf.toNat a
  · simp only [Instr.wf, Bool.and_eq_true, decide_eq_true_eq] at hwf
    obtain ⟨⟨pos, size⟩, page⟩ := hwf
    obtain ⟨t, e, hx, done, chip, filled, unmapped⟩ := quadRead_completes h hb pos size (b := .stg)
      fun j hj => decide_eq_true (by omega)
    obtain ⟨-, ⟨stgWf, -⟩, -⟩ := (memoryWf_iff s).1 h.memory
    refine ⟨t, e, hx, done, chip, fun k => ?_, filled.hostMem, filled.cfgbuf, unmapped⟩
    rw [State.stgByte, filled.stg]
    refine (cellRead_arrayBytes stgWf d dest.toNat n.toNat 0 k).trans ?_
    simp [State.stgByte]

/-! ### Memory-mapped mode (R174) -/

/-- A mapped device shows no flag. -/
theorem ready_mapped {d : RefDev} (h : d.ready = true) : RefDev.ready { d with ns := d.ns + 1, cur := .mapped } = true := by
  obtain ⟨quiet, tef, tof, tcf, smf, -⟩ := ready_iff.1 h
  exact ready_iff.2 ⟨quiet_counted quiet, tef, tof, tcf, smf, rfl⟩

/-- Settles O24: `run_map` on the descriptor of R174. -/
theorem mapTransactionCompletes : Obligations.MapTransactionCompletes := by
  intro s d h
  have hok := ok_quadReadMap (canRun_params h)
  obtain ⟨-, -, -, unfaulted, -, -, noAbort, -⟩ := usable_iff.1 h.usable
  have live := canRun_live h .tQreadMmap (f := .engineCommand) (by decide)
  obtain ⟨y, run, entered, hostMem, stg, cfgbuf, mapped, -, -, env, cr, lptr, abr, ccr, -, -, trace⟩ :=
    run_map (m := quadReadMap s.params) (live.ready.latched (.map (quadReadMap s.params))) [.finish .ok 0]
  have kept := (kept_latched (.map (quadReadMap s.params)) _).trans entered
  have hburst : 12 + 1 ≤ s.burst := by have := h.steps; omega
  have tcen : y.regs.cr.getLsbD 3 = s.params.mmapTcen := by
    rw [cr]; exact (getLsbD_crAfter_tcen _ noAbort 3).trans (if_pos rfl)
  exact ⟨_, _, exec_ends (startInstr_alone h rfl (by decide) hok) run (kept.calm live.ready.calm) hburst,
    transacted unfaulted kept env (ready_mapped h.ready) trace, hostMem, stg, cfgbuf, mapped, rfl, rfl, lptr, tcen, abr, ccr⟩

end Sys2Proof.Laws
end

