-- ==== Sys2Proof/Proofs/ConfigTransactions.lean ====
section
/-! `T_RDCR` and `T_WRVCR` standing alone (41_flash_transactions.md R166, R167, 20_memory.md R89), and `CFGBUF` after a
`T_RDCR` that fails in any of its waits, under every environment (log 37). -/

namespace Sys2Proof.Laws

open Sys2Proof.Machine

/-! ### The configuration write (R167) -/

/-- `CFGBUF <- CFGBUF | P_QE_MASK`. -/
def withQuadEnable (x : State) : State := { x with cfgbuf := x.cfgbuf ||| x.params.qeMask }

theorem kept_withQuadEnable (x : State) : Kept x (withQuadEnable x) := by constructor <;> rfl

/-- A `T_WRVCR` standing alone has set the bit, and its write is ahead. -/
theorem startInstr_tWrvcr_alone {s : State} {d : RefDev} {n : Nat} (h : s.CanRun d n) : startInstr .tWrvcr s =
    .next (withTodo [.configWrite, .finish .ok 0] (withQuadEnable (begun .tWrvcr .engineCommand s))) := by
  obtain ⟨-, idle, -, unfaulted, -⟩ := usable_iff.1 h.usable
  rw [startInstr_wrvcr unfaulted, if_pos idle]
  rfl

theorem Live.withQuadEnable {x : State} {d : RefDev} (h : Live x d) : Live (withQuadEnable x) d :=
  ⟨⟨h.ready.calm, h.ready.env, h.ready.dev, h.ready.en, h.ready.abort⟩, h.wf, h.unmapped, h.running⟩

theorem runs_configWrite {x : State} {d : RefDev} (h : Live x d) (l : List Op) :
    Runs 1 (withTodo (.configWrite :: l) x)
      (withTodo (writeOps (configWrite x.params) ++ l) (latched (.transfer (configWrite x.params)) x)) :=
  Runs.op rfl h.ready.calm.1 h.ready.calm.2 (startEngine_live (x := x) (l := l) h (ok_config _).2)

/-- Settles O20: the one byte of `CFGBUF` goes to the chip (`run_write`), latched or not (`command_wrvcr_any`). -/
theorem configWriteCompletes : Obligations.ConfigWriteCompletes := by
  intro s d h hb
  obtain ⟨-, -, -, unfaulted, -, unmapped, -⟩ := usable_iff.1 h.usable
  have live := (canRun_live h .tWrvcr (f := .engineCommand) (by decide)).withQuadEnable
  obtain ⟨k, y, e, free, hk, run, done, rest, -, chip, trace⟩ := run_write (t := configWrite s.params)
    (bytes := [s.cfgbuf ||| s.params.qeMask]) (live.ready.latched (.transfer (configWrite s.params))) rfl (ok_config _).2 rfl
    (fun j hj => by obtain rfl := Nat.lt_one_iff.1 hj; exact ⟨rfl, rfl⟩) [.finish .ok 0]
  have kept := (kept_withQuadEnable _).trans ((kept_latched _ _).trans done.kept)
  have hburst : 1 + k + 1 ≤ s.burst := by
    have := h.steps
    simp only [List.length_singleton] at hk
    omega
  exact ⟨_, e, exec_ends (startInstr_tWrvcr_alone h) ((runs_configWrite live _).trans run) done.ready.calm hburst,
    transacted unfaulted kept done.ready.env done.ready.dev trace, rest.cfgbuf, rest.hostMem, rest.stg,
    rest.mmapActive.trans unmapped, chip.trans (command_wrvcr_any (canRun_params h) free 0 (d := d.chip) hb _)⟩

/-! ### The configuration read (R166) -/

/-- A `T_RDCR` that ends `Ok`. -/
theorem configRead_completes {s : State} {d : RefDev} (h : s.CanRun d 24) (hb : d.bc = 0) :
    ∃ t e, exec .tRdcr s = .next t ∧
      s.Transacted t e
        (entryOf .eRead { plainHeader s.params.opc.rdcr with dmode := .one } .indirectRead 1 [d.fcfg]) ∧
      t.cfgbuf = d.fcfg ∧ t.hostMem = s.hostMem ∧ t.stg = s.stg ∧ t.mmapActive = false ∧
      e.chip = { d.chip with rsten := false } := by
  have hp := canRun_params h
  obtain ⟨-, -, -, -, -, unmapped, -⟩ := usable_iff.1 h.usable
  obtain ⟨t, e, free, hx, done, filled, mapped, chip⟩ := alone_read h .tRdcr (t := configRead s.params)
    (startInstr_alone h rfl (by decide) (ok_config _).1) (ok_config _).1 (fun _ _ => rfl) (show 15 + 5 * 1 ≤ 24 by decide)
  have response : d.response s.params free (configRead s.params).hdr.instr (configRead s.params).hdr.addr
      (configRead s.params).len.toNat = [d.fcfg] := response_rdcr hp free 0 hb 1
  rw [response] at done filled
  exact ⟨t, e, hx, done, filled.cfgbuf, filled.hostMem, filled.stg, mapped.trans unmapped,
    chip.trans (command_reads hp free 0 (d := d.chip) hb [] (.inr (.inl rfl)))⟩

/-! ### A configuration read that fails (log 37) -/

/-- The steps of a read before its descriptor is dropped, and those that lead to a raised status. -/
def readStep : Op → Bool
  | .setEng _ | .wait _ _ | .writeReg _ _ | .emit _ | .readLoop _ | .drRead | .bufWrite => true
  | _ => false

/-- The remaining steps of a read standing alone: they raise a status, or drop the descriptor and end the command `Ok`. -/
def readAlone : List Op → Bool
  | [] => false
  | .raise _ :: _ => true
  | .dropDesc :: l => l == [.finish .ok 0]
  | o :: l => readStep o && readAlone l

theorem readAlone_cons {o : Op} (ho : readStep o = true) (l : List Op) : readAlone (o :: l) = readAlone l := by
  cases o with
  | setEng | wait | writeReg | emit | readLoop | drRead | bufWrite => rfl
  | _ => cases ho

/-- A step of a read raises no fault and lets go of no kept `CFGBUF`. -/
theorem readStep_keeps {o : Op} (ho : readStep o = true) :
    faulting o = false ∧ dropping o = false ∧ o ≠ .issue .tRdcr := by
  cases o with
  | setEng | wait | writeReg | emit | readLoop | drRead | bufWrite => exact ⟨rfl, rfl, nofun⟩
  | _ => cases ho

theorem readAlone_append {P l : List Op} (hP : P.all readStep = true) : readAlone (P ++ l) = readAlone l := by
  induction P with
  | nil => rfl
  | cons o P ih =>
    rw [List.all_cons, Bool.and_eq_true] at hP
    exact (readAlone_cons hP.1 _).trans (ih hP.2)

theorem readAlone_readOps (t : Transaction) : readAlone (readOps t ++ [.finish .ok 0]) = true := by
  have setup : (setupOps .eRead t.hdr .indirectRead t.len).all readStep = true := by
    unfold setupOps; split <;> simp [readStep]
  simp only [readOps, List.append_assoc]
  rw [readAlone_append (P := startOps) rfl, readAlone_append setup]
  rfl

/-- The next step of such a read: a status raised, the descriptor dropped, or one step more. -/
theorem readAlone_cases {o : Op} {l : List Op} (h : readAlone (o :: l) = true) :
    (∃ st, o = .raise st) ∨ (o = .dropDesc ∧ l = [.finish .ok 0]) ∨ (readStep o = true ∧ readAlone l = true) := by
  cases o with
  | raise st => exact .inl ⟨st, rfl⟩
  | dropDesc => exact .inr (.inl ⟨rfl, by simpa [readAlone] using h⟩)
  | _ => exact .inr (.inr (by simpa [readAlone] using h))

theorem next_readAlone {p : Params} {o : Op} {l l' : List Op} (h : Next p o l l') (ho : readStep o = true)
    (hl : readAlone l = true) : readAlone l' = true := by
  cases h with
  | same => exact hl
  | waitError | waitOver => rfl
  | waitAgain | readLoop => exact hl
  | _ => cases ho

/-- Where a `T_RDCR` that began with `CFGBUF` at `c` stands in `u`: it has ended, `Ok` or with `CFGBUF` at `c`; or its read
runs and keeps `c` for a failure; or nothing but its end `Ok` is left. -/
inductive ConfigReading (c : Byte) (u : State) : Prop where
  | ended : u.todo = [] → u.cfgbuf = c ∨ (u.fault = none ∧ u.port.resst = some .ok) → ConfigReading c u
  | runs : u.fault = none → u.cfgSaved = some c → readAlone u.todo = true → ConfigReading c u
  | ends : u.fault = none → u.todo = [.finish .ok 0] → ConfigReading c u

theorem ConfigReading.start {s u : State} (hi : s.idle = true) (h : startInstr .tRdcr s = .next u) :
    ConfigReading s.cfgbuf u := by
  obtain ⟨idle, -, unfaulted⟩ := idle_facts hi
  rcases startTx_next rfl unfaulted h with ⟨-, f, rfl⟩ | rfl
  · rw [if_pos idle]; exact .ended rfl (.inl rfl)
  · rw [if_pos idle]; exact .runs unfaulted rfl (readAlone_readOps (configRead s.params))

theorem ConfigReading.step {c : Byte} {u v : State} {o : Op} {l : List Op} (hl : u.todo = o :: l)
    (hn : Next u.params o l v.todo) (he : Effect o (u.takeOp l) v) (ho : seqOp o (u.takeOp l) = .next v)
    (h : ConfigReading c u) : ConfigReading c v := by
  cases h with
  | ended done => rw [hl] at done; cases done
  | ends unfaulted last =>
    rw [hl] at last
    cases last
    cases ho
    exact .ended rfl (.inr ⟨unfaulted, rfl⟩)
  | runs unfaulted saved rest =>
    rw [hl] at rest
    rcases readAlone_cases rest with ⟨st, rfl⟩ | ⟨rfl, rfl⟩ | ⟨step, rest⟩
    · cases ho
      refine .ended rfl (.inl ?_)
      show u.cfgSaved.getD u.cfgbuf = c
      rw [saved]; rfl
    · cases ho
      exact .ends unfaulted rfl
    · obtain ⟨noFault, noDrop, noIssue⟩ := readStep_keeps step
      refine .runs ?_ ?_ (next_readAlone hn step rest)
      · exact (he.fault.resolve_right (by simp [noFault])).trans unfaulted
      · exact ((he.cfgSaved noIssue).resolve_right (by simp [noDrop])).trans saved

/-- A `T_RDCR` that has ended in a fault or with a status other than `Ok` has left `CFGBUF` as it was. -/
theorem configRead_failed {s t : State} (hi : s.idle = true) (h : exec .tRdcr s = .next t) (ht : t.todo = [])
    (failed : t.fault ≠ none ∨ t.port.resst ≠ some .ok) : t.cfgbuf = s.cfgbuf := by
  have reading : ConfigReading s.cfgbuf t := exec_keeps hi h (fun u hu => .start hi hu)
    fun u v o l hu _ hl _ _ hn he ho => hu.step hl hn he ho
  cases reading with
  | ended _ outcome =>
    refine outcome.resolve_right ?_
    rintro ⟨unfaulted, ok⟩
    exact failed.elim (· unfaulted) (· ok)
  | runs _ _ rest => rw [ht] at rest; cases rest
  | ends _ rest => rw [ht] at rest; cases rest

/-- Settles O19: `configRead_completes`, and `configRead_failed` under every environment. -/
theorem configReadCompletes : Obligations.ConfigReadCompletes :=
  ⟨fun _ _ h hb => configRead_completes h hb, fun _ _ hi h ht failed => configRead_failed hi h ht failed⟩

end Sys2Proof.Laws
end

