-- ==== Sys2Proof/Proofs/FlashCommandStarts.lean ====
section
/-! How a flash-layer command and `WRITE` start: the operands they read (42_flash_operations.md R190), their checks in their
order (R193 to R197), and the steps that are ahead once the checks have passed. -/

namespace Sys2Proof.Laws

open Sys2Proof.Machine

/-! ### Operands never written (R190 item 3) -/

theorem argsMissing_of_unwritten {s : State} {i : Instr} {k : Fin 6} (hk : k ∈ argsOf i) (h : s.port.arg k = none) :
    s.argsMissing i = true :=
  List.any_eq_true.2 ⟨k, hk, by rw [h]; rfl⟩

/-- A host command on an idle block with a register that it reads unwritten. -/
theorem exec_unwritten {s : State} {i : Instr} {k : Fin 6} (hi : s.idle = true) (hc : Instr.code i ≠ 0)
    (hk : k ∈ argsOf i) (h : s.port.arg k = none) : exec i s = .next (s.raiseFault .unwritten) := by
  obtain ⟨body, start⟩ := startInstr_command hc s
  exact exec_of_start_faults (by rw [start, startCommand_idle hi, if_pos (argsMissing_of_unwritten hk h)])

/-- Settles O43: `exec_unwritten` for every register that R112 and R113 list for a command. -/
theorem unwrittenOperands : Obligations.UnwrittenOperands := by
  intro s hi
  have reads012 : ∀ i ∈ [Instr.programPage, .read, .verify, .blankCheck, .write, .eWrite, .eRead, .ePoll],
      Instr.code i ≠ 0 ∧ 0 ∈ argsOf i ∧ 1 ∈ argsOf i ∧ 2 ∈ argsOf i := by decide
  have reads34 : ∀ i ∈ [Instr.eWrite, .eRead, .ePoll], Instr.code i ≠ 0 ∧ 3 ∈ argsOf i ∧ 4 ∈ argsOf i := by decide
  refine ⟨fun h i hm => ?_, fun h => exec_unwritten (k := 0) hi (by decide) (by decide) h, fun h i hm => ?_,
    fun h => exec_unwritten (k := 5) hi (by decide) (by decide) h, fun h => ?_⟩
  · obtain ⟨hc, h0, h1, h2⟩ := reads012 i hm
    rcases h with h | h | h
    · exact exec_unwritten hi hc h0 h
    · exact exec_unwritten hi hc h1 h
    · exact exec_unwritten hi hc h2 h
  · obtain ⟨hc, h3, h4⟩ := reads34 i hm
    rcases h with h | h
    · exact exec_unwritten hi hc h3 h
    · exact exec_unwritten hi hc h4 h
  · rcases h with h | h | h
    · exact exec_unwritten (k := 0) hi (by decide) (by decide) h
    · exact exec_unwritten (k := 2) hi (by decide) (by decide) h
    · exact exec_unwritten (k := 3) hi (by decide) (by decide) h

/-! ### Checks (R193) -/

/-- The start of `i` makes the checks of every flash-layer command, then its `own`; where all pass, the command begins at the
FSM step `f` with the steps `ops`. -/
def FlashStart (s : State) (i : Instr) (own : List (Bool × FaultReason)) (f : FsmStep) (ops : List Op) : Prop :=
  startInstr i s = s.startFlash (s.engineChecks ++ own) (s.begin i f ops)

theorem FlashStart.startsOr {s : State} {i : Instr} {own : List (Bool × FaultReason)} {f : FsmStep} {ops : List Op}
    (h : FlashStart s i own f ops) (hi : s.idle = true) : s.startsOr i (s.owedFlash (firstFault own)) f s.desc := by
  refine startsOr_of (b := s.begin i f ops) ?_ fun _ => ⟨rfl, rfl, (idle_facts hi).2.2, rfl, rfl, rfl, rfl, rfl, rfl, rfl⟩
  rw [h, ← owed_engine]
  rfl

theorem FlashStart.begins {s : State} {d : RefDev} {k : Nat} {i : Instr} {own : List (Bool × FaultReason)} {f : FsmStep}
    {ops : List Op} (h : FlashStart s i own f ops) (hr : s.CanRun d k) (passed : firstFault own = none) :
    startInstr i s = .next (withTodo ops (begun i f s)) := by
  rw [h, startFlash_ok ((canRun_engineChecks hr own).trans passed), begin_eq]

section
variable {s : State} (hi : s.idle = true)
include hi

theorem flashStart_init : FlashStart s .init [] .resetIssued initOps := by
  rw [FlashStart, startInstr, startInit, startCommand_idle hi]
  rfl

theorem flashStart_eraseChip :
    FlashStart s .eraseChip [] .writeEnablePending (mutateOps .tCe ++ [.finish .ok 0]) := by
  rw [FlashStart, startInstr, startEraseChip, startCommand_idle hi]
  rfl

theorem flashStart_mmap : FlashStart s .mmap [] .mapEntering [.issue .tQreadMmap, .finish .ok 0] := by
  rw [FlashStart, startInstr, startMmap, startCommand_idle hi]
  rfl

theorem flashStart_eraseSector {x : Word} (h0 : s.port.arg0 = some x) :
    FlashStart s .eraseSector [(!decide (x.toNat < s.params.size), .range)] .writeEnablePending
      (mutateOps (.tSe x) ++ [.finish .ok 0]) := by
  have written : s.argsMissing .eraseSector = false := argsMissing_eq_false (by simp [argsOf, Port.arg, h0])
  have operand : s.arg 0 = x := by simp [State.arg, Port.arg, h0]
  rw [FlashStart, startInstr, startEraseSector, startCommand_idle hi, written, operand]
  rfl

variable {x n b : Word} (h0 : s.port.arg0 = some x) (h1 : s.port.arg1 = some n) (h2 : s.port.arg2 = some b)
include h0 h1 h2

theorem flashStart_programPage :
    FlashStart s .programPage [(pageSizeBad s.params n, .size), (rangeBad s.params x n, .range), (hostRangeBad b n, .range),
      (pageCrossBad s.params x n, .pageCross)] .writeEnablePending (mutateOps (.tQpp x n b) ++ [.finish .ok 0]) := by
  obtain ⟨written, e0, e1, e2⟩ := operands_written (i := .programPage) rfl h0 h1 h2
  rw [FlashStart, startInstr, startProgramPage, startCommand_idle hi, written, e0, e1, e2]
  rfl

theorem flashStart_read :
    FlashStart s .read [(decide (n = 0), .size), (rangeBad s.params x n, .range), (hostRangeBad b n, .range)] .reading
      [.issue (.tQread x n (.host b)), .finish .ok 0] := by
  obtain ⟨written, e0, e1, e2⟩ := operands_written (i := .read) rfl h0 h1 h2
  rw [FlashStart, startInstr, startReadCommand, startCommand_idle hi, written, e0, e1, e2]
  rfl

theorem flashStart_verify :
    FlashStart s .verify [(rangeBad s.params x n, .range), (hostRangeBad b n, .range)] .comparing
      [.setWork .addr x, .setWork .buf b, .setWork .rem n, .setWork .done 0, .verifyLoop] := by
  obtain ⟨written, e0, e1, e2⟩ := operands_written (i := .verify) rfl h0 h1 h2
  rw [FlashStart, startInstr, startVerify, startCommand_idle hi, written, e0, e1, e2]
  rfl

theorem flashStart_write :
    FlashStart s .write [(rangeBad s.params x n, .range), (hostRangeBad b n, .range)] .orchestrating
      [.setWork .addr x, .setWork .buf b, .setWork .rem n, .orchFirst] := by
  obtain ⟨written, e0, e1, e2⟩ := operands_written (i := .write) rfl h0 h1 h2
  rw [FlashStart, startInstr, startWriteCommand, startCommand_idle hi, written, e0, e1, e2]
  rfl

/-- `BLANK_CHECK` with a pattern that fits a byte makes no check before those of every flash-layer command. -/
theorem flashStart_blankCheck (hb : b.toNat < 256) :
    FlashStart s .blankCheck [(rangeBad s.params x n, .range)] .comparing
      [.setWork .addr x, .setWork .rem n, .blankLoop (b.extractLsb' 0 8)] := by
  obtain ⟨written, e0, e1, e2⟩ := operands_written (i := .blankCheck) rfl h0 h1 h2
  have pattern : badPattern b = false := by
    rw [← Bool.not_eq_true, badPattern_iff]; omega
  rw [FlashStart, startInstr, startBlankCheck, startCommand_idle hi, written, e0, e1, e2, pattern]
  rfl

end

/-- Settles O44: each command's start (`FlashStart.startsOr`), with the fault its own checks owe. -/
theorem flashCommandChecks : Obligations.FlashCommandChecks := by
  intro s hi
  refine ⟨(flashStart_init hi).startsOr hi, (flashStart_eraseChip hi).startsOr hi, (flashStart_mmap hi).startsOr hi,
    fun x h0 => ⟨?_, fun n b h1 h2 => ⟨?_, ?_, ?_, ?_, fun hb => ?_⟩⟩⟩
  · exact owed_erase s.params x ▸ (flashStart_eraseSector hi h0).startsOr hi
  · exact owed_program s.params x n b ▸ (flashStart_programPage hi h0 h1 h2).startsOr hi
  · exact owed_read s.params x n b ▸ (flashStart_read hi h0 h1 h2).startsOr hi
  · exact owed_buffer s.params x n b ▸ (flashStart_verify hi h0 h1 h2).startsOr hi
  · exact owed_buffer s.params x n b ▸ (flashStart_write hi h0 h1 h2).startsOr hi
  · exact owed_blank s.params x n ▸ (flashStart_blankCheck hi h0 h1 h2 hb).startsOr hi

end Sys2Proof.Laws
end

