-- ==== Sys2Proof/Proofs/FlashCompletions.lean ====
section
/-! `PROGRAM_PAGE`, `ERASE_SECTOR`, `ERASE_CHIP`, `READ` and `MMAP` on a ready reference device: what each has done at its
end (42_flash_operations.md R206 to R217, R227). -/

namespace Sys2Proof.Laws

open Sys2Proof.Machine

theorem canRun_idle {s : State} {d : RefDev} {k : Nat} (h : s.CanRun d k) : s.idle = true := by
  obtain ⟨-, idle, nothing, unfaulted, -⟩ := usable_iff.1 h.usable
  simp [State.idle, idle, nothing, State.faulted, unfaulted]

theorem canRun_unfaulted {s : State} {d : RefDev} {k : Nat} (h : s.CanRun d k) : s.fault = none := by
  obtain ⟨-, -, -, unfaulted, -⟩ := usable_iff.1 h.usable
  exact unfaulted

/-- The end of a command leaves the working registers as its last step did (42_flash_operations.md R191). -/
theorem sameWork_ended {i : Instr} {f : FsmStep} {s y : State} (h : (begun i f s).SameWork y) (st : Status) (c : Word) :
    s.SameWork (y.endCommand st c) :=
  ⟨h.wAddr, h.wBuf, h.wRem, h.wDone, h.wN⟩

/-! ### Commands that change the array -/

/-- A chip whose countdown is over shows the busy bit clear (20_memory.md R88, R90). -/
theorem status_notBusy {p : Params} {d : RefDev} (h : d.bc = 0) : d.status p &&& p.wipMask = 0 := by
  rw [RefDev.status, if_neg (by omega), BitVec.and_assoc, BitVec.and_comm (~~~p.wipMask), BitVec.and_not_self]
  exact BitVec.and_zero

/-- Settles O3: `programPage_ends`, and the bytes that the program leaves (`programmed_of_array`). -/
theorem programPageCompletes : Obligations.ProgramPageCompletes := by
  intro s d dest n src h hb hbudget h0 h1 h2 hn _ hsize hpage hsrc hadm
  obtain ⟨t, e, hx, m⟩ := programPage_ends h hb hbudget h0 h1 h2 hn hsize hpage hsrc hadm (by omega)
  exact ⟨t, e, hx, m.ended, m.buffers, m.work, m.env, m.ready, m.free, m.unlatched, status_notBusy m.free, m.fcfg,
    m.busyPolls, m.usable, programmed_of_array m.array (canRun_arrayWf h) hpage hsize, m.trace⟩

/-- Settles O4: `eraseSector_ends`, and the bytes that the erase leaves. -/
theorem eraseSectorCompletes : Obligations.EraseSectorCompletes := by
  intro s d addr h hb hbudget h0 ha
  obtain ⟨t, e, hx, m⟩ := eraseSector_ends h hb hbudget h0 ha (by omega)
  exact ⟨t, e, hx, m.ended, m.buffers, m.work, m.env, m.ready, m.free, m.unlatched, m.fcfg, m.busyPolls, m.usable,
    arrayByte_cellClear m.array, m.trace⟩

theorem eraseChip_ends {s : State} {d : RefDev} {k : Nat} (h : s.CanRun d k) (hb : d.bc = 0)
    (hbudget : budgetAllows s.params d.busyPolls = true) (hk : 72 + d.busyPolls ≤ k) :
    ∃ t e, exec .eraseChip s = .next t ∧ Mutated s t d e (cellClear fun o => decide (o < s.params.size))
      (entryOf .eWrite (plainHeader s.params.opc.ce) .indirectWrite 0 []) := by
  obtain ⟨t, e, hx, ended, buffers, work, env, ready, free, unlatched, fcfg, array, trace, usable, busyPolls⟩ :=
    mutate_ends (i := .tCe) (t := commandOnly (plainHeader s.params.opc.ce)) (bytes := []) h hb
      ((flashStart_eraseChip (canRun_idle h)).begins h rfl) hbudget
      (fun y e m hy hpar => by
        rw [← hpar]
        exact start_running hy m .tCe fun s => s.startWrite (commandOnly (plainHeader s.params.opc.ce)))
      (ok_plain _) rfl (fun _ hj => absurd hj (Nat.not_lt_zero _))
      (fun free e he hl => command_ce (canRun_params h) free 0 he [] hl) hk
  exact ⟨t, e, hx, ended, buffers, work, env, ready, free, unlatched, fcfg, busyPolls, array, trace, usable⟩

/-- Settles O5: `eraseChip_ends`, and the bytes that the erase leaves. -/
theorem eraseChipCompletes : Obligations.EraseChipCompletes := by
  intro s d h hb hbudget
  obtain ⟨t, e, hx, m⟩ := eraseChip_ends h hb hbudget (by omega)
  exact ⟨t, e, hx, m.ended, m.buffers, m.work, m.env, m.ready, m.free, m.unlatched, m.fcfg, arrayByte_cellClear m.array,
    m.trace⟩

/-! ### `READ` (R216) -/

/-- Settles O6: `read_ends`; the bytes are stored one after another (`cellRead_arrayBytes`). -/
theorem readCompletes : Obligations.ReadCompletes := by
  intro s d dest n buf h hb h0 h1 h2 hn hsize hbuf hadm
  obtain ⟨t, e, hx, f⟩ := read_ends h hb h0 h1 h2 hn hsize hbuf hadm (by omega)
  refine ⟨t, e, hx, f.ended, f.work, f.env, f.ready, f.chip, fun a => ?_, f.stg, f.cfgbuf, f.unmapped, f.trace⟩
  rw [State.memByte, f.hostMem]
  exact cellRead_arrayBytes (canRun_hostWf h) d dest.toNat n.toNat buf.toNat a

/-! ### `MMAP` (R227) -/

/-- `HSTAT` of a block between commands, mapped and not faulted (10_state.md R39). -/
theorem hstat_mapped {t : State} (idle : t.fsm = .idle) (unfaulted : t.fault = none) (mapped : t.mmapActive = true) :
    t.hstat = 2 := by
  simp [State.hstat, State.busy, State.faulted, idle, unfaulted, mapped, bit]

/-- Settles O9: the quad read's descriptor is handed to the engine (`runs_issue`), and `run_map` enters the mode. -/
theorem mmapCompletes : Obligations.MmapCompletes := by
  intro s d h
  have hok := ok_quadReadMap (canRun_params h)
  obtain ⟨-, -, -, unfaulted, -, -, noAbort, -⟩ := usable_iff.1 h.usable
  have live := canRun_live h .mmap (f := .mapEntering) (by decide)
  have issue := runs_issue live (i := .tQreadMmap) (D := .map (quadReadMap s.params)) (ops := mapOps (quadReadMap s.params))
    (l := [.finish .ok 0]) (start_running live _ .tQreadMmap fun s => s.startMap (quadReadMap s.params)) hok
  obtain ⟨y, run, entered, hostMem, stg, cfgbuf, mapped, -, -, env, cr, lptr, abr, ccr, -, -, trace⟩ :=
    run_map (m := quadReadMap s.params) (live.ready.latched (.map (quadReadMap s.params))) [.finish .ok 0]
  have kept := (kept_latched (.map (quadReadMap s.params)) _).trans entered
  have hburst : 1 + 12 + 1 ≤ s.burst := by have := h.steps; omega
  have tcen : y.regs.cr.getLsbD 3 = s.params.mmapTcen := by
    rw [cr]; exact (getLsbD_crAfter_tcen _ noAbort 3).trans (if_pos rfl)
  have done := ended kept.same unfaulted .ok 0
  exact ⟨_, _, exec_ends ((flashStart_mmap (canRun_idle h)).begins h rfl) (issue.trans run)
      (kept.calm live.ready.calm) hburst,
    done, sameWork_ended kept.work _ _, hostMem, stg, cfgbuf, mapped,
    hstat_mapped done.fsm done.fault mapped, env, rfl, rfl, lptr, tcen, abr, ccr, trace⟩

end Sys2Proof.Laws
end

