-- ==== Sys2Proof/Proofs/InitRuns.lean ====
section
/-! `INIT` on a ready reference device (42_flash_operations.md R200 to R203): the reset pair, the busy poll and the
configuration read (`run_initHead`), then the quad-enable part where the byte read asks for it. -/

namespace Sys2Proof.Laws

open Sys2Proof.Machine

/-! ### The parts of the quad-enable part (R200, R202) -/

/-- The trace entries of the write enable, with the latch poll or without. -/
def enableEntries (p : Params) : List TraceEntry :=
  if p.initWelPoll then wenEntries p else [entryOf .eWrite (plainHeader p.opc.wren) .indirectWrite 0 []]

/-- The trace entries of the final busy poll, if `INIT` makes one. -/
def settleEntries (p : Params) : List TraceEntry := if p.initCfgBusyPoll then [wipEntry p] else []

section
variable {x : State} {d : RefDev} (h : Live x d) (hb : d.bc = 0) (l : List Op)
include h hb

/-- The write enable: with the latch poll the protocol `WEN`, else its first transaction alone. -/
theorem run_enable : ∃ k y e, k ≤ 35 ∧
    Runs k (withTodo ((if x.params.initWelPoll then wenOps else [.issue .tWren]) ++ l) x) (withTodo l y) ∧ Live y e ∧
    Same x y ∧ x.SameWork y ∧ Rest x y ∧ e.chip = { d.chip with rsten := false, fsr := d.fsr ||| x.params.welMask } ∧
    y.trace = x.trace ++ enableEntries x.params := by
  unfold enableEntries
  cases x.params.initWelPoll with
  | true =>
    obtain ⟨k, y, e, hk, run, ly, same, work, rest, chip, -, -, trace⟩ := run_wen h hb l
    exact ⟨k, y, e, hk, run, ly, same, work, rest, chip, trace⟩
  | false =>
    obtain ⟨k, y, e, free, hk, run, ly, kept, rest, chip, trace⟩ := run_wren h l
    exact ⟨k, y, e, by omega, run, ly, kept.same, kept.work, rest,
      chip.trans (command_wren h.params free 0 (d := d.chip) hb []), trace⟩

/-- The final busy poll, or nothing. -/
theorem run_settle : ∃ k y e, k ≤ 20 ∧
    Runs k (withTodo ((if x.params.initCfgBusyPoll then busyWaitOps else []) ++ l) x) (withTodo l y) ∧ Live y e ∧
    Same x y ∧ x.SameWork y ∧ Rest x y ∧ e.chip = d.chip ∧ y.trace = x.trace ++ settleEntries x.params := by
  unfold settleEntries
  cases x.params.initCfgBusyPoll with
  | false => exact ⟨0, x, d, by omega, .refl _, h, .refl x, ⟨rfl, rfl, rfl, rfl, rfl⟩, .refl x, rfl, (List.append_nil _).symm⟩
  | true =>
    have polling := h.atStep (f := .busyPolling) (by decide)
    obtain ⟨k, y, e, hk, run, ly, kept, rest, chip, trace⟩ := run_pollWip polling l (by rw [hb]; exact budget_zero h.wf)
    refine ⟨1 + k, y, e, by omega, (runs_atStep h .busyPolling _).trans run, ly,
      (same_atStep _ x).trans kept.same, sameWork_trans (work_atStep _ x) kept.work, (rest_atStep _ x).trans rest, ?_, trace⟩
    rw [chip]; simp only [RefDev.chip, hb]

/-- The quad-enable part: the byte in `CFGBUF` is written back with the quad-enable bit set. -/
theorem run_quadEnable : ∃ k y e, k ≤ 77 ∧ Runs k (withTodo (quadEnableOps x.params ++ l) x) (withTodo l y) ∧ Live y e ∧
    Same x y ∧ x.SameWork y ∧ y.hostMem = x.hostMem ∧ y.stg = x.stg ∧ y.cfgbuf = x.cfgbuf ||| x.params.qeMask ∧
    e.chip = { d.chip with
      rsten := false, fcfg := x.cfgbuf ||| x.params.qeMask, fsr := (d.fsr ||| x.params.welMask) &&& ~~~x.params.welMask } ∧
    y.trace = x.trace ++ enableEntries x.params ++
      [entryOf .eWrite { plainHeader x.params.opc.wrvcr with dmode := .one } .indirectWrite 1 [x.cfgbuf ||| x.params.qeMask]] ++
      settleEntries x.params := by
  obtain ⟨k1, y1, e1, hk1, run1, live1, same1, work1, rest1, chip1, trace1⟩ := run_enable h hb
    (.setFsm .configWriting :: .issue .tWrvcr :: ((if x.params.initCfgBusyPoll then busyWaitOps else []) ++ l))
  have free1 : e1.bc = 0 := (congrArg RefDev.bc chip1).trans hb
  have latched1 : e1.latched y1.params = true := by
    rw [same1.params]
    exact (congrArg (RefDev.latched x.params) chip1).trans (latched_wren x.params h.wf d.chip false)
  obtain ⟨k2, y2, e2, hk2, run2, live2, kept2, hostMem2, stg2, cfgbuf2, -, chip2, trace2⟩ :=
    run_wrvcr (live1.atStep (f := .configWriting) (by decide))
      ((if x.params.initCfgBusyPoll then busyWaitOps else []) ++ l) free1 latched1
  have params2 : y2.params = x.params := kept2.params.trans same1.params
  obtain ⟨k3, y3, e3, hk3, run3, live3, same3, work3, rest3, chip3, trace3⟩ :=
    run_settle live2 ((congrArg RefDev.bc chip2).trans free1) l
  have written : (atStep .configWriting y1).cfgbuf ||| (atStep .configWriting y1).params.qeMask = x.cfgbuf ||| x.params.qeMask :=
    congrArg₂ (fun b p => b ||| Params.qeMask p) rest1.cfgbuf same1.params
  have params1 : (atStep .configWriting y1).params = x.params := same1.params
  have fsr1 : e1.fsr = d.fsr ||| x.params.welMask := congrArg RefDev.fsr chip1
  rw [params2] at run3 trace3
  rw [written] at cfgbuf2
  rw [written, params1, fsr1, chip1] at chip2
  rw [written, params1] at trace2
  refine ⟨k1 + (1 + (k2 + k3)), y3, e3, by omega, ?_, live3,
    same1.trans ((same_atStep _ y1).trans (kept2.same.trans same3)),
    sameWork_trans work1 (sameWork_trans (work_atStep _ y1) (sameWork_trans kept2.work work3)),
    rest3.hostMem.trans (hostMem2.trans rest1.hostMem), rest3.stg.trans (stg2.trans rest1.stg), rest3.cfgbuf.trans cfgbuf2,
    chip3.trans chip2, trace3.trans (congrArg (· ++ _) (trace2.trans (congrArg (· ++ _) trace1)))⟩
  have run := run1.trans ((runs_atStep live1 .configWriting _).trans (run2.trans run3))
  simpa [quadEnableOps] using run

end

/-! ### The whole command -/

/-- The latch bit set and cleared again, on a status byte in which it is clear. -/
theorem relatched (v wel wip : Byte) : ((v &&& ~~~(wel ||| wip)) ||| wel) &&& ~~~wel = v &&& ~~~(wel ||| wip) := by
  ext i hi
  simp only [BitVec.getElem_and, BitVec.getElem_or, BitVec.getElem_not]
  cases v[i] <;> cases wel[i] <;> cases wip[i] <;> rfl

/-- Settles O2: the byte that `run_initHead` reads has the bit, and `runs_qeCheck` ends the command. -/
theorem initSkipsQuadEnable : Obligations.InitSkipsQuadEnable := by
  intro s d h hb enabled
  obtain ⟨k, y, e, hk, run, ly, same, work, hostMem, stg, cfgbuf, unmapped, chip, trace⟩ :=
    run_initHead (canRun_live h .init (f := .resetIssued) (by decide)) hb []
  have bit_set : y.cfgbuf &&& y.params.qeMask ≠ 0 := by rw [cfgbuf, same.params]; exact enabled
  have check := runs_qeCheck ly.ready.calm []
  rw [if_pos bit_set] at check
  have hburst : k + 1 ≤ s.burst := by have := h.steps; omega
  exact ⟨_, e, exec_over ((flashStart_init (canRun_idle h)).begins h rfl) (run.trans check) hburst,
    ended same (canRun_unfaulted h) _ _, sameWork_ended work _ _, ly.ready.env,
    ly.ready.dev, (congrArg RefDev.fcfg chip :), (congrArg RefDev.fsr chip :), (congrArg RefDev.bc chip :),
    (congrArg RefDev.rsten chip :), (congrArg RefDev.array chip :), cfgbuf, hostMem, stg, unmapped, trace⟩

/-- Settles O1: the byte that `run_initHead` reads lacks the bit, and `run_quadEnable` writes it back with the bit. -/
theorem initSetsQuadEnable : Obligations.InitSetsQuadEnable := by
  intro s d h hb disabled
  obtain ⟨k, y, e, hk, run, ly, same, work, hostMem, stg, cfgbuf, -, chip, trace⟩ :=
    run_initHead (canRun_live h .init (f := .resetIssued) (by decide)) hb []
  have params : y.params = s.params := same.params
  have bit_clear : ¬y.cfgbuf &&& y.params.qeMask ≠ 0 := by rw [cfgbuf, params]; exact not_not_intro disabled
  have check := runs_qeCheck ly.ready.calm []
  rw [if_neg bit_clear] at check
  obtain ⟨k', z, e', hk', run', lz, same', work', hostMem', stg', cfgbuf', chip', trace'⟩ :=
    run_quadEnable (ly.atStep (f := .writeEnablePending) (by decide)) (congrArg RefDev.bc chip :) [.finish .ok 0]
  have all_work := sameWork_trans work (sameWork_trans (work_atStep .writeEnablePending y) work')
  have whole : (atStep .writeEnablePending y).cfgbuf ||| (atStep .writeEnablePending y).params.qeMask =
      d.fcfgReset ||| s.params.qeMask := congrArg₂ (fun b p => b ||| Params.qeMask p) cfgbuf params
  rw [whole] at cfgbuf' chip' trace'
  have hburst : k + (1 + k') + 1 ≤ s.burst := by have := h.steps; omega
  refine ⟨_, e', exec_ends ((flashStart_init (canRun_idle h)).begins h rfl) (run.trans (check.trans run')) lz.ready.calm hburst,
    ended (same.trans ((same_atStep _ y).trans same')) (canRun_unfaulted h) _ _,
    sameWork_ended all_work _ _, lz.ready.env, lz.ready.dev,
    (congrArg RefDev.fcfg chip' :), (congrArg RefDev.fsr chip').trans ?_,
    (congrArg RefDev.bc chip').trans (congrArg RefDev.bc chip :), (congrArg RefDev.rsten chip' :),
    (congrArg RefDev.array chip').trans (congrArg RefDev.array chip :), cfgbuf', hostMem'.trans hostMem, stg'.trans stg,
    lz.unmapped, ?_⟩
  · show (e.chip.fsr ||| y.params.welMask) &&& ~~~y.params.welMask = _
    rw [chip, params]
    exact relatched d.fsr s.params.welMask s.params.wipMask
  · refine trace'.trans ?_
    show y.trace ++ enableEntries y.params ++
      [entryOf .eWrite { plainHeader y.params.opc.wrvcr with dmode := .one } .indirectWrite 1 _] ++ settleEntries y.params = _
    rw [trace, params]
    rfl

end Sys2Proof.Laws
end

