-- ==== Sys2Proof/Proofs/ScanRuns.lean ====
section
/-! `VERIFY` and `BLANK_CHECK` on a ready reference device (42_flash_operations.md R220 to R225): their working registers are
set, and the chunk loop of both (`run_scan`) follows. A blank check right after an erase passes. -/

namespace Sys2Proof.Laws

open Sys2Proof.Machine

/-! ### Working registers set one after another -/

/-- The steps `W_x <- v`. -/
def setOps (settings : List (WorkReg × Word)) : List Op := settings.map fun e => .setWork e.1 e.2

/-- The state after them. -/
def withWork (settings : List (WorkReg × Word)) (x : State) : State := settings.foldl (fun y e => y.setWork e.1 e.2) x

/-- What setting working registers leaves of a running command. -/
structure OnlyWork (x y : State) (d : RefDev) : Prop where
  live : Live y d
  kept : LoopKept x y
  stg : y.stg = x.stg
  trace : y.trace = x.trace

theorem onlyWork_setWork {x : State} {d : RefDev} (h : Live x d) (r : WorkReg) (v : Word) :
    OnlyWork x (x.setWork r v) d := by
  cases r <;> exact ⟨⟨⟨h.ready.calm, h.ready.env, h.ready.dev, h.ready.en, h.ready.abort⟩, h.wf, h.unmapped, h.running⟩,
    ⟨⟨rfl, rfl, rfl, rfl, rfl, rfl, rfl, rfl, rfl⟩, rfl, rfl⟩, rfl, rfl⟩

theorem runs_setOps (settings : List (WorkReg × Word)) {x : State} {d : RefDev} (h : Live x d) (l : List Op) :
    Runs settings.length (withTodo (setOps settings ++ l) x) (withTodo l (withWork settings x)) ∧
      OnlyWork x (withWork settings x) d := by
  induction settings generalizing x with
  | nil => exact ⟨.refl _, h, ⟨.refl x, rfl, rfl⟩, rfl, rfl⟩
  | cons e rest ih =>
    have first := onlyWork_setWork h e.1 e.2
    obtain ⟨run, more⟩ := ih first.live
    refine ⟨?_, more.live, first.kept.trans more.kept, more.stg.trans first.stg, more.trace.trans first.trace⟩
    rw [List.length_cons, Nat.add_comm]
    exact (runs_setWork h.ready.calm e.1 e.2 _).trans run

/-! ### The two commands as one -/

/-- A property that fails somewhere below `n` fails somewhere first. -/
theorem exists_first_failure {P : Nat → Prop} [DecidablePred P] {n : Nat} (h : ¬∀ i, i < n → P i) :
    ∃ q, q < n ∧ (∀ i, i < q → P i) ∧ ¬P q := by
  push Not at h
  obtain ⟨hq, fails⟩ := Nat.find_spec h
  exact ⟨Nat.find h, hq, fun i hi => by_contra fun hc => Nat.find_min h hi ⟨hi.trans hq, hc⟩, fails⟩

/-- What a scan of `n` bytes has left in `t` of the state `s` and in `e` of the device `d`, when it ended with the status
`st` and the count `c`. -/
structure Scanned (s t : State) (d e : RefDev) (n : Word) (st : Status) (c : Word) : Prop where
  ended : s.Ended t st c
  env : t.env = .reference e
  ready : e.ready = true
  chip : e.chip = if n = 0 then d.chip else { d.chip with rsten := false }
  hostMem : t.hostMem = s.hostMem
  cfgbuf : t.cfgbuf = s.cfgbuf
  unmapped : t.mmapActive = false

/-- The count of a scan that ends `Ok`: `W_DONE` after the whole range for `VERIFY`, 0 for `BLANK_CHECK`. -/
def okCount (x : State) : Option Byte → Word
  | none => x.wDone + x.wRem
  | some _ => 0

/-- A command that sets its working registers and then scans the range `[wAddr, wAddr + wRem)` of the array, against the
host's bytes or a pattern. -/
theorem scan_ends {s x : State} {d : RefDev} {k : Nat} {i : Instr} {settings : List (WorkReg × Word)}
    {pattern : Option Byte} (h : s.CanRun d k) (hb : d.bc = 0)
    (start : startInstr i s = .next (withTodo (setOps settings ++ [scanOp pattern]) (begun i .comparing s)))
    (hx : x = withWork settings (begun i .comparing s)) (hsize : x.wAddr.toNat + x.wRem.toNat ≤ s.params.size)
    (hbuf : pattern = none → x.wRem.toNat ≠ 0 → x.wBuf.toNat + x.wRem.toNat ≤ 2 ^ 32)
    (hadm : ∀ j, j < x.wRem.toNat → refOk x pattern j = true)
    (hk : settings.length + (1 + 29 * x.wRem.toNat) ≤ k) :
    ∃ t e st c, exec i s = .next t ∧ Scanned s t d e x.wRem st c ∧
      ((∀ j, j < x.wRem.toNat → d.arrayByte (x.wAddr.toNat + j) = refByte x pattern j) →
        st = .ok ∧ c = okCount x pattern ∧
        t.trace = s.trace ++ chunkEntries s.params d x.wAddr.toNat x.wRem.toNat (chunkCount s.params x.wRem.toNat)) ∧
      ∀ q, q < x.wRem.toNat → (∀ j, j < q → d.arrayByte (x.wAddr.toNat + j) = refByte x pattern j) →
        d.arrayByte (x.wAddr.toNat + q) ≠ refByte x pattern q →
        st = .verifyMismatch ∧ c = mismatchCount x pattern (BitVec.ofNat 32 q) ∧
        t.trace = s.trace ++ chunkEntries s.params d x.wAddr.toNat x.wRem.toNat (q / s.params.page + 1) := by
  obtain ⟨set, only⟩ := runs_setOps settings (canRun_live h i (f := .comparing) (by decide)) [scanOp pattern]
  rw [← hx] at set only
  have params : x.params = s.params := only.kept.same.params
  obtain ⟨-, ⟨stgWf, -⟩, -⟩ := (memoryWf_iff s).1 h.memory
  obtain ⟨n, y, e, st, c, hn, scan, ly, kept, chip, matched, differs⟩ := run_scan pattern x.wRem.toNat only.live hb
    (by rw [only.stg]; exact stgWf) rfl (by rw [params]; exact hsize) hbuf hadm
  have trace : x.trace = s.trace := only.trace
  rw [params, trace] at matched
  simp only [params, trace] at differs
  have all := only.kept.trans kept
  have hburst : settings.length + n ≤ s.burst := by have := h.steps; omega
  have zero_iff : x.wRem.toNat = 0 ↔ x.wRem = 0 := by rw [← BitVec.toNat_inj]; rfl
  rw [if_congr zero_iff rfl rfl] at chip
  refine ⟨_, e, st, c, exec_over start (set.trans scan) hburst,
    ⟨ended all.same (canRun_unfaulted h) st c, ly.ready.env, ly.ready.dev, chip, all.hostMem, all.cfgbuf,
      ly.unmapped⟩, fun hall => ?_, differs⟩
  obtain ⟨ok, count, entries⟩ := matched hall
  refine ⟨ok, count.trans ?_, entries⟩
  cases pattern <;> rfl

/-! ### `VERIFY` (R222) -/

/-- Settles O7: `scan_ends` against the host's bytes. -/
theorem verifyCompletes : Obligations.VerifyCompletes := by
  intro s d dest n src h hb h0 h1 h2 hdest hsize hsrc hadm
  have passed : firstFault [(rangeBad s.params dest n, .range), (hostRangeBad src n, .range)] = none := by
    rw [owed_buffer, owedBuffer, if_neg (not_not_intro ⟨hdest, hsize⟩), if_neg (not_not_intro hsrc)]
  obtain ⟨t, e, st, c, hx, scanned, matched, differs⟩ := scan_ends (pattern := none)
    (settings := [(.addr, dest), (.buf, src), (.rem, n), (.done, 0)]) h hb
    ((flashStart_verify (canRun_idle h) h0 h1 h2).begins h passed) rfl hsize (fun _ _ => hsrc)
    (fun j hj => admits_of_admitsAll hadm hj) (show 4 + (1 + 29 * n.toNat) ≤ 6 + 30 * n.toNat by omega)
  refine ⟨t, e, hx, scanned.env, scanned.ready, scanned.chip, scanned.hostMem, scanned.cfgbuf, scanned.unmapped,
    fun hall => ?_, fun k hk hbelow hne => ?_⟩
  · obtain ⟨rfl, count, trace⟩ := matched hall
    have count : c = n := count.trans (BitVec.zero_add n)
    exact ⟨count ▸ scanned.ended, trace⟩
  · obtain ⟨rfl, count, trace⟩ := differs k hk hbelow hne
    have count : c = BitVec.ofNat 32 k := count.trans (BitVec.zero_add _)
    exact ⟨count ▸ scanned.ended, trace⟩

/-! ### `BLANK_CHECK` (R224) -/

/-- Settles O8: `scan_ends` against the pattern; the first byte that differs, if any, decides the status. -/
theorem blankCheckCompletes : Obligations.BlankCheckCompletes := by
  intro s d dest n pattern h hb h0 h1 h2 hpattern hdest hsize
  have passed : firstFault [(rangeBad s.params dest n, .range)] = none := by
    rw [owed_blank, owedBlank, if_neg (not_not_intro ⟨hdest, hsize⟩)]
  have low : pattern.extractLsb' 0 8 = pattern.setWidth 8 := (BitVec.setWidth_eq_extractLsb' (by decide)).symm
  have start := (flashStart_blankCheck (canRun_idle h) h0 h1 h2 hpattern).begins h passed
  rw [low] at start
  obtain ⟨t, e, st, c, hx, scanned, matched, differs⟩ := scan_ends (pattern := some (pattern.setWidth 8))
    (settings := [(.addr, dest), (.rem, n)]) h hb start rfl hsize (fun hp => by cases hp) (fun _ _ => rfl)
    (show 2 + (1 + 29 * n.toNat) ≤ 6 + 30 * n.toNat by omega)
  refine ⟨t, e, hx, scanned.env, scanned.ready, scanned.chip, scanned.hostMem, scanned.cfgbuf, scanned.unmapped, ?_,
    fun hall => ?_, fun k hk hbelow hne => ?_⟩
  · by_cases hall : ∀ i, i < n.toNat → d.arrayByte (dest.toNat + i) = pattern.setWidth 8
    · obtain ⟨rfl, rfl, -⟩ := matched hall
      rw [if_pos hall]
      exact scanned.ended
    · obtain ⟨q, hq, below, hne⟩ := exists_first_failure hall
      obtain ⟨rfl, rfl, -⟩ := differs q hq below hne
      rw [if_neg hall]
      exact scanned.ended
  · obtain ⟨-, -, trace⟩ := matched hall
    exact trace
  · obtain ⟨-, -, trace⟩ := differs k hk hbelow hne
    exact trace

/-! ### A blank check after an erase (R225) -/

/-- An offset between the ends of the sector of `a` is in that sector. -/
theorem sector_of_bounds {p : Params} {a o : Nat} (low : a / p.sector * p.sector ≤ o)
    (high : o < a / p.sector * p.sector + p.sector) : o / p.sector = a / p.sector :=
  Nat.div_eq_of_lt_le low (by rw [Nat.succ_mul]; exact high)

/-- A sector that starts inside the array ends inside it (00_scope.md R9). -/
theorem sector_end_le {p : Params} (hp : WfParams p) {a : Nat} (h : a < p.size) :
    a / p.sector * p.sector + p.sector ≤ p.size := by
  obtain ⟨q, hq⟩ := Nat.dvd_of_mod_eq_zero hp.sizeSector
  have : a / p.sector < q := Nat.div_lt_of_lt_mul (hq ▸ h)
  calc a / p.sector * p.sector + p.sector = (a / p.sector + 1) * p.sector := (Nat.succ_mul ..).symm
    _ ≤ q * p.sector := Nat.mul_le_mul_right _ this
    _ = p.size := by rw [hq, Nat.mul_comm]

/-- Settles O60: every byte of the sector is 0xFF after the erase (`arrayByte_erased`), so O8's range has no other. -/
theorem blankAfterErase : Obligations.BlankAfterErase := by
  intro s d addr dest n h hb hbudget haddr hdest low high
  have sector_end := sector_end_le (canRun_params h) haddr
  obtain ⟨t1, e1, x1, erased⟩ := eraseSector_ends (canRun_port h { s.port with arg0 := some addr }) hb hbudget rfl haddr
    (by omega)
  have params1 : t1.params = s.params := erased.ended.params
  have h1 := canRun_port (erased.canRun (canRun_port h _) x1)
    { t1.port with arg0 := some dest, arg1 := some n, arg2 := some 0xFF }
  obtain ⟨t2, e2, x2, -, -, -, -, -, -, done, -⟩ := blankCheckCompletes _ e1 dest n 0xFF
    { h1 with steps := le_trans (by omega) h1.steps } erased.free rfl rfl rfl (by decide) (by rw [params1]; exact hdest)
    (by rw [params1]; omega)
  have blank (i : Nat) (hi : i < n.toNat) : e1.arrayByte (dest.toNat + i) = 0xFF :=
    arrayByte_erased (p := s.params) erased.array (sector_of_bounds (by omega) (by omega))
  exact ⟨t1, t2, x1, ended_resst erased.ended, x2, (ended_resst done).trans (congrArg some (if_pos blank))⟩

end Sys2Proof.Laws
end

