-- ==== Sys2Proof/Proofs/WriteRuns.lean ====
section
/-! `WRITE` (43_write_orchestrator.md R230 to R233): its working registers are set, and the page calls follow. On a ready
reference device they program the whole range (`run_orchFirst`); under `literal` the one call for a range of at most a page
that crosses a page boundary faults. -/

namespace Sys2Proof.Laws

open Sys2Proof.Machine

/-! ### The start -/

/-- The checks of every flash-layer command pass on a block whose engine is on (42_flash_operations.md R193). -/
theorem engineChecks_pass {s : State} (enabled : crEn s.regs.cr = true) (unmapped : s.mmapActive = false)
    (own : List (Bool × FaultReason)) : firstFault (s.engineChecks ++ own) = firstFault own := by
  simp [owed_engine, State.owedFlash, enabled, unmapped]

/-- What `WRITE` sets its working registers to (R230). -/
def writeSettings (dest n src : Word) : List (WorkReg × Word) := [(.addr, dest), (.buf, src), (.rem, n)]

/-- The state of a `WRITE` in front of its first choice of `W_N`, its steps left out. -/
def writeSet (dest n src : Word) (s : State) : State :=
  withWork (writeSettings dest n src) (begun .write .orchestrating s)

theorem write_begins {s : State} {dest n src : Word} (usable : s.usable = true) (h0 : s.port.arg0 = some dest)
    (h1 : s.port.arg1 = some n) (h2 : s.port.arg2 = some src) (flash : inFlash s.params dest n) (host : inHost src n) :
    startInstr .write s =
      .next (withTodo (setOps (writeSettings dest n src) ++ [.orchFirst]) (begun .write .orchestrating s)) := by
  obtain ⟨-, idle, nothing, unfaulted, enabled, unmapped, -, -⟩ := usable_iff.1 usable
  have takes : s.idle = true := by simp [State.idle, idle, nothing, State.faulted, unfaulted]
  have passed : firstFault [(rangeBad s.params dest n, .range), (hostRangeBad src n, .range)] = none := by
    rw [owed_buffer, owedBuffer, if_neg (not_not_intro flash), if_neg (not_not_intro host)]
  have start := flashStart_write takes h0 h1 h2
  rw [FlashStart, startFlash_ok ((engineChecks_pass enabled unmapped _).trans passed), begin_eq] at start
  exact start

/-! ### The whole range -/

/-- Settles O10: the working registers are set (`runs_setOps`), and `run_orchFirst` programs the range page by page. -/
theorem writeCompletes : Obligations.WriteCompletes := by
  intro s d dest n src h hb hbudget hrule h0 h1 h2 hdest hsize hsrc hadm
  have budget : budgetSpent s.params d.busyPolls = false := by simpa [budgetAllows] using hbudget
  obtain ⟨set, only⟩ := runs_setOps (writeSettings dest n src)
    (canRun_live h .write (f := .orchestrating) (by decide)) [.orchFirst]
  obtain ⟨k, y, e, hk, run, w⟩ := run_orchFirst (x := writeSet dest n src s) only.live hb (canRun_arrayWf h) budget hrule
    hsize hsrc (fun j hj => admits_of_admitsAll hadm hj)
  have hburst : 3 + k ≤ s.burst := by
    have hk : k ≤ 1 + n.toNat * (82 + d.busyPolls) := hk
    have := h.steps
    omega
  have nonzero (hn : n ≠ 0) : n.toNat ≠ 0 := fun h0 => hn (BitVec.eq_of_toNat_eq h0)
  exact ⟨_, e, exec_over (write_begins h.usable h0 h1 h2 ⟨hdest, hsize⟩ hsrc) (set.trans run) hburst,
    ended (only.kept.same.trans w.kept.same) (canRun_unfaulted h) _ _,
    ⟨w.kept.rest.hostMem, w.kept.rest.stg, w.kept.rest.cfgbuf, w.kept.rest.mmapActive⟩, w.live.ready.env,
    w.live.ready.dev, w.bc, w.fcfg, fun hn => w.latched (.inl (nonzero hn)), w.trace, w.array⟩

/-! ### The call that crosses a page boundary (R232, R233) -/

theorem Calm.setWork {x : State} (h : Calm x) (r : WorkReg) (v : Word) : Calm (x.setWork r v) := by
  cases r <;> exact h

/-- Under `literal` a range of at most a page is passed whole to one page call, from its first byte on. -/
theorem orchFirst_literal {x : State} (rule : x.params.orchRule = .literal) (some_left : x.wRem ≠ 0)
    (at_most_page : x.wRem.toNat ≤ x.params.page) :
    ∃ l, x.orchFirst = withTodo (.callPage :: l) (x.setWork .n x.wRem) := by
  have not_split (off : Nat) : firstCond x.params x.wRem.toNat off = false := by
    simpa [firstCond, rule] using at_most_page
  simp only [State.orchFirst, not_split, Bool.and_false, Bool.false_eq_true, if_false, State.orchLoop]
  by_cases full : x.params.page ≤ x.wRem.toNat
  · have whole_page : BitVec.ofNat 32 x.params.page = x.wRem := by
      rw [Nat.le_antisymm full at_most_page, BitVec.ofNat_toNat, BitVec.setWidth_eq]
    rw [if_pos full, whole_page]
    exact ⟨orchTail, rfl⟩
  · rw [if_neg full, if_neg some_left]
    exact ⟨[.finish .ok 0], rfl⟩

/-- A page call over a range inside the flash and the host's memory that crosses a page boundary (42_flash_operations.md
R196). -/
theorem callPage_crossing {x : State} (enabled : crEn x.regs.cr = true) (unmapped : x.mmapActive = false)
    (some_left : x.wN ≠ 0) (at_most_page : x.wN.toNat ≤ x.params.page) (flash : inFlash x.params x.wAddr x.wN)
    (host : inHost x.wBuf x.wN) (crosses : x.params.page < x.wAddr.toNat % x.params.page + x.wN.toNat) :
    x.callPage = x.raiseFault .pageCross := by
  have nonzero : x.wN.toNat ≠ 0 := fun h => some_left (BitVec.eq_of_toNat_eq h)
  have owed : firstFault (x.programChecks x.wAddr x.wN x.wBuf) = some .pageCross := by
    rw [State.programChecks, engineChecks_pass enabled unmapped, owed_program, owedProgram, if_neg (by omega),
      if_neg (not_not_intro flash), if_neg (not_not_intro host), if_pos crosses]
  simp only [State.callPage, owed]

/-- The two steps of the orchestrator on such a range, under any environment. -/
theorem run_orchFirst_crossing {x : State} (calm : Calm x) (enabled : crEn x.regs.cr = true)
    (unmapped : x.mmapActive = false) (rule : x.params.orchRule = .literal) (some_left : x.wRem ≠ 0)
    (at_most_page : x.wRem.toNat ≤ x.params.page) (flash : inFlash x.params x.wAddr x.wRem) (host : inHost x.wBuf x.wRem)
    (crosses : x.params.page < x.wAddr.toNat % x.params.page + x.wRem.toNat) :
    Runs 2 (withTodo [.orchFirst] x) ((x.setWork .n x.wRem).raiseFault .pageCross) := by
  obtain ⟨l, whole⟩ := orchFirst_literal (x := withTodo [] x) rule some_left at_most_page
  have choose : Runs 1 (withTodo [.orchFirst] x) (withTodo (.callPage :: l) (x.setWork .n x.wRem)) :=
    Runs.op rfl calm.1 calm.2 (congrArg Host.Outcome.next whole)
  have fails : Runs 1 (withTodo (.callPage :: l) (x.setWork .n x.wRem)) ((x.setWork .n x.wRem).raiseFault .pageCross) :=
    Runs.op rfl calm.1 calm.2 (congrArg Host.Outcome.next
      (callPage_crossing (x := withTodo l (x.setWork .n x.wRem)) enabled unmapped some_left at_most_page flash host crosses))
  exact choose.trans fails

/-- Settles O47: three steps set the working registers, and the one page call faults (`run_orchFirst_crossing`). -/
theorem literalWriteFaults : Obligations.LiteralWriteFaults := by
  intro s dest n src wf idle engineOn waits hburst rule h0 h1 h2 flash host past_page at_most_page
  have usable : s.usable = true := by simp [State.usable, wf, idle, engineOn, waits]
  obtain ⟨-, -, -, unfaulted, enabled, unmapped, -, -⟩ := usable_iff.1 usable
  have calm : Calm (begun .write .orchestrating s) := ⟨waits, unfaulted⟩
  have some_left : n ≠ 0 := by rintro rfl; simp at past_page
  have set : Runs 3 (withTodo (setOps (writeSettings dest n src) ++ [.orchFirst]) (begun .write .orchestrating s))
      (withTodo [.orchFirst] (writeSet dest n src s)) :=
    (runs_setWork calm .addr dest _).trans <| (runs_setWork (calm.setWork .addr dest) .buf src _).trans <|
      runs_setWork ((calm.setWork .addr dest).setWork .buf src) .rem n _
  have fails := run_orchFirst_crossing (x := writeSet dest n src s) calm enabled unmapped rule some_left at_most_page flash
    host (show s.params.page < dest.toNat % s.params.page + n.toNat by omega)
  rw [exec_eq, write_begins usable h0 h1 h2 flash host, thenRun_of_next]
  exact ⟨_, congrArg _ ((set.trans fails).ends rfl hburst), rfl, rfl, rfl, rfl, rfl, rfl, rfl⟩

end Sys2Proof.Laws
end

