-- ==== Sys2Proof/Proofs/FaultedBlock.lean ====
section
/-! A block whose `FAULT` is set (10_state.md R32, 60_exceptions.md R248): it runs no instruction, and of the host's actions
only a read of the port has a step. -/

namespace Sys2Proof.Laws

open Sys2Proof.Machine

/-! ### Instructions -/

/-- Every start, a host command's (`State.startCommand`) and a transaction's (`State.startTx`), looks at `FAULT` first. -/
theorem startInstr_faulted {s : State} (hf : s.fault ≠ none) (i : Instr) : startInstr i s = .fault .blockFaulted := by
  have faulted := (faulted_iff s).2 hf
  cases i <;> exact if_pos faulted

theorem exec_faulted {s : State} (hf : s.fault ≠ none) (i : Instr) : exec i s = .fault .blockFaulted := by
  rw [exec_eq, startInstr_faulted hf, thenRun_fault]

/-! ### Host actions -/

/-- A host action is a read of the port, or it looks at `FAULT` first. -/
theorem hostAction_faulted {s : State} (hf : s.fault ≠ none) (a : HostAction) :
    (∃ off, a = .portRead off) ∨ hostAction a s = .fault .blockFaulted := by
  have faulted := (faulted_iff s).2 hf
  cases a with
  | portRead off => exact .inl ⟨off, rfl⟩
  | portWrite off v => exact .inr (if_pos faulted)
  | windowLoad a w => exact .inr (if_pos faulted)
  | windowStore a w v => exact .inr (if_pos faulted)
  | memWrite a b => exact .inr (if_pos faulted)

theorem readValue_cases (s : State) (v : Option Word) :
    (∃ d, s.readValue v = { s with hostData := d }) ∨ ∃ f, s.readValue v = s.raiseFault f := by
  cases v with
  | none => exact .inr ⟨.unwritten, rfl⟩
  | some w => exact .inl ⟨some w, rfl⟩

/-- A read of the port answers the host or faults, and does nothing else (10_state.md R26). -/
theorem portRead_cases {s t : State} {off : Word} (h : portRead off s = .next t) :
    (∃ d, t = { s with hostData := d }) ∨ ∃ f, t = s.raiseFault f := by
  unfold portRead at h
  split at h <;> cases h
  · exact .inl ⟨none, rfl⟩
  · exact readValue_cases s _
  · exact readValue_cases s _
  · exact readValue_cases s _
  · exact readValue_cases s _
  · exact .inr ⟨.illegalCommand, rfl⟩

/-! ### Steps -/

/-- A step of a faulted block is a read of the port by the host. -/
theorem step_faulted {s t : State} (hp : s.params.wf = true) (hf : s.fault ≠ none) (h : step s = .next t) :
    ∃ off l, portRead off { s with hostIn := l } = .next t := by
  cases hd : hostDue s with
  | false =>
    simp only [step, hp, if_true, agentStep, hd, (faulted_iff s).2 hf, Bool.false_eq_true, if_false] at h
    cases h
  | true =>
    cases hi : s.hostIn with
    | nil => rw [hostDue, hi] at hd; cases hd
    | cons e l =>
      rw [step_host hp hd hi] at h
      rcases hostAction_faulted (s := { s with hostIn := l }) hf e.act with ⟨off, ha⟩ | stops
      · rw [ha] at h; exact ⟨off, l, h⟩
      · rw [stops] at h; cases h

/-- On a faulted block of the invariant a fault writes the reason alone (log 8): the FSM is Faulted already and no step is
left. -/
theorem raiseFault_of_inv {s : State} (hs : s.Inv) (hf : s.fault ≠ none) (f : FaultReason) :
    s.raiseFault f = { s with fault := some f } := by
  have fsm : s.fsm = .faulted := by simpa [(faulted_iff s).2 hf] using hs.faulted
  have todo : s.todo = [] := by
    by_contra left
    exact hf (inv_busy hs left).2
  rw [State.raiseFault, ← fsm, ← todo]

/-- Settles O39: `exec_faulted`, `hostAction_faulted`, the bits of `HSTAT`, and what a step can be (`step_faulted`). -/
theorem faultedBlock : Obligations.FaultedBlock := by
  refine ⟨fun s i hf => exec_faulted hf i, fun s off v o w a b hf => ?_, fun s hf fsm => ⟨s.hstat, rfl, ?_, ?_⟩,
    fun s t hs hf h => ?_⟩
  · have stops (a : HostAction) (ha : ∀ off, a ≠ .portRead off) : hostAction a s = .fault .blockFaulted :=
      (hostAction_faulted hf a).resolve_left fun ⟨off, read⟩ => ha off read
    exact ⟨stops _ nofun, stops _ nofun, stops _ nofun, stops _ nofun⟩
  · rw [getLsbD_hstat]; simp [State.busy, fsm]
  · rw [getLsbD_hstat]; simp [(faulted_iff s).2 hf]
  · obtain ⟨off, l, hr⟩ := step_faulted hs.params hf h
    rcases portRead_cases hr with ⟨d, rfl⟩ | ⟨f, rfl⟩
    · exact ⟨hf, rfl⟩
    · rw [raiseFault_of_inv (inv_hostIn hs l) hf]
      exact ⟨nofun, rfl⟩

end Sys2Proof.Laws
end

