-- ==== Sys2Proof/Proofs/EndlessWait.lean ====
section
/-! The idle wait while an auto-poll without auto-stop runs (60_exceptions.md R250, 70_reset_and_hazards.md R281): the device
shows BUSY at every sample, so without a wait budget the loop never ends. -/

namespace Sys2Proof.Laws

open Sys2Proof.Machine

/-- The device polls on: no auto-stop ends the auto-poll, and no sample shows an error flag. -/
structure PollsOn (d : RefDev) : Prop where
  quiet : d.quiet = true
  tef : d.tef = false
  tof : d.tof = false
  cur : ∃ pmm n, d.cur = .poll false pmm n

/-- An evaluation without auto-stop leaves the poll running, whether or not it matches (20_memory.md R90). -/
theorem PollsOn.evaluate {d : RefDev} (h : PollsOn d) (p : Params) (r : Regs) (pmm : Bool) (n : Nat) :
    PollsOn (d.evaluate p r false pmm n) := by
  unfold RefDev.evaluate
  split <;> exact ⟨h.quiet, h.tef, h.tof, h.cur⟩

theorem PollsOn.counted {d : RefDev} (h : PollsOn d) : PollsOn (counted d) :=
  ⟨quiet_counted h.quiet, h.tef, h.tof, h.cur⟩

/-- A sample shows the device as the sample leaves it, and that polls on (R85). -/
theorem PollsOn.sample {d : RefDev} (h : PollsOn d) (p : Params) (r : Regs) :
    ∃ e, d.sample p r = (e.sr, e) ∧ PollsOn e := by
  obtain ⟨pmm, n, hc⟩ := h.cur
  exact ⟨_, sample_poll h.quiet hc, h.counted.evaluate p r pmm n⟩

/-- What such a device shows: BUSY, and no error flag. -/
theorem PollsOn.sr {d : RefDev} (h : PollsOn d) : sampleError d.sr = none ∧ srBusy d.sr = true := by
  obtain ⟨pmm, n, hc⟩ := h.cur
  exact ⟨sampleError_none (by simp [RefDev.sr, h.tef]) (by simp [RefDev.sr, h.tof]), by simp [RefDev.sr, RefDev.busy, hc]⟩

theorem PollsOn.readSr {x : State} {d : RefDev} (he : x.env = .reference d) (h : PollsOn d) :
    ∃ e, x.readSr.1 = e.sr ∧ (sampled x).env = .reference e ∧ PollsOn e := by
  obtain ⟨e, hs, polls⟩ := h.sample x.params x.regs
  exact ⟨e, by simp only [State.readSr, he, hs], by simp only [sampled, State.readSr, he, hs], polls⟩

/-- One more sample of the idle wait: it goes on. -/
theorem runs_idleWait_once {x : State} {d : RefDev} (calm : Calm x) (budget : x.params.waitBudget = none)
    (he : x.env = .reference d) (h : PollsOn d) (k : Nat) (l : List Op) :
    Runs 1 (withTodo (.wait .busyClear k :: l) x) (withTodo (.wait .busyClear (k + 1) :: l) (sampled x)) := by
  obtain ⟨e, shown, -, polls⟩ := h.readSr he
  obtain ⟨noError, busy⟩ := polls.sr
  rw [← shown] at noError busy
  exact runs_wait_again calm noError (by simp [WaitCond.holds, busy]) (by simp [budgetSpent, budget]) l

/-- After `n` steps the idle wait has sampled `n` times more and nothing else has happened. -/
theorem runs_idleWait (n : Nat) {x : State} {d : RefDev} (calm : Calm x) (budget : x.params.waitBudget = none)
    (he : x.env = .reference d) (h : PollsOn d) (k : Nat) (l : List Op) :
    ∃ y, Runs n (withTodo (.wait .busyClear k :: l) x) (withTodo (.wait .busyClear (k + n) :: l) y) ∧ Kept x y ∧
      y.trace = x.trace := by
  induction n generalizing x d k with
  | zero => exact ⟨x, Runs.refl _, Kept.refl x, rfl⟩
  | succ n ih =>
    obtain ⟨e, -, env, polls⟩ := h.readSr he
    have kept := kept_sampled x
    obtain ⟨y, run, kept', trace⟩ := ih (kept.calm calm) (by rw [kept.params, budget]) env polls (k + 1)
    refine ⟨y, ?_, kept.trans kept', trace.trans (readSr_trace x)⟩
    rw [Nat.add_comm n 1, ← Nat.add_assoc]
    exact (runs_idleWait_once calm budget he h k l).trans run

/-- Settles O50, by induction on the sequencer steps (`runs_idleWait`). -/
theorem idleWaitHangs : Obligations.IdleWaitHangs := by
  intro s d pmm sample k n l hf hw hb budget he hq h1 h2 hc hl
  obtain ⟨y, run, kept, trace⟩ := runs_idleWait n ⟨hw, hf⟩ budget he ⟨hq, h1, h2, pmm, sample, hc⟩ k l
  have waiting : withTodo (.wait .busyClear k :: l) s = s := by rw [← hl]; rfl
  have after_n : runSeq n s = withTodo (.wait .busyClear (k + n) :: l) y := by
    simpa only [waiting, Nat.add_zero, runSeq] using run 0
  rw [after_n]
  exact ⟨rfl, by simpa [State.busy, withTodo, kept.fsm] using hb, trace⟩

end Sys2Proof.Laws
end

