-- ==== Sys2Proof/Proofs/LaunchState.lean ====
section
/-! The launch state (70_reset_and_hazards.md R270 to R272): its values, the port nothing has written, the wait for the host,
and the invariant that every step keeps from there. -/

namespace Sys2Proof.Laws

open Sys2Proof.Machine

/-- Until the host or a command has written a register, a read of it is `Unwritten` (10_state.md R36 to R38); the offsets
are those of `ARG0` to `ARG5`, `RESST` and `RESCNT` (R34). -/
theorem portRead_unwritten {s : State} (hf : s.fault = none) (args : ∀ k, s.port.arg k = none)
    (resst : s.port.resst = none) (rescnt : s.port.rescnt = none) {off : Word}
    (ho : off ∈ [(0x04 : Word), 0x08, 0x0C, 0x10, 0x14, 0x18, 0x1C, 0x20]) :
    hostAction (.portRead off) s = .next (s.raiseFault .unwritten) := by
  obtain ⟨-, readArg, readResult, -, -⟩ := portRegisters
  obtain ⟨-, readResst, -, readRescnt⟩ := readResult s
  have unwrittenArg (k : Fin 6) := (readArg s k).2 hf (args k)
  simp only [List.mem_cons, List.not_mem_nil, or_false] at ho
  rcases ho with rfl | rfl | rfl | rfl | rfl | rfl | rfl | rfl
  · exact unwrittenArg 0
  · exact unwrittenArg 1
  · exact unwrittenArg 2
  · exact unwrittenArg 3
  · exact unwrittenArg 4
  · exact unwrittenArg 5
  · exact readResst hf resst
  · exact readRescnt hf rescnt

/-- With no host action pending and no step left to do, an unfaulted block waits (R272, log 4). -/
theorem step_waits {s : State} (hp : s.params.wf = true) (hf : s.fault = none) (hi : s.hostIn = []) (hl : s.todo = []) :
    step s = .next s := by
  have notDue : hostDue s = false := by rw [hostDue, hi]
  simp only [step, hp, if_true, agentStep, notDue, not_faulted hf, hl, Bool.false_eq_true, if_false]

/-- The parameters at launch pass the checks of 00_scope.md R9. -/
theorem params_wf_reset : State.reset.params.wf = true := by decide

/-- No operand register is written at launch (R270). -/
theorem arg_reset (k : Fin 6) : State.reset.port.arg k = none := by
  revert k; decide

/-- The must-be-zero bits of `CR` are 0 at launch (R271, 10_state.md R42). -/
theorem crMustBeZero_reset : State.reset.regs.cr &&& crMustBeZero = 0 := by decide

/-- Settles O36: the values of `State.reset`, then what follows from them on any state: `portRead_unwritten` for the reads
and `step_waits` for the step. -/
theorem resetLaunch : Obligations.ResetLaunch := by
  have enabled : crEn State.reset.regs.cr = true := by decide
  have noAbort : crAbort State.reset.regs.cr = false := by decide
  have srQuiet : State.reset.regs.sr &&& 0x3B = 0 := by decide
  have hstat : State.reset.hstat = 0 := by decide
  exact ⟨rfl, rfl, rfl, rfl, rfl, rfl, arg_reset, rfl, rfl, hstat, enabled, noAbort, crMustBeZero_reset, srQuiet,
    fun _ ho => portRead_unwritten rfl arg_reset rfl rfl ho, step_waits params_wf_reset rfl rfl rfl⟩

/-- Settles O37, clause by clause of the invariant: nothing is written, nothing is left to do, and the registers are as the
configuration layer leaves them. -/
theorem resetInvariant : Obligations.ResetInvariant where
  params := params_wf_reset
  memory := memoryWf_reset
  faulted := rfl
  busy := rfl
  between := fun _ => ⟨rfl, rfl⟩
  results := rfl
  cr := ⟨crMustBeZero_reset, by decide⟩
  reserved := by decide
  lawful := rfl
  closing := .inl rfl

end Sys2Proof.Laws
end
